-- ==== Sys2Proof/Word.lean ====
section
/-! DEFINITION. The widths of the machine's words: 32-bit bus words and registers, bytes, 9-bit arena
references, 22-bit host addresses (spec 00_scope.md R7, R13; 10_state.md; 20_memory.md R60). -/

namespace Sys2Proof

/-- A 32-bit register, bus word or command word (R7 BUS_DATA_BITS). -/
abbrev Word := BitVec 32

/-- A byte of a buffer; also a symbol of the alphabet (R7 ALPHABET, R12 Symbol). -/
abbrev Byte := BitVec 8

/-- A 9-bit arena node reference (R13 ref). -/
abbrev Ref := BitVec 9

/-- A 22-bit byte address of the host's address space (R7 BUS_ADDR_BITS, R60). -/
abbrev Addr := BitVec 22

/-- A bit string, its first bit first (R9, R11). -/
abbrev Bits := List Bool

end Sys2Proof
end

