-- ==== Sys2Proof/Config.lean ====
section
/-! DEFINITION. What an implementation fixes: the fixed parameters of R7, the two open parameters of R8, and
the free values the spec leaves open (U1 to U4). -/

namespace Sys2Proof

/-- PQ_CAP (R7): the capacity of the priority queue. -/
def Config.pqCap : Nat := 256

/-- The value of the ID register (R20). -/
def Config.id : Word := 0x48554646#32

/-- The value of the VERSION register (R21). -/
def Config.version : Word := 0x00010000#32

/-- The two open parameters of the hardware (R8): the sizes in bytes of the IN and OUT buffers. -/
structure Params where
  inSize : Nat
  outSize : Nat
deriving DecidableEq, Repr

/-- The reference configuration (R8), which State.reset uses: DESIGN CHOICE, log 3. -/
def Params.reference : Params := { inSize := 0x10000, outSize := 0x10000 }

/-- A free word for the k-th draw: what a host read returns where R68 (U2) or R43 (U3) leaves it unspecified.
No body: nothing is known of it (log 6). -/
opaque Config.freeWord : Nat → Word

/-- A free byte for the k-th draw: an OUT byte left unspecified by a failed PACK or UNPACK (R252, U4), or an
unwritten byte of a partly written window word (U1, log 5). No body (log 6). -/
opaque Config.freeByte : Nat → Byte

end Sys2Proof
end

