-- ==== Sys2Proof/Syntax.lean ====
section
/-! DEFINITION. The command set: one constructor per row of spec/opcode_table.json (spec 30_encoding.md R83). -/

namespace Sys2Proof

/-- A command of the block. The three opcodes that define F0 (R82) carry it; no command has another operand
field (R85). -/
inductive Instr where
  | nop                    -- R102
  | clear                  -- R103
  | freqClr                -- R130
  | freqCnt                -- R131
  | pqClr                  -- R110
  | pqIns                  -- R111
  | pqExt                  -- R112
  | build                  -- R133
  | codeClr                -- R150
  | codegen                -- R151
  | number                 -- R165
  | ser                    -- R167
  | deser (postorder : Bool)   -- R185: false general (DESER.G), true postorder (DESER.P)
  | pack (sized : Bool)        -- R210: true PACK.S
  | unpack (sized : Bool)      -- R225: true UNPACK.S
deriving DecidableEq, Repr

end Sys2Proof
end

