-- ==== Sys2Proof/WellFormed.lean ====
section
/-! DEFINITION. What is well formed: a command word (R81: legal, in three checks), an instruction, and the
parameters of the hardware (R8). -/

namespace Sys2Proof

/-- OP, bits [7:0] of a command word (R80). -/
def Cmd.op (c : Word) : Byte := c.extractLsb' 0 8

/-- F0, bit [8] (R80). -/
def Cmd.f0 (c : Word) : Bool := c.getLsbD 8

/-- RSV1, bits [15:9] (R80). -/
def Cmd.rsv1 (c : Word) : BitVec 7 := c.extractLsb' 9 7

/-- RSV2, bits [31:16] (R80). -/
def Cmd.rsv2 (c : Word) : BitVec 16 := c.extractLsb' 16 16

/-- The OP values of the opcode map (R83). -/
def Cmd.listedOps : List Byte :=
  [0x00, 0x01, 0x10, 0x11, 0x20, 0x21, 0x22, 0x30, 0x38, 0x39, 0x40, 0x41, 0x48, 0x50, 0x58]

/-- The opcodes that define F0 (R82): DESER, PACK, UNPACK. -/
def Cmd.flaggedOps : List Byte := [0x48, 0x50, 0x58]

/-- R81 (a). -/
def Cmd.opListed (c : Word) : Bool := Cmd.listedOps.contains (Cmd.op c)

/-- R81 (b). -/
def Cmd.reservedZero (c : Word) : Bool := Cmd.rsv1 c == 0 && Cmd.rsv2 c == 0

/-- R81 (c). -/
def Cmd.f0Allowed (c : Word) : Bool := !Cmd.f0 c || Cmd.flaggedOps.contains (Cmd.op c)

/-- A legal command word (R81). -/
def Cmd.legal (c : Word) : Bool := Cmd.opListed c && Cmd.reservedZero c && Cmd.f0Allowed c

/-- Every term of Instr is well formed: the only field a command carries is the one bit F0, and R82 gives both
values of it a meaning, so Instr holds no ill-formed term. -/
def Instr.wf : Instr → Bool
  | .nop | .clear | .freqClr | .freqCnt | .pqClr | .pqIns | .pqExt | .build
  | .codeClr | .codegen | .number | .ser | .deser _ | .pack _ | .unpack _ => true

/-- The parameters R8 allows. -/
def Params.legal (p : Params) : Bool :=
  p.inSize % 4 == 0 && decide (4 ≤ p.inSize) && decide (p.inSize ≤ 0x100000) &&
  p.outSize % 4 == 0 && decide (4 ≤ p.outSize) && decide (p.outSize ≤ 0x200000)

end Sys2Proof
end

