-- ==== Sys2Proof/Decode.lean ====
section
/-! DEFINITION. The decoder, total on every 32-bit word and rejecting by name, and the encoder (spec
30_encoding.md R80 to R84, R87). -/

namespace Sys2Proof

/-- Why a command word is not legal (R81): each way completes with IllegalCommand. -/
inductive DecodeError where
  | unlistedOp       -- R81 (a)
  | reservedBits     -- R81 (b)
  | f0NotDefined     -- R81 (c)
deriving DecidableEq, Repr

/-- An opcode that does not define F0 accepts F0 = 0 only (R81 (c)). -/
def decodePlain (i : Instr) (f0 : Bool) : Except DecodeError Instr :=
  if f0 then .error .f0NotDefined else .ok i

/-- The opcode map R83, with F0 by R82. -/
def decodeOp (op : Byte) (f0 : Bool) : Except DecodeError Instr :=
  if op = 0x00#8 then decodePlain .nop f0
  else if op = 0x01#8 then decodePlain .clear f0
  else if op = 0x10#8 then decodePlain .freqClr f0
  else if op = 0x11#8 then decodePlain .freqCnt f0
  else if op = 0x20#8 then decodePlain .pqClr f0
  else if op = 0x21#8 then decodePlain .pqIns f0
  else if op = 0x22#8 then decodePlain .pqExt f0
  else if op = 0x30#8 then decodePlain .build f0
  else if op = 0x38#8 then decodePlain .codeClr f0
  else if op = 0x39#8 then decodePlain .codegen f0
  else if op = 0x40#8 then decodePlain .number f0
  else if op = 0x41#8 then decodePlain .ser f0
  else if op = 0x48#8 then .ok (.deser f0)
  else if op = 0x50#8 then .ok (.pack f0)
  else if op = 0x58#8 then .ok (.unpack f0)
  else .error .unlistedOp

/-- Decode a command word (R80, R81, R87): OP is bits [7:0], F0 is bit [8], and the reserved bits [31:9]
(RSV1 and RSV2) must be 0. -/
def decode (c : Word) : Except DecodeError Instr :=
  if c.extractLsb' 9 23 = 0#23 then decodeOp (c.extractLsb' 0 8) (c.getLsbD 8)
  else .error .reservedBits

/-- The OP value of an instruction (R83). -/
def Instr.opcode : Instr → Byte
  | .nop => 0x00
  | .clear => 0x01
  | .freqClr => 0x10
  | .freqCnt => 0x11
  | .pqClr => 0x20
  | .pqIns => 0x21
  | .pqExt => 0x22
  | .build => 0x30
  | .codeClr => 0x38
  | .codegen => 0x39
  | .number => 0x40
  | .ser => 0x41
  | .deser _ => 0x48
  | .pack _ => 0x50
  | .unpack _ => 0x58

/-- The F0 bit of an instruction (R82); 0 where the opcode does not define it. -/
def Instr.flag : Instr → Bool
  | .deser f | .pack f | .unpack f => f
  | .nop | .clear | .freqClr | .freqCnt | .pqClr | .pqIns | .pqExt | .build
  | .codeClr | .codegen | .number | .ser => false

/-- The command word of an instruction (R84): zext_32(OP), with 0x100 added where F0 = 1. -/
def encode (i : Instr) : Word :=
  i.opcode.setWidth 32 ||| (if i.flag then 0x100#32 else 0x000#32)

/-- The decoder on a row of spec/opcode_table.json: bit 0 is the least significant bit of the 32-bit command
word, and bits above nbits are 0. -/
def decodeTableWord (nbits w : Nat) : Option Instr :=
  match decode (BitVec.ofNat 32 (w % 2 ^ nbits)) with
  | .ok i => some i
  | .error _ => none

/-- A row of the machine-readable table: match and mask (R84). -/
structure OpcodeRow where
  mnemonic : String
  pattern : Word
  mask : Word
deriving DecidableEq, Repr

/-- The match and mask of every row, as R84 lists them. -/
def opcodeRows : List OpcodeRow :=
  [⟨"NOP", 0x00000000#32, 0xFFFFFFFF#32⟩, ⟨"CLEAR", 0x00000001#32, 0xFFFFFFFF#32⟩,
   ⟨"FREQ.CLR", 0x00000010#32, 0xFFFFFFFF#32⟩, ⟨"FREQ.CNT", 0x00000011#32, 0xFFFFFFFF#32⟩,
   ⟨"PQ.CLR", 0x00000020#32, 0xFFFFFFFF#32⟩, ⟨"PQ.INS", 0x00000021#32, 0xFFFFFFFF#32⟩,
   ⟨"PQ.EXT", 0x00000022#32, 0xFFFFFFFF#32⟩, ⟨"BUILD", 0x00000030#32, 0xFFFFFFFF#32⟩] ++
  [⟨"CODE.CLR", 0x00000038#32, 0xFFFFFFFF#32⟩, ⟨"CODEGEN", 0x00000039#32, 0xFFFFFFFF#32⟩,
   ⟨"NUMBER", 0x00000040#32, 0xFFFFFFFF#32⟩, ⟨"SER", 0x00000041#32, 0xFFFFFFFF#32⟩,
   ⟨"DESER", 0x00000048#32, 0xFFFFFEFF#32⟩, ⟨"PACK", 0x00000050#32, 0xFFFFFEFF#32⟩,
   ⟨"UNPACK", 0x00000058#32, 0xFFFFFEFF#32⟩]

/-- A word belongs to a row when its masked bits are the row's pattern (R84). -/
def OpcodeRow.covers (row : OpcodeRow) (c : Word) : Bool := c &&& row.mask == row.pattern

/-- The mnemonics of R91 with their words; a suffix sets F0. A suffix on another mnemonic is no entry: an
assembly error. -/
def mnemonicWords : List (String × Word) :=
  [("NOP", 0x00000000#32), ("CLEAR", 0x00000001#32), ("FREQ.CLR", 0x00000010#32),
   ("FREQ.CNT", 0x00000011#32), ("PQ.CLR", 0x00000020#32), ("PQ.INS", 0x00000021#32),
   ("PQ.EXT", 0x00000022#32), ("BUILD", 0x00000030#32), ("CODE.CLR", 0x00000038#32),
   ("CODEGEN", 0x00000039#32), ("NUMBER", 0x00000040#32)] ++
  [("SER", 0x00000041#32), ("DESER", 0x00000048#32), ("DESER.G", 0x00000048#32),
   ("DESER.P", 0x00000148#32), ("PACK", 0x00000050#32), ("PACK.S", 0x00000150#32),
   ("UNPACK", 0x00000058#32), ("UNPACK.S", 0x00000158#32)]

/-- The command word of a mnemonic (R91); none is an assembly error, not an illegal command. -/
def assembleMnemonic (m : String) : Option Word := mnemonicWords.lookup m

end Sys2Proof
end

