-- ==== Sys2Proof/Machine/State.lean ====
section
/-! DEFINITION. The state of the machine: the block (spec 10_state.md), the host agent (00_scope.md R6) and the
model's own draw counter; the reasons a step can stop; and the state after reset (R50). -/

namespace Sys2Proof.Machine

/-- An entry of the priority queue (R40): weight, insertion sequence number, tag. -/
structure PqEntry where
  w : BitVec 64
  seq : Word
  tag : BitVec 16
deriving DecidableEq, Repr

/-- The priority queue PQ (R40) and PQ_SEQ (R32). The multiset is held as the list of its entries in the order
they were inserted (log 8). PQ_COUNT is the length of that list. -/
structure PQueue where
  entries : List PqEntry
  nextSeq : Word
deriving DecidableEq, Repr

/-- A node of the arena (R42). The fields R42 fixes at 0 for a kind are not held. -/
inductive Node where
  | leaf (sym : Byte)
  | internal (left right : Ref) (num : Byte)
deriving DecidableEq, Repr

/-- The node arena (R42): the entries in use, ref r at position r, so NODE_COUNT (R31) is the length of the list
(log 7); and INTERNAL_COUNT (R31). -/
structure Arena where
  nodes : List Node
  internalCount : BitVec 9
deriving DecidableEq, Repr

/-- The result registers RES0..RES3 (R29). -/
structure Results where
  r0 : Word
  r1 : Word
  r2 : Word
  r3 : Word
deriving DecidableEq, Repr

/-- The memories FREQ, CODE, IN and OUT (R44 to R46), one byte a cell, each at its address in the host's address
space (R60). Addresses strictly rise. An unlisted address has no value (R50, U1, log 4). -/
abbrev Memory := List Host.Cell

/-- The canonical form of memory: addresses strictly rising. No listed cell can equal what an unlisted address
reads as, because an unlisted address has no value. -/
abbrev Memory.wf (m : Memory) : Prop := m.Pairwise (fun a b => a.1 < b.1)

/-- The width of a host access (R61). -/
inductive AccessWidth where
  | byte
  | half
  | word
deriving DecidableEq, Repr

/-- An operation of the host (R6, R90, R92, R280). `idle` leaves the turn to the engine (log 1). `wait` polls
STATUS until BUSY = 0 (R90). `checkOk` is the second half of waitok (R92). -/
inductive HostOp where
  | read (width : AccessWidth) (addr : Addr)
  | write (width : AccessWidth) (addr : Addr) (data : Word)
  | reset
  | idle
  | wait
  | checkOk
deriving DecidableEq, Repr

/-- What the host last received from the bus: no access yet, the data of a read, the response to a write. -/
inductive Reply where
  | none
  | data (w : Word)
  | written
deriving DecidableEq, Repr

/-- The error kinds of R250. -/
inductive ErrKind where
  | emptyInput
  | queueUnderflow
  | malformedHeader
  | corruptPayload
  | illegalCommand
  | negativeWeight
  | queueOverflow
  | noTree
  | missingCode
  | bufferOverflow
deriving DecidableEq, Repr

/-- Why the machine stops. -/
inductive Fault where
  /-- A host access that is not a 32-bit access at a multiple of 4, or is to an unmapped address (R61, R63): the
  host's own fault. Raised by the bus. Safe: the block is unchanged by such an access, and the run stops. -/
  | busError (addr : Addr)
  /-- A command or a host read consumes memory that nothing has written (R282, U1). The address is that of the
  first such byte. Raised by every reader of FREQ, CODE, IN and OUT. Safe: nothing is claimed of such a run. -/
  | noValue (addr : Nat)
  /-- A walk of the arena meets a reference that is not in use, or does not end: the arena breaks R14 and R42.
  Raised by CODEGEN, NUMBER, SER, DESER and UNPACK. Safe: no run from reset reaches such an arena (log 13). -/
  | badTree
deriving DecidableEq, Repr

/-- Why the machine gives an instruction no meaning. -/
inductive Refusal where
  /-- No meaning yet. Raised by exec's own arm for the instruction; no arm raises it in this model. Safe. -/
  | notModelled (mnemonic : String)
deriving DecidableEq, Repr

/-- The state. -/
structure State where
  /-- IN_SIZE and OUT_SIZE (R8, R21). -/
  params : Params
  /-- CMD_LAST (R22). -/
  cmdLast : Word
  /-- STATUS.BUSY (R23). -/
  busy : Bool
  /-- STATUS.DONE (R23). -/
  done : Bool
  /-- STATUS.DROPPED (R23). -/
  dropped : Bool
  /-- STATUS.TREE_VALID (R23). -/
  treeValid : Bool
  /-- STATUS.LEAF_ROOT (R23). -/
  leafRoot : Bool
  /-- STATUS.NUMBERED (R23). -/
  numbered : Bool
  /-- ERR_CODE[7:0] (R24). -/
  errCode : Byte
  /-- ERR_INFO (R25). -/
  errInfo : Word
  /-- IRQ_EN[2:0] (R27). -/
  irqEn : BitVec 3
  /-- SRC_PTR (R28). -/
  srcPtr : Word
  /-- SRC_END (R28). -/
  srcEnd : Word
  /-- DST_PTR (R28). -/
  dstPtr : Word
  /-- ARG0 (R29). -/
  arg0 : Word
  /-- ARG1 (R29). -/
  arg1 : Word
  /-- ARG2 (R29). -/
  arg2 : Word
  /-- RES0..RES3 (R29). -/
  res : Results
  /-- ROOT[8:0] (R30). -/
  root : Ref
  /-- NODE, NODE_COUNT and INTERNAL_COUNT (R42, R31). -/
  arena : Arena
  /-- PQ, PQ_COUNT and PQ_SEQ (R40, R32). -/
  queue : PQueue
  /-- FREQ, CODE, IN and OUT (R44 to R46). -/
  mem : Memory
  /-- The host agent: its pending operations, first first (R6, log 1). -/
  host : List HostOp
  /-- The host agent: the last bus reply. -/
  reply : Reply
  /-- The host agent: its program was stopped by waitok (R92). -/
  hostStopped : Bool
  /-- The model's own: how many free values have been drawn (log 6). -/
  draws : Nat
deriving DecidableEq, Repr

/-- The state after reset (R50) of a block with parameters p, its host idle: every register at R50's value, the
memories without a value. The host agent's fields and draws are the model's (DESIGN CHOICE, log 21). -/
def State.resetWith (p : Params) : State where
  params := p
  cmdLast := 0
  busy := false
  done := false
  dropped := false
  treeValid := false
  leafRoot := false
  numbered := false
  errCode := 0
  errInfo := 0
  irqEn := 0
  srcPtr := 0
  srcEnd := 0
  dstPtr := 0
  arg0 := 0
  arg1 := 0
  arg2 := 0
  res := ⟨0, 0, 0, 0⟩
  root := 0
  arena := ⟨[], 0⟩
  queue := ⟨[], 0⟩
  mem := []
  host := []
  reply := .none
  hostStopped := false
  draws := 0

/-- The state after reset, in the reference configuration (R8, R50; log 3). -/
def State.reset : State := State.resetWith Params.reference

end Sys2Proof.Machine
end

