-- ==== Sys2Proof/Machine/Ops.lean ====
section
/-! DEFINITION. The named operations every meaning is built from: memory, the completion of a command and the
error commit (spec 40_control.md R101, 60_exceptions.md R252, R255), acceptance (R100), the arena (R132) and the
priority queue (R114). -/

namespace Sys2Proof.Machine

/-! ### Memory -/

/-- The byte at an address; none where nothing has been written (U1). -/
def Memory.read : Memory → Nat → Option Byte
  | [], _ => none
  | (k, v) :: rest, a => if k = a then some v else Memory.read rest a

/-- The cells of a byte sequence stored from address a upwards. -/
def cellsAt (a : Nat) : List Byte → List Host.Cell
  | [] => []
  | b :: bs => (a, b) :: cellsAt (a + 1) bs

/-- Replace every cell from lo up to (not including) hi by the given cells. Every write is one of these. -/
def Memory.splice (m : Memory) (lo hi : Nat) (cells : List Host.Cell) : Memory :=
  m.filter (fun c => decide (c.1 < lo)) ++ cells ++ m.filter (fun c => decide (hi ≤ c.1))

/-- Store a byte sequence from address a upwards. -/
def Memory.writeBytes (m : Memory) (a : Nat) (bs : List Byte) : Memory :=
  m.splice a (a + bs.length) (cellsAt a bs)

/-- The address of IN[a] (R60). -/
def inAddr (a : Nat) : Nat := 0x100000 + a

/-- The address of OUT[a] (R60). -/
def outAddr (a : Nat) : Nat := 0x200000 + a

/-- The address of FREQ[s] (R44). -/
def freqAddr (s : Nat) : Nat := 0x001000 + 4 * s

/-- The address of the byte that holds CODE[s].len (R45). -/
def codeLenAddr (s : Nat) : Nat := 0x004000 + 64 * s

/-- The address of the low byte of CODE[s].val (R45). -/
def codeValAddr (s : Nat) : Nat := 0x004000 + 64 * s + 4

/-! ### Byte order -/

/-- le32bytes (R10): least significant byte first. -/
def le32Bytes (v : Word) : List Byte :=
  [v.extractLsb' 0 8, v.extractLsb' 8 8, v.extractLsb' 16 8, v.extractLsb' 24 8]

/-- The number a little-endian byte sequence stands for (R10 le32, for any length). -/
def leNat : List Byte → Nat
  | [] => 0
  | b :: bs => b.toNat + 256 * leNat bs

/-- The low n bytes of v, least significant first. -/
def leBytes {w : Nat} (v : BitVec w) : Nat → Nat → List Byte
  | _, 0 => []
  | i, n + 1 => v.extractLsb' (8 * i) 8 :: leBytes v (i + 1) n

/-- V (R11): the integer of a bit string, first bit most significant. -/
def bitsVal (c : Bits) : Nat := c.foldl (fun v b => 2 * v + b.toNat) 0

/-! ### How a command's rule ends early -/

/-- A rule stops before its end: it raises an error of R250 with its detail value, or it runs into a fault. -/
inductive Stop where
  | raise (e : ErrKind) (info : Word)
  | fault (f : Fault)
deriving DecidableEq, Repr

/-- raise E(info) (R10). -/
def raise {α : Type} (e : ErrKind) (info : Word) : Except Stop α := .error (.raise e info)

/-- Consuming memory that holds no value (U1). -/
def noValue {α : Type} (a : Nat) : Except Stop α := .error (.fault (.noValue a))

/-- Meeting an arena that breaks R14 (log 13). -/
def badTree {α : Type} : Except Stop α := .error (.fault .badTree)

/-- A byte a command consumes. -/
def fetchByte (m : Memory) (a : Nat) : Except Stop Byte :=
  match m.read a with
  | some b => .ok b
  | none => noValue a

/-- f a, f (a+1), …, f (a+n-1), in that order. -/
def collect {α : Type} (f : Nat → Except Stop α) (a : Nat) : Nat → Except Stop (List α)
  | 0 => .ok []
  | n + 1 => do
    let x ← f a
    let xs ← collect f (a + 1) n
    return x :: xs

/-- A little-endian 32-bit word a command consumes. -/
def fetchWord (m : Memory) (a : Nat) : Except Stop Word := do
  let bs ← collect (fetchByte m) a 4
  return BitVec.ofNat 32 (leNat bs)

/-- MemRead(IN, a, 1) (R66). -/
def State.inByte (s : State) (a : Nat) : Except Stop Byte := fetchByte s.mem (inAddr a)

/-! ### Errors and completion -/

/-- The error codes of R250. -/
def ErrKind.code : ErrKind → Byte
  | .emptyInput => 0x01
  | .queueUnderflow => 0x02
  | .malformedHeader => 0x03
  | .corruptPayload => 0x04
  | .illegalCommand => 0x10
  | .negativeWeight => 0x11
  | .queueOverflow => 0x12
  | .noTree => 0x13
  | .missingCode => 0x14
  | .bufferOverflow => 0x15

/-- The end of every completion (R101): BUSY ← 0, DONE ← 1. -/
def State.finish (s : State) : State := { s with busy := false, done := true }

/-- The error commit (R252), TAKING AN ERROR: ERR_CODE and ERR_INFO record it, and the command completes. The
state given is the one at acceptance with the changes the command's rule lists "on error". -/
def State.raiseError (s : State) (e : ErrKind) (info : Word) : State :=
  ({ s with errCode := e.code, errInfo := info }).finish

/-- RETURNING FROM AN ERROR (R24, R257): the host's write of 0 to ERR_CODE. -/
def State.clearError (s : State) : State := { s with errCode := 0, errInfo := 0 }

/-- Completion of a command (R101): the result of its rule takes effect; or, on a raise, the error commit on the
state onError gives (R252); or the machine faults. -/
def conclude (onError : State) (r : Except Stop State) : Host.Outcome State Fault Refusal :=
  match r with
  | .ok t => .next t.finish
  | .error (.raise e info) => .next (onError.raiseError e info)
  | .error (.fault f) => .fault f

/-- A command that succeeds writes RES0..RES3 (R29). -/
def State.withRes (s : State) (a b c d : Word) : State := { s with res := ⟨a, b, c, d⟩ }

/-- Acceptance of a command (R100). -/
def State.accept (s : State) (c : Word) : State := { s with cmdLast := c, busy := true, done := false }

/-- A dropped host write (R69, R100). -/
def State.drop (s : State) : State := { s with dropped := true }

/-- The command offer (R100). -/
def State.offer (s : State) (c : Word) : State :=
  if s.busy = false ∧ s.errCode = 0 then s.accept c else s.drop

/-! ### Range checks (R255) -/

/-- check_src(). -/
def State.checkSrc (s : State) : Except Stop Unit :=
  if s.params.inSize < s.srcEnd.toNat then raise .bufferOverflow s.srcEnd
  else if s.srcEnd.toNat < s.srcPtr.toNat then raise .bufferOverflow s.srcPtr
  else .ok ()

/-- check_dst_room(m). -/
def State.checkDstRoom (s : State) (m : Nat) : Except Stop Unit :=
  if s.params.outSize < s.dstPtr.toNat then raise .bufferOverflow s.dstPtr
  else if s.params.outSize < s.dstPtr.toNat + m then raise .bufferOverflow (BitVec.ofNat 32 s.params.outSize)
  else .ok ()

/-- SRC_END - SRC_PTR, once check_src has passed. -/
def State.srcLen (s : State) : Nat := s.srcEnd.toNat - s.srcPtr.toNat

/-- The success of an output: OUT bytes from DST_PTR, then DST_PTR advances (R253). -/
def State.appendOut (s : State) (bs : List Byte) : State :=
  { s with mem := s.mem.writeBytes (outAddr s.dstPtr.toNat) bs, dstPtr := s.dstPtr + BitVec.ofNat 32 bs.length }

/-- n free bytes, from the k-th draw on (log 6). -/
def freeBytes : Nat → Nat → List Byte
  | _, 0 => []
  | k, n + 1 => Config.freeByte k :: freeBytes (k + 1) n

/-- OUT[DST_PTR..OUT_SIZE-1] becomes unspecified (R252, U4): a free value for each byte (log 17). -/
def State.unspecifyOut (s : State) : State :=
  let n := s.params.outSize - s.dstPtr.toNat
  { s with mem := s.mem.writeBytes (outAddr s.dstPtr.toNat) (freeBytes s.draws n), draws := s.draws + n }

/-! ### The arena (R132) -/

/-- The arena with no entry in use. -/
def Arena.empty : Arena := ⟨[], 0⟩

/-- alloc_leaf(s): the new arena and the leaf's ref. -/
def Arena.allocLeaf (a : Arena) (s : Byte) : Arena × Ref :=
  ({ a with nodes := a.nodes ++ [.leaf s] }, BitVec.ofNat 9 a.nodes.length)

/-- alloc_internal(l, rt): the new arena and the node's ref. -/
def Arena.allocInternal (a : Arena) (l rt : Ref) : Arena × Ref :=
  ({ nodes := a.nodes ++ [.internal l rt 0], internalCount := a.internalCount + 1 },
    BitVec.ofNat 9 a.nodes.length)

/-- tree_reset(). -/
def State.treeReset (s : State) : State :=
  { s with arena := .empty, root := 0, treeValid := false, leafRoot := false, numbered := false }

/-- NODE[r], where r is in use. -/
def State.node (s : State) (r : Ref) : Option Node := s.arena.nodes[r.toNat]?

/-- kind = 0 (R42). -/
def Node.isLeaf : Node → Bool
  | .leaf _ => true
  | .internal _ _ _ => false

/-- The commands that need a tree raise NoTree(0) without one (R151, R165, R167, R225). -/
def State.checkTree (s : State) : Except Stop Unit :=
  if s.treeValid then .ok () else raise .noTree 0

/-! ### The priority queue (R114) -/

/-- The queue with no entry and PQ_SEQ = 0. -/
def PQueue.empty : PQueue := ⟨[], 0⟩

/-- pq_insert(w, tag). -/
def PQueue.insert (q : PQueue) (w : BitVec 64) (tag : BitVec 16) : PQueue :=
  { entries := q.entries ++ [⟨w, q.nextSeq, tag⟩], nextSeq := q.nextSeq + 1 }

/-- The order of R41: lexicographic on (w, seq). -/
def PqEntry.precedes (a b : PqEntry) : Bool :=
  decide (a.w < b.w) || (a.w == b.w && decide (a.seq < b.seq))

/-- The entry with the least key. -/
def leastEntry : List PqEntry → Option PqEntry
  | [] => none
  | e :: rest =>
    match leastEntry rest with
    | none => some e
    | some m => if m.precedes e then some m else some e

/-- pq_extract_min(): the least entry and the queue without it. -/
def PQueue.extractMin (q : PQueue) : Option (PqEntry × PQueue) :=
  match leastEntry q.entries with
  | none => none
  | some e => some (e, { q with entries := q.entries.erase e })

end Sys2Proof.Machine
end

