-- ==== Sys2Proof/Machine/Flags.lean ====
section
/-! DEFINITION. The flags: the STATUS word and its views (spec 10_state.md R23, R34), the W1C write, and the
interrupt output (60_exceptions.md R260). -/

namespace Sys2Proof.Machine

/-- STATUS.ERR (R23). -/
def State.err (s : State) : Bool := s.errCode != 0

/-- STATUS.PQ_EMPTY (R23): the source's isEmpty(). -/
def State.pqEmpty (s : State) : Bool := s.queue.entries.isEmpty

/-- The STATUS word (R23). -/
def State.statusWord (s : State) : Word :=
  BitVec.ofNat 32
    (s.busy.toNat + 2 * s.done.toNat + 4 * s.err.toNat + 8 * s.dropped.toNat + 16 * s.pqEmpty.toNat +
      32 * s.treeValid.toNat + 64 * s.leafRoot.toNat + 128 * s.numbered.toNat)

/-- A host write to STATUS (R23): a 1 clears DONE or DROPPED; nothing else is written. -/
def State.writeStatus (s : State) (v : Word) : State :=
  { s with done := s.done && !v.getLsbD 1, dropped := s.dropped && !v.getLsbD 3 }

/-- The irq output (R260). IRQ_EN[0] is DONE_IE, [1] is ERR_IE, [2] is DROP_IE (R27). -/
def State.irq (s : State) : Bool :=
  (s.done && s.irqEn.getLsbD 0) || (s.err && s.irqEn.getLsbD 1) || (s.dropped && s.irqEn.getLsbD 2)

/-- NODE_COUNT (R31). -/
def State.nodeCount (s : State) : Nat := s.arena.nodes.length

/-- PQ_COUNT (R32). -/
def State.pqCount (s : State) : Nat := s.queue.entries.length

end Sys2Proof.Machine
end

