-- ==== Sys2Proof/Machine/Bus.lean ====
section
/-! DEFINITION. The host's bus: the address map (spec 20_memory.md R60 to R63), the registers (10_state.md R20 to
R33), and what a read and a write do (R65, R68, R69). -/

namespace Sys2Proof.Machine

/-- The registers of the block (10_state.md). -/
inductive RegName where
  | id | version | inSizeR | outSizeR | cmd | status | errCode | errInfo | irqEn
  | srcPtr | srcEnd | dstPtr | arg0 | arg1 | arg2 | res0 | res1 | res2 | res3
  | root | nodeCount | internalCount | pqCount | pqSeq
deriving DecidableEq, Repr

/-- The byte offsets of the registers (R20 to R32). -/
def RegName.offset : RegName → Nat
  | .id => 0x000
  | .version => 0x004
  | .inSizeR => 0x008
  | .outSizeR => 0x00C
  | .cmd => 0x010
  | .status => 0x014
  | .errCode => 0x018
  | .errInfo => 0x01C
  | .irqEn => 0x020
  | .srcPtr => 0x030
  | .srcEnd => 0x034
  | .dstPtr => 0x038
  | .arg0 => 0x040
  | .arg1 => 0x044
  | .arg2 => 0x048
  | .res0 => 0x050
  | .res1 => 0x054
  | .res2 => 0x058
  | .res3 => 0x05C
  | .root => 0x060
  | .nodeCount => 0x064
  | .internalCount => 0x068
  | .pqCount => 0x06C
  | .pqSeq => 0x070

/-- Every register. -/
def RegName.all : List RegName :=
  [.id, .version, .inSizeR, .outSizeR, .cmd, .status, .errCode, .errInfo, .irqEn, .srcPtr, .srcEnd, .dstPtr] ++
  [.arg0, .arg1, .arg2, .res0, .res1, .res2, .res3, .root, .nodeCount, .internalCount, .pqCount, .pqSeq]

/-- What an aligned word address of the map (R60) names. -/
inductive BusTarget where
  /-- A register (R20 to R32). -/
  | reg (r : RegName)
  /-- A register offset no rule names (R33). -/
  | regReserved
  /-- Four bytes of memory the host may read and write, from this address on: a word of FREQ (R44), of a CODE
  value (R45), of IN or of OUT (R62). -/
  | ram (a : Nat)
  /-- Word 0 of a CODE entry (R45): the byte at this address. -/
  | codeLen (a : Nat)
  /-- Word 0 or word 1 of NODE[r] (R43). -/
  | node (r : Nat) (second : Bool)
  /-- A reserved word inside a window (R45, R60, U8). -/
  | windowReserved
  /-- Every other address (R60, R63). -/
  | unmapped
deriving DecidableEq, Repr

/-- The register at an offset of the register page. -/
def regAt (n : Nat) : Option RegName := RegName.all.find? (fun r => r.offset == n)

/-- The map R60, for an address that is a multiple of 4. -/
def busTarget (p : Params) (a : Addr) : BusTarget :=
  let n := a.toNat
  if n < 0x100 then
    match regAt n with
    | some r => .reg r
    | none => .regReserved
  else if 0x1000 ≤ n ∧ n < 0x1400 then .ram n
  else if 0x2000 ≤ n ∧ n < 0x2FF8 then .node ((n - 0x2000) / 8) (n % 8 == 4)
  else if 0x2FF8 ≤ n ∧ n < 0x3000 then .windowReserved
  else if 0x4000 ≤ n ∧ n < 0x8000 then
    let k := n % 64 / 4
    if k = 0 then .codeLen n else if k ≤ 8 then .ram n else .windowReserved
  else if 0x100000 ≤ n ∧ n < 0x100000 + p.inSize then .ram n
  else if 0x200000 ≤ n ∧ n < 0x200000 + p.outSize then .ram n
  else .unmapped

/-- R61: a 32-bit access at a multiple of 4. -/
def accessOk (width : AccessWidth) (a : Addr) : Bool := width == .word && a.toNat % 4 == 0

/-! ### Reads -/

/-- The value a register reads (R20 to R32). -/
def State.readReg (s : State) : RegName → Word
  | .id => Config.id
  | .version => Config.version
  | .inSizeR => BitVec.ofNat 32 s.params.inSize
  | .outSizeR => BitVec.ofNat 32 s.params.outSize
  | .cmd => s.cmdLast
  | .status => s.statusWord
  | .errCode => s.errCode.setWidth 32
  | .errInfo => s.errInfo
  | .irqEn => s.irqEn.setWidth 32
  | .srcPtr => s.srcPtr
  | .srcEnd => s.srcEnd
  | .dstPtr => s.dstPtr
  | .arg0 => s.arg0
  | .arg1 => s.arg1
  | .arg2 => s.arg2
  | .res0 => s.res.r0
  | .res1 => s.res.r1
  | .res2 => s.res.r2
  | .res3 => s.res.r3
  | .root => s.root.setWidth 32
  | .nodeCount => BitVec.ofNat 32 s.nodeCount
  | .internalCount => s.arena.internalCount.setWidth 32
  | .pqCount => BitVec.ofNat 32 s.pqCount
  | .pqSeq => s.queue.nextSeq

/-- The registers that return their current values while BUSY = 1 (R68). -/
def RegName.stable : RegName → Bool
  | .id | .version | .inSizeR | .outSizeR | .cmd | .status | .irqEn | .errCode => true
  | .errInfo | .srcPtr | .srcEnd | .dstPtr | .arg0 | .arg1 | .arg2 | .res0 | .res1 | .res2 | .res3
  | .root | .nodeCount | .internalCount | .pqCount | .pqSeq => false

/-- The host receives the data of a read. -/
def State.replyData (s : State) (w : Word) : State := { s with reply := .data w }

/-- A read that returns an unspecified value (R68, U2; R43, U3): a free draw (log 6). -/
def State.replyFree (s : State) : State :=
  { s with reply := .data (Config.freeWord s.draws), draws := s.draws + 1 }

/-- The words of a NODE entry (R43): word 0 has kind, sym and num; word 1 has left and right. -/
def Node.word : Node → Bool → Word
  | .leaf sym, false => BitVec.ofNat 32 (256 * sym.toNat)
  | .leaf _, true => 0
  | .internal _ _ num, false => BitVec.ofNat 32 (1 + 65536 * num.toNat)
  | .internal l r _, true => BitVec.ofNat 32 (l.toNat + 65536 * r.toNat)

/-- The byte the host reads at an address: where nothing has written it, a free byte (U1, log 5). -/
def State.hostByte (s : State) (a k : Nat) : Byte := (s.mem.read a).getD (Config.freeByte (s.draws + k))

/-- A host read of four bytes of memory (R62, R64 (a)). A word of which no byte has a value is a fault (U1); in a
partly written word each byte without a value is free (log 5). -/
def State.readRam (s : State) (a : Nat) : Host.Outcome State Fault Refusal :=
  if s.mem.read a = none ∧ s.mem.read (a + 1) = none ∧ s.mem.read (a + 2) = none ∧ s.mem.read (a + 3) = none then
    .fault (.noValue a)
  else
    .next ({ s with draws := s.draws + 4 }.replyData
      (BitVec.ofNat 32 (leNat [s.hostByte a 0, s.hostByte (a + 1) 1, s.hostByte (a + 2) 2, s.hostByte (a + 3) 3])))

/-- A host read while BUSY = 0 (R20 to R45, R62, R63). -/
def State.readTarget (s : State) (a : Addr) : BusTarget → Host.Outcome State Fault Refusal
  | .reg r => .next (s.replyData (s.readReg r))
  | .regReserved => .next (s.replyData 0)
  | .ram n => s.readRam n
  | .codeLen n =>
    match s.mem.read n with
    | some len => .next (s.replyData (len.setWidth 32))
    | none => .fault (.noValue n)
  | .node r second =>
    match s.arena.nodes[r]? with
    | some node => .next (s.replyData (node.word second))
    | none => .next s.replyFree
  | .windowReserved => .next (s.replyData 0)
  | .unmapped => .fault (.busError a)

/-- A host read while BUSY = 1 (R68): the stable registers return their values, a reserved register offset reads 0
(R33, log 10), and every other register and every window word is free (U2). -/
def State.readBusy (s : State) (a : Addr) : BusTarget → Host.Outcome State Fault Refusal
  | .reg r => .next (if r.stable then s.replyData (s.readReg r) else s.replyFree)
  | .regReserved => .next (s.replyData 0)
  | .ram _ | .codeLen _ | .node _ _ | .windowReserved => .next s.replyFree
  | .unmapped => .fault (.busError a)

/-- A host read (R61, R63, R65, R68). -/
def State.busRead (s : State) (width : AccessWidth) (a : Addr) : Host.Outcome State Fault Refusal :=
  if accessOk width a then
    if s.busy then s.readBusy a (busTarget s.params a) else s.readTarget a (busTarget s.params a)
  else .fault (.busError a)

/-! ### Writes -/

/-- A host write to a register while BUSY = 0 (R20 to R32). -/
def State.writeReg (s : State) (v : Word) : RegName → State
  | .cmd => s.offer v
  | .status => s.writeStatus v
  | .errCode => if v = 0 then s.clearError else s
  | .irqEn => { s with irqEn := v.extractLsb' 0 3 }
  | .srcPtr => { s with srcPtr := v }
  | .srcEnd => { s with srcEnd := v }
  | .dstPtr => { s with dstPtr := v }
  | .arg0 => { s with arg0 := v }
  | .arg1 => { s with arg1 := v }
  | .arg2 => { s with arg2 := v }
  | .id | .version | .inSizeR | .outSizeR | .errInfo | .res0 | .res1 | .res2 | .res3
  | .root | .nodeCount | .internalCount | .pqCount | .pqSeq => s

/-- A host write while BUSY = 0. -/
def State.writeTarget (s : State) (v : Word) : BusTarget → State
  | .reg r => s.writeReg v r
  | .ram n => { s with mem := s.mem.writeBytes n (le32Bytes v) }
  | .codeLen n => { s with mem := s.mem.writeBytes n [v.extractLsb' 0 8] }
  | .regReserved | .node _ _ | .windowReserved | .unmapped => s

/-- A host write while BUSY = 1 (R69): STATUS and IRQ_EN take effect, a read-only register ignores it, a command is
offered (and so dropped, R100), and every other write is dropped (log 11). -/
def State.writeBusy (s : State) (v : Word) : BusTarget → State
  | .reg .cmd => s.offer v
  | .reg .status => s.writeStatus v
  | .reg .irqEn => { s with irqEn := v.extractLsb' 0 3 }
  | .reg .errCode | .reg .srcPtr | .reg .srcEnd | .reg .dstPtr | .reg .arg0 | .reg .arg1 | .reg .arg2 => s.drop
  | .reg .id | .reg .version | .reg .inSizeR | .reg .outSizeR | .reg .errInfo
  | .reg .res0 | .reg .res1 | .reg .res2 | .reg .res3
  | .reg .root | .reg .nodeCount | .reg .internalCount | .reg .pqCount | .reg .pqSeq => s
  | .regReserved | .ram _ | .codeLen _ | .node _ _ | .windowReserved | .unmapped => s.drop

/-- A host write (R61, R63, R65, R69). -/
def State.busWrite (s : State) (width : AccessWidth) (a : Addr) (v : Word) : Host.Outcome State Fault Refusal :=
  if accessOk width a ∧ busTarget s.params a ≠ .unmapped then
    let t := busTarget s.params a
    .next { (if s.busy then s.writeBusy v t else s.writeTarget v t) with reply := .written }
  else .fault (.busError a)

end Sys2Proof.Machine
end

