-- ==== Sys2Proof/Machine/Operands.lean ====
section
/-! DEFINITION. The operand values commands assemble from registers and memories (spec 30_encoding.md R85, R86;
46_bit_packer.md R211; 42_tree_builder.md R131, R133). -/

namespace Sys2Proof.Machine

/-- The weight operand of PQ.INS (R86): ARG1 ++ ARG0. -/
def State.weightOperand (s : State) : BitVec 64 := s.arg1 ++ s.arg0

/-- The tag operand of PQ.INS (R86): ARG2[15:0]. -/
def State.tagOperand (s : State) : BitVec 16 := s.arg2.extractLsb' 0 16

/-- FREQ[s], consumed by a command. -/
def State.freqEntry (s : State) (sym : Nat) : Except Stop Word := fetchWord s.mem (freqAddr sym)

/-- FREQ[0..255], the operand of BUILD (R85). -/
def State.freqTable (s : State) : Except Stop (List Word) := collect s.freqEntry 0 256

/-- IN[SRC_PTR..SRC_END-1], in ascending order (R131). -/
def State.srcBytes (s : State) : Except Stop (List Byte) := collect s.inByte s.srcPtr.toNat s.srcLen

/-- The bit string of a code of length len and right-aligned value val (R11, R211): its i-th bit is bit
(len-1-i) of val. -/
def codeBits (len val : Nat) : Bits := (List.range len).map fun i => val.testBit (len - 1 - i)

/-- code(s) (R211), for PACK: a symbol without a code raises MissingCode (R210). Of CODE[s].val only the bytes
that hold bits below len are consumed (R45, log 19). -/
def State.symbolCode (s : State) (sym : Byte) : Except Stop Bits := do
  let len ← fetchByte s.mem (codeLenAddr sym.toNat)
  if len = 0 then raise .missingCode (sym.setWidth 32)
  else do
    let bs ← collect (fetchByte s.mem) (codeValAddr sym.toNat) ((len.toNat + 7) / 8)
    return codeBits len.toNat (leNat bs)

/-- The 4-byte original-size field at IN index p (R225, R64 (c)). -/
def State.sizeField (s : State) (p : Nat) : Except Stop Nat := do
  let bs ← collect s.inByte p 4
  return leNat bs

end Sys2Proof.Machine
end

