-- ==== Sys2Proof/Machine/CodeTable.lean ====
section
/-! DEFINITION. The code table generator: CODE.CLR and CODEGEN (spec 43_code_table.md R150 to R153). -/

namespace Sys2Proof.Machine

/-- An entry of the code table (R45): CODE[s].len and CODE[s].val. -/
abbrev CodeEntry := Byte × BitVec 256

/-- The memory cells of CODE[s] for the symbols from s on (R45): the length byte, and the 32 bytes of the value. -/
def codeCells (s : Nat) : List CodeEntry → List Host.Cell
  | [] => []
  | (len, val) :: rest =>
    (codeLenAddr s, len) :: (cellsAt (codeValAddr s) (leBytes val 0 32) ++ codeCells (s + 1) rest)

/-- CODE[0..255] replaced by a table of 256 entries. -/
def State.setCodeTable (s : State) (t : List CodeEntry) : State :=
  { s with mem := s.mem.splice (codeLenAddr 0) (codeLenAddr 256) (codeCells 0 t) }

/-- CODE.CLR (R150). -/
def execCodeClr (s : State) : Host.Outcome State Fault Refusal :=
  conclude s (.ok ((s.setCodeTable (List.replicate 256 (0, 0))).withRes 0 0 0 0))

/-- walk(r, p) (R151): the leaves under r, left to right, each with its symbol and its path. The fuel bounds the
depth; it is the number of nodes, because children have smaller refs (R42). -/
def leafPaths (nodes : List Node) : Nat → Ref → Bits → Except Stop (List (Byte × Bits))
  | 0, _, _ => badTree
  | fuel + 1, r, p =>
    match nodes[r.toNat]? with
    | none => badTree
    | some (.leaf sym) => .ok [(sym, p)]
    | some (.internal l rt _) => do
      let xs ← leafPaths nodes fuel l (p ++ [false])
      let ys ← leafPaths nodes fuel rt (p ++ [true])
      return xs ++ ys

/-- The codes CODEGEN records, in the order it records them: the one code "0" of a leaf root (R152), or the paths
of the leaves (R151). -/
def treeCodes (nodes : List Node) (root : Ref) : Except Stop (List (Byte × Bits)) :=
  match nodes[root.toNat]? with
  | some (.leaf sym) => .ok [(sym, [false])]
  | _ => leafPaths nodes nodes.length root []

/-- The table after recording: a later entry overwrites an earlier one of the same symbol (R153), and a symbol
without an entry has len 0 and val 0. -/
def codeTable (codes : List (Byte × Bits)) : List CodeEntry :=
  (List.range 256).map fun sym =>
    match (codes.filter (fun c => c.1 == BitVec.ofNat 8 sym)).getLast? with
    | none => (0, 0)
    | some (_, p) => (BitVec.ofNat 8 p.length, BitVec.ofNat 256 (bitsVal p))

/-- The lengths of the symbols that have a code (R151: the set C). -/
def codeLengths (t : List CodeEntry) : List Nat := (t.map (fun e => e.1.toNat)).filter (· ≠ 0)

/-- CODEGEN (R151). -/
def execCodegen (s : State) : Host.Outcome State Fault Refusal :=
  conclude s do
    s.checkTree
    let codes ← treeCodes s.arena.nodes s.root
    let t := codeTable codes
    let lens := codeLengths t
    return (s.setCodeTable t).withRes (BitVec.ofNat 32 lens.length) (BitVec.ofNat 32 (lens.max?.getD 0))
      (BitVec.ofNat 32 (lens.min?.getD 0)) 0

end Sys2Proof.Machine
end

