-- ==== Sys2Proof/Machine/Control.lean ====
section
/-! DEFINITION. The control commands NOP and CLEAR (spec 40_control.md R102, R103). -/

namespace Sys2Proof.Machine

/-- NOP (R102). -/
def execNop (s : State) : Host.Outcome State Fault Refusal :=
  conclude s (.ok (s.withRes 0 0 0 0))

/-- CLEAR (R103). -/
def execClear (s : State) : Host.Outcome State Fault Refusal :=
  conclude s (.ok (({ s with queue := .empty }).treeReset.withRes 0 0 0 0))

end Sys2Proof.Machine
end

