-- ==== Sys2Proof/Machine/Deserializer.lean ====
section
/-! DEFINITION. The tree deserializer: DESER and DESER.P (spec 45_deserializer.md R185 to R191). -/

namespace Sys2Proof.Machine

/-- raise MalformedHeader(a), a an IN index (R186, R250). -/
def malformed {α : Type} (a : Nat) : Except Stop α := raise .malformedHeader (BitVec.ofNat 32 a)

/-- off(i, f) (R185): the IN index of byte f of record i. -/
def recOff (base i f : Nat) : Nat := base + 4 * i + f

/-- The type byte at IN index a, checked (R189 check_type): true for 1 (internal), false for 0 (leaf). -/
def State.childType (s : State) (a : Nat) : Except Stop Bool := do
  let t ← s.inByte a
  if t = 0 then return false
  else if t = 1 then return true
  else malformed a

/-- The child of a node being created (R189): an internal child is already built; a leaf child is allocated now,
its symbol the data byte at IN index a. -/
def State.createChild (s : State) (built : Option Ref) (a : Nat) (ar : Arena) : Except Stop (Arena × Ref) :=
  match built with
  | some r => .ok (ar, r)
  | none => do
    let sym ← s.inByte a
    return ar.allocLeaf sym

/-- create(lt, ld, L, rt, rd, R) (R189) for record i: left leaf, right leaf, then the node. -/
def State.createNode (s : State) (base i : Nat) (l r : Option Ref) (ar : Arena) : Except Stop (Arena × Ref) := do
  let (ar₁, lref) ← s.createChild l (recOff base i 1) ar
  let (ar₂, rref) ← s.createChild r (recOff base i 3) ar₁
  return ar₂.allocInternal lref rref

/-- The general strategy's walk so far: the arena and the records visited (R187), no repeats. -/
structure GenState where
  arena : Arena
  visited : List Nat
deriving DecidableEq, Repr

/-- An internal child in the general strategy (R187): its record index is the data byte at IN index a, which must be
below n and not visited; `walk` is G. A leaf child is left to createNode. -/
def State.genChild (s : State) (n a : Nat) (walk : Nat → GenState → Except Stop (GenState × Ref)) (internal : Bool)
    (g : GenState) : Except Stop (GenState × Option Ref) :=
  if internal then do
    let d ← s.inByte a
    if n ≤ d.toNat ∨ g.visited.contains d.toNat then malformed a
    else do
      let (g', r) ← walk d.toNat g
      return (g', some r)
  else .ok (g, none)

/-- G(i) (R187). The fuel bounds the depth; it is the number of records, because each is visited once (R191). -/
def State.genTree (s : State) (base n : Nat) : Nat → Nat → GenState → Except Stop (GenState × Ref)
  | 0, _, _ => badTree
  | fuel + 1, i, g => do
    let lt ← s.childType (recOff base i 0)
    let rt ← s.childType (recOff base i 2)
    let (g₁, l) ← s.genChild n (recOff base i 1) (s.genTree base n fuel) lt { g with visited := i :: g.visited }
    let (g₂, r) ← s.genChild n (recOff base i 3) (s.genTree base n fuel) rt g₁
    let (ar, ref) ← s.createNode base i l r g₂.arena
    return ({ g₂ with arena := ar }, ref)

/-- The postorder strategy's walk so far: the arena, and how many records stand before the next one to use (cur + 1
of R188, so that cur < 0 is left = 0). -/
structure PostState where
  arena : Arena
  left : Nat
deriving DecidableEq, Repr

/-- An internal child in the postorder strategy (R188): the record just before those used so far; its data byte is
not read. Without one, MalformedHeader at the type byte, IN index a. -/
def State.postChild (_s : State) (a : Nat) (walk : Nat → Arena → Except Stop (PostState × Ref)) (internal : Bool)
    (p : PostState) : Except Stop (PostState × Option Ref) :=
  if internal then
    match p.left with
    | 0 => malformed a
    | j + 1 => do
      let (p', r) ← walk j p.arena
      return (p', some r)
  else .ok (p, none)

/-- P(i) (R188): right child first, then left. The fuel bounds the depth; indices decrease, so the number of records
is enough (R191). -/
def State.postTree (s : State) (base : Nat) : Nat → Nat → Arena → Except Stop (PostState × Ref)
  | 0, _, _ => badTree
  | fuel + 1, i, ar => do
    let lt ← s.childType (recOff base i 0)
    let rt ← s.childType (recOff base i 2)
    let (p₁, r) ← s.postChild (recOff base i 2) (s.postTree base fuel) rt { arena := ar, left := i }
    let (p₂, l) ← s.postChild (recOff base i 0) (s.postTree base fuel) lt p₁
    let (ar', ref) ← s.createNode base i l r p₂.arena
    return ({ p₂ with arena := ar' }, ref)

/-- The tree of n records from IN index base by the chosen strategy, from an empty arena (R185). -/
def State.readTree (s : State) (postorder : Bool) (base n : Nat) : Except Stop (Arena × Ref) :=
  if postorder then do
    let (p, r) ← s.postTree base n (n - 1) .empty
    return (p.arena, r)
  else do
    let (g, r) ← s.genTree base n n (n - 1) ⟨.empty, []⟩
    return (g.arena, r)

/-- The node-count byte and the checks before the records (R185, R186 (a) to (c)): N. -/
def State.nodeCountByte (s : State) : Except Stop Nat := do
  let p := s.srcPtr.toNat
  if s.srcLen < 1 then malformed p
  else do
    let n ← s.inByte p
    if n = 0 then malformed p
    else if s.srcLen < 1 + 4 * n.toNat then malformed p
    else return n.toNat

/-- DESER (R185): F0 = 0 general, F0 = 1 postorder. On error the tree is reset (R252). -/
def execDeser (postorder : Bool) (s : State) : Host.Outcome State Fault Refusal :=
  conclude s.treeReset do
    s.checkSrc
    let n ← s.nodeCountByte
    let (ar, root) ← s.readTree postorder (s.srcPtr.toNat + 1) n
    return ({ s with
        arena := ar, root := root, treeValid := true, leafRoot := false, numbered := false,
        srcPtr := s.srcPtr + BitVec.ofNat 32 (1 + 4 * n) }).withRes (BitVec.ofNat 32 n)
          (BitVec.ofNat 32 (1 + 4 * n)) (root.setWidth 32) (ar.internalCount.setWidth 32)

end Sys2Proof.Machine
end

