-- ==== Sys2Proof/Machine/Packer.lean ====
section
/-! DEFINITION. The bit packer: PACK and PACK.S (spec 46_bit_packer.md R210 to R213). -/

namespace Sys2Proof.Machine

/-- The packer's working state (R47, R210): the bit buffer, the payload bits so far, and the bytes emitted so far,
last first. -/
structure PackState where
  buf : Bits
  bits : Nat
  emitted : List Byte
deriving DecidableEq, Repr

/-- emit(v) (R210): o is DST_PTR plus the bytes emitted so far. -/
def State.emitByte (s : State) (v : Byte) (k : PackState) : Except Stop PackState :=
  let o := s.dstPtr.toNat + k.emitted.length
  if s.params.outSize ≤ o then raise .bufferOverflow (BitVec.ofNat 32 o)
  else .ok { k with emitted := v :: k.emitted }

/-- Emit bytes in order. -/
def State.emitAll (s : State) : List Byte → PackState → Except Stop PackState
  | [], k => .ok k
  | b :: bs, k => do
    let k' ← s.emitByte b k
    s.emitAll bs k'

/-- The byte of eight bits, the first bit the high-order bit (R212). -/
def byteOfBits (c : Bits) : Byte := BitVec.ofNat 8 (bitsVal c)

/-- Whenever at least 8 bits have accumulated, emit one byte (R210). The bits given are the buffer. -/
def State.drainBits (s : State) : Bits → PackState → Except Stop PackState
  | b₀ :: b₁ :: b₂ :: b₃ :: b₄ :: b₅ :: b₆ :: b₇ :: rest, k => do
    let k' ← s.emitByte (byteOfBits [b₀, b₁, b₂, b₃, b₄, b₅, b₆, b₇]) k
    s.drainBits rest k'
  | buf, k => .ok { k with buf := buf }

/-- Append the code of one symbol (R210). -/
def State.packSymbol (s : State) (sym : Byte) (k : PackState) : Except Stop PackState := do
  let c ← s.symbolCode sym
  s.drainBits (k.buf ++ c) { k with bits := k.bits + c.length }

/-- The loop over the input bytes (R210), from IN index a on. -/
def State.packFrom (s : State) (a : Nat) : Nat → PackState → Except Stop PackState
  | 0, k => .ok k
  | n + 1, k => do
    let sym ← s.inByte a
    let k' ← s.packSymbol sym k
    s.packFrom (a + 1) n k'

/-- The last byte (R210): between 1 and 7 bits remain, padded on the right with zero bits. -/
def State.padTail (s : State) (k : PackState) : Except Stop PackState :=
  if k.buf = [] then .ok k
  else s.emitByte (byteOfBits (k.buf ++ List.replicate (8 - k.buf.length) false)) k

/-- The rule R210 as a whole: the final working state. -/
def State.packAll (s : State) (sized : Bool) : Except Stop PackState := do
  s.checkSrc
  if s.params.outSize < s.dstPtr.toNat then raise .bufferOverflow s.dstPtr
  else do
    let header := if sized then le32Bytes (BitVec.ofNat 32 s.srcLen) else []
    let k₀ ← s.emitAll header ⟨[], 0, []⟩
    let k₁ ← s.packFrom s.srcPtr.toNat s.srcLen k₀
    s.padTail k₁

/-- PACK (R210): F0 = 1 writes the size field first. On error OUT from DST_PTR on is unspecified (R252). -/
def execPack (sized : Bool) (s : State) : Host.Outcome State Fault Refusal :=
  conclude s.unspecifyOut do
    let k ← s.packAll sized
    return ({ s.appendOut k.emitted.reverse with srcPtr := s.srcEnd }).withRes (BitVec.ofNat 32 s.srcLen)
      (BitVec.ofNat 32 k.bits) (BitVec.ofNat 32 ((k.bits + 7) / 8)) (BitVec.ofNat 32 k.emitted.length)

end Sys2Proof.Machine
end

