-- ==== Sys2Proof/Machine/PriorityQueue.lean ====
section
/-! DEFINITION. The priority queue commands PQ.CLR, PQ.INS, PQ.EXT (spec 41_priority_queue.md R110 to R112). -/

namespace Sys2Proof.Machine

/-- PQ.CLR (R110). -/
def execPqClr (s : State) : Host.Outcome State Fault Refusal :=
  conclude s (.ok (({ s with queue := .empty }).withRes 0 0 0 0))

/-- PQ.INS (R111): NegativeWeight, then QueueOverflow 0 and 1, then the insertion. -/
def execPqIns (s : State) : Host.Outcome State Fault Refusal :=
  conclude s <|
    if s.weightOperand.msb then raise .negativeWeight s.arg1
    else if s.queue.entries.length = Config.pqCap then raise .queueOverflow 0
    else if s.queue.nextSeq = 0xFFFFFFFF#32 then raise .queueOverflow 1
    else
      let q := s.queue.insert s.weightOperand s.tagOperand
      .ok (({ s with queue := q }).withRes s.queue.nextSeq (BitVec.ofNat 32 q.entries.length) 0 0)

/-- PQ.EXT (R112). -/
def execPqExt (s : State) : Host.Outcome State Fault Refusal :=
  conclude s <|
    match s.queue.extractMin with
    | none => raise .queueUnderflow 0
    | some (e, q) =>
      .ok (({ s with queue := q }).withRes (e.w.extractLsb' 0 32) (e.w.extractLsb' 32 32) (e.tag.setWidth 32) e.seq)

end Sys2Proof.Machine
end

