-- ==== Sys2Proof/Machine/Serializer.lean ====
section
/-! DEFINITION. The tree numberer and the tree serializer: NUMBER and SER (spec 44_serializer.md R165 to R169). -/

namespace Sys2Proof.Machine

/-- NODE[r].num <- 0. -/
def Node.clearNum : Node → Node
  | .leaf sym => .leaf sym
  | .internal l r _ => .internal l r 0

/-- post(r) (R165): number the internal nodes under r from n on, left subtree, right subtree, then r itself. The
pair is the nodes and the next number. -/
def numberFrom : Nat → Ref → List Node × Nat → Except Stop (List Node × Nat)
  | 0, _, _ => badTree
  | fuel + 1, r, (nodes, n) =>
    match nodes[r.toNat]? with
    | none => badTree
    | some (.leaf _) => .ok (nodes, n)
    | some (.internal l rt _) => do
      let b₁ ← numberFrom fuel l (nodes, n)
      let b₂ ← numberFrom fuel rt b₁
      return (b₂.1.set r.toNat (.internal l rt (BitVec.ofNat 8 b₂.2)), b₂.2 + 1)

/-- number_tree() (R165): the numbered nodes, and how many internal nodes there are. -/
def numberTree (nodes : List Node) (root : Ref) : Except Stop (List Node × Nat) :=
  numberFrom nodes.length root (nodes.map Node.clearNum, 0)

/-- The state after number_tree(). -/
def State.withNumbered (s : State) (nodes : List Node) : State :=
  { s with arena := { s.arena with nodes := nodes }, numbered := true }

/-- NUMBER (R165). -/
def execNumber (s : State) : Host.Outcome State Fault Refusal :=
  conclude s do
    s.checkTree
    let (nodes, n) ← numberTree s.arena.nodes s.root
    return (s.withNumbered nodes).withRes (BitVec.ofNat 32 n) 0 0 0

/-- ty(c) and da(c) (R169): the two record bytes of a child. -/
def childBytes (nodes : List Node) (c : Ref) : Except Stop (List Byte) :=
  match nodes[c.toNat]? with
  | none => badTree
  | some (.leaf sym) => .ok [0, sym]
  | some (.internal _ _ num) => .ok [1, num]

/-- record(v) (R169) of the internal node whose number is i (R167). -/
def recordOf (nodes : List Node) (i : Nat) : Except Stop (List Byte) :=
  let isNumbered : Node → Bool
    | .leaf _ => false
    | .internal _ _ num => num == BitVec.ofNat 8 i
  match nodes.find? isNumbered with
  | some (.internal l rt _) => do
    let lb ← childBytes nodes l
    let rb ← childBytes nodes rt
    return lb ++ rb
  | _ => badTree

/-- degenerate_bytes(s) (R168). -/
def degenerateBytes (sym : Byte) : List Byte := [1, 0, sym, 0, sym + 1]

/-- The header bytes SER emits for the numbered nodes (R167): the node-count byte, then the records in ascending
number; or the degenerate form of a leaf root (R168). -/
def State.headerBytes (s : State) (nodes : List Node) : Except Stop (List Byte) :=
  if s.leafRoot then
    match nodes[s.root.toNat]? with
    | some (.leaf sym) => .ok (degenerateBytes sym)
    | _ => badTree
  else do
    let k := s.arena.internalCount
    let records ← collect (recordOf nodes) 0 k.toNat
    return k.setWidth 8 :: records.flatten

/-- SER (R167). On error nothing but the error registers changes: the numbering is not kept. -/
def execSer (s : State) : Host.Outcome State Fault Refusal :=
  conclude s do
    s.checkTree
    let (nodes, _) ← numberTree s.arena.nodes s.root
    let bytes ← s.headerBytes nodes
    s.checkDstRoom bytes.length
    return ((s.withNumbered nodes).appendOut bytes).withRes ((bytes.headD 0).setWidth 32)
      (BitVec.ofNat 32 bytes.length) 0 0

end Sys2Proof.Machine
end

