-- ==== Sys2Proof/Machine/TreeBuilder.lean ====
section
/-! DEFINITION. The frequency table commands and the merge engine: FREQ.CLR, FREQ.CNT, BUILD (spec
42_tree_builder.md R130, R131, R133). -/

namespace Sys2Proof.Machine

/-- FREQ[0..255] replaced by a table of 256 words. -/
def State.setFreqTable (s : State) (ws : List Word) : State :=
  { s with mem := s.mem.writeBytes (freqAddr 0) (ws.flatMap le32Bytes) }

/-- FREQ.CLR (R130). -/
def execFreqClr (s : State) : Host.Outcome State Fault Refusal :=
  conclude s (.ok ((s.setFreqTable (List.replicate 256 0)).withRes 0 0 0 0))

/-- The occurrence count of each symbol in the bytes: FREQ[b] <- FREQ[b] + 1 for each byte b, from 0 (R131). -/
def countSymbols (bytes : List Byte) : List Word :=
  (List.range 256).map fun sym => BitVec.ofNat 32 (bytes.count (BitVec.ofNat 8 sym))

/-- FREQ.CNT (R131). -/
def execFreqCnt (s : State) : Host.Outcome State Fault Refusal :=
  conclude s do
    s.checkSrc
    let bytes ← s.srcBytes
    let table := countSymbols bytes
    return (s.setFreqTable table).withRes (BitVec.ofNat 32 (table.countP (· ≠ 0))) (s.srcEnd - s.srcPtr) 0 0

/-- The leaves BUILD seeds (R133): for each symbol with FREQ > 0, in ascending order from sym, one leaf and one
queue entry with its weight. -/
def seedLeaves (sym : Nat) : List Word → PQueue × Arena → PQueue × Arena
  | [], b => b
  | f :: fs, (q, a) =>
    if f = 0 then seedLeaves (sym + 1) fs (q, a)
    else
      let (a', r) := a.allocLeaf (BitVec.ofNat 8 sym)
      seedLeaves (sym + 1) fs (q.insert (f.setWidth 64) (r.setWidth 16), a')

/-- The merge loop of BUILD (R133): while two entries remain, the first extracted becomes the left child and the
second the right child of a new node, inserted with the sum of their weights. The fuel is the number of entries:
each merge takes one entry away. -/
def mergeAll : Nat → PQueue × Arena → PQueue × Arena
  | 0, b => b
  | fuel + 1, (q, a) =>
    match q.extractMin with
    | none => (q, a)
    | some (e₁, q₁) =>
      match q₁.extractMin with
      | none => (q, a)
      | some (e₂, q₂) =>
        let (a', r) := a.allocInternal (e₁.tag.setWidth 9) (e₂.tag.setWidth 9)
        mergeAll fuel (q₂.insert (e₁.w + e₂.w) (r.setWidth 16), a')

/-- The queue and the arena BUILD leaves for a frequency table. -/
def buildTree (freqs : List Word) : PQueue × Arena :=
  let b := seedLeaves 0 freqs (.empty, .empty)
  mergeAll b.1.entries.length b

/-- BUILD on a frequency table: EmptyInput where no entry is seeded; else the last entry left is the root. -/
def State.buildFrom (s : State) (freqs : List Word) : Except Stop State :=
  let (q, a) := buildTree freqs
  match q.entries with
  | [] => raise .emptyInput 0
  | e :: _ =>
    let root : Ref := e.tag.setWidth 9
    let leafRoot := match a.nodes[root.toNat]? with
      | some n => n.isLeaf
      | none => false
    .ok (({ s with
        queue := q, arena := a, root := root, treeValid := true, leafRoot := leafRoot,
        numbered := false }).withRes (e.w.extractLsb' 0 32) (e.w.extractLsb' 32 32) (root.setWidth 32)
          (a.internalCount.setWidth 32))

/-- BUILD (R133). On error the queue is empty with PQ_SEQ = 0 and the tree is reset (R252). -/
def execBuild (s : State) : Host.Outcome State Fault Refusal :=
  conclude ({ s with queue := .empty }).treeReset do
    let freqs ← s.freqTable
    s.buildFrom freqs

end Sys2Proof.Machine
end

