-- ==== Sys2Proof/Machine/Unpacker.lean ====
section
/-! DEFINITION. The bit unpacker: UNPACK and UNPACK.S (spec 47_bit_unpacker.md R225 to R227). -/

namespace Sys2Proof.Machine

/-- raise CorruptPayload(j), j the number of symbols already decoded (R225, R227). -/
def corrupt {α : Type} (j : Nat) : Except Stop α := raise .corruptPayload (BitVec.ofNat 32 j)

/-- next_bit() (R225) at bit cursor k of the payload that starts at IN index p and has avail bits; j symbols are
decoded. -/
def State.nextBit (s : State) (p avail j k : Nat) : Except Stop Bool :=
  if avail ≤ k then corrupt j
  else do
    let b ← s.inByte (p + k / 8)
    return b.getLsbD (7 - k % 8)

/-- The walk of decode_one() below the internal node r (R226): one bit per edge until a leaf. The result is the
symbol and the cursor. The fuel bounds the depth; it is the number of nodes. -/
def State.descend (s : State) (p avail j : Nat) : Nat → Ref → Nat → Except Stop (Byte × Nat)
  | 0, _, _ => badTree
  | fuel + 1, r, k =>
    match s.node r with
    | some (.internal l rt _) => do
      let b ← s.nextBit p avail j k
      let c := if b then rt else l
      match s.node c with
      | some (.leaf sym) => return (sym, k + 1)
      | _ => s.descend p avail j fuel c (k + 1)
    | _ => badTree

/-- decode_one() (R226): a leaf root takes the bit 0 for its symbol (the code "0") and no other. -/
def State.decodeOne (s : State) (p avail j k : Nat) : Except Stop (Byte × Nat) :=
  match s.node s.root with
  | some (.leaf sym) => do
    let b ← s.nextBit p avail j k
    if b then corrupt j else return (sym, k + 1)
  | _ => s.descend p avail j s.arena.nodes.length s.root k

/-- The loop of R225 for n more symbols, j decoded so far: the symbols and the final cursor. -/
def State.decodeFrom (s : State) (p avail : Nat) : Nat → Nat → Nat → Except Stop (List Byte × Nat)
  | 0, _, k => .ok ([], k)
  | n + 1, j, k => do
    let (sym, k') ← s.decodeOne p avail j k
    let (syms, k'') ← s.decodeFrom p avail n (j + 1) k'
    return (sym :: syms, k'')

/-- The expected count and where the payload starts (R225, R86): the size field at SRC_PTR, or ARG0. -/
def State.expectedCount (s : State) (sized : Bool) : Except Stop (Nat × Nat) :=
  if sized then
    if s.srcLen < 4 then raise .malformedHeader s.srcPtr
    else do
      let count ← s.sizeField s.srcPtr.toNat
      return (count, s.srcPtr.toNat + 4)
  else .ok (s.arg0.toNat, s.srcPtr.toNat)

/-- UNPACK (R225): F0 = 1 reads the size field first. On error OUT from DST_PTR on is unspecified (R252). -/
def execUnpack (sized : Bool) (s : State) : Host.Outcome State Fault Refusal :=
  conclude s.unspecifyOut do
    s.checkTree
    s.checkSrc
    let (count, p) ← s.expectedCount sized
    s.checkDstRoom count
    let (syms, k) ← s.decodeFrom p (8 * (s.srcEnd.toNat - p)) count 0 0
    return ({ s.appendOut syms with srcPtr := BitVec.ofNat 32 (p + (k + 7) / 8) }).withRes (BitVec.ofNat 32 count)
      (BitVec.ofNat 32 k) (BitVec.ofNat 32 ((k + 7) / 8)) (if sized then 4 else 0)

end Sys2Proof.Machine
end

