-- ==== Sys2Proof/Machine/Dispatch.lean ====
section
/-! DEFINITION. One arm per command: the rule of its opcode and its completion (spec 40_control.md R101). -/

namespace Sys2Proof.Machine

def exec (i : Instr) (s : State) : Host.Outcome State Fault Refusal :=
  match i with
  | .nop => Sys2Proof.Machine.execNop s
  | .clear => Sys2Proof.Machine.execClear s
  | .freqClr => Sys2Proof.Machine.execFreqClr s
  | .freqCnt => Sys2Proof.Machine.execFreqCnt s
  | .pqClr => Sys2Proof.Machine.execPqClr s
  | .pqIns => Sys2Proof.Machine.execPqIns s
  | .pqExt => Sys2Proof.Machine.execPqExt s
  | .build => Sys2Proof.Machine.execBuild s
  | .codeClr => Sys2Proof.Machine.execCodeClr s
  | .codegen => Sys2Proof.Machine.execCodegen s
  | .number => Sys2Proof.Machine.execNumber s
  | .ser => Sys2Proof.Machine.execSer s
  | .deser f => Sys2Proof.Machine.execDeser f s
  | .pack f => Sys2Proof.Machine.execPack f s
  | .unpack f => Sys2Proof.Machine.execUnpack f s

end Sys2Proof.Machine
end

