-- ==== Sys2Proof/Machine/Engine.lean ====
section
/-! DEFINITION. The two agents' turns (spec 00_scope.md R6): the engine completes the pending command (40_control.md
R101); the host performs its next operation (30_encoding.md R90, R92; 70_reset_and_hazards.md R280). -/

namespace Sys2Proof.Machine

/-- Completion of the pending command (R101): a word that is not legal raises IllegalCommand(c) and changes nothing
else (R87, R252); a legal one runs its rule. -/
def engineStep (s : State) : Host.Outcome State Fault Refusal :=
  match decode s.cmdLast with
  | .ok i => exec i s
  | .error _ => conclude s (raise .illegalCommand s.cmdLast)

/-- A turn of the engine: its step is enabled only while BUSY = 1 (R101); a quiescent block stays as it is (log 14). -/
def engineTurn (s : State) : Host.Outcome State Fault Refusal :=
  if s.busy then engineStep s else .next s

/-- The reset event (R280): every piece of the block's state goes to its R50 value, and a pending command is
abandoned. The host agent and the draw counter are not the block's (log 20). -/
def State.assertReset (s : State) : State :=
  { State.resetWith s.params with
    host := s.host, reply := s.reply, hostStopped := s.hostStopped, draws := s.draws }

/-- The reads of ERR_CODE and ERR_INFO that a host stopped by waitok makes (R92). -/
def errorReads : List HostOp :=
  [.read .word (BitVec.ofNat 22 RegName.errCode.offset), .read .word (BitVec.ofNat 22 RegName.errInfo.offset)]

/-- A turn of the host: its next operation op, of which s.host holds the rest. -/
def hostTurn (op : HostOp) (s : State) : Host.Outcome State Fault Refusal :=
  match op with
  | .read width a => s.busRead width a
  | .write width a v => s.busWrite width a v
  | .reset => .next s.assertReset
  | .idle => engineTurn s
  | .wait =>
    if s.busy then engineStep { s with host := .wait :: s.host } else .next (s.replyData s.statusWord)
  | .checkOk =>
    .next (if s.err then { s with host := errorReads, hostStopped := true }.replyData s.statusWord
      else s.replyData s.statusWord)

/-- Place a command word as the pending command and let no host operation come before the engine's step: what
acceptance of a CMD write leaves (R100, log 2). -/
def State.pendingWord (s : State) (c : Word) : State := { s.accept c with host := [] }

end Sys2Proof.Machine
end

