-- ==== Sys2Proof/Machine/Step.lean ====
section
/-! DEFINITION. One step of the machine: the host's next operation, or, where the host has none, a turn of the
engine (spec 00_scope.md R6, 20_memory.md R67; log 1). -/

namespace Sys2Proof.Machine

/-- One step. -/
def step (s : State) : Host.Outcome State Fault Refusal :=
  match s.host with
  | [] => engineTurn s
  | op :: rest => hostTurn op { s with host := rest }

/-- s with the command word w (bits above nbits zero) accepted and pending, so that the very next step runs it
(R100, log 2). -/
def State.withFetchWord (s : State) (nbits w : Nat) : State :=
  s.pendingWord (BitVec.ofNat 32 (w % 2 ^ nbits))

end Sys2Proof.Machine
end

