-- ==== Sys2Proof/Machine/HostProgram.lean ====
section
/-! DEFINITION. Host programs as lists of host operations: the statements of spec 30_encoding.md R90 to R92, and the
pseudo-instructions COMPRESS and DECOMPRESS (R95, R96). -/

namespace Sys2Proof.Machine

/-- `wr` to a byte address of the map. -/
def wrAt (a : Nat) (v : Word) : HostOp := .write .word (BitVec.ofNat 22 a) v

/-- `rd` of a byte address of the map. -/
def rdAt (a : Nat) : HostOp := .read .word (BitVec.ofNat 22 a)

/-- `wr NAME, v` of a register. -/
def wr (r : RegName) (v : Word) : HostOp := wrAt r.offset v

/-- `rd NAME` of a register. -/
def rd (r : RegName) : HostOp := rdAt r.offset

/-- `cmd 0x<hex>`: a raw word to CMD (R91). -/
def cmdRaw (c : Word) : HostOp := wr .cmd c

/-- `cmd M` (R90). -/
def cmd (i : Instr) : HostOp := cmdRaw (encode i)

/-- `waitok` (R92). -/
def waitok : List HostOp := [.wait, .checkOk]

/-- `cmd M ; waitok`. -/
def cmdOk (i : Instr) : List HostOp := cmd i :: waitok

/-- The four bytes of the word at IN byte index a, of a list placed at IN[k]: a byte of the word that the list does
not name is 0 (R92). -/
def loadBytes (k : Nat) (bytes : List Byte) (a : Nat) : List Byte :=
  (List.range 4).map fun j => if a + j < k then 0 else (bytes[a + j - k]?).getD 0

/-- `loadin k, bytes` (R92): the writes to the words that hold IN[k], IN[k+1], … An address past the 22-bit space is taken
modulo 2^22 here; the text form refuses such bytes (DESIGN CHOICE, log 25). -/
def loadin (k : Nat) (bytes : List Byte) : List HostOp :=
  if bytes = [] then []
  else
    let first := k / 4
    let last := (k + bytes.length - 1) / 4
    (List.range (last + 1 - first)).map fun j =>
      let a := 4 * (first + j)
      wrAt (inAddr a) (BitVec.ofNat 32 (leNat (loadBytes k bytes a)))

/-- `COMPRESS n` (R95). A count of 2^32 or more is taken modulo 2^32 here; the text form refuses it (DESIGN CHOICE,
log 25). -/
def compress (n : Nat) : List HostOp :=
  [wr .srcPtr 0, wr .srcEnd (BitVec.ofNat 32 n), wr .dstPtr 0] ++
    cmdOk .freqCnt ++ cmdOk .build ++ cmdOk .codegen ++ cmdOk .ser ++ cmdOk (.pack true)

/-- `DECOMPRESS m` (R96). A count of 2^32 or more as for COMPRESS (DESIGN CHOICE, log 25). -/
def decompress (m : Nat) : List HostOp :=
  [wr .srcPtr 0, wr .srcEnd (BitVec.ofNat 32 m), wr .dstPtr 0] ++ cmdOk (.deser false) ++ cmdOk (.unpack true)

end Sys2Proof.Machine
end

