-- ==== Sys2Proof/Machine/Assembler.lean ====
section
/-! DEFINITION. The text form of host programs (spec 30_encoding.md R90 to R92, R95, R96): lines of statements
separated by `;`, `--` comments, register and window names, decimal and hexadecimal numbers. What the rules leave open of
the text is DESIGN CHOICE, log 25. -/

namespace Sys2Proof.Machine

/-- Why a text is no host program: a statement that is none of R90 to R96, a NAME or a number that does not read, a
mnemonic or a suffix R91 does not give (an assembly error). -/
inductive AsmError where
  | statement
  | name
  | number
  | mnemonic
deriving DecidableEq, Repr

/-- A text cut at every occurrence of a character. -/
def splitAt (c : Char) : List Char → List (List Char)
  | [] => [[]]
  | x :: xs =>
    match splitAt c xs with
    | [] => [[x]]
    | w :: ws => if x = c then [] :: w :: ws else (x :: w) :: ws

/-- A line up to its `--` comment (R90). -/
def cutComment : List Char → List Char
  | [] => []
  | [x] => [x]
  | x :: y :: rest => if x = '-' ∧ y = '-' then [] else x :: cutComment (y :: rest)

/-- A blank: a space, a tab or a carriage return (R90 names none: DESIGN CHOICE, log 25). -/
def isBlank (c : Char) : Bool := c == ' ' || c == '\t' || c == '\r'

/-- Without the blanks at both ends. -/
def trimBlanks (cs : List Char) : List Char := ((cs.dropWhile isBlank).reverse.dropWhile isBlank).reverse

/-- The value of a digit below the base. -/
def digitValue (base : Nat) (c : Char) : Option Nat :=
  let n := c.toNat
  let v := if 48 ≤ n ∧ n ≤ 57 then n - 48
    else if 65 ≤ n ∧ n ≤ 70 then n - 55
    else if 97 ≤ n ∧ n ≤ 102 then n - 87 else base
  if v < base then some v else none

/-- Digits, most significant first, after a value read so far. -/
def readDigits (base : Nat) : Nat → List Char → Option Nat
  | acc, [] => some acc
  | acc, c :: cs =>
    match digitValue base c with
    | some d => readDigits base (base * acc + d) cs
    | none => none

/-- A decimal or 0x hexadecimal number (R90). -/
def readNumber : List Char → Option Nat
  | [] => none
  | [c] => readDigits 10 0 [c]
  | x :: y :: rest =>
    if x = '0' ∧ y = 'x' then (if rest = [] then none else readDigits 16 0 rest)
    else readDigits 10 0 (x :: y :: rest)

/-- The text after a given beginning. -/
def afterHead : List Char → List Char → Option (List Char)
  | [], cs => some cs
  | _ :: _, [] => none
  | p :: ps, c :: cs => if p = c then afterHead ps cs else none

/-- The names of the registers (10_state.md). -/
def regNames : List (String × RegName) :=
  [("ID", .id), ("VERSION", .version), ("IN_SIZE_R", .inSizeR), ("OUT_SIZE_R", .outSizeR), ("CMD", .cmd),
   ("STATUS", .status), ("ERR_CODE", .errCode), ("ERR_INFO", .errInfo), ("IRQ_EN", .irqEn),
   ("SRC_PTR", .srcPtr), ("SRC_END", .srcEnd), ("DST_PTR", .dstPtr)] ++
  [("ARG0", .arg0), ("ARG1", .arg1), ("ARG2", .arg2), ("RES0", .res0), ("RES1", .res1), ("RES2", .res2),
   ("RES3", .res3), ("ROOT", .root), ("NODE_COUNT", .nodeCount), ("INTERNAL_COUNT", .internalCount),
   ("PQ_COUNT", .pqCount), ("PQ_SEQ", .pqSeq)]

/-- `s]…` of FREQ[s] and CODE[s]: the symbol and the text after the bracket. The symbol, like the k of IN+k, OUT+k and
CODE[s].w<k>, is written in decimal or in 0x hexadecimal, which R90 says of the value v only (DESIGN CHOICE, log 25);
R44 and R45 give it 0 to 255. -/
def readIndexed (cs : List Char) : Option (Nat × List Char) :=
  match splitAt ']' cs with
  | [ds, rest] =>
    match readNumber ds with
    | some s => if s < 256 then some (s, rest) else none
    | none => none
  | _ => none

/-- The largest sizes R8 allows of IN and OUT: how far their windows can reach (R60). -/
def inWindow : Nat := 0x100000

def outWindow : Nat := 0x200000

/-- The address of byte k of a buffer's window. A k that lies in no window R8 allows is no name; one beyond the block's
own buffer is a name, and its access is the bus error of R63 (DESIGN CHOICE, log 25). -/
def readBufferIndex (addr : Nat → Nat) (window : Nat) (ds : List Char) : Option Nat :=
  match readNumber ds with
  | some k => if k < window then some (addr k) else none
  | none => none

/-- The address of a window word (R90): IN+k, OUT+k, FREQ[s], CODE[s].len, CODE[s].w<k>; or an address written as a
number, as 95_test_vectors.md writes it (log 24). Which k of IN+k and OUT+k are
names, and how k and s are written: DESIGN CHOICE, log 25. An entry of CODE has the words 0 to 15 (R45). -/
def readWindowName (cs : List Char) : Option Nat :=
  match afterHead "IN+".toList cs with
  | some ds => readBufferIndex inAddr inWindow ds
  | none =>
    match afterHead "OUT+".toList cs with
    | some ds => readBufferIndex outAddr outWindow ds
    | none =>
      match afterHead "FREQ[".toList cs with
      | some rest =>
        match readIndexed rest with
        | some (s, []) => some (freqAddr s)
        | _ => none
      | none =>
        match afterHead "CODE[".toList cs with
        | some rest =>
          match readIndexed rest with
          | some (s, field) =>
            if field = ".len".toList then some (codeLenAddr s)
            else
              match (afterHead ".w".toList field).bind readNumber with
              | some k => if k < 16 then some (codeLenAddr s + 4 * k) else none
              | none => none
          | none => none
        | none => readNumber cs

/-- The address a NAME stands for; it must lie in the 22-bit space (R60). -/
def readName (cs : List Char) : Except AsmError Nat :=
  match regNames.find? (fun e => e.1.toList == cs) with
  | some (_, r) => .ok r.offset
  | none =>
    match readWindowName cs with
    | some a => if a < 2 ^ 22 then .ok a else .error .name
    | none => .error .name

/-- A 32-bit value: the v of `wr`, the raw word of `cmd 0x<hex>`, the count of COMPRESS and DECOMPRESS. R90 and R91 do not
say what a number of 2^32 or more is; here it is a number error (DESIGN CHOICE, log 25). -/
def readValue (cs : List Char) : Except AsmError Word :=
  match readNumber cs with
  | some v => if v < 2 ^ 32 then .ok (BitVec.ofNat 32 v) else .error .number
  | none => .error .number

/-- The command word of `cmd M` or `cmd 0x<hex>` (R90, R91). -/
def readCommand (cs : List Char) : Except AsmError Word :=
  match mnemonicWords.find? (fun e => e.1.toList == cs) with
  | some (_, c) => .ok c
  | none =>
    match afterHead "0x".toList cs with
    | some _ => readValue cs
    | none => .error .mnemonic

/-- A byte of a `loadin` list, in either number form (DESIGN CHOICE, log 25). -/
def readByte (cs : List Char) : Except AsmError Byte :=
  match readNumber (trimBlanks cs) with
  | some v => if v < 256 then .ok (BitVec.ofNat 8 v) else .error .number
  | none => .error .number

/-- Read every item of a list. -/
def readAll {α : Type} (f : List Char → Except AsmError α) : List (List Char) → Except AsmError (List α)
  | [] => .ok []
  | x :: xs => do
    let y ← f x
    let ys ← readAll f xs
    return y :: ys

/-- `k, [b0, b1, ...]` of loadin (R92). Bytes that lie in no IN window R8 allows have no word `IN+4j`: a name error, as
for `wr` (DESIGN CHOICE, log 25). -/
def readLoad (cs : List Char) : Except AsmError (List HostOp) :=
  match splitAt '[' cs with
  | [front, back] =>
    match splitAt ',' front, splitAt ']' (trimBlanks back) with
    | [k, gap], [items, []] =>
      if trimBlanks gap = [] then
        match readNumber (trimBlanks k) with
        | some n => do
          let bytes ← readAll readByte (if trimBlanks items = [] then [] else splitAt ',' items)
          if n + bytes.length ≤ inWindow then return loadin n bytes else .error .name
        | none => .error .number
      else .error .statement
    | _, _ => .error .statement
  | _ => .error .statement

/-- The number operand of COMPRESS and DECOMPRESS (R95, R96): a 32-bit value, as `wr SRC_END` takes. A count outside the
rule's precondition but below 2^32 expands as it stands; a larger one is a number error (DESIGN CHOICE, log 25). -/
def readCount (f : Nat → List HostOp) (cs : List Char) : Except AsmError (List HostOp) := do
  let n ← readValue cs
  return f n.toNat

/-- A keyword and the text after the blank that ends it (log 25). -/
def splitKeyword : List Char → List Char × List Char
  | [] => ([], [])
  | c :: cs =>
    if isBlank c then ([], trimBlanks cs)
    else
      let (k, rest) := splitKeyword cs
      (c :: k, rest)

/-- One statement (R90 to R92, R95, R96); nothing stands for an empty one. -/
def readStatement (text : List Char) : Except AsmError (List HostOp) :=
  let cs := trimBlanks text
  let (k, rest) := splitKeyword cs
  if cs = [] then .ok []
  else if k = "wr".toList then
    match splitAt ',' rest with
    | [name, v] => do
      let a ← readName (trimBlanks name)
      let w ← readValue (trimBlanks v)
      return [wrAt a w]
    | _ => .error .statement
  else if k = "rd".toList then do
    let a ← readName rest
    return [rdAt a]
  else if k = "cmd".toList then do
    let c ← readCommand rest
    return [cmdRaw c]
  else if cs = "wait".toList then .ok [.wait]
  else if cs = "waitok".toList then .ok waitok
  else if k = "loadin".toList then readLoad rest
  else if k = "COMPRESS".toList then readCount compress rest
  else if k = "DECOMPRESS".toList then readCount decompress rest
  else .error .statement

/-- A host program (R90): lines, each holding statements separated by `;`, executed left to right. -/
def assemble (text : String) : Except AsmError (List HostOp) := do
  let statements := (splitAt '\n' text.toList).flatMap fun line => splitAt ';' (cutComment line)
  let ops ← readAll readStatement statements
  return ops.flatten

end Sys2Proof.Machine
end

