-- ==== Sys2Proof/Safety.lean ====
section
/-! DEFINITION. What claims are stated in: Huffman trees as data, what memory and the arena hold, the invariants of
the machine, and safe runs. -/

namespace Sys2Proof.Safety

open Sys2Proof.Machine

/-! ### Huffman trees -/

/-- A Huffman tree (R12): a leaf holds a symbol, an internal node two children. -/
inductive HTree where
  | leaf (sym : Byte)
  | node (left right : HTree)
deriving DecidableEq, Repr

/-- K: the number of internal nodes. -/
def HTree.internals : HTree → Nat
  | .leaf _ => 0
  | .node l r => l.internals + r.internals + 1

/-- The leaves from left to right, each with its path from the root: 0 for left, 1 for right (R12 CodeTable). -/
def HTree.paths : HTree → Bits → List (Byte × Bits)
  | .leaf sym, p => [(sym, p)]
  | .node l r, p => l.paths (p ++ [false]) ++ r.paths (p ++ [true])

/-- The leaf symbols from left to right. -/
def HTree.symbols : HTree → List Byte
  | .leaf sym => [sym]
  | .node l r => l.symbols ++ r.symbols

/-- The two record bytes of a child whose internal nodes are numbered from `first` on in postorder (R169). -/
def HTree.childRecord (first : Nat) : HTree → List Byte
  | .leaf sym => [0, sym]
  | .node l r => [1, BitVec.ofNat 8 (first + (HTree.node l r).internals - 1)]

/-- The records of the internal nodes in postorder, numbered from `first` on (R166, R169, R170). -/
def HTree.records : Nat → HTree → List Byte
  | _, .leaf _ => []
  | first, .node l r =>
    HTree.records first l ++ HTree.records (first + l.internals) r ++
      HTree.childRecord first l ++ HTree.childRecord (first + l.internals) r

/-- The first two parts of the file format (R170) of a tree with K ≥ 1: the node-count byte and the records. -/
def HTree.header (t : HTree) : List Byte := BitVec.ofNat 8 t.internals :: HTree.records 0 t

/-- The tree below an arena reference; none where the arena holds no tree there. -/
def treeAt (nodes : List Node) : Nat → Ref → Option HTree
  | 0, _ => none
  | fuel + 1, r =>
    match nodes[r.toNat]? with
    | some (.leaf sym) => some (.leaf sym)
    | some (.internal l rt _) =>
      match treeAt nodes fuel l, treeAt nodes fuel rt with
      | some tl, some tr => some (.node tl tr)
      | _, _ => none
    | none => none

/-- The tree the block holds (R14): the one below ROOT. -/
def treeOf (s : State) : Option HTree := treeAt s.arena.nodes s.arena.nodes.length s.root

/-! ### What memory holds -/

/-- The buffer that starts at an address of the map holds these bytes at index a and on. -/
def bufferHolds (m : Memory) (base a : Nat) (bytes : List Byte) : Prop :=
  ∀ i, (h : i < bytes.length) → m.read (base + (a + i)) = some bytes[i]

/-- IN holds these bytes at index a and on. -/
def inHolds (s : State) (a : Nat) (bytes : List Byte) : Prop := bufferHolds s.mem (inAddr 0) a bytes

/-- OUT holds these bytes at index a and on. -/
def outHolds (s : State) (a : Nat) (bytes : List Byte) : Prop := bufferHolds s.mem (outAddr 0) a bytes

/-- FREQ[sym] has the value f. -/
def freqIs (s : State) (sym : Nat) (f : Word) : Prop :=
  ∀ i, i < 4 → s.mem.read (freqAddr sym + i) = some (f.extractLsb' (8 * i) 8)

/-- V (R11): the integer of a bit string, first bit most significant. -/
def valueOf : Bits → Nat
  | [] => 0
  | b :: bs => b.toNat * 2 ^ bs.length + valueOf bs

/-- CODE[sym] has length len and value val. -/
def codeIs (s : State) (sym : Nat) (len : Byte) (val : BitVec 256) : Prop :=
  s.mem.read (codeLenAddr sym) = some len ∧
    ∀ i, i < 32 → s.mem.read (codeValAddr sym + i) = some (val.extractLsb' (8 * i) 8)

/-- CODE[sym] holds the non-empty bit string code (R45, R211): its length, and its bits right-aligned in the value, of
which only the bytes with bits below the length need have been written. -/
def hasCode (s : State) (sym : Nat) (code : Bits) : Prop :=
  code ≠ [] ∧ code.length < 256 ∧ s.mem.read (codeLenAddr sym) = some (BitVec.ofNat 8 code.length) ∧
    ∃ val : BitVec 256,
      (∀ i, 8 * i < code.length → s.mem.read (codeValAddr sym + i) = some (val.extractLsb' (8 * i) 8)) ∧
      ∀ i, (h : i < code.length) → code[i] = val.getLsbD (code.length - 1 - i)

/-- CODE[sym].len = 0: the symbol has no code (R45). -/
def hasNoCode (s : State) (sym : Nat) : Prop := s.mem.read (codeLenAddr sym) = some 0

/-- An address of the frequency table (R60). -/
abbrev isFreqAddr (a : Nat) : Prop := 0x1000 ≤ a ∧ a < 0x1400

/-- An address of a byte the code table holds (R45, R60): the length byte or a value byte of an entry. -/
abbrev isCodeAddr (a : Nat) : Prop := 0x4000 ≤ a ∧ a < 0x8000 ∧ (a % 64 = 0 ∨ (4 ≤ a % 64 ∧ a % 64 < 36))

/-- An address of the IN buffer (R60). -/
abbrev isInAddr (p : Params) (a : Nat) : Prop := 0x100000 ≤ a ∧ a < 0x100000 + p.inSize

/-- An address of the OUT buffer (R60). -/
abbrev isOutAddr (p : Params) (a : Nat) : Prop := 0x200000 ≤ a ∧ a < 0x200000 + p.outSize

/-- The bits of a byte sequence, each byte's most significant bit first (R64 (d)). -/
def payloadBits (bytes : List Byte) : Bits :=
  bytes.flatMap fun b => (List.range 8).map fun j => b.getLsbD (7 - j)

/-! ### Order of the queue -/

/-- The strict order of R41 on keys. -/
abbrev keyLess (a b : PqEntry) : Prop := a.w.toNat < b.w.toNat ∨ (a.w = b.w ∧ a.seq.toNat < b.seq.toNat)

/-- The entries that up to n extractions return, first first (R114, R113). -/
def drainQueue : Nat → PQueue → List PqEntry
  | 0, _ => []
  | n + 1, q =>
    match q.extractMin with
    | none => []
    | some (e, q') => e :: drainQueue n q'

/-! ### Invariants -/

/-- The queue (R40, R111): at most 256 entries, weights non-negative, sequence numbers rising and below PQ_SEQ. -/
def QueueInv (q : PQueue) : Prop :=
  q.entries.length ≤ 256 ∧ (∀ e ∈ q.entries, e.w.msb = false ∧ e.seq.toNat < q.nextSeq.toNat) ∧
    q.entries.Pairwise (fun a b => a.seq.toNat < b.seq.toNat)

/-- The children of a node. -/
def children : Node → List Nat
  | .leaf _ => []
  | .internal l r _ => [l.toNat, r.toNat]

/-- The number of a node; a leaf has none (R165). -/
def nodeNum : Node → Option Nat
  | .leaf _ => none
  | .internal _ _ num => some num.toNat

/-- The arena below a root (R14, R42, R134, R191): children have smaller refs than their parent, the root is the last
entry, and every other entry is the child of exactly one node; K counts the internal nodes. -/
def ArenaInv (a : Arena) (root : Ref) : Prop :=
  a.nodes.length ≤ 511 ∧ root.toNat + 1 = a.nodes.length ∧
    (∀ r, (h : r < a.nodes.length) → ∀ c ∈ children a.nodes[r], c < r) ∧
    (a.nodes.flatMap children).Perm (List.range (a.nodes.length - 1)) ∧
    a.internalCount.toNat = a.nodes.countP (fun n => !n.isLeaf)

/-- The tree registers (R23, R30, R31, R42): a valid tree is as ArenaInv says, with LEAF_ROOT its root's kind; without
a valid tree the arena is empty. While NUMBERED = 0 every num is 0. -/
def TreeInv (s : State) : Prop :=
  (s.treeValid = true → ArenaInv s.arena s.root ∧
    s.leafRoot = (s.arena.nodes[s.root.toNat]?.map Node.isLeaf).getD false) ∧
  (s.treeValid = false →
    s.arena = Arena.empty ∧ s.root = 0 ∧ s.leafRoot = false ∧ s.numbered = false) ∧
  (s.numbered = false → ∀ n ∈ s.arena.nodes, nodeNum n = none ∨ nodeNum n = some 0)

/-- While NUMBERED = 1 the internal nodes carry the postorder numbers 0..K-1, each once (R23, R165, R166). -/
def NumberInv (s : State) : Prop :=
  s.numbered = true →
    (s.arena.nodes.filterMap nodeNum).Perm (List.range s.arena.internalCount.toNat)

/-- The error codes of R250, with 0 for none. -/
def errorCodes : List Byte := [0x00, 0x01, 0x02, 0x03, 0x04, 0x10, 0x11, 0x12, 0x13, 0x14, 0x15]

/-- The lifecycle (R100, R250, R258): a pending command has DONE = 0 and no latched error; ERR_CODE is a code of R250;
ERR_INFO is 0 without an error. -/
def LatchInv (s : State) : Prop :=
  (s.busy = true → s.done = false ∧ s.errCode = 0) ∧ s.errCode ∈ errorCodes ∧
    (s.errCode = 0 → s.errInfo = 0)

/-- Every byte memory lists is in a window of the map that can be written (R60). -/
def MappedInv (s : State) : Prop :=
  ∀ c ∈ s.mem, isFreqAddr c.1 ∨ isCodeAddr c.1 ∨ isInAddr s.params c.1 ∨ isOutAddr s.params c.1

/-! ### Safe runs -/

/-- Quiescent (R13) with nothing left for the host to do: a run has ended (R301). -/
def ended (s : State) : Prop := s.host = [] ∧ s.busy = false

/-- A step of the host's program has not met a fault or a refusal. -/
def answers (o : Host.Outcome State Fault Refusal) (P : State → Prop) : Prop := ∃ t, o = .next t ∧ P t

/-- An error of a command that writes OUT (R252): it records the code and the detail and completes; of the rest only the
bytes of OUT from DST_PTR on, which become unspecified, may change (and the model's draw counter, log 6). -/
def failsOverOut (s : State) (i : Instr) (code : Byte) (info : Word) : Prop :=
  answers (exec i s) fun t =>
    t = { s with errCode := code, errInfo := info, busy := false, done := true, mem := t.mem, draws := t.draws } ∧
    ∀ a, a < outAddr s.dstPtr.toNat ∨ outAddr s.params.outSize ≤ a → t.mem.read a = s.mem.read a

/-- A safe run of k steps: every step answers a next state. -/
def safeRun : Nat → State → Prop
  | 0, _ => True
  | k + 1, s => answers (step s) (safeRun k)

end Sys2Proof.Safety
end

