-- ==== Sys2Proof/Certificates/Slice0/Obligations.lean ====
section
/-! DEFINITION. The statements for the provers. Each docstring names the rule of spec/ it formalises. A statement that
rests on a choice of the model says so and names the log entry. -/

open Sys2Proof Sys2Proof.Machine Sys2Proof.Safety

/-! ### Encoding -/

/-- R80 to R84: the encoder and the decoder agree in both directions. Every command, with either value of F0 where it
has one, decodes from its word; and a word that decodes is the word of what it decodes to. -/
def Obligations.DecodeAndEncodeAgree : Prop :=
  (∀ i : Instr, i.wf = true → decode (encode i) = .ok i) ∧
  ∀ (c : Word) (i : Instr), decode c = .ok i → encode i = c

/-- R84: a word decodes exactly where a row of the opcode table covers it, and no two rows cover one word. -/
def Obligations.OpcodeRowsPartitionLegalWords : Prop :=
  (∀ c : Word, (∃ i, decode c = .ok i) ↔ ∃ row ∈ opcodeRows, row.covers c = true) ∧
  ∀ (c : Word) (r₁ r₂ : OpcodeRow), r₁ ∈ opcodeRows → r₂ ∈ opcodeRows →
    r₁.covers c = true → r₂.covers c = true → r₁ = r₂

/-- R84: words written out from the spec's list decode to their commands (a sanity statement). -/
def Obligations.ListedWordsDecode : Prop :=
  decode 0x00000000#32 = .ok .nop ∧ decode 0x00000011#32 = .ok .freqCnt ∧ decode 0x00000022#32 = .ok .pqExt ∧
  decode 0x00000030#32 = .ok .build ∧ decode 0x00000039#32 = .ok .codegen ∧ decode 0x00000041#32 = .ok .ser ∧
  decode 0x00000148#32 = .ok (.deser true) ∧ decode 0x00000150#32 = .ok (.pack true) ∧
  decode 0x00000058#32 = .ok (.unpack false) ∧ decode 0x00000130#32 = .error .f0NotDefined ∧
  decode 0x00010000#32 = .error .reservedBits ∧ decode 0x00000002#32 = .error .unlistedOp

/-! ### The lifecycle of a command -/

/-- R101, R6: a pending legal command is run by the next turn of the engine: where the host has nothing to do, where it
idles, and while it waits (the form of the schedule is the model's, log 1); a quiescent block without a host operation
stays as it is (log 14). -/
def Obligations.StepRunsDecodedCommand : Prop :=
  (∀ (s : State) (i : Instr), s.busy = true → decode s.cmdLast = .ok i →
    (s.host = [] → step s = exec i s) ∧
    (∀ rest, s.host = .idle :: rest → step s = exec i { s with host := rest }) ∧
    (∀ rest, s.host = .wait :: rest → step s = exec i s)) ∧
  ∀ s : State, s.busy = false → s.host = [] → step s = .next s

/-- R81: a word offered to a quiescent block without a latched error is accepted whether it is legal or not; if it is
legal the next step runs its command, and if not it completes with IllegalCommand and the word as ERR_INFO. -/
def Obligations.IllegalWordCompletesWithIllegalCommand : Prop :=
  ∀ (s : State) (c : Word), s.busy = false → s.errCode = 0 → s.host = [.write .word 0x000010#22 c] →
    answers (step s) fun u =>
      u.busy = true ∧ u.cmdLast = c ∧ u.host = [] ∧
      (Cmd.opListed c = true ∧ Cmd.reservedZero c = true ∧ Cmd.f0Allowed c = true →
        ∃ i, decode c = .ok i ∧ step u = exec i u) ∧
      (¬ (Cmd.opListed c = true ∧ Cmd.reservedZero c = true ∧ Cmd.f0Allowed c = true) →
        step u = .next { u with errCode := 0x10, errInfo := c, busy := false, done := true })

/-- R100: the command offer. -/
def Obligations.CommandOfferAcceptsOrDrops : Prop :=
  ∀ (s : State) (c : Word) (rest : List HostOp), s.host = .write .word 0x000010#22 c :: rest →
    (s.busy = false ∧ s.errCode = 0 →
      step s = .next { s with cmdLast := c, busy := true, done := false, host := rest, reply := .written }) ∧
    (¬ (s.busy = false ∧ s.errCode = 0) →
      step s = .next { s with dropped := true, host := rest, reply := .written })

/-- R101, R252: whatever a command does, a completion ends BUSY and sets DONE; it leaves CMD_LAST, DROPPED, IRQ_EN,
SRC_END, the ARG registers, the parameters and the host as they are; and it latches an error of R250 or leaves the error
registers alone. -/
def Obligations.CompletionEndsTheCommand : Prop :=
  ∀ (i : Instr) (s t : State), exec i s = .next t →
    t.busy = false ∧ t.done = true ∧ t.cmdLast = s.cmdLast ∧ t.dropped = s.dropped ∧ t.irqEn = s.irqEn ∧
    t.srcEnd = s.srcEnd ∧ t.arg0 = s.arg0 ∧ t.arg1 = s.arg1 ∧ t.arg2 = s.arg2 ∧ t.params = s.params ∧
    t.host = s.host ∧ t.reply = s.reply ∧ t.hostStopped = s.hostStopped ∧
    ((t.errCode = s.errCode ∧ t.errInfo = s.errInfo) ∨ ∃ e : ErrKind, t.errCode = e.code)

/-- R252: the error commit. A command that fails changes the error registers, BUSY and DONE, and otherwise only what its
rule lists: BUILD empties the queue and resets the tree, DESER resets the tree, PACK and UNPACK leave OUT from DST_PTR on
unspecified (free values, log 17). -/
def Obligations.FailedCommandCommitsNothing : Prop :=
  ∀ (i : Instr) (s t : State), s.errCode = 0 → exec i s = .next t → t.errCode ≠ 0 →
    t = { s with
          errCode := t.errCode, errInfo := t.errInfo, busy := false, done := true, queue := t.queue,
          arena := t.arena, root := t.root, treeValid := t.treeValid, leafRoot := t.leafRoot,
          numbered := t.numbered, mem := t.mem, draws := t.draws } ∧
    (if i = .build then t.queue = ⟨[], 0⟩ else t.queue = s.queue) ∧
    (if i = .build ∨ (∃ f, i = .deser f) then
      t.arena = ⟨[], 0⟩ ∧ t.root = 0 ∧ t.treeValid = false ∧ t.leafRoot = false ∧ t.numbered = false
    else
      t.arena = s.arena ∧ t.root = s.root ∧ t.treeValid = s.treeValid ∧ t.leafRoot = s.leafRoot ∧
      t.numbered = s.numbered) ∧
    ∀ a, t.mem.read a ≠ s.mem.read a →
      (∃ f, i = .pack f ∨ i = .unpack f) ∧ outAddr s.dstPtr.toNat ≤ a ∧ a < outAddr s.params.outSize

/-- R24, R257: the return from an error. A host write of 0 to ERR_CODE clears ERR_CODE and ERR_INFO, a write of another
value is ignored, and a read gives the code with bits [31:8] zero. -/
def Obligations.WriteOfZeroClearsTheError : Prop :=
  ∀ (s : State) (v : Word) (rest : List HostOp), s.busy = false →
    (s.host = .write .word 0x000018#22 v :: rest →
      step s = .next (if v = 0 then { s with errCode := 0, errInfo := 0, host := rest, reply := .written }
        else { s with host := rest, reply := .written })) ∧
    (s.host = .read .word 0x000018#22 :: rest →
      step s = .next { s with host := rest, reply := .data (BitVec.ofNat 32 s.errCode.toNat) })

/-- R260, R23: the irq output, read off the STATUS word and IRQ_EN; and STATUS holds its eight flags in bits [7:0] and
zeros above. -/
def Obligations.InterruptFollowsStatus : Prop :=
  ∀ s : State,
    (s.irq = true ↔
      (s.statusWord.getLsbD 1 = true ∧ s.irqEn.getLsbD 0 = true) ∨
      (s.statusWord.getLsbD 2 = true ∧ s.irqEn.getLsbD 1 = true) ∨
      (s.statusWord.getLsbD 3 = true ∧ s.irqEn.getLsbD 2 = true)) ∧
    (s.statusWord.getLsbD 0 = s.busy ∧ s.statusWord.getLsbD 1 = s.done ∧
      s.statusWord.getLsbD 2 = decide (s.errCode ≠ 0) ∧ s.statusWord.getLsbD 3 = s.dropped ∧
      s.statusWord.getLsbD 4 = decide (s.queue.entries.length = 0) ∧ s.statusWord.getLsbD 5 = s.treeValid ∧
      s.statusWord.getLsbD 6 = s.leafRoot ∧ s.statusWord.getLsbD 7 = s.numbered ∧
      ∀ i, 8 ≤ i → s.statusWord.getLsbD i = false)

/-- R92: the second half of waitok. With an error latched the host's program stops, and what is left are the reads of
ERR_CODE and ERR_INFO (log 16); without one the program goes on. -/
def Obligations.WaitokStopsTheHostOnError : Prop :=
  ∀ (s : State) (rest : List HostOp), s.host = .checkOk :: rest →
    (s.errCode ≠ 0 →
      step s = .next { s with
        host := [.read .word 0x000018#22, .read .word 0x00001C#22], hostStopped := true, reply := .data s.statusWord }) ∧
    (s.errCode = 0 → step s = .next { s with host := rest, reply := .data s.statusWord })

/-! ### Reset -/

/-- R50: the values after reset, read through the host's registers, for every size of the buffers. -/
def Obligations.ResetLeavesTheValuesOfR50 : Prop :=
  ∀ p : Params,
    (∀ r : RegName, (State.resetWith p).readReg r =
      match r with
      | .id => 0x48554646#32
      | .version => 0x00010000#32
      | .inSizeR => BitVec.ofNat 32 p.inSize
      | .outSizeR => BitVec.ofNat 32 p.outSize
      | .status => 0x00000010#32
      | _ => 0#32) ∧
    (State.resetWith p).queue.entries = [] ∧ (State.resetWith p).arena.nodes = [] ∧
    (∀ a, (State.resetWith p).mem.read a = none) ∧ (State.resetWith p).irq = false

/-- R280: reset abandons a pending command: the block is as after reset, its parameters kept. What the host agent holds
is the model's (log 20). -/
def Obligations.ResetAbandonsThePendingCommand : Prop :=
  ∀ (s : State) (rest : List HostOp), s.host = .reset :: rest →
    step s = .next { State.resetWith s.params with
      host := rest, reply := s.reply, hostStopped := s.hostStopped, draws := s.draws }

/-- Every invariant below holds after reset, for every size of the buffers. -/
def Obligations.InvariantsHoldAfterReset : Prop :=
  ∀ p : Params, (State.resetWith p).mem.wf ∧ MappedInv (State.resetWith p) ∧ QueueInv (State.resetWith p).queue ∧
    TreeInv (State.resetWith p) ∧ NumberInv (State.resetWith p) ∧ LatchInv (State.resetWith p)

/-! ### Invariants every step keeps -/

/-- The memory's canonical form (the model's representation, log 4) is kept by every step. -/
def Obligations.StepKeepsMemoryCanonical : Prop :=
  ∀ s t : State, s.mem.wf → step s = .next t → t.mem.wf

/-- R60, R66, R255: with sizes R8 allows, no step stores outside FREQ, CODE, IN and OUT. -/
def Obligations.StepStoresOnlyInMappedMemory : Prop :=
  ∀ s t : State, s.params.legal = true → MappedInv s → step s = .next t → t.params = s.params ∧ MappedInv t

/-- R40, R41, R111, R136: the queue keeps at most 256 entries with non-negative weights (BUILD's sums do not overflow)
and distinct, rising sequence numbers below PQ_SEQ. -/
def Obligations.StepKeepsQueueInvariant : Prop :=
  ∀ s t : State, QueueInv s.queue → step s = .next t → QueueInv t.queue

/-- R14, R42, R134, R191: every step keeps the tree invariant: BUILD and DESER establish it, no command breaks it. -/
def Obligations.StepKeepsTreeInvariant : Prop :=
  ∀ s t : State, TreeInv s → step s = .next t → TreeInv t

/-- R23 (NUMBERED), R165: while NUMBERED = 1 the internal nodes carry exactly the numbers 0..K-1. -/
def Obligations.StepKeepsNumberInvariant : Prop :=
  ∀ s t : State, TreeInv s → NumberInv s → step s = .next t → NumberInv t

/-- R100, R250, R258: a pending command has no latched error, ERR_CODE is a code of R250, and ERR_INFO is 0 without an
error. -/
def Obligations.StepKeepsErrorLatch : Prop :=
  ∀ s t : State, LatchInv s → step s = .next t → LatchInv t

/-- R14: where the tree invariant holds and TREE_VALID = 1, the arena below ROOT is a full binary tree that uses every
entry: K internal nodes, K + 1 leaves. -/
def Obligations.ValidArenaIsAFullBinaryTree : Prop :=
  ∀ s : State, TreeInv s → s.treeValid = true →
    ∃ T : HTree, treeOf s = some T ∧ T.internals = s.arena.internalCount.toNat ∧
      T.symbols.length = T.internals + 1 ∧ s.arena.nodes.length = 2 * T.internals + 1

/-! ### The bus -/

/-- R62, R44, R45, R64 (a): a word the host writes to FREQ, to a CODE value, to IN or to OUT is stored as its four bytes,
least significant first, at ascending addresses, changes no other byte, and reads back. -/
def Obligations.WindowWordsAreLittleEndian : Prop :=
  ∀ (s : State) (n : Nat) (v : Word), s.params.legal = true → s.busy = false → n % 4 = 0 →
    ((0x1000 ≤ n ∧ n < 0x1400) ∨ (0x4000 ≤ n ∧ n < 0x8000 ∧ 4 ≤ n % 64 ∧ n % 64 < 36) ∨
      (0x100000 ≤ n ∧ n < 0x100000 + s.params.inSize) ∨ (0x200000 ≤ n ∧ n < 0x200000 + s.params.outSize)) →
    s.host = [.write .word (BitVec.ofNat 22 n) v, .read .word (BitVec.ofNat 22 n)] →
    answers (step s) fun t =>
      t = { s with mem := t.mem, host := [.read .word (BitVec.ofNat 22 n)], reply := .written } ∧
      (∀ j, j < 4 → t.mem.read (n + j) = some (v.extractLsb' (8 * j) 8)) ∧
      (∀ a, a < n ∨ n + 4 ≤ a → t.mem.read a = s.mem.read a) ∧
      answers (step t) fun u => u.reply = .data v ∧ u.mem = t.mem

/-- R45: word 0 of a CODE entry stores bits [7:0] and reads them back with zeros above; words 9 to 15 read 0 and ignore
writes. -/
def Obligations.CodeLengthWordStoresOneByte : Prop :=
  ∀ (s : State) (sym k : Nat) (v : Word), s.busy = false → sym < 256 →
    (answers (s.busWrite .word (BitVec.ofNat 22 (0x4000 + 64 * sym)) v) fun t =>
      t = { s with mem := t.mem, reply := .written } ∧
      t.mem.read (0x4000 + 64 * sym) = some (v.extractLsb' 0 8) ∧
      (∀ a, a ≠ 0x4000 + 64 * sym → t.mem.read a = s.mem.read a) ∧
      answers (t.busRead .word (BitVec.ofNat 22 (0x4000 + 64 * sym))) fun u =>
        u = { t with reply := .data (BitVec.ofNat 32 (v.toNat % 256)) }) ∧
    (9 ≤ k ∧ k ≤ 15 →
      s.busWrite .word (BitVec.ofNat 22 (0x4000 + 64 * sym + 4 * k)) v = .next { s with reply := .written } ∧
      s.busRead .word (BitVec.ofNat 22 (0x4000 + 64 * sym + 4 * k)) = .next { s with reply := .data 0 })

/-- R43: the NODE window of an entry in use reads its fields, other bits 0; a write to the window is ignored. -/
def Obligations.NodeWindowShowsTheFields : Prop :=
  ∀ (s : State) (r : Nat) (v : Word), s.busy = false → (h : r < s.arena.nodes.length) → r < 511 →
    (∃ w₀ w₁ : Word,
      s.busRead .word (BitVec.ofNat 22 (0x2000 + 8 * r)) = .next { s with reply := .data w₀ } ∧
      s.busRead .word (BitVec.ofNat 22 (0x2004 + 8 * r)) = .next { s with reply := .data w₁ } ∧
      match s.arena.nodes[r] with
      | .leaf sym => w₀.toNat = 256 * sym.toNat ∧ w₁ = 0
      | .internal lc rc num => w₀.toNat = 1 + 65536 * num.toNat ∧ w₁.toNat = lc.toNat + 65536 * rc.toNat) ∧
    s.busWrite .word (BitVec.ofNat 22 (0x2000 + 8 * r)) v = .next { s with reply := .written } ∧
    s.busWrite .word (BitVec.ofNat 22 (0x2004 + 8 * r)) v = .next { s with reply := .written }

/-- R20 to R25, R27 to R32: every register while BUSY = 0. A read gives the value its rule names, bits above a shorter
field 0 (STATUS is the word whose bits InterruptFollowsStatus gives). The cursors and ARG registers store any value,
IRQ_EN three bits, a 1 written to STATUS clears DONE or DROPPED, read-only registers ignore writes (for CMD see
CommandOfferAcceptsOrDrops, for ERR_CODE WriteOfZeroClearsTheError). -/
def Obligations.RegistersStoreOrIgnoreWrites : Prop :=
  ∀ (s : State) (v : Word), s.busy = false →
    (let reads (a : Addr) (w : Word) : Prop := s.busRead .word a = .next { s with reply := .data w }
    (reads 0x000000#22 0x48554646#32 ∧ reads 0x000004#22 0x00010000#32 ∧
      reads 0x000008#22 (BitVec.ofNat 32 s.params.inSize) ∧ reads 0x00000C#22 (BitVec.ofNat 32 s.params.outSize)) ∧
    (reads 0x000010#22 s.cmdLast ∧ reads 0x000014#22 s.statusWord ∧
      reads 0x000018#22 (BitVec.ofNat 32 s.errCode.toNat) ∧ reads 0x00001C#22 s.errInfo ∧
      reads 0x000020#22 (BitVec.ofNat 32 s.irqEn.toNat)) ∧
    (reads 0x000030#22 s.srcPtr ∧ reads 0x000034#22 s.srcEnd ∧ reads 0x000038#22 s.dstPtr) ∧
    (reads 0x000040#22 s.arg0 ∧ reads 0x000044#22 s.arg1 ∧ reads 0x000048#22 s.arg2) ∧
    (reads 0x000050#22 s.res.r0 ∧ reads 0x000054#22 s.res.r1 ∧ reads 0x000058#22 s.res.r2 ∧
      reads 0x00005C#22 s.res.r3) ∧
    (reads 0x000060#22 (BitVec.ofNat 32 s.root.toNat) ∧ reads 0x000064#22 (BitVec.ofNat 32 s.arena.nodes.length) ∧
      reads 0x000068#22 (BitVec.ofNat 32 s.arena.internalCount.toNat) ∧
      reads 0x00006C#22 (BitVec.ofNat 32 s.queue.entries.length) ∧ reads 0x000070#22 s.queue.nextSeq)) ∧
    s.busWrite .word 0x000014#22 v =
      .next { s with done := s.done && !v.getLsbD 1, dropped := s.dropped && !v.getLsbD 3, reply := .written } ∧
    s.busWrite .word 0x000020#22 v = .next { s with irqEn := v.extractLsb' 0 3, reply := .written } ∧
    s.busWrite .word 0x000030#22 v = .next { s with srcPtr := v, reply := .written } ∧
    s.busWrite .word 0x000034#22 v = .next { s with srcEnd := v, reply := .written } ∧
    s.busWrite .word 0x000038#22 v = .next { s with dstPtr := v, reply := .written } ∧
    s.busWrite .word 0x000040#22 v = .next { s with arg0 := v, reply := .written } ∧
    s.busWrite .word 0x000044#22 v = .next { s with arg1 := v, reply := .written } ∧
    s.busWrite .word 0x000048#22 v = .next { s with arg2 := v, reply := .written } ∧
    ∀ r ∈ [RegName.id, .version, .inSizeR, .outSizeR, .errInfo, .res0, .res1, .res2, .res3, .root, .nodeCount,
        .internalCount, .pqCount, .pqSeq],
      s.busWrite .word (BitVec.ofNat 22 r.offset) v = .next { s with reply := .written }

/-- R61, R63, R33, R60: an access of another width, at an address that is not a multiple of 4, or to an unmapped address is
a bus error (the host's fault, R61); a reserved register offset, or a reserved word of the NODE window, reads 0 and ignores
writes (while BUSY = 0). -/
def Obligations.BusErrorsAndReservedWords : Prop :=
  (∀ (s : State) (width : AccessWidth) (a : Addr) (v : Word), width ≠ .word ∨ a.toNat % 4 ≠ 0 →
    s.busRead width a = .fault (.busError a) ∧ s.busWrite width a v = .fault (.busError a)) ∧
  ∀ (s : State) (a : Addr) (v : Word), a.toNat % 4 = 0 →
    (s.params.legal = true →
      (0x100 ≤ a.toNat ∧ a.toNat < 0x1000) ∨ (0x1400 ≤ a.toNat ∧ a.toNat < 0x2000) ∨
      (0x3000 ≤ a.toNat ∧ a.toNat < 0x4000) ∨ (0x8000 ≤ a.toNat ∧ a.toNat < 0x100000) ∨
      (0x100000 + s.params.inSize ≤ a.toNat ∧ a.toNat < 0x200000) ∨ (0x200000 + s.params.outSize ≤ a.toNat) →
      s.busRead .word a = .fault (.busError a) ∧ s.busWrite .word a v = .fault (.busError a)) ∧
    (s.busy = false →
      (a.toNat < 0x100 ∧ ∀ r : RegName, r.offset ≠ a.toNat) ∨ (0x2FF8 ≤ a.toNat ∧ a.toNat < 0x3000) →
      s.busRead .word a = .next { s with reply := .data 0 } ∧
      s.busWrite .word a v = .next { s with reply := .written })

/-- R65: a read has no side effect: it gives the host a word and changes nothing of the block (draws is the model's own
counter of free values, log 6). -/
def Obligations.ReadsHaveNoSideEffects : Prop :=
  ∀ (s t : State) (width : AccessWidth) (a : Addr), s.busRead width a = .next t →
    ∃ (w : Word) (d : Nat), t = { s with reply := .data w, draws := d }

/-- R68: while BUSY = 1 the stable registers return their current values, and a read of any other register or of a
window word returns some word. -/
def Obligations.BusyReadsAreStableOrFree : Prop :=
  ∀ s : State, s.busy = true →
    (let reads (a : Addr) (w : Word) : Prop := s.busRead .word a = .next { s with reply := .data w }
    reads 0x000000#22 0x48554646#32 ∧ reads 0x000004#22 0x00010000#32 ∧
      reads 0x000008#22 (BitVec.ofNat 32 s.params.inSize) ∧ reads 0x00000C#22 (BitVec.ofNat 32 s.params.outSize) ∧
      reads 0x000010#22 s.cmdLast ∧ reads 0x000014#22 s.statusWord ∧
      reads 0x000018#22 (BitVec.ofNat 32 s.errCode.toNat) ∧ reads 0x000020#22 (BitVec.ofNat 32 s.irqEn.toNat)) ∧
    (∀ r ∈ [RegName.errInfo, .srcPtr, .srcEnd, .dstPtr, .arg0, .arg1, .arg2, .res0, .res1, .res2, .res3, .root,
        .nodeCount, .internalCount, .pqCount, .pqSeq],
      ∃ w : Word, s.busRead .word (BitVec.ofNat 22 r.offset) = .next { s with reply := .data w, draws := s.draws + 1 }) ∧
    ∀ a : Addr, a.toNat % 4 = 0 →
      (isFreqAddr a.toNat ∨ isCodeAddr a.toNat ∨ isInAddr s.params a.toNat ∨ isOutAddr s.params a.toNat ∨
        (0x2000 ≤ a.toNat ∧ a.toNat < 0x2FF8)) →
      ∃ w : Word, s.busRead .word a = .next { s with reply := .data w, draws := s.draws + 1 }

/-- R69: writes while BUSY = 1. Writes to STATUS and IRQ_EN take effect, a write to a read-only register is ignored, and
a write to CMD, to any other register or to a word of FREQ, CODE, IN or OUT is dropped. -/
def Obligations.BusyWritesAreDropped : Prop :=
  ∀ (s : State) (v : Word), s.busy = true →
    s.busWrite .word 0x000014#22 v =
      .next { s with done := s.done && !v.getLsbD 1, dropped := s.dropped && !v.getLsbD 3, reply := .written } ∧
    s.busWrite .word 0x000020#22 v = .next { s with irqEn := v.extractLsb' 0 3, reply := .written } ∧
    (∀ r ∈ [RegName.id, .version, .inSizeR, .outSizeR, .errInfo, .res0, .res1, .res2, .res3, .root, .nodeCount,
        .internalCount, .pqCount, .pqSeq],
      s.busWrite .word (BitVec.ofNat 22 r.offset) v = .next { s with reply := .written }) ∧
    (∀ r ∈ [RegName.cmd, .errCode, .srcPtr, .srcEnd, .dstPtr, .arg0, .arg1, .arg2],
      s.busWrite .word (BitVec.ofNat 22 r.offset) v = .next { s with dropped := true, reply := .written }) ∧
    ∀ a : Addr, a.toNat % 4 = 0 →
      (isFreqAddr a.toNat ∨ isCodeAddr a.toNat ∨ isInAddr s.params a.toNat ∨ isOutAddr s.params a.toNat) →
      s.busWrite .word a v = .next { s with dropped := true, reply := .written }

/-! ### Control and the priority queue -/

/-- R102, R103, R110: NOP, CLEAR and PQ.CLR, their words and their whole effect. Everything they do not name is unchanged:
for CLEAR also FREQ, CODE, IN, OUT, the cursors, ARG, IRQ_EN and the error registers, for PQ.CLR also the tree. -/
def Obligations.NopClearAndPqClrHaveTheirWholeEffect : Prop :=
  (decode 0x00000000#32 = .ok .nop ∧ decode 0x00000001#32 = .ok .clear ∧ decode 0x00000020#32 = .ok .pqClr) ∧
  ∀ s : State,
    exec .nop s = .next { s with res := ⟨0, 0, 0, 0⟩, busy := false, done := true } ∧
    exec .clear s = .next { s with
      queue := ⟨[], 0⟩, arena := ⟨[], 0⟩, root := 0, treeValid := false, leafRoot := false, numbered := false,
      res := ⟨0, 0, 0, 0⟩, busy := false, done := true } ∧
    exec .pqClr s = .next { s with queue := ⟨[], 0⟩, res := ⟨0, 0, 0, 0⟩, busy := false, done := true }

/-- R111: PQ.INS. NegativeWeight, then QueueOverflow with 0 and with 1, in that order; else the entry (W, PQ_SEQ, tag) is
added, PQ_SEQ advances, RES0 is the sequence number and RES1 the new count. -/
def Obligations.PqInsInsertsOrRefuses : Prop :=
  decode 0x00000021#32 = .ok .pqIns ∧
  ∀ s : State,
    (s.arg1.getLsbD 31 = true → exec .pqIns s = .next { s with
      errCode := 0x11, errInfo := s.arg1, busy := false, done := true }) ∧
    (s.arg1.getLsbD 31 = false → s.queue.entries.length = 256 → exec .pqIns s = .next { s with
      errCode := 0x12, errInfo := 0, busy := false, done := true }) ∧
    (s.arg1.getLsbD 31 = false → s.queue.entries.length ≠ 256 → s.queue.nextSeq = 0xFFFFFFFF#32 →
      exec .pqIns s = .next { s with errCode := 0x12, errInfo := 1, busy := false, done := true }) ∧
    (s.arg1.getLsbD 31 = false → s.queue.entries.length ≠ 256 → s.queue.nextSeq ≠ 0xFFFFFFFF#32 →
      exec .pqIns s = .next { s with
        queue := ⟨s.queue.entries ++ [⟨BitVec.ofNat 64 (s.arg1.toNat * 2 ^ 32 + s.arg0.toNat), s.queue.nextSeq,
          BitVec.ofNat 16 s.arg2.toNat⟩], s.queue.nextSeq + 1⟩,
        res := ⟨s.queue.nextSeq, BitVec.ofNat 32 (s.queue.entries.length + 1), 0, 0⟩,
        busy := false, done := true })

/-- R112, R41: PQ.EXT. An empty queue raises QueueUnderflow. Else an entry e that no entry precedes in the order of R41
leaves the queue, and RES0..RES3 are its weight's low and high words, its tag and its sequence number. -/
def Obligations.PqExtTakesTheLeastEntry : Prop :=
  decode 0x00000022#32 = .ok .pqExt ∧
  ∀ s : State,
    (s.queue.entries = [] → exec .pqExt s = .next { s with
      errCode := 0x02, errInfo := 0, busy := false, done := true }) ∧
    (s.queue.entries ≠ [] → ∃ e ∈ s.queue.entries, (∀ x ∈ s.queue.entries, ¬ keyLess x e) ∧
      exec .pqExt s = .next { s with
        queue := ⟨s.queue.entries.erase e, s.queue.nextSeq⟩,
        res := ⟨BitVec.ofNat 32 e.w.toNat, BitVec.ofNat 32 (e.w.toNat / 2 ^ 32), BitVec.ofNat 32 e.tag.toNat, e.seq⟩,
        busy := false, done := true })

/-- R113: no entry is lost. As many extractions as there are entries return each entry exactly once, in ascending key
order. -/
def Obligations.ExtractionsReturnEveryEntryInOrder : Prop :=
  ∀ q : PQueue, QueueInv q →
    (drainQueue q.entries.length q).Perm q.entries ∧ (drainQueue q.entries.length q).Pairwise keyLess

/-! ### The frequency table and the merge engine -/

/-- R130, R150: FREQ.CLR sets every FREQ entry to 0, CODE.CLR every code length and value; neither changes another byte of
memory, and RES is 0. -/
def Obligations.ClearCommandsZeroTheirTables : Prop :=
  (decode 0x00000010#32 = .ok .freqClr ∧ decode 0x00000038#32 = .ok .codeClr) ∧
  ∀ s : State, MappedInv s →
    (answers (exec .freqClr s) fun t =>
      t = { s with mem := t.mem, res := ⟨0, 0, 0, 0⟩, busy := false, done := true } ∧
      (∀ sym, sym < 256 → freqIs t sym 0) ∧ ∀ a, ¬ isFreqAddr a → t.mem.read a = s.mem.read a) ∧
    answers (exec .codeClr s) fun t =>
      t = { s with mem := t.mem, res := ⟨0, 0, 0, 0⟩, busy := false, done := true } ∧
      (∀ sym, sym < 256 → codeIs t sym 0 0) ∧ ∀ a, ¬ isCodeAddr a → t.mem.read a = s.mem.read a

/-- R131: FREQ.CNT counts the input bytes into FREQ from zero; RES0 is the number of distinct symbols, RES1 the number of
bytes; SRC_PTR does not move. -/
def Obligations.FreqCntCountsTheInput : Prop :=
  ∀ (s : State) (bytes : List Byte), s.params.legal = true → s.srcEnd.toNat ≤ s.params.inSize →
    s.srcPtr.toNat + bytes.length = s.srcEnd.toNat → inHolds s s.srcPtr.toNat bytes →
    answers (exec .freqCnt s) fun t =>
      t = { s with
        mem := t.mem, busy := false, done := true,
        res := ⟨BitVec.ofNat 32 bytes.dedup.length, BitVec.ofNat 32 bytes.length, 0, 0⟩ } ∧
      (∀ sym : Byte, freqIs t sym.toNat (BitVec.ofNat 32 (bytes.count sym))) ∧
      ∀ a, ¬ isFreqAddr a → t.mem.read a = s.mem.read a

/-- R255, R252: check_src, which every reader of IN makes first (R131, R185, R210), UNPACK once it has a tree (R225).
SRC_END beyond IN_SIZE, and otherwise SRC_PTR beyond SRC_END, raises BufferOverflow with that register. FREQ.CNT then
writes nothing, DESER resets the tree, PACK and UNPACK leave OUT from DST_PTR on unspecified. -/
def Obligations.SourceRangeIsCheckedFirst : Prop :=
  ∀ (s : State) (f : Bool),
    let failsWith (info : Word) : Prop :=
      exec .freqCnt s = .next { s with errCode := 0x15, errInfo := info, busy := false, done := true } ∧
      exec (.deser f) s = .next { s with
        arena := ⟨[], 0⟩, root := 0, treeValid := false, leafRoot := false, numbered := false,
        errCode := 0x15, errInfo := info, busy := false, done := true } ∧
      failsOverOut s (.pack f) 0x15 info ∧
      (s.treeValid = true → failsOverOut s (.unpack f) 0x15 info)
    (s.params.inSize < s.srcEnd.toNat → failsWith s.srcEnd) ∧
    (s.srcEnd.toNat ≤ s.params.inSize → s.srcEnd.toNat < s.srcPtr.toNat → failsWith s.srcPtr)

/-- R134, R135: the tree BUILD leaves. The leaves are the symbols with FREQ > 0 in ascending order, then come the merges;
NODE_COUNT, INTERNAL_COUNT, ROOT, LEAF_ROOT and RES are as R134 gives them, the queue holds the root with the total
weight, and no memory changes. -/
def Obligations.BuildLeavesTheShapeOfR134 : Prop :=
  ∀ (s : State) (f : Nat → Word), (∀ sym, sym < 256 → freqIs s sym (f sym)) → (∃ sym, sym < 256 ∧ f sym ≠ 0) →
    let present := (List.range 256).filter (fun sym => f sym ≠ 0)
    let L := present.length
    let total := (present.map (fun sym => (f sym).toNat)).sum
    answers (exec .build s) fun t =>
      t = { s with
        arena := t.arena, root := BitVec.ofNat 9 (2 * L - 2), treeValid := true, leafRoot := decide (L = 1),
        numbered := false,
        queue := ⟨[⟨BitVec.ofNat 64 total, BitVec.ofNat 32 (2 * L - 2), BitVec.ofNat 16 (2 * L - 2)⟩],
          BitVec.ofNat 32 (2 * L - 1)⟩,
        res := ⟨BitVec.ofNat 32 total, BitVec.ofNat 32 (total / 2 ^ 32), BitVec.ofNat 32 (2 * L - 2),
          BitVec.ofNat 32 (L - 1)⟩,
        busy := false, done := true } ∧
      t.arena.nodes.length = 2 * L - 1 ∧ t.arena.internalCount.toNat = L - 1 ∧
      (∀ i, i < L → t.arena.nodes[i]? = (present[i]?).map (fun sym => .leaf (BitVec.ofNat 8 sym))) ∧
      (∀ r, L ≤ r → r < 2 * L - 1 → ∃ lc rc, t.arena.nodes[r]? = some (.internal lc rc 0)) ∧
      ArenaInv t.arena t.root

/-- R133, R252: with every FREQ entry 0, BUILD raises EmptyInput and leaves the queue empty and the tree reset. -/
def Obligations.BuildOfAnEmptyTableFails : Prop :=
  ∀ s : State, (∀ sym, sym < 256 → freqIs s sym 0) →
    exec .build s = .next { s with
      queue := ⟨[], 0⟩, arena := ⟨[], 0⟩, root := 0, treeValid := false, leafRoot := false, numbered := false,
      errCode := 0x01, errInfo := 0, busy := false, done := true }

/-- R133, R114: the merge loop of BUILD. It ends where at most one entry is left. Of two or more entries the first
extracted, least by R41, becomes the left child, and the least of the others the right child, of a new node whose entry
carries the sum of their weights. BUILD runs it, as many turns as there are entries, on the leaves of the symbols with
FREQ > 0, seeded in ascending order. -/
def Obligations.MergeJoinsTheTwoLeastEntries : Prop :=
  (∀ (q : PQueue) (a : Arena) (fuel : Nat),
    mergeAll 0 (q, a) = (q, a) ∧
    (q.entries.length ≤ 1 → mergeAll fuel (q, a) = (q, a)) ∧
    (2 ≤ q.entries.length →
      ∃ e₁ ∈ q.entries, ∃ e₂ ∈ q.entries.erase e₁,
        (∀ x ∈ q.entries, ¬ keyLess x e₁) ∧ (∀ x ∈ q.entries.erase e₁, ¬ keyLess x e₂) ∧
        mergeAll (fuel + 1) (q, a) = mergeAll fuel
          (⟨(q.entries.erase e₁).erase e₂ ++ [⟨e₁.w + e₂.w, q.nextSeq, (BitVec.ofNat 9 a.nodes.length).setWidth 16⟩],
            q.nextSeq + 1⟩,
          ⟨a.nodes ++ [.internal (e₁.tag.setWidth 9) (e₂.tag.setWidth 9) 0], a.internalCount + 1⟩))) ∧
  ∀ (s : State) (f : Nat → Word), (∀ sym, sym < 256 → freqIs s sym (f sym)) → (∃ sym, sym < 256 ∧ f sym ≠ 0) →
    let present := (List.range 256).filter (fun sym => f sym ≠ 0)
    answers (exec .build s) fun t =>
      (t.queue, t.arena) = mergeAll present.length
        (⟨present.zipIdx.map (fun p => ⟨(f p.1).setWidth 64, BitVec.ofNat 32 p.2, BitVec.ofNat 16 p.2⟩),
          BitVec.ofNat 32 present.length⟩,
        ⟨present.map (fun sym => .leaf (BitVec.ofNat 8 sym)), 0⟩)

/-! ### The code table -/

/-- R151, R153: CODEGEN on a tree with K ≥ 1. Each symbol's code is the path of its last leaf from left to right, its
length between 1 and K; a symbol without a leaf has len 0 and val 0; RES holds the number of codes and the greatest and
least length; only CODE changes in memory. -/
def Obligations.CodegenRecordsThePaths : Prop :=
  ∀ (s : State) (T : HTree), TreeInv s → MappedInv s → s.treeValid = true → treeOf s = some T → 1 ≤ T.internals →
    answers (exec .codegen s) fun t =>
      t = { s with mem := t.mem, res := t.res, busy := false, done := true } ∧
      (∀ front back sym p, T.paths [] = front ++ (sym, p) :: back → (∀ e ∈ back, e.1 ≠ sym) →
        codeIs t sym.toNat (BitVec.ofNat 8 p.length) (BitVec.ofNat 256 (valueOf p)) ∧
        1 ≤ p.length ∧ p.length ≤ T.internals) ∧
      (∀ sym : Byte, sym ∉ T.symbols → codeIs t sym.toNat 0 0) ∧
      t.res.r0 = BitVec.ofNat 32 T.symbols.dedup.length ∧ t.res.r3 = 0 ∧
      (∀ (sym : Byte) len val, codeIs t sym.toNat len val → len ≠ 0 →
        t.res.r2.toNat ≤ len.toNat ∧ len.toNat ≤ t.res.r1.toNat) ∧
      (∃ (sym : Byte) (len : Byte) (val : _), len ≠ 0 ∧ codeIs t sym.toNat len val ∧ len.toNat = t.res.r1.toNat) ∧
      (∃ (sym : Byte) (len : Byte) (val : _), len ≠ 0 ∧ codeIs t sym.toNat len val ∧ len.toNat = t.res.r2.toNat) ∧
      ∀ a, ¬ isCodeAddr a → t.mem.read a = s.mem.read a

/-- R152: CODEGEN on a leaf root gives its symbol the code "0" and no other symbol a code. -/
def Obligations.DegenerateTreeHasCodeZero : Prop :=
  ∀ (s : State) (sym : Byte), MappedInv s → s.treeValid = true → treeOf s = some (.leaf sym) →
    answers (exec .codegen s) fun t =>
      t = { s with mem := t.mem, res := ⟨1, 1, 1, 0⟩, busy := false, done := true } ∧
      codeIs t sym.toNat 1 0 ∧ (∀ other : Byte, other ≠ sym → codeIs t other.toNat 0 0) ∧
      ∀ a, ¬ isCodeAddr a → t.mem.read a = s.mem.read a

/-- R15: the code table CODEGEN makes from a tree with pairwise distinct leaf symbols is prefix-free. -/
def Obligations.GeneratedCodesArePrefixFree : Prop :=
  ∀ (s t : State) (T : HTree), TreeInv s → s.treeValid = true → treeOf s = some T → T.symbols.Nodup →
    exec .codegen s = .next t →
    ∀ (x y : Byte) (cx cy : Bits), x ≠ y → hasCode t x.toNat cx → hasCode t y.toNat cy → ¬ cx <+: cy

/-- R151, R165, R167, R225, R250: without a valid tree CODEGEN, NUMBER and SER raise NoTree and change nothing else; so
does UNPACK, apart from the unspecified bytes of OUT from DST_PTR on (R252). -/
def Obligations.TreeCommandsNeedATree : Prop :=
  ∀ s : State, s.treeValid = false →
    (∀ i ∈ [Instr.codegen, .number, .ser], exec i s = .next { s with
      errCode := 0x13, errInfo := 0, busy := false, done := true }) ∧
    ∀ f, failsOverOut s (.unpack f) 0x13 0

/-! ### The numberer and the serializer -/

/-- R166, R165: NUMBER gives the K internal nodes the numbers 0..K-1, each once, the root K-1; a right child that is
internal has the number before its parent's, an internal left child the number before the right subtree's numbers. The
tree, RES apart, is otherwise unchanged. -/
def Obligations.NumberIsPostorder : Prop :=
  ∀ (s : State) (T : HTree), TreeInv s → s.treeValid = true → treeOf s = some T →
    answers (exec .number s) fun t =>
      t = { s with
        arena := ⟨t.arena.nodes, s.arena.internalCount⟩, numbered := true,
        res := ⟨BitVec.ofNat 32 T.internals, 0, 0, 0⟩, busy := false, done := true } ∧
      t.arena.nodes.map Node.clearNum = s.arena.nodes.map Node.clearNum ∧
      treeOf t = some T ∧
      (t.arena.nodes.filterMap nodeNum).Perm (List.range T.internals) ∧
      (∀ lc rc num, t.node t.root = some (.internal lc rc num) → num.toNat + 1 = T.internals) ∧
      ∀ r lc rc num, t.node r = some (.internal lc rc num) →
        (∀ rl rr rnum, t.node rc = some (.internal rl rr rnum) → rnum.toNat + 1 = num.toNat) ∧
        ∀ ll lr lnum, t.node lc = some (.internal ll lr lnum) →
          ∃ R : HTree, treeAt t.arena.nodes t.arena.nodes.length rc = some R ∧
            lnum.toNat + 1 + R.internals = num.toNat

/-- R167, R169, R170: SER on a tree with K ≥ 1 appends the node-count byte and the K records in postorder at DST_PTR,
advances DST_PTR by 1 + 4K, and numbers the tree as R166 says, its nodes otherwise unchanged; no other byte of memory
changes. -/
def Obligations.SerWritesThePostorderRecords : Prop :=
  ∀ (s : State) (T : HTree), s.params.legal = true → TreeInv s → s.treeValid = true → treeOf s = some T →
    1 ≤ T.internals → s.dstPtr.toNat + (1 + 4 * T.internals) ≤ s.params.outSize →
    answers (exec .ser s) fun t =>
      t = { s with
        mem := t.mem, arena := ⟨t.arena.nodes, s.arena.internalCount⟩, numbered := true,
        dstPtr := BitVec.ofNat 32 (s.dstPtr.toNat + (1 + 4 * T.internals)),
        res := ⟨BitVec.ofNat 32 T.internals, BitVec.ofNat 32 (1 + 4 * T.internals), 0, 0⟩,
        busy := false, done := true } ∧
      t.arena.nodes.map Node.clearNum = s.arena.nodes.map Node.clearNum ∧
      treeOf t = some T ∧
      (t.arena.nodes.filterMap nodeNum).Perm (List.range T.internals) ∧
      (∀ lc rc num, t.node t.root = some (.internal lc rc num) → num.toNat + 1 = T.internals) ∧
      (∀ r lc rc num, t.node r = some (.internal lc rc num) →
        (∀ rl rr rnum, t.node rc = some (.internal rl rr rnum) → rnum.toNat + 1 = num.toNat) ∧
        ∀ ll lr lnum, t.node lc = some (.internal ll lr lnum) →
          ∃ R : HTree, treeAt t.arena.nodes t.arena.nodes.length rc = some R ∧
            lnum.toNat + 1 + R.internals = num.toNat) ∧
      T.header.length = 1 + 4 * T.internals ∧ outHolds t s.dstPtr.toNat T.header ∧
      ∀ a, a < outAddr s.dstPtr.toNat ∨ outAddr (s.dstPtr.toNat + (1 + 4 * T.internals)) ≤ a →
        t.mem.read a = s.mem.read a

/-- R168: SER on a leaf root with symbol sym appends [1, 0, sym, 0, (sym + 1) mod 256]. -/
def Obligations.SerOfALeafRootWritesFiveBytes : Prop :=
  ∀ (s : State) (sym : Byte), s.params.legal = true → TreeInv s → s.treeValid = true →
    treeOf s = some (.leaf sym) → s.dstPtr.toNat + 5 ≤ s.params.outSize →
    answers (exec .ser s) fun t =>
      t = { s with
        mem := t.mem, numbered := true, dstPtr := BitVec.ofNat 32 (s.dstPtr.toNat + 5),
        res := ⟨1, 5, 0, 0⟩, busy := false, done := true } ∧
      outHolds t s.dstPtr.toNat [1, 0, sym, 0, BitVec.ofNat 8 ((sym.toNat + 1) % 256)] ∧
      ∀ a, a < outAddr s.dstPtr.toNat ∨ outAddr (s.dstPtr.toNat + 5) ≤ a → t.mem.read a = s.mem.read a

/-- R167, R255: where the header does not fit in OUT, SER raises BufferOverflow before any write, and the numbering it
performed is not kept. -/
def Obligations.SerWithoutRoomKeepsNothing : Prop :=
  ∀ (s : State) (T : HTree), TreeInv s → s.treeValid = true → treeOf s = some T →
    s.params.outSize < s.dstPtr.toNat + (if T.internals = 0 then 5 else 1 + 4 * T.internals) →
    exec .ser s = .next { s with
      errCode := 0x15,
      errInfo := if s.params.outSize < s.dstPtr.toNat then s.dstPtr else BitVec.ofNat 32 s.params.outSize,
      busy := false, done := true }

/-! ### The deserializer -/

/-- R185, R193: both strategies rebuild the tree of a well-formed header (SER's output for a tree T with 1 ≤ K ≤ 255).
SRC_PTR advances by 1 + 4K, RES is as R185 gives it, no numbers are set (R190), no memory changes. -/
def Obligations.DeserRebuildsTheSerializedTree : Prop :=
  ∀ (s : State) (T : HTree) (postorder : Bool), 1 ≤ T.internals → T.internals ≤ 255 →
    s.srcEnd.toNat ≤ s.params.inSize → s.srcPtr.toNat + (1 + 4 * T.internals) ≤ s.srcEnd.toNat →
    inHolds s s.srcPtr.toNat T.header →
    answers (exec (.deser postorder) s) fun t =>
      t = { s with
        arena := t.arena, root := BitVec.ofNat 9 (2 * T.internals), treeValid := true, leafRoot := false,
        numbered := false, srcPtr := BitVec.ofNat 32 (s.srcPtr.toNat + (1 + 4 * T.internals)),
        res := ⟨BitVec.ofNat 32 T.internals, BitVec.ofNat 32 (1 + 4 * T.internals),
          BitVec.ofNat 32 (2 * T.internals), BitVec.ofNat 32 T.internals⟩,
        busy := false, done := true } ∧
      treeOf t = some T ∧ t.arena.nodes.length = 2 * T.internals + 1 ∧
      t.arena.internalCount.toNat = T.internals

/-- R186 (a) to (c), R252: with the source range in order, DESER raises MalformedHeader with SRC_PTR, and resets the tree,
when no node-count byte is available, when it is 0, and when fewer than 4N record bytes follow. -/
def Obligations.DeserChecksTheNodeCount : Prop :=
  ∀ (s : State) (postorder : Bool), s.srcEnd.toNat ≤ s.params.inSize → s.srcPtr.toNat ≤ s.srcEnd.toNat →
    (s.srcPtr.toNat = s.srcEnd.toNat ∨
      (s.srcPtr.toNat < s.srcEnd.toNat ∧ ∃ n : Byte, s.mem.read (inAddr s.srcPtr.toNat) = some n ∧
        (n = 0 ∨ s.srcEnd.toNat < s.srcPtr.toNat + 1 + 4 * n.toNat))) →
    exec (.deser postorder) s = .next { s with
      arena := ⟨[], 0⟩, root := 0, treeValid := false, leafRoot := false, numbered := false,
      errCode := 0x03, errInfo := s.srcPtr, busy := false, done := true }

/-- R186 (d), (e), (f), R187, R188: faults of the root record, here of its left child. A type byte other than 0 and 1
raises MalformedHeader at that byte in both strategies; in general mode an internal left child whose index is not below N,
or is the root's own N - 1, at the data byte; in postorder mode, with one record and a leaf right child, an internal left
child at its type byte. No premise asks that the root's right data byte has been written: that the error comes first, and
not a fault for that byte, is the model's reading (log 12). Faults at the right data byte, of a right child without a
record and of records below the root are not stated here. -/
def Obligations.DeserChecksTheRootRecord : Prop :=
  ∀ (s : State) (postorder : Bool) (n lt ld rt : Byte), s.srcEnd.toNat ≤ s.params.inSize → n ≠ 0 →
    s.srcPtr.toNat + 1 + 4 * n.toNat ≤ s.srcEnd.toNat →
    s.mem.read (inAddr s.srcPtr.toNat) = some n →
    s.mem.read (inAddr (s.srcPtr.toNat + 1 + 4 * (n.toNat - 1))) = some lt →
    s.mem.read (inAddr (s.srcPtr.toNat + 1 + 4 * (n.toNat - 1) + 1)) = some ld →
    s.mem.read (inAddr (s.srcPtr.toNat + 1 + 4 * (n.toNat - 1) + 2)) = some rt →
    let off := s.srcPtr.toNat + 1 + 4 * (n.toNat - 1)
    let failsAt (i : Nat) : Prop := exec (.deser postorder) s = .next { s with
      arena := ⟨[], 0⟩, root := 0, treeValid := false, leafRoot := false, numbered := false,
      errCode := 0x03, errInfo := BitVec.ofNat 32 i, busy := false, done := true }
    (lt.toNat > 1 → failsAt off) ∧
    (lt.toNat ≤ 1 → rt.toNat > 1 → failsAt (off + 2)) ∧
    (postorder = false → lt = 1 → rt.toNat ≤ 1 → n.toNat ≤ ld.toNat ∨ ld.toNat + 1 = n.toNat → failsAt (off + 1)) ∧
    (postorder = true → n = 1 → lt = 1 → rt = 0 → failsAt off)

/-! ### The packer -/

/-- R211: the code of a symbol. Which value bytes the packer reads is the model's reading (log 19). With CODE[sym].len = len > 0 and the value bytes that hold bits below len written, code(sym)
is the bit string of length len whose bit i is bit len-1-i of the value; with len = 0, MissingCode. -/
def Obligations.SymbolCodeReadsTheTable : Prop :=
  ∀ (s : State) (sym : Byte) (len : Byte) (val : BitVec 256), s.mem.read (codeLenAddr sym.toNat) = some len →
    (len = 0 → s.symbolCode sym = .error (.raise .missingCode (BitVec.ofNat 32 sym.toNat))) ∧
    (len ≠ 0 →
      (∀ i, 8 * i < len.toNat → s.mem.read (codeValAddr sym.toNat + i) = some (val.extractLsb' (8 * i) 8)) →
      ∃ code : Bits, s.symbolCode sym = .ok code ∧ code.length = len.toNat ∧
        ∀ i, (h : i < code.length) → code[i] = val.getLsbD (len.toNat - 1 - i))

/-- R210, R212, R213: PACK and PACK.S on input whose symbols all have codes (hasCode asks only for the value bytes with
bits below the length, which is the model's reading, log 19), with room in OUT. The bytes written from
DST_PTR are the size field where F0 = 1, then the codes' bits, first bit highest, padded with zero bits to whole bytes;
the input is consumed, RES is as R210 gives it, and no other byte of memory changes. -/
def Obligations.PackWritesTheCodesInOrder : Prop :=
  ∀ (s : State) (sized : Bool) (bytes : List Byte) (code : Byte → Bits), s.params.legal = true →
    s.srcEnd.toNat ≤ s.params.inSize → s.srcPtr.toNat + bytes.length = s.srcEnd.toNat →
    inHolds s s.srcPtr.toNat bytes → (∀ b ∈ bytes, hasCode s b.toNat (code b)) →
    let stream := bytes.flatMap code
    let size := (if sized then 4 else 0) + (stream.length + 7) / 8
    s.dstPtr.toNat + size ≤ s.params.outSize →
    answers (exec (.pack sized) s) fun t =>
      t = { s with
        mem := t.mem, srcPtr := s.srcEnd, dstPtr := BitVec.ofNat 32 (s.dstPtr.toNat + size),
        res := ⟨BitVec.ofNat 32 bytes.length, BitVec.ofNat 32 stream.length,
          BitVec.ofNat 32 ((stream.length + 7) / 8), BitVec.ofNat 32 size⟩,
        busy := false, done := true } ∧
      (∃ payload : List Byte, payload.length = (stream.length + 7) / 8 ∧
        payloadBits payload = stream ++ List.replicate (8 * payload.length - stream.length) false ∧
        outHolds t s.dstPtr.toNat
          ((if sized then (List.range 4).map (fun j => BitVec.ofNat 8 (bytes.length / 2 ^ (8 * j))) else []) ++
            payload)) ∧
      ∀ a, a < outAddr s.dstPtr.toNat ∨ outAddr (s.dstPtr.toNat + size) ≤ a → t.mem.read a = s.mem.read a

/-- R210, R252: an input symbol without a code. When the symbols before it have codes and their bytes fit in OUT, PACK
raises MissingCode with the symbol, and SRC_PTR and DST_PTR stay. -/
def Obligations.PackOfAMissingCodeFails : Prop :=
  ∀ (s : State) (sized : Bool) (front : List Byte) (sym : Byte) (code : Byte → Bits),
    s.srcEnd.toNat ≤ s.params.inSize → s.srcPtr.toNat + (front.length + 1) ≤ s.srcEnd.toNat →
    inHolds s s.srcPtr.toNat (front ++ [sym]) → (∀ b ∈ front, hasCode s b.toNat (code b)) → hasNoCode s sym.toNat →
    s.dstPtr.toNat + (if sized then 4 else 0) + (front.flatMap code).length / 8 ≤ s.params.outSize →
    answers (exec (.pack sized) s) fun t =>
      t = { s with
        errCode := 0x14, errInfo := BitVec.ofNat 32 sym.toNat, busy := false, done := true,
        mem := t.mem, draws := t.draws } ∧
      ∀ a, a < outAddr s.dstPtr.toNat ∨ outAddr s.params.outSize ≤ a → t.mem.read a = s.mem.read a

/-- R210, R252: output that does not fit. When the bytes of the whole input, all of whose symbols have codes, pass the end
of OUT, PACK raises BufferOverflow with the first out-of-range index, OUT_SIZE, or DST_PTR where that is beyond it. -/
def Obligations.PackWithoutRoomFails : Prop :=
  ∀ (s : State) (sized : Bool) (bytes : List Byte) (code : Byte → Bits), s.srcEnd.toNat ≤ s.params.inSize →
    s.srcPtr.toNat + bytes.length = s.srcEnd.toNat →
    inHolds s s.srcPtr.toNat bytes → (∀ b ∈ bytes, hasCode s b.toNat (code b)) →
    s.params.outSize < s.dstPtr.toNat + (if sized then 4 else 0) + ((bytes.flatMap code).length + 7) / 8 →
    answers (exec (.pack sized) s) fun t =>
      t = { s with
        errCode := 0x15,
        errInfo := if s.params.outSize < s.dstPtr.toNat then s.dstPtr else BitVec.ofNat 32 s.params.outSize,
        busy := false, done := true, mem := t.mem, draws := t.draws } ∧
      ∀ a, a < outAddr s.dstPtr.toNat ∨ outAddr s.params.outSize ≤ a → t.mem.read a = s.mem.read a

/-! ### The unpacker -/

/-- The count of UNPACK and where its payload starts in IN (R225, R86): ARG0 and SRC_PTR where F0 = 0; the little-endian
size field at SRC_PTR, and what follows it, where F0 = 1. -/
def Sys2Proof.Safety.countIs (s : State) (sized : Bool) (count p : Nat) : Prop :=
  if sized then
    p = s.srcPtr.toNat + 4 ∧ p ≤ s.srcEnd.toNat ∧ count < 2 ^ 32 ∧
      inHolds s s.srcPtr.toNat ((List.range 4).map fun j => BitVec.ofNat 8 (count / 2 ^ (8 * j)))
  else p = s.srcPtr.toNat ∧ count = s.arg0.toNat

/-- R225, R226: UNPACK and UNPACK.S on a tree with K ≥ 1. When the payload's bits begin with the paths of `count` leaves,
their symbols are written from DST_PTR; SRC_PTR goes to the first byte no bit was taken from, RES is as R225 gives it, and
the tree and every other byte of memory are unchanged. -/
def Obligations.UnpackDecodesThePaths : Prop :=
  ∀ (s : State) (sized : Bool) (T : HTree) (p : Nat) (payload : List Byte) (leaves : List (Byte × Bits)) (tail : Bits),
    s.params.legal = true → s.treeValid = true → treeOf s = some T → 1 ≤ T.internals →
    s.srcEnd.toNat ≤ s.params.inSize → s.srcPtr.toNat ≤ s.srcEnd.toNat → countIs s sized leaves.length p →
    p + payload.length ≤ s.srcEnd.toNat → inHolds s p payload → (∀ e ∈ leaves, e ∈ T.paths []) →
    payloadBits payload = leaves.flatMap (fun e => e.2) ++ tail →
    s.dstPtr.toNat + leaves.length ≤ s.params.outSize →
    answers (exec (.unpack sized) s) fun t =>
      let k := (leaves.flatMap (fun e => e.2)).length
      t = { s with
        mem := t.mem, srcPtr := BitVec.ofNat 32 (p + (k + 7) / 8),
        dstPtr := BitVec.ofNat 32 (s.dstPtr.toNat + leaves.length),
        res := ⟨BitVec.ofNat 32 leaves.length, BitVec.ofNat 32 k, BitVec.ofNat 32 ((k + 7) / 8),
          if sized then 4 else 0⟩,
        busy := false, done := true } ∧
      outHolds t s.dstPtr.toNat (leaves.map (fun e => e.1)) ∧
      ∀ a, a < outAddr s.dstPtr.toNat ∨ outAddr (s.dstPtr.toNat + leaves.length) ≤ a →
        t.mem.read a = s.mem.read a

/-- R226 (degenerate tree): on a leaf root each 0 bit decodes to the leaf's symbol, one bit a symbol. -/
def Obligations.UnpackOfALeafRootTakesZeroBits : Prop :=
  ∀ (s : State) (sized : Bool) (sym : Byte) (count p : Nat) (payload : List Byte) (tail : Bits),
    s.params.legal = true → s.treeValid = true → treeOf s = some (.leaf sym) →
    s.srcEnd.toNat ≤ s.params.inSize → s.srcPtr.toNat ≤ s.srcEnd.toNat → countIs s sized count p →
    p + payload.length ≤ s.srcEnd.toNat → inHolds s p payload →
    payloadBits payload = List.replicate count false ++ tail → s.dstPtr.toNat + count ≤ s.params.outSize →
    answers (exec (.unpack sized) s) fun t =>
      t = { s with
        mem := t.mem, srcPtr := BitVec.ofNat 32 (p + (count + 7) / 8),
        dstPtr := BitVec.ofNat 32 (s.dstPtr.toNat + count),
        res := ⟨BitVec.ofNat 32 count, BitVec.ofNat 32 count, BitVec.ofNat 32 ((count + 7) / 8),
          if sized then 4 else 0⟩,
        busy := false, done := true } ∧
      outHolds t s.dstPtr.toNat (List.replicate count sym) ∧
      ∀ a, a < outAddr s.dstPtr.toNat ∨ outAddr (s.dstPtr.toNat + count) ≤ a → t.mem.read a = s.mem.read a

/-- R225, R226, R227, R252: the payload errors of UNPACK, in the order it meets them. Fewer than 4 bytes for the size
field of UNPACK.S raise MalformedHeader with SRC_PTR; a count that does not fit in OUT raises BufferOverflow with DST_PTR
where that is beyond OUT_SIZE and OUT_SIZE otherwise (R255). Then CorruptPayload: the payload runs out inside a path or,
on a leaf root, of bits, or has a 1 bit on a leaf root; ERR_INFO is the number of symbols decoded before. SRC_PTR and
DST_PTR stay. -/
def Obligations.UnpackOfACorruptPayloadFails : Prop :=
  (∀ s : State, s.treeValid = true → s.srcEnd.toNat ≤ s.params.inSize → s.srcPtr.toNat ≤ s.srcEnd.toNat →
    s.srcEnd.toNat < s.srcPtr.toNat + 4 → failsOverOut s (.unpack true) 0x03 s.srcPtr) ∧
  (∀ (s : State) (sized : Bool) (count p : Nat), s.treeValid = true → s.srcEnd.toNat ≤ s.params.inSize →
    s.srcPtr.toNat ≤ s.srcEnd.toNat → countIs s sized count p → s.params.outSize < s.dstPtr.toNat + count →
    failsOverOut s (.unpack sized) 0x15
      (if s.params.outSize < s.dstPtr.toNat then s.dstPtr else BitVec.ofNat 32 s.params.outSize)) ∧
  ∀ (s : State) (sized : Bool) (T : HTree) (count p : Nat) (payload : List Byte) (leaves : List (Byte × Bits))
      (tail : Bits),
    s.treeValid = true → treeOf s = some T → s.srcEnd.toNat ≤ s.params.inSize → s.srcPtr.toNat ≤ s.srcEnd.toNat →
    countIs s sized count p → p + payload.length = s.srcEnd.toNat → inHolds s p payload →
    leaves.length < count → s.dstPtr.toNat + count ≤ s.params.outSize →
    (1 ≤ T.internals ∧ (∀ e ∈ leaves, e ∈ T.paths []) ∧
        payloadBits payload = leaves.flatMap (fun e => e.2) ++ tail ∧
        (∃ e ∈ T.paths [], tail <+: e.2 ∧ tail ≠ e.2)) ∨
      (T.internals = 0 ∧ ∃ more : Bits,
        payloadBits payload = List.replicate leaves.length false ++ true :: more) ∨
      (T.internals = 0 ∧ payloadBits payload = List.replicate leaves.length false) →
    failsOverOut s (.unpack sized) 0x04 (BitVec.ofNat 32 leaves.length)

/-! ### Frames and completion of every command -/

/-- R34, R290, R294, R295 and the rules of each command: what a command leaves alone. Only BUILD, DESER, NUMBER, SER and
CLEAR change the tree and its flags, only PQ.CLR, PQ.INS, PQ.EXT, BUILD and CLEAR the queue, only DESER, PACK and UNPACK move
SRC_PTR, only SER, PACK and UNPACK move DST_PTR. NOP, CLEAR, the queue commands, BUILD, NUMBER and DESER store nothing;
FREQ.CLR and FREQ.CNT store in FREQ alone, CODE.CLR and CODEGEN in CODE alone, and SER, PACK and UNPACK in OUT from DST_PTR
on alone. -/
def Obligations.CommandsChangeOnlyWhatTheirRuleNames : Prop :=
  ∀ (i : Instr) (s t : State), exec i s = .next t →
    (t.arena = s.arena ∧ t.root = s.root ∧ t.treeValid = s.treeValid ∧ t.leafRoot = s.leafRoot ∧
      t.numbered = s.numbered ∨ i ∈ [.build, .number, .ser, .clear] ∨ ∃ f, i = .deser f) ∧
    (t.queue = s.queue ∨ i ∈ [.pqClr, .pqIns, .pqExt, .build, .clear]) ∧
    (t.srcPtr = s.srcPtr ∨ ∃ f, i = .deser f ∨ i = .pack f ∨ i = .unpack f) ∧
    (t.dstPtr = s.dstPtr ∨ i = .ser ∨ ∃ f, i = .pack f ∨ i = .unpack f) ∧
    (MappedInv s → ∀ a, t.mem.read a ≠ s.mem.read a →
      ((i = .freqClr ∨ i = .freqCnt) ∧ isFreqAddr a) ∨ ((i = .codeClr ∨ i = .codegen) ∧ isCodeAddr a) ∨
        ((i = .ser ∨ ∃ f, i = .pack f ∨ i = .unpack f) ∧ outAddr s.dstPtr.toNat ≤ a ∧ a < outAddr s.params.outSize))

/-- R101: the step always ends. Where the tree invariant holds and every byte of FREQ, CODE and IN has been written, every
command completes, with success or with an error of R250: none of them meets a fault, for any values in its registers. -/
def Obligations.EveryCommandCompletesOnDefinedMemory : Prop :=
  ∀ (i : Instr) (s : State), TreeInv s → (∀ sym, sym < 256 → ∃ f, freqIs s sym f) →
    (∀ sym, sym < 256 → ∃ len val, codeIs s sym len val) →
    (∀ a, a < s.params.inSize → ∃ b, s.mem.read (inAddr a) = some b) →
    answers (exec i s) fun t => t.busy = false ∧ t.done = true

/-! ### The round trip -/

/-- R228: the round trip. A non-empty byte buffer B in IN, compressed by FREQ.CNT, BUILD, CODEGEN, SER and PACK.S, each of
which succeeds, with an output of length m; and any state of the same block that holds that output at IN[0] with SRC_PTR =
0, SRC_END = m and DST_PTR = 0: DESER (either strategy) and UNPACK.S succeed, write B to OUT[0..], and leave SRC_PTR = m. -/
def Obligations.DecompressOfCompressIsTheInput : Prop :=
  ∀ (s₀ s₁ s₂ s₃ s₄ s₅ u₀ : State) (B file : List Byte) (postorder : Bool), s₀.params.legal = true → B ≠ [] →
    B.length ≤ s₀.params.inSize → B.length ≤ s₀.params.outSize →
    s₀.errCode = 0 → s₀.srcPtr = 0 → s₀.srcEnd.toNat = B.length → s₀.dstPtr = 0 → inHolds s₀ 0 B →
    exec .freqCnt s₀ = .next s₁ → exec .build s₁ = .next s₂ → exec .codegen s₂ = .next s₃ →
    exec .ser s₃ = .next s₄ → exec (.pack true) s₄ = .next s₅ →
    s₁.errCode = 0 → s₂.errCode = 0 → s₃.errCode = 0 → s₄.errCode = 0 → s₅.errCode = 0 →
    file.length = s₅.dstPtr.toNat → outHolds s₅ 0 file → file.length ≤ s₀.params.inSize →
    u₀.params = s₀.params → u₀.errCode = 0 → u₀.srcPtr = 0 → u₀.srcEnd.toNat = file.length → u₀.dstPtr = 0 →
    inHolds u₀ 0 file →
    answers (exec (.deser postorder) u₀) fun u₁ =>
      u₁.errCode = 0 ∧ answers (exec (.unpack true) u₁) fun u₂ =>
        u₂.errCode = 0 ∧ u₂.dstPtr.toNat = B.length ∧ outHolds u₂ 0 B ∧ u₂.srcPtr.toNat = file.length
end

