-- ==== Sys2Proof/Laws/State.lean ====
section
/-! SUPPORT. One lemma per field per named update of State: what the field is after the update. Later proofs cite these
and unfold no record update. -/

namespace Sys2Proof.Machine

variable (s : State)


/-! ### State.finish (R101) -/

@[simp] theorem State.finish_params : s.finish.params = s.params := rfl
@[simp] theorem State.finish_cmdLast : s.finish.cmdLast = s.cmdLast := rfl
@[simp] theorem State.finish_busy : s.finish.busy = false := rfl
@[simp] theorem State.finish_done : s.finish.done = true := rfl
@[simp] theorem State.finish_dropped : s.finish.dropped = s.dropped := rfl
@[simp] theorem State.finish_treeValid : s.finish.treeValid = s.treeValid := rfl
@[simp] theorem State.finish_leafRoot : s.finish.leafRoot = s.leafRoot := rfl
@[simp] theorem State.finish_numbered : s.finish.numbered = s.numbered := rfl
@[simp] theorem State.finish_errCode : s.finish.errCode = s.errCode := rfl
@[simp] theorem State.finish_errInfo : s.finish.errInfo = s.errInfo := rfl
@[simp] theorem State.finish_irqEn : s.finish.irqEn = s.irqEn := rfl
@[simp] theorem State.finish_srcPtr : s.finish.srcPtr = s.srcPtr := rfl
@[simp] theorem State.finish_srcEnd : s.finish.srcEnd = s.srcEnd := rfl
@[simp] theorem State.finish_dstPtr : s.finish.dstPtr = s.dstPtr := rfl
@[simp] theorem State.finish_arg0 : s.finish.arg0 = s.arg0 := rfl
@[simp] theorem State.finish_arg1 : s.finish.arg1 = s.arg1 := rfl
@[simp] theorem State.finish_arg2 : s.finish.arg2 = s.arg2 := rfl
@[simp] theorem State.finish_res : s.finish.res = s.res := rfl
@[simp] theorem State.finish_root : s.finish.root = s.root := rfl
@[simp] theorem State.finish_arena : s.finish.arena = s.arena := rfl
@[simp] theorem State.finish_queue : s.finish.queue = s.queue := rfl
@[simp] theorem State.finish_mem : s.finish.mem = s.mem := rfl
@[simp] theorem State.finish_host : s.finish.host = s.host := rfl
@[simp] theorem State.finish_reply : s.finish.reply = s.reply := rfl
@[simp] theorem State.finish_hostStopped : s.finish.hostStopped = s.hostStopped := rfl
@[simp] theorem State.finish_draws : s.finish.draws = s.draws := rfl

/-! ### State.raiseError (R252) -/

@[simp] theorem State.raiseError_params (e : ErrKind) (i : Word) : (s.raiseError e i).params = s.params := rfl
@[simp] theorem State.raiseError_cmdLast (e : ErrKind) (i : Word) : (s.raiseError e i).cmdLast = s.cmdLast := rfl
@[simp] theorem State.raiseError_busy (e : ErrKind) (i : Word) : (s.raiseError e i).busy = false := rfl
@[simp] theorem State.raiseError_done (e : ErrKind) (i : Word) : (s.raiseError e i).done = true := rfl
@[simp] theorem State.raiseError_dropped (e : ErrKind) (i : Word) : (s.raiseError e i).dropped = s.dropped := rfl
@[simp] theorem State.raiseError_treeValid (e : ErrKind) (i : Word) : (s.raiseError e i).treeValid = s.treeValid := rfl
@[simp] theorem State.raiseError_leafRoot (e : ErrKind) (i : Word) : (s.raiseError e i).leafRoot = s.leafRoot := rfl
@[simp] theorem State.raiseError_numbered (e : ErrKind) (i : Word) : (s.raiseError e i).numbered = s.numbered := rfl
@[simp] theorem State.raiseError_errCode (e : ErrKind) (i : Word) : (s.raiseError e i).errCode = e.code := rfl
@[simp] theorem State.raiseError_errInfo (e : ErrKind) (i : Word) : (s.raiseError e i).errInfo = i := rfl
@[simp] theorem State.raiseError_irqEn (e : ErrKind) (i : Word) : (s.raiseError e i).irqEn = s.irqEn := rfl
@[simp] theorem State.raiseError_srcPtr (e : ErrKind) (i : Word) : (s.raiseError e i).srcPtr = s.srcPtr := rfl
@[simp] theorem State.raiseError_srcEnd (e : ErrKind) (i : Word) : (s.raiseError e i).srcEnd = s.srcEnd := rfl
@[simp] theorem State.raiseError_dstPtr (e : ErrKind) (i : Word) : (s.raiseError e i).dstPtr = s.dstPtr := rfl
@[simp] theorem State.raiseError_arg0 (e : ErrKind) (i : Word) : (s.raiseError e i).arg0 = s.arg0 := rfl
@[simp] theorem State.raiseError_arg1 (e : ErrKind) (i : Word) : (s.raiseError e i).arg1 = s.arg1 := rfl
@[simp] theorem State.raiseError_arg2 (e : ErrKind) (i : Word) : (s.raiseError e i).arg2 = s.arg2 := rfl
@[simp] theorem State.raiseError_res (e : ErrKind) (i : Word) : (s.raiseError e i).res = s.res := rfl
@[simp] theorem State.raiseError_root (e : ErrKind) (i : Word) : (s.raiseError e i).root = s.root := rfl
@[simp] theorem State.raiseError_arena (e : ErrKind) (i : Word) : (s.raiseError e i).arena = s.arena := rfl
@[simp] theorem State.raiseError_queue (e : ErrKind) (i : Word) : (s.raiseError e i).queue = s.queue := rfl
@[simp] theorem State.raiseError_mem (e : ErrKind) (i : Word) : (s.raiseError e i).mem = s.mem := rfl
@[simp] theorem State.raiseError_host (e : ErrKind) (i : Word) : (s.raiseError e i).host = s.host := rfl
@[simp] theorem State.raiseError_reply (e : ErrKind) (i : Word) : (s.raiseError e i).reply = s.reply := rfl
@[simp] theorem State.raiseError_hostStopped (e : ErrKind) (i : Word) :
    (s.raiseError e i).hostStopped = s.hostStopped := rfl
@[simp] theorem State.raiseError_draws (e : ErrKind) (i : Word) : (s.raiseError e i).draws = s.draws := rfl

/-! ### State.clearError (R24) -/

@[simp] theorem State.clearError_params : s.clearError.params = s.params := rfl
@[simp] theorem State.clearError_cmdLast : s.clearError.cmdLast = s.cmdLast := rfl
@[simp] theorem State.clearError_busy : s.clearError.busy = s.busy := rfl
@[simp] theorem State.clearError_done : s.clearError.done = s.done := rfl
@[simp] theorem State.clearError_dropped : s.clearError.dropped = s.dropped := rfl
@[simp] theorem State.clearError_treeValid : s.clearError.treeValid = s.treeValid := rfl
@[simp] theorem State.clearError_leafRoot : s.clearError.leafRoot = s.leafRoot := rfl
@[simp] theorem State.clearError_numbered : s.clearError.numbered = s.numbered := rfl
@[simp] theorem State.clearError_errCode : s.clearError.errCode = 0 := rfl
@[simp] theorem State.clearError_errInfo : s.clearError.errInfo = 0 := rfl
@[simp] theorem State.clearError_irqEn : s.clearError.irqEn = s.irqEn := rfl
@[simp] theorem State.clearError_srcPtr : s.clearError.srcPtr = s.srcPtr := rfl
@[simp] theorem State.clearError_srcEnd : s.clearError.srcEnd = s.srcEnd := rfl
@[simp] theorem State.clearError_dstPtr : s.clearError.dstPtr = s.dstPtr := rfl
@[simp] theorem State.clearError_arg0 : s.clearError.arg0 = s.arg0 := rfl
@[simp] theorem State.clearError_arg1 : s.clearError.arg1 = s.arg1 := rfl
@[simp] theorem State.clearError_arg2 : s.clearError.arg2 = s.arg2 := rfl
@[simp] theorem State.clearError_res : s.clearError.res = s.res := rfl
@[simp] theorem State.clearError_root : s.clearError.root = s.root := rfl
@[simp] theorem State.clearError_arena : s.clearError.arena = s.arena := rfl
@[simp] theorem State.clearError_queue : s.clearError.queue = s.queue := rfl
@[simp] theorem State.clearError_mem : s.clearError.mem = s.mem := rfl
@[simp] theorem State.clearError_host : s.clearError.host = s.host := rfl
@[simp] theorem State.clearError_reply : s.clearError.reply = s.reply := rfl
@[simp] theorem State.clearError_hostStopped : s.clearError.hostStopped = s.hostStopped := rfl
@[simp] theorem State.clearError_draws : s.clearError.draws = s.draws := rfl

/-! ### State.withRes (R29) -/

@[simp] theorem State.withRes_params (a b c d : Word) : (s.withRes a b c d).params = s.params := rfl
@[simp] theorem State.withRes_cmdLast (a b c d : Word) : (s.withRes a b c d).cmdLast = s.cmdLast := rfl
@[simp] theorem State.withRes_busy (a b c d : Word) : (s.withRes a b c d).busy = s.busy := rfl
@[simp] theorem State.withRes_done (a b c d : Word) : (s.withRes a b c d).done = s.done := rfl
@[simp] theorem State.withRes_dropped (a b c d : Word) : (s.withRes a b c d).dropped = s.dropped := rfl
@[simp] theorem State.withRes_treeValid (a b c d : Word) : (s.withRes a b c d).treeValid = s.treeValid := rfl
@[simp] theorem State.withRes_leafRoot (a b c d : Word) : (s.withRes a b c d).leafRoot = s.leafRoot := rfl
@[simp] theorem State.withRes_numbered (a b c d : Word) : (s.withRes a b c d).numbered = s.numbered := rfl
@[simp] theorem State.withRes_errCode (a b c d : Word) : (s.withRes a b c d).errCode = s.errCode := rfl
@[simp] theorem State.withRes_errInfo (a b c d : Word) : (s.withRes a b c d).errInfo = s.errInfo := rfl
@[simp] theorem State.withRes_irqEn (a b c d : Word) : (s.withRes a b c d).irqEn = s.irqEn := rfl
@[simp] theorem State.withRes_srcPtr (a b c d : Word) : (s.withRes a b c d).srcPtr = s.srcPtr := rfl
@[simp] theorem State.withRes_srcEnd (a b c d : Word) : (s.withRes a b c d).srcEnd = s.srcEnd := rfl
@[simp] theorem State.withRes_dstPtr (a b c d : Word) : (s.withRes a b c d).dstPtr = s.dstPtr := rfl
@[simp] theorem State.withRes_arg0 (a b c d : Word) : (s.withRes a b c d).arg0 = s.arg0 := rfl
@[simp] theorem State.withRes_arg1 (a b c d : Word) : (s.withRes a b c d).arg1 = s.arg1 := rfl
@[simp] theorem State.withRes_arg2 (a b c d : Word) : (s.withRes a b c d).arg2 = s.arg2 := rfl
@[simp] theorem State.withRes_res (a b c d : Word) : (s.withRes a b c d).res = ⟨a, b, c, d⟩ := rfl
@[simp] theorem State.withRes_root (a b c d : Word) : (s.withRes a b c d).root = s.root := rfl
@[simp] theorem State.withRes_arena (a b c d : Word) : (s.withRes a b c d).arena = s.arena := rfl
@[simp] theorem State.withRes_queue (a b c d : Word) : (s.withRes a b c d).queue = s.queue := rfl
@[simp] theorem State.withRes_mem (a b c d : Word) : (s.withRes a b c d).mem = s.mem := rfl
@[simp] theorem State.withRes_host (a b c d : Word) : (s.withRes a b c d).host = s.host := rfl
@[simp] theorem State.withRes_reply (a b c d : Word) : (s.withRes a b c d).reply = s.reply := rfl
@[simp] theorem State.withRes_hostStopped (a b c d : Word) : (s.withRes a b c d).hostStopped = s.hostStopped := rfl
@[simp] theorem State.withRes_draws (a b c d : Word) : (s.withRes a b c d).draws = s.draws := rfl

/-! ### State.accept (R100) -/

@[simp] theorem State.accept_params (c : Word) : (s.accept c).params = s.params := rfl
@[simp] theorem State.accept_cmdLast (c : Word) : (s.accept c).cmdLast = c := rfl
@[simp] theorem State.accept_busy (c : Word) : (s.accept c).busy = true := rfl
@[simp] theorem State.accept_done (c : Word) : (s.accept c).done = false := rfl
@[simp] theorem State.accept_dropped (c : Word) : (s.accept c).dropped = s.dropped := rfl
@[simp] theorem State.accept_treeValid (c : Word) : (s.accept c).treeValid = s.treeValid := rfl
@[simp] theorem State.accept_leafRoot (c : Word) : (s.accept c).leafRoot = s.leafRoot := rfl
@[simp] theorem State.accept_numbered (c : Word) : (s.accept c).numbered = s.numbered := rfl
@[simp] theorem State.accept_errCode (c : Word) : (s.accept c).errCode = s.errCode := rfl
@[simp] theorem State.accept_errInfo (c : Word) : (s.accept c).errInfo = s.errInfo := rfl
@[simp] theorem State.accept_irqEn (c : Word) : (s.accept c).irqEn = s.irqEn := rfl
@[simp] theorem State.accept_srcPtr (c : Word) : (s.accept c).srcPtr = s.srcPtr := rfl
@[simp] theorem State.accept_srcEnd (c : Word) : (s.accept c).srcEnd = s.srcEnd := rfl
@[simp] theorem State.accept_dstPtr (c : Word) : (s.accept c).dstPtr = s.dstPtr := rfl
@[simp] theorem State.accept_arg0 (c : Word) : (s.accept c).arg0 = s.arg0 := rfl
@[simp] theorem State.accept_arg1 (c : Word) : (s.accept c).arg1 = s.arg1 := rfl
@[simp] theorem State.accept_arg2 (c : Word) : (s.accept c).arg2 = s.arg2 := rfl
@[simp] theorem State.accept_res (c : Word) : (s.accept c).res = s.res := rfl
@[simp] theorem State.accept_root (c : Word) : (s.accept c).root = s.root := rfl
@[simp] theorem State.accept_arena (c : Word) : (s.accept c).arena = s.arena := rfl
@[simp] theorem State.accept_queue (c : Word) : (s.accept c).queue = s.queue := rfl
@[simp] theorem State.accept_mem (c : Word) : (s.accept c).mem = s.mem := rfl
@[simp] theorem State.accept_host (c : Word) : (s.accept c).host = s.host := rfl
@[simp] theorem State.accept_reply (c : Word) : (s.accept c).reply = s.reply := rfl
@[simp] theorem State.accept_hostStopped (c : Word) : (s.accept c).hostStopped = s.hostStopped := rfl
@[simp] theorem State.accept_draws (c : Word) : (s.accept c).draws = s.draws := rfl

/-! ### State.drop (R69, R100) -/

@[simp] theorem State.drop_params : s.drop.params = s.params := rfl
@[simp] theorem State.drop_cmdLast : s.drop.cmdLast = s.cmdLast := rfl
@[simp] theorem State.drop_busy : s.drop.busy = s.busy := rfl
@[simp] theorem State.drop_done : s.drop.done = s.done := rfl
@[simp] theorem State.drop_dropped : s.drop.dropped = true := rfl
@[simp] theorem State.drop_treeValid : s.drop.treeValid = s.treeValid := rfl
@[simp] theorem State.drop_leafRoot : s.drop.leafRoot = s.leafRoot := rfl
@[simp] theorem State.drop_numbered : s.drop.numbered = s.numbered := rfl
@[simp] theorem State.drop_errCode : s.drop.errCode = s.errCode := rfl
@[simp] theorem State.drop_errInfo : s.drop.errInfo = s.errInfo := rfl
@[simp] theorem State.drop_irqEn : s.drop.irqEn = s.irqEn := rfl
@[simp] theorem State.drop_srcPtr : s.drop.srcPtr = s.srcPtr := rfl
@[simp] theorem State.drop_srcEnd : s.drop.srcEnd = s.srcEnd := rfl
@[simp] theorem State.drop_dstPtr : s.drop.dstPtr = s.dstPtr := rfl
@[simp] theorem State.drop_arg0 : s.drop.arg0 = s.arg0 := rfl
@[simp] theorem State.drop_arg1 : s.drop.arg1 = s.arg1 := rfl
@[simp] theorem State.drop_arg2 : s.drop.arg2 = s.arg2 := rfl
@[simp] theorem State.drop_res : s.drop.res = s.res := rfl
@[simp] theorem State.drop_root : s.drop.root = s.root := rfl
@[simp] theorem State.drop_arena : s.drop.arena = s.arena := rfl
@[simp] theorem State.drop_queue : s.drop.queue = s.queue := rfl
@[simp] theorem State.drop_mem : s.drop.mem = s.mem := rfl
@[simp] theorem State.drop_host : s.drop.host = s.host := rfl
@[simp] theorem State.drop_reply : s.drop.reply = s.reply := rfl
@[simp] theorem State.drop_hostStopped : s.drop.hostStopped = s.hostStopped := rfl
@[simp] theorem State.drop_draws : s.drop.draws = s.draws := rfl

/-! ### State.treeReset (R132) -/

@[simp] theorem State.treeReset_params : s.treeReset.params = s.params := rfl
@[simp] theorem State.treeReset_cmdLast : s.treeReset.cmdLast = s.cmdLast := rfl
@[simp] theorem State.treeReset_busy : s.treeReset.busy = s.busy := rfl
@[simp] theorem State.treeReset_done : s.treeReset.done = s.done := rfl
@[simp] theorem State.treeReset_dropped : s.treeReset.dropped = s.dropped := rfl
@[simp] theorem State.treeReset_treeValid : s.treeReset.treeValid = false := rfl
@[simp] theorem State.treeReset_leafRoot : s.treeReset.leafRoot = false := rfl
@[simp] theorem State.treeReset_numbered : s.treeReset.numbered = false := rfl
@[simp] theorem State.treeReset_errCode : s.treeReset.errCode = s.errCode := rfl
@[simp] theorem State.treeReset_errInfo : s.treeReset.errInfo = s.errInfo := rfl
@[simp] theorem State.treeReset_irqEn : s.treeReset.irqEn = s.irqEn := rfl
@[simp] theorem State.treeReset_srcPtr : s.treeReset.srcPtr = s.srcPtr := rfl
@[simp] theorem State.treeReset_srcEnd : s.treeReset.srcEnd = s.srcEnd := rfl
@[simp] theorem State.treeReset_dstPtr : s.treeReset.dstPtr = s.dstPtr := rfl
@[simp] theorem State.treeReset_arg0 : s.treeReset.arg0 = s.arg0 := rfl
@[simp] theorem State.treeReset_arg1 : s.treeReset.arg1 = s.arg1 := rfl
@[simp] theorem State.treeReset_arg2 : s.treeReset.arg2 = s.arg2 := rfl
@[simp] theorem State.treeReset_res : s.treeReset.res = s.res := rfl
@[simp] theorem State.treeReset_root : s.treeReset.root = 0 := rfl
@[simp] theorem State.treeReset_arena : s.treeReset.arena = Arena.empty := rfl
@[simp] theorem State.treeReset_queue : s.treeReset.queue = s.queue := rfl
@[simp] theorem State.treeReset_mem : s.treeReset.mem = s.mem := rfl
@[simp] theorem State.treeReset_host : s.treeReset.host = s.host := rfl
@[simp] theorem State.treeReset_reply : s.treeReset.reply = s.reply := rfl
@[simp] theorem State.treeReset_hostStopped : s.treeReset.hostStopped = s.hostStopped := rfl
@[simp] theorem State.treeReset_draws : s.treeReset.draws = s.draws := rfl

/-! ### State.appendOut (R253) -/

@[simp] theorem State.appendOut_params (bs : List Byte) : (s.appendOut bs).params = s.params := rfl
@[simp] theorem State.appendOut_cmdLast (bs : List Byte) : (s.appendOut bs).cmdLast = s.cmdLast := rfl
@[simp] theorem State.appendOut_busy (bs : List Byte) : (s.appendOut bs).busy = s.busy := rfl
@[simp] theorem State.appendOut_done (bs : List Byte) : (s.appendOut bs).done = s.done := rfl
@[simp] theorem State.appendOut_dropped (bs : List Byte) : (s.appendOut bs).dropped = s.dropped := rfl
@[simp] theorem State.appendOut_treeValid (bs : List Byte) : (s.appendOut bs).treeValid = s.treeValid := rfl
@[simp] theorem State.appendOut_leafRoot (bs : List Byte) : (s.appendOut bs).leafRoot = s.leafRoot := rfl
@[simp] theorem State.appendOut_numbered (bs : List Byte) : (s.appendOut bs).numbered = s.numbered := rfl
@[simp] theorem State.appendOut_errCode (bs : List Byte) : (s.appendOut bs).errCode = s.errCode := rfl
@[simp] theorem State.appendOut_errInfo (bs : List Byte) : (s.appendOut bs).errInfo = s.errInfo := rfl
@[simp] theorem State.appendOut_irqEn (bs : List Byte) : (s.appendOut bs).irqEn = s.irqEn := rfl
@[simp] theorem State.appendOut_srcPtr (bs : List Byte) : (s.appendOut bs).srcPtr = s.srcPtr := rfl
@[simp] theorem State.appendOut_srcEnd (bs : List Byte) : (s.appendOut bs).srcEnd = s.srcEnd := rfl
@[simp] theorem State.appendOut_dstPtr (bs : List Byte) :
    (s.appendOut bs).dstPtr = s.dstPtr + BitVec.ofNat 32 bs.length := rfl
@[simp] theorem State.appendOut_arg0 (bs : List Byte) : (s.appendOut bs).arg0 = s.arg0 := rfl
@[simp] theorem State.appendOut_arg1 (bs : List Byte) : (s.appendOut bs).arg1 = s.arg1 := rfl
@[simp] theorem State.appendOut_arg2 (bs : List Byte) : (s.appendOut bs).arg2 = s.arg2 := rfl
@[simp] theorem State.appendOut_res (bs : List Byte) : (s.appendOut bs).res = s.res := rfl
@[simp] theorem State.appendOut_root (bs : List Byte) : (s.appendOut bs).root = s.root := rfl
@[simp] theorem State.appendOut_arena (bs : List Byte) : (s.appendOut bs).arena = s.arena := rfl
@[simp] theorem State.appendOut_queue (bs : List Byte) : (s.appendOut bs).queue = s.queue := rfl
@[simp] theorem State.appendOut_mem (bs : List Byte) :
    (s.appendOut bs).mem = s.mem.writeBytes (outAddr s.dstPtr.toNat) bs := rfl
@[simp] theorem State.appendOut_host (bs : List Byte) : (s.appendOut bs).host = s.host := rfl
@[simp] theorem State.appendOut_reply (bs : List Byte) : (s.appendOut bs).reply = s.reply := rfl
@[simp] theorem State.appendOut_hostStopped (bs : List Byte) : (s.appendOut bs).hostStopped = s.hostStopped := rfl
@[simp] theorem State.appendOut_draws (bs : List Byte) : (s.appendOut bs).draws = s.draws := rfl

/-! ### State.unspecifyOut (R252, U4) -/

@[simp] theorem State.unspecifyOut_params : s.unspecifyOut.params = s.params := rfl
@[simp] theorem State.unspecifyOut_cmdLast : s.unspecifyOut.cmdLast = s.cmdLast := rfl
@[simp] theorem State.unspecifyOut_busy : s.unspecifyOut.busy = s.busy := rfl
@[simp] theorem State.unspecifyOut_done : s.unspecifyOut.done = s.done := rfl
@[simp] theorem State.unspecifyOut_dropped : s.unspecifyOut.dropped = s.dropped := rfl
@[simp] theorem State.unspecifyOut_treeValid : s.unspecifyOut.treeValid = s.treeValid := rfl
@[simp] theorem State.unspecifyOut_leafRoot : s.unspecifyOut.leafRoot = s.leafRoot := rfl
@[simp] theorem State.unspecifyOut_numbered : s.unspecifyOut.numbered = s.numbered := rfl
@[simp] theorem State.unspecifyOut_errCode : s.unspecifyOut.errCode = s.errCode := rfl
@[simp] theorem State.unspecifyOut_errInfo : s.unspecifyOut.errInfo = s.errInfo := rfl
@[simp] theorem State.unspecifyOut_irqEn : s.unspecifyOut.irqEn = s.irqEn := rfl
@[simp] theorem State.unspecifyOut_srcPtr : s.unspecifyOut.srcPtr = s.srcPtr := rfl
@[simp] theorem State.unspecifyOut_srcEnd : s.unspecifyOut.srcEnd = s.srcEnd := rfl
@[simp] theorem State.unspecifyOut_dstPtr : s.unspecifyOut.dstPtr = s.dstPtr := rfl
@[simp] theorem State.unspecifyOut_arg0 : s.unspecifyOut.arg0 = s.arg0 := rfl
@[simp] theorem State.unspecifyOut_arg1 : s.unspecifyOut.arg1 = s.arg1 := rfl
@[simp] theorem State.unspecifyOut_arg2 : s.unspecifyOut.arg2 = s.arg2 := rfl
@[simp] theorem State.unspecifyOut_res : s.unspecifyOut.res = s.res := rfl
@[simp] theorem State.unspecifyOut_root : s.unspecifyOut.root = s.root := rfl
@[simp] theorem State.unspecifyOut_arena : s.unspecifyOut.arena = s.arena := rfl
@[simp] theorem State.unspecifyOut_queue : s.unspecifyOut.queue = s.queue := rfl
@[simp] theorem State.unspecifyOut_mem :
    s.unspecifyOut.mem = s.mem.writeBytes (outAddr s.dstPtr.toNat) (freeBytes s.draws (s.params.outSize - s.dstPtr.toNat)) := rfl
@[simp] theorem State.unspecifyOut_host : s.unspecifyOut.host = s.host := rfl
@[simp] theorem State.unspecifyOut_reply : s.unspecifyOut.reply = s.reply := rfl
@[simp] theorem State.unspecifyOut_hostStopped : s.unspecifyOut.hostStopped = s.hostStopped := rfl
@[simp] theorem State.unspecifyOut_draws : s.unspecifyOut.draws = s.draws + (s.params.outSize - s.dstPtr.toNat) := rfl

/-! ### State.withNumbered (R165) -/

@[simp] theorem State.withNumbered_params (ns : List Node) : (s.withNumbered ns).params = s.params := rfl
@[simp] theorem State.withNumbered_cmdLast (ns : List Node) : (s.withNumbered ns).cmdLast = s.cmdLast := rfl
@[simp] theorem State.withNumbered_busy (ns : List Node) : (s.withNumbered ns).busy = s.busy := rfl
@[simp] theorem State.withNumbered_done (ns : List Node) : (s.withNumbered ns).done = s.done := rfl
@[simp] theorem State.withNumbered_dropped (ns : List Node) : (s.withNumbered ns).dropped = s.dropped := rfl
@[simp] theorem State.withNumbered_treeValid (ns : List Node) : (s.withNumbered ns).treeValid = s.treeValid := rfl
@[simp] theorem State.withNumbered_leafRoot (ns : List Node) : (s.withNumbered ns).leafRoot = s.leafRoot := rfl
@[simp] theorem State.withNumbered_numbered (ns : List Node) : (s.withNumbered ns).numbered = true := rfl
@[simp] theorem State.withNumbered_errCode (ns : List Node) : (s.withNumbered ns).errCode = s.errCode := rfl
@[simp] theorem State.withNumbered_errInfo (ns : List Node) : (s.withNumbered ns).errInfo = s.errInfo := rfl
@[simp] theorem State.withNumbered_irqEn (ns : List Node) : (s.withNumbered ns).irqEn = s.irqEn := rfl
@[simp] theorem State.withNumbered_srcPtr (ns : List Node) : (s.withNumbered ns).srcPtr = s.srcPtr := rfl
@[simp] theorem State.withNumbered_srcEnd (ns : List Node) : (s.withNumbered ns).srcEnd = s.srcEnd := rfl
@[simp] theorem State.withNumbered_dstPtr (ns : List Node) : (s.withNumbered ns).dstPtr = s.dstPtr := rfl
@[simp] theorem State.withNumbered_arg0 (ns : List Node) : (s.withNumbered ns).arg0 = s.arg0 := rfl
@[simp] theorem State.withNumbered_arg1 (ns : List Node) : (s.withNumbered ns).arg1 = s.arg1 := rfl
@[simp] theorem State.withNumbered_arg2 (ns : List Node) : (s.withNumbered ns).arg2 = s.arg2 := rfl
@[simp] theorem State.withNumbered_res (ns : List Node) : (s.withNumbered ns).res = s.res := rfl
@[simp] theorem State.withNumbered_root (ns : List Node) : (s.withNumbered ns).root = s.root := rfl
@[simp] theorem State.withNumbered_arena (ns : List Node) :
    (s.withNumbered ns).arena = ⟨ns, s.arena.internalCount⟩ := rfl
@[simp] theorem State.withNumbered_queue (ns : List Node) : (s.withNumbered ns).queue = s.queue := rfl
@[simp] theorem State.withNumbered_mem (ns : List Node) : (s.withNumbered ns).mem = s.mem := rfl
@[simp] theorem State.withNumbered_host (ns : List Node) : (s.withNumbered ns).host = s.host := rfl
@[simp] theorem State.withNumbered_reply (ns : List Node) : (s.withNumbered ns).reply = s.reply := rfl
@[simp] theorem State.withNumbered_hostStopped (ns : List Node) : (s.withNumbered ns).hostStopped = s.hostStopped := rfl
@[simp] theorem State.withNumbered_draws (ns : List Node) : (s.withNumbered ns).draws = s.draws := rfl

/-! ### State.setFreqTable (R130, R131) -/

@[simp] theorem State.setFreqTable_params (ws : List Word) : (s.setFreqTable ws).params = s.params := rfl
@[simp] theorem State.setFreqTable_cmdLast (ws : List Word) : (s.setFreqTable ws).cmdLast = s.cmdLast := rfl
@[simp] theorem State.setFreqTable_busy (ws : List Word) : (s.setFreqTable ws).busy = s.busy := rfl
@[simp] theorem State.setFreqTable_done (ws : List Word) : (s.setFreqTable ws).done = s.done := rfl
@[simp] theorem State.setFreqTable_dropped (ws : List Word) : (s.setFreqTable ws).dropped = s.dropped := rfl
@[simp] theorem State.setFreqTable_treeValid (ws : List Word) : (s.setFreqTable ws).treeValid = s.treeValid := rfl
@[simp] theorem State.setFreqTable_leafRoot (ws : List Word) : (s.setFreqTable ws).leafRoot = s.leafRoot := rfl
@[simp] theorem State.setFreqTable_numbered (ws : List Word) : (s.setFreqTable ws).numbered = s.numbered := rfl
@[simp] theorem State.setFreqTable_errCode (ws : List Word) : (s.setFreqTable ws).errCode = s.errCode := rfl
@[simp] theorem State.setFreqTable_errInfo (ws : List Word) : (s.setFreqTable ws).errInfo = s.errInfo := rfl
@[simp] theorem State.setFreqTable_irqEn (ws : List Word) : (s.setFreqTable ws).irqEn = s.irqEn := rfl
@[simp] theorem State.setFreqTable_srcPtr (ws : List Word) : (s.setFreqTable ws).srcPtr = s.srcPtr := rfl
@[simp] theorem State.setFreqTable_srcEnd (ws : List Word) : (s.setFreqTable ws).srcEnd = s.srcEnd := rfl
@[simp] theorem State.setFreqTable_dstPtr (ws : List Word) : (s.setFreqTable ws).dstPtr = s.dstPtr := rfl
@[simp] theorem State.setFreqTable_arg0 (ws : List Word) : (s.setFreqTable ws).arg0 = s.arg0 := rfl
@[simp] theorem State.setFreqTable_arg1 (ws : List Word) : (s.setFreqTable ws).arg1 = s.arg1 := rfl
@[simp] theorem State.setFreqTable_arg2 (ws : List Word) : (s.setFreqTable ws).arg2 = s.arg2 := rfl
@[simp] theorem State.setFreqTable_res (ws : List Word) : (s.setFreqTable ws).res = s.res := rfl
@[simp] theorem State.setFreqTable_root (ws : List Word) : (s.setFreqTable ws).root = s.root := rfl
@[simp] theorem State.setFreqTable_arena (ws : List Word) : (s.setFreqTable ws).arena = s.arena := rfl
@[simp] theorem State.setFreqTable_queue (ws : List Word) : (s.setFreqTable ws).queue = s.queue := rfl
@[simp] theorem State.setFreqTable_mem (ws : List Word) :
    (s.setFreqTable ws).mem = s.mem.writeBytes (freqAddr 0) (ws.flatMap le32Bytes) := rfl
@[simp] theorem State.setFreqTable_host (ws : List Word) : (s.setFreqTable ws).host = s.host := rfl
@[simp] theorem State.setFreqTable_reply (ws : List Word) : (s.setFreqTable ws).reply = s.reply := rfl
@[simp] theorem State.setFreqTable_hostStopped (ws : List Word) : (s.setFreqTable ws).hostStopped = s.hostStopped := rfl
@[simp] theorem State.setFreqTable_draws (ws : List Word) : (s.setFreqTable ws).draws = s.draws := rfl

/-! ### State.setCodeTable (R150, R151) -/

@[simp] theorem State.setCodeTable_params (t : List CodeEntry) : (s.setCodeTable t).params = s.params := rfl
@[simp] theorem State.setCodeTable_cmdLast (t : List CodeEntry) : (s.setCodeTable t).cmdLast = s.cmdLast := rfl
@[simp] theorem State.setCodeTable_busy (t : List CodeEntry) : (s.setCodeTable t).busy = s.busy := rfl
@[simp] theorem State.setCodeTable_done (t : List CodeEntry) : (s.setCodeTable t).done = s.done := rfl
@[simp] theorem State.setCodeTable_dropped (t : List CodeEntry) : (s.setCodeTable t).dropped = s.dropped := rfl
@[simp] theorem State.setCodeTable_treeValid (t : List CodeEntry) : (s.setCodeTable t).treeValid = s.treeValid := rfl
@[simp] theorem State.setCodeTable_leafRoot (t : List CodeEntry) : (s.setCodeTable t).leafRoot = s.leafRoot := rfl
@[simp] theorem State.setCodeTable_numbered (t : List CodeEntry) : (s.setCodeTable t).numbered = s.numbered := rfl
@[simp] theorem State.setCodeTable_errCode (t : List CodeEntry) : (s.setCodeTable t).errCode = s.errCode := rfl
@[simp] theorem State.setCodeTable_errInfo (t : List CodeEntry) : (s.setCodeTable t).errInfo = s.errInfo := rfl
@[simp] theorem State.setCodeTable_irqEn (t : List CodeEntry) : (s.setCodeTable t).irqEn = s.irqEn := rfl
@[simp] theorem State.setCodeTable_srcPtr (t : List CodeEntry) : (s.setCodeTable t).srcPtr = s.srcPtr := rfl
@[simp] theorem State.setCodeTable_srcEnd (t : List CodeEntry) : (s.setCodeTable t).srcEnd = s.srcEnd := rfl
@[simp] theorem State.setCodeTable_dstPtr (t : List CodeEntry) : (s.setCodeTable t).dstPtr = s.dstPtr := rfl
@[simp] theorem State.setCodeTable_arg0 (t : List CodeEntry) : (s.setCodeTable t).arg0 = s.arg0 := rfl
@[simp] theorem State.setCodeTable_arg1 (t : List CodeEntry) : (s.setCodeTable t).arg1 = s.arg1 := rfl
@[simp] theorem State.setCodeTable_arg2 (t : List CodeEntry) : (s.setCodeTable t).arg2 = s.arg2 := rfl
@[simp] theorem State.setCodeTable_res (t : List CodeEntry) : (s.setCodeTable t).res = s.res := rfl
@[simp] theorem State.setCodeTable_root (t : List CodeEntry) : (s.setCodeTable t).root = s.root := rfl
@[simp] theorem State.setCodeTable_arena (t : List CodeEntry) : (s.setCodeTable t).arena = s.arena := rfl
@[simp] theorem State.setCodeTable_queue (t : List CodeEntry) : (s.setCodeTable t).queue = s.queue := rfl
@[simp] theorem State.setCodeTable_mem (t : List CodeEntry) :
    (s.setCodeTable t).mem = s.mem.splice (codeLenAddr 0) (codeLenAddr 256) (codeCells 0 t) := rfl
@[simp] theorem State.setCodeTable_host (t : List CodeEntry) : (s.setCodeTable t).host = s.host := rfl
@[simp] theorem State.setCodeTable_reply (t : List CodeEntry) : (s.setCodeTable t).reply = s.reply := rfl
@[simp] theorem State.setCodeTable_hostStopped (t : List CodeEntry) :
    (s.setCodeTable t).hostStopped = s.hostStopped := rfl
@[simp] theorem State.setCodeTable_draws (t : List CodeEntry) : (s.setCodeTable t).draws = s.draws := rfl

/-! ### State.replyData (R65) -/

@[simp] theorem State.replyData_params (w : Word) : (s.replyData w).params = s.params := rfl
@[simp] theorem State.replyData_cmdLast (w : Word) : (s.replyData w).cmdLast = s.cmdLast := rfl
@[simp] theorem State.replyData_busy (w : Word) : (s.replyData w).busy = s.busy := rfl
@[simp] theorem State.replyData_done (w : Word) : (s.replyData w).done = s.done := rfl
@[simp] theorem State.replyData_dropped (w : Word) : (s.replyData w).dropped = s.dropped := rfl
@[simp] theorem State.replyData_treeValid (w : Word) : (s.replyData w).treeValid = s.treeValid := rfl
@[simp] theorem State.replyData_leafRoot (w : Word) : (s.replyData w).leafRoot = s.leafRoot := rfl
@[simp] theorem State.replyData_numbered (w : Word) : (s.replyData w).numbered = s.numbered := rfl
@[simp] theorem State.replyData_errCode (w : Word) : (s.replyData w).errCode = s.errCode := rfl
@[simp] theorem State.replyData_errInfo (w : Word) : (s.replyData w).errInfo = s.errInfo := rfl
@[simp] theorem State.replyData_irqEn (w : Word) : (s.replyData w).irqEn = s.irqEn := rfl
@[simp] theorem State.replyData_srcPtr (w : Word) : (s.replyData w).srcPtr = s.srcPtr := rfl
@[simp] theorem State.replyData_srcEnd (w : Word) : (s.replyData w).srcEnd = s.srcEnd := rfl
@[simp] theorem State.replyData_dstPtr (w : Word) : (s.replyData w).dstPtr = s.dstPtr := rfl
@[simp] theorem State.replyData_arg0 (w : Word) : (s.replyData w).arg0 = s.arg0 := rfl
@[simp] theorem State.replyData_arg1 (w : Word) : (s.replyData w).arg1 = s.arg1 := rfl
@[simp] theorem State.replyData_arg2 (w : Word) : (s.replyData w).arg2 = s.arg2 := rfl
@[simp] theorem State.replyData_res (w : Word) : (s.replyData w).res = s.res := rfl
@[simp] theorem State.replyData_root (w : Word) : (s.replyData w).root = s.root := rfl
@[simp] theorem State.replyData_arena (w : Word) : (s.replyData w).arena = s.arena := rfl
@[simp] theorem State.replyData_queue (w : Word) : (s.replyData w).queue = s.queue := rfl
@[simp] theorem State.replyData_mem (w : Word) : (s.replyData w).mem = s.mem := rfl
@[simp] theorem State.replyData_host (w : Word) : (s.replyData w).host = s.host := rfl
@[simp] theorem State.replyData_reply (w : Word) : (s.replyData w).reply = .data w := rfl
@[simp] theorem State.replyData_hostStopped (w : Word) : (s.replyData w).hostStopped = s.hostStopped := rfl
@[simp] theorem State.replyData_draws (w : Word) : (s.replyData w).draws = s.draws := rfl

/-! ### State.replyFree (R68) -/

@[simp] theorem State.replyFree_params : s.replyFree.params = s.params := rfl
@[simp] theorem State.replyFree_cmdLast : s.replyFree.cmdLast = s.cmdLast := rfl
@[simp] theorem State.replyFree_busy : s.replyFree.busy = s.busy := rfl
@[simp] theorem State.replyFree_done : s.replyFree.done = s.done := rfl
@[simp] theorem State.replyFree_dropped : s.replyFree.dropped = s.dropped := rfl
@[simp] theorem State.replyFree_treeValid : s.replyFree.treeValid = s.treeValid := rfl
@[simp] theorem State.replyFree_leafRoot : s.replyFree.leafRoot = s.leafRoot := rfl
@[simp] theorem State.replyFree_numbered : s.replyFree.numbered = s.numbered := rfl
@[simp] theorem State.replyFree_errCode : s.replyFree.errCode = s.errCode := rfl
@[simp] theorem State.replyFree_errInfo : s.replyFree.errInfo = s.errInfo := rfl
@[simp] theorem State.replyFree_irqEn : s.replyFree.irqEn = s.irqEn := rfl
@[simp] theorem State.replyFree_srcPtr : s.replyFree.srcPtr = s.srcPtr := rfl
@[simp] theorem State.replyFree_srcEnd : s.replyFree.srcEnd = s.srcEnd := rfl
@[simp] theorem State.replyFree_dstPtr : s.replyFree.dstPtr = s.dstPtr := rfl
@[simp] theorem State.replyFree_arg0 : s.replyFree.arg0 = s.arg0 := rfl
@[simp] theorem State.replyFree_arg1 : s.replyFree.arg1 = s.arg1 := rfl
@[simp] theorem State.replyFree_arg2 : s.replyFree.arg2 = s.arg2 := rfl
@[simp] theorem State.replyFree_res : s.replyFree.res = s.res := rfl
@[simp] theorem State.replyFree_root : s.replyFree.root = s.root := rfl
@[simp] theorem State.replyFree_arena : s.replyFree.arena = s.arena := rfl
@[simp] theorem State.replyFree_queue : s.replyFree.queue = s.queue := rfl
@[simp] theorem State.replyFree_mem : s.replyFree.mem = s.mem := rfl
@[simp] theorem State.replyFree_host : s.replyFree.host = s.host := rfl
@[simp] theorem State.replyFree_reply : s.replyFree.reply = .data (Config.freeWord s.draws) := rfl
@[simp] theorem State.replyFree_hostStopped : s.replyFree.hostStopped = s.hostStopped := rfl
@[simp] theorem State.replyFree_draws : s.replyFree.draws = s.draws + 1 := rfl

/-! ### State.writeStatus (R23) -/

@[simp] theorem State.writeStatus_params (v : Word) : (s.writeStatus v).params = s.params := rfl
@[simp] theorem State.writeStatus_cmdLast (v : Word) : (s.writeStatus v).cmdLast = s.cmdLast := rfl
@[simp] theorem State.writeStatus_busy (v : Word) : (s.writeStatus v).busy = s.busy := rfl
@[simp] theorem State.writeStatus_done (v : Word) : (s.writeStatus v).done = (s.done && !v.getLsbD 1) := rfl
@[simp] theorem State.writeStatus_dropped (v : Word) : (s.writeStatus v).dropped = (s.dropped && !v.getLsbD 3) := rfl
@[simp] theorem State.writeStatus_treeValid (v : Word) : (s.writeStatus v).treeValid = s.treeValid := rfl
@[simp] theorem State.writeStatus_leafRoot (v : Word) : (s.writeStatus v).leafRoot = s.leafRoot := rfl
@[simp] theorem State.writeStatus_numbered (v : Word) : (s.writeStatus v).numbered = s.numbered := rfl
@[simp] theorem State.writeStatus_errCode (v : Word) : (s.writeStatus v).errCode = s.errCode := rfl
@[simp] theorem State.writeStatus_errInfo (v : Word) : (s.writeStatus v).errInfo = s.errInfo := rfl
@[simp] theorem State.writeStatus_irqEn (v : Word) : (s.writeStatus v).irqEn = s.irqEn := rfl
@[simp] theorem State.writeStatus_srcPtr (v : Word) : (s.writeStatus v).srcPtr = s.srcPtr := rfl
@[simp] theorem State.writeStatus_srcEnd (v : Word) : (s.writeStatus v).srcEnd = s.srcEnd := rfl
@[simp] theorem State.writeStatus_dstPtr (v : Word) : (s.writeStatus v).dstPtr = s.dstPtr := rfl
@[simp] theorem State.writeStatus_arg0 (v : Word) : (s.writeStatus v).arg0 = s.arg0 := rfl
@[simp] theorem State.writeStatus_arg1 (v : Word) : (s.writeStatus v).arg1 = s.arg1 := rfl
@[simp] theorem State.writeStatus_arg2 (v : Word) : (s.writeStatus v).arg2 = s.arg2 := rfl
@[simp] theorem State.writeStatus_res (v : Word) : (s.writeStatus v).res = s.res := rfl
@[simp] theorem State.writeStatus_root (v : Word) : (s.writeStatus v).root = s.root := rfl
@[simp] theorem State.writeStatus_arena (v : Word) : (s.writeStatus v).arena = s.arena := rfl
@[simp] theorem State.writeStatus_queue (v : Word) : (s.writeStatus v).queue = s.queue := rfl
@[simp] theorem State.writeStatus_mem (v : Word) : (s.writeStatus v).mem = s.mem := rfl
@[simp] theorem State.writeStatus_host (v : Word) : (s.writeStatus v).host = s.host := rfl
@[simp] theorem State.writeStatus_reply (v : Word) : (s.writeStatus v).reply = s.reply := rfl
@[simp] theorem State.writeStatus_hostStopped (v : Word) : (s.writeStatus v).hostStopped = s.hostStopped := rfl
@[simp] theorem State.writeStatus_draws (v : Word) : (s.writeStatus v).draws = s.draws := rfl

/-! ### State.assertReset (R280) -/

@[simp] theorem State.assertReset_params : s.assertReset.params = s.params := rfl
@[simp] theorem State.assertReset_cmdLast : s.assertReset.cmdLast = (State.resetWith s.params).cmdLast := rfl
@[simp] theorem State.assertReset_busy : s.assertReset.busy = (State.resetWith s.params).busy := rfl
@[simp] theorem State.assertReset_done : s.assertReset.done = (State.resetWith s.params).done := rfl
@[simp] theorem State.assertReset_dropped : s.assertReset.dropped = (State.resetWith s.params).dropped := rfl
@[simp] theorem State.assertReset_treeValid : s.assertReset.treeValid = (State.resetWith s.params).treeValid := rfl
@[simp] theorem State.assertReset_leafRoot : s.assertReset.leafRoot = (State.resetWith s.params).leafRoot := rfl
@[simp] theorem State.assertReset_numbered : s.assertReset.numbered = (State.resetWith s.params).numbered := rfl
@[simp] theorem State.assertReset_errCode : s.assertReset.errCode = (State.resetWith s.params).errCode := rfl
@[simp] theorem State.assertReset_errInfo : s.assertReset.errInfo = (State.resetWith s.params).errInfo := rfl
@[simp] theorem State.assertReset_irqEn : s.assertReset.irqEn = (State.resetWith s.params).irqEn := rfl
@[simp] theorem State.assertReset_srcPtr : s.assertReset.srcPtr = (State.resetWith s.params).srcPtr := rfl
@[simp] theorem State.assertReset_srcEnd : s.assertReset.srcEnd = (State.resetWith s.params).srcEnd := rfl
@[simp] theorem State.assertReset_dstPtr : s.assertReset.dstPtr = (State.resetWith s.params).dstPtr := rfl
@[simp] theorem State.assertReset_arg0 : s.assertReset.arg0 = (State.resetWith s.params).arg0 := rfl
@[simp] theorem State.assertReset_arg1 : s.assertReset.arg1 = (State.resetWith s.params).arg1 := rfl
@[simp] theorem State.assertReset_arg2 : s.assertReset.arg2 = (State.resetWith s.params).arg2 := rfl
@[simp] theorem State.assertReset_res : s.assertReset.res = (State.resetWith s.params).res := rfl
@[simp] theorem State.assertReset_root : s.assertReset.root = (State.resetWith s.params).root := rfl
@[simp] theorem State.assertReset_arena : s.assertReset.arena = (State.resetWith s.params).arena := rfl
@[simp] theorem State.assertReset_queue : s.assertReset.queue = (State.resetWith s.params).queue := rfl
@[simp] theorem State.assertReset_mem : s.assertReset.mem = (State.resetWith s.params).mem := rfl
@[simp] theorem State.assertReset_host : s.assertReset.host = s.host := rfl
@[simp] theorem State.assertReset_reply : s.assertReset.reply = s.reply := rfl
@[simp] theorem State.assertReset_hostStopped : s.assertReset.hostStopped = s.hostStopped := rfl
@[simp] theorem State.assertReset_draws : s.assertReset.draws = s.draws := rfl

end Sys2Proof.Machine
end

