-- ==== Sys2Proof/Laws/Memory.lean ====
section
/-! SUPPORT. What the memory operations do: read after write, read elsewhere, and the canonical form, which every
operation keeps. -/

namespace Sys2Proof.Machine

/-! ### Reading lists of cells -/

@[simp] theorem Memory.read_nil (a : Nat) : Memory.read [] a = none := rfl

theorem Memory.read_cons (k : Nat) (v : Byte) (m : Memory) (a : Nat) :
    Memory.read ((k, v) :: m) a = if k = a then some v else Memory.read m a := rfl

theorem Memory.read_append (m₁ m₂ : Memory) (a : Nat) :
    Memory.read (m₁ ++ m₂) a = (Memory.read m₁ a).or (Memory.read m₂ a) := by
  induction m₁ with
  | nil => rfl
  | cons c m ih =>
    obtain ⟨k, v⟩ := c
    simp only [List.cons_append, Memory.read_cons, ih]
    split <;> rfl

/-- A filter on keys hides exactly the addresses it rejects. -/
theorem Memory.read_filter (m : Memory) (p : Nat → Bool) (a : Nat) :
    Memory.read (m.filter (fun c => p c.1)) a = if p a then Memory.read m a else none := by
  induction m with
  | nil => simp
  | cons c m ih =>
    obtain ⟨k, v⟩ := c
    by_cases hk : p k
    · rw [List.filter_cons_of_pos (by simpa using hk), Memory.read_cons, Memory.read_cons, ih]
      by_cases h : k = a
      · subst h; simp [hk]
      · simp [h]
    · rw [List.filter_cons_of_neg (by simpa using hk), Memory.read_cons, ih]
      by_cases h : k = a
      · subst h; simp [hk]
      · simp [h]

/-- An address no cell names reads as nothing. -/
theorem Memory.read_eq_none (m : Memory) (a : Nat) (h : ∀ c ∈ m, c.1 ≠ a) : Memory.read m a = none := by
  induction m with
  | nil => rfl
  | cons c m ih =>
    obtain ⟨k, v⟩ := c
    rw [Memory.read_cons, if_neg (h (k, v) (by simp)), ih fun c hc => h c (by simp [hc])]

/-- A byte that reads is a cell of the list. -/
theorem Memory.mem_of_read {m : Memory} {a : Nat} {v : Byte} (h : Memory.read m a = some v) : (a, v) ∈ m := by
  induction m with
  | nil => simp at h
  | cons c m ih =>
    obtain ⟨k, w⟩ := c
    rw [Memory.read_cons] at h
    split at h
    · simp_all
    · simp [ih h]

/-- In canonical form, a cell of the list is what its address reads as. -/
theorem Memory.read_of_mem {m : Memory} (hm : m.wf) {a : Nat} {v : Byte} (h : (a, v) ∈ m) :
    Memory.read m a = some v := by
  induction m with
  | nil => simp at h
  | cons c m ih =>
    obtain ⟨k, w⟩ := c
    rw [Memory.wf, List.pairwise_cons] at hm
    rw [Memory.read_cons]
    rcases List.mem_cons.1 h with h | h
    · simp_all
    · have := hm.1 _ h
      rw [if_neg (by simp only at this; omega), ih hm.2 h]

/-- In canonical form, memories that read alike are equal. -/
theorem Memory.ext_of_wf {m₁ m₂ : Memory} (h₁ : m₁.wf) (h₂ : m₂.wf)
    (h : ∀ a, Memory.read m₁ a = Memory.read m₂ a) : m₁ = m₂ := by
  have sub : ∀ {x y : Memory}, x.wf → y.wf → (∀ a, Memory.read x a = Memory.read y a) → ∀ c ∈ x, c ∈ y := by
    intro x y hx _ hxy c hc
    obtain ⟨a, v⟩ := c
    exact Memory.mem_of_read (by rw [← hxy, Memory.read_of_mem hx hc])
  have nodup : ∀ {x : Memory}, x.wf → x.Nodup := fun hx =>
    hx.imp fun hlt he => by subst he; exact absurd hlt (Nat.lt_irrefl _)
  refine List.Perm.eq_of_pairwise ?_ h₁ h₂
    ((List.perm_ext_iff_of_nodup (nodup h₁) (nodup h₂)).2 fun c =>
      ⟨sub h₁ h₂ h c, sub h₂ h₁ (fun a => (h a).symm) c⟩)
  intro a b _ _ hab hba
  exact absurd hab (by omega)

/-! ### Cells of a byte sequence -/

theorem cellsAt_key {a : Nat} {bs : List Byte} {c : Host.Cell} (h : c ∈ cellsAt a bs) :
    a ≤ c.1 ∧ c.1 < a + bs.length := by
  induction bs generalizing a with
  | nil => simp [cellsAt] at h
  | cons b bs ih =>
    simp only [cellsAt, List.mem_cons] at h
    rcases h with rfl | h
    · simp
    · have := ih h
      simp only [List.length_cons]
      omega

theorem cellsAt_wf (a : Nat) (bs : List Byte) : Memory.wf (cellsAt a bs) := by
  induction bs generalizing a with
  | nil => exact .nil
  | cons b bs ih =>
    refine List.pairwise_cons.2 ⟨fun c hc => ?_, ih (a + 1)⟩
    have := cellsAt_key hc
    simp only
    omega

theorem read_cellsAt (a : Nat) (bs : List Byte) (k : Nat) :
    Memory.read (cellsAt a bs) k = if a ≤ k then bs[k - a]? else none := by
  induction bs generalizing a with
  | nil => simp [cellsAt]
  | cons b bs ih =>
    rw [cellsAt, Memory.read_cons, ih]
    by_cases h : a = k
    · simp [h]
    · by_cases h' : a ≤ k
      · have e : k - a = (k - (a + 1)) + 1 := by omega
        rw [if_neg h, if_pos (by omega), if_pos h', e, List.getElem?_cons_succ]
      · rw [if_neg h, if_neg (by omega), if_neg h']

/-! ### Replacing a range -/

/-- A replaced range reads as the new cells; every other address reads as before. -/
theorem Memory.read_splice (m : Memory) {lo hi : Nat} {cells : List Host.Cell} (h : lo ≤ hi)
    (hc : ∀ c ∈ cells, lo ≤ c.1 ∧ c.1 < hi) (a : Nat) :
    (m.splice lo hi cells).read a = if lo ≤ a ∧ a < hi then Memory.read cells a else m.read a := by
  have e₁ := m.read_filter (fun k => decide (k < lo)) a
  have e₂ := m.read_filter (fun k => decide (hi ≤ k)) a
  simp only [decide_eq_true_eq] at e₁ e₂
  rw [Memory.splice, Memory.read_append, Memory.read_append, e₁, e₂]
  by_cases h₁ : a < lo
  · rw [if_pos h₁, if_neg (by omega), if_neg (by omega),
      Memory.read_eq_none cells a fun c hm he => by have := hc c hm; omega]
    simp
  · by_cases h₂ : a < hi
    · rw [if_neg h₁, if_neg (by omega), if_pos (by omega)]
      simp
    · rw [if_neg h₁, if_pos (by omega), if_neg (by omega),
        Memory.read_eq_none cells a fun c hm he => by have := hc c hm; omega]
      simp

/-- Replacing a range keeps the canonical form. -/
theorem Memory.wf_splice {m : Memory} {lo hi : Nat} {cells : List Host.Cell} (hm : m.wf) (h : lo ≤ hi)
    (hw : Memory.wf cells) (hc : ∀ c ∈ cells, lo ≤ c.1 ∧ c.1 < hi) : (m.splice lo hi cells).wf := by
  refine List.pairwise_append.2 ⟨List.pairwise_append.2 ⟨hm.filter _, hw, ?_⟩, hm.filter _, ?_⟩
  · intro a ha b hb
    have := hc b hb
    simp only [List.mem_filter, decide_eq_true_eq] at ha
    omega
  · intro a ha b hb
    simp only [List.mem_append, List.mem_filter, decide_eq_true_eq] at ha hb
    rcases ha with ha | ha
    · omega
    · have := hc a ha
      omega

/-- A cell after the replacement is an old one outside the range or a new one. -/
theorem Memory.mem_splice {m : Memory} {lo hi : Nat} {cells : List Host.Cell} {c : Host.Cell}
    (h : c ∈ m.splice lo hi cells) : (c ∈ m ∧ (c.1 < lo ∨ hi ≤ c.1)) ∨ c ∈ cells := by
  simp only [Memory.splice, List.mem_append, List.mem_filter, decide_eq_true_eq] at h
  tauto

/-- READ AFTER WRITE: the written bytes at their addresses, every other address as before. -/
theorem Memory.read_writeBytes (m : Memory) (a : Nat) (bs : List Byte) (k : Nat) :
    (m.writeBytes a bs).read k = if a ≤ k ∧ k < a + bs.length then bs[k - a]? else m.read k := by
  rw [Memory.writeBytes, Memory.read_splice m (by omega) fun c hc => cellsAt_key hc, read_cellsAt]
  split
  · rw [if_pos (by omega)]
  · rfl

theorem Memory.read_writeBytes_inside (m : Memory) (a : Nat) (bs : List Byte) {i : Nat} (h : i < bs.length) :
    (m.writeBytes a bs).read (a + i) = some bs[i] := by
  rw [Memory.read_writeBytes, if_pos (by omega), Nat.add_sub_cancel_left, List.getElem?_eq_getElem h]

theorem Memory.read_writeBytes_outside (m : Memory) (a : Nat) (bs : List Byte) {k : Nat}
    (h : k < a ∨ a + bs.length ≤ k) : (m.writeBytes a bs).read k = m.read k := by
  rw [Memory.read_writeBytes, if_neg (by omega)]

theorem Memory.wf_writeBytes {m : Memory} (hm : m.wf) (a : Nat) (bs : List Byte) : (m.writeBytes a bs).wf :=
  Memory.wf_splice hm (by omega) (cellsAt_wf a bs) fun _ hc => cellsAt_key hc

theorem Memory.mem_writeBytes {m : Memory} {a : Nat} {bs : List Byte} {c : Host.Cell}
    (h : c ∈ m.writeBytes a bs) : c ∈ m ∨ (a ≤ c.1 ∧ c.1 < a + bs.length) := by
  rcases Memory.mem_splice h with h | h
  · exact .inl h.1
  · exact .inr (cellsAt_key h)

/-! ### Byte order -/

@[simp] theorem le32Bytes_length (v : Word) : (le32Bytes v).length = 4 := rfl

theorem le32Bytes_getElem (v : Word) {i : Nat} (h : i < 4) : (le32Bytes v)[i]? = some (v.extractLsb' (8 * i) 8) := by
  obtain rfl | rfl | rfl | rfl : i = 0 ∨ i = 1 ∨ i = 2 ∨ i = 3 := by omega
  all_goals rfl

@[simp] theorem leBytes_length {w : Nat} (v : BitVec w) (i n : Nat) : (leBytes v i n).length = n := by
  induction n generalizing i with
  | zero => rfl
  | succ n ih => simp [leBytes, ih]

theorem leBytes_getElem {w : Nat} (v : BitVec w) (i : Nat) {n j : Nat} (h : j < n) :
    (leBytes v i n)[j]? = some (v.extractLsb' (8 * (i + j)) 8) := by
  induction n generalizing i j with
  | zero => omega
  | succ n ih =>
    cases j with
    | zero => rfl
    | succ j =>
      rw [leBytes, List.getElem?_cons_succ, ih (i + 1) (by omega)]
      congr 3
      omega

theorem leNat_append (xs ys : List Byte) : leNat (xs ++ ys) = leNat xs + 256 ^ xs.length * leNat ys := by
  induction xs with
  | nil => simp [leNat]
  | cons b bs ih => simp only [List.cons_append, leNat, ih, List.length_cons, Nat.pow_succ]; ring

theorem leNat_lt (bs : List Byte) : leNat bs < 256 ^ bs.length := by
  induction bs with
  | nil => simp [leNat]
  | cons b bs ih =>
    have := b.isLt
    simp only [leNat, List.length_cons, Nat.pow_succ]
    omega

/-- The four bytes of a word stand for it. -/
theorem leNat_le32Bytes (v : Word) : leNat (le32Bytes v) = v.toNat := by
  have := v.isLt
  simp only [le32Bytes, leNat, BitVec.extractLsb'_toNat, Nat.shiftRight_eq_div_pow]
  omega

/-- Two lists of bytes of one length that stand for one number are equal. -/
theorem leNat_inj {xs ys : List Byte} (hl : xs.length = ys.length) (h : leNat xs = leNat ys) : xs = ys := by
  induction xs generalizing ys with
  | nil => simpa using hl.symm
  | cons x xs ih =>
    cases ys with
    | nil => simp at hl
    | cons y ys =>
      simp only [leNat] at h
      have hx := x.isLt
      have hy := y.isLt
      rw [ih (by simpa using hl) (by omega), BitVec.eq_of_toNat_eq (by omega : x.toNat = y.toNat)]

/-! ### The frequency and the code table -/

/-- The bytes of a list of words: byte j of word i at position 4i + j. -/
theorem flatMap_le32Bytes_getElem (ws : List Word) {i j : Nat} (hj : j < 4) :
    (ws.flatMap le32Bytes)[4 * i + j]? = (ws[i]?).map fun w => w.extractLsb' (8 * j) 8 := by
  induction ws generalizing i with
  | nil => simp
  | cons w ws ih =>
    rw [List.flatMap_cons]
    cases i with
    | zero =>
      rw [List.getElem?_append_left (by simp; omega), Nat.mul_zero, Nat.zero_add, le32Bytes_getElem w hj]
      rfl
    | succ i =>
      rw [List.getElem?_append_right (by simp; omega), List.getElem?_cons_succ, ← ih]
      congr 1
      simp only [le32Bytes_length]
      omega

@[simp] theorem flatMap_le32Bytes_length (ws : List Word) : (ws.flatMap le32Bytes).length = 4 * ws.length := by
  induction ws with
  | nil => rfl
  | cons w ws ih => rw [List.flatMap_cons, List.length_append, ih, le32Bytes_length, List.length_cons]; omega

/-- FREQ after a table of 256 words is stored. -/
theorem State.setFreqTable_read (s : State) {ws : List Word} {sym j : Nat} (hw : ws.length = 256) (hs : sym < 256)
    (hj : j < 4) : (s.setFreqTable ws).mem.read (freqAddr sym + j) = some ((ws.getD sym 0).extractLsb' (8 * j) 8) := by
  have e : freqAddr sym + j - freqAddr 0 = 4 * sym + j := by simp only [freqAddr]; omega
  rw [State.setFreqTable_mem, Memory.read_writeBytes,
    if_pos (by simp only [freqAddr, flatMap_le32Bytes_length]; omega), e, flatMap_le32Bytes_getElem ws hj]
  rw [List.getD_eq_getElem?_getD, List.getElem?_eq_getElem (by omega)]
  rfl

/-- Storing FREQ changes no address outside its window. -/
theorem State.setFreqTable_read_outside (s : State) {ws : List Word} {a : Nat} (hw : ws.length = 256)
    (ha : a < 0x1000 ∨ 0x1400 ≤ a) : (s.setFreqTable ws).mem.read a = s.mem.read a := by
  rw [State.setFreqTable_mem, Memory.read_writeBytes_outside]
  simp only [freqAddr, flatMap_le32Bytes_length]
  omega

theorem State.setFreqTable_wf {s : State} (h : s.mem.wf) (ws : List Word) : (s.setFreqTable ws).mem.wf :=
  Memory.wf_writeBytes h _ _

/-- Every cell of a code table is a length byte or a value byte of one of its entries. -/
theorem codeCells_key {s : Nat} {t : List CodeEntry} {c : Host.Cell} (h : c ∈ codeCells s t) :
    ∃ i, i < t.length ∧ (c.1 = codeLenAddr (s + i) ∨ ∃ j, j < 32 ∧ c.1 = codeValAddr (s + i) + j) := by
  induction t generalizing s with
  | nil => simp [codeCells] at h
  | cons e t ih =>
    obtain ⟨len, val⟩ := e
    simp only [codeCells, List.mem_cons, List.mem_append] at h
    rcases h with rfl | h | h
    · exact ⟨0, by simp, .inl rfl⟩
    · have := cellsAt_key h
      simp only [leBytes_length] at this
      exact ⟨0, by simp, .inr ⟨c.1 - codeValAddr s, by omega, by simp only [Nat.add_zero]; omega⟩⟩
    · obtain ⟨i, hi, h⟩ := ih h
      exact ⟨i + 1, by simpa using hi, by rw [show s + (i + 1) = s + 1 + i by omega]; exact h⟩

theorem codeCells_range {s : Nat} {t : List CodeEntry} {c : Host.Cell} (h : c ∈ codeCells s t) :
    codeLenAddr s ≤ c.1 ∧ c.1 < codeLenAddr (s + t.length) := by
  obtain ⟨i, hi, h | ⟨j, hj, h⟩⟩ := codeCells_key h <;> simp only [codeLenAddr, codeValAddr] at * <;> omega

theorem codeCells_wf (s : Nat) (t : List CodeEntry) : Memory.wf (codeCells s t) := by
  induction t generalizing s with
  | nil => exact .nil
  | cons e t ih =>
    obtain ⟨len, val⟩ := e
    refine List.pairwise_cons.2 ⟨fun c hc => ?_, List.pairwise_append.2 ⟨cellsAt_wf _ _, ih (s + 1), ?_⟩⟩
    · rcases List.mem_append.1 hc with hc | hc
      · have := cellsAt_key hc
        simp only [codeLenAddr, codeValAddr] at *
        omega
      · have := codeCells_range hc
        simp only [codeLenAddr] at *
        omega
    · intro a ha b hb
      have h₁ := cellsAt_key ha
      have h₂ := codeCells_range hb
      simp only [leBytes_length, codeLenAddr, codeValAddr] at *
      omega

/-- The code table's cells read back: the length byte and the value bytes of every entry. -/
theorem read_codeCells (s : Nat) {t : List CodeEntry} {i : Nat} (h : i < t.length) :
    Memory.read (codeCells s t) (codeLenAddr (s + i)) = some t[i].1 ∧
    ∀ j, j < 32 → Memory.read (codeCells s t) (codeValAddr (s + i) + j) = some (t[i].2.extractLsb' (8 * j) 8) := by
  have wf := codeCells_wf s t
  have cells : ∀ (s i : Nat) (t : List CodeEntry) (h : i < t.length),
      (codeLenAddr (s + i), t[i].1) ∈ codeCells s t ∧
      ∀ j, j < 32 → (codeValAddr (s + i) + j, t[i].2.extractLsb' (8 * j) 8) ∈ codeCells s t := by
    intro s i t
    induction t generalizing s i with
    | nil => intro h; simp at h
    | cons e t ih =>
      obtain ⟨len, val⟩ := e
      intro h
      cases i with
      | zero =>
        refine ⟨by simp [codeCells], fun j hj => ?_⟩
        have : Memory.read (cellsAt (codeValAddr s) (leBytes val 0 32)) (codeValAddr s + j) =
            some (val.extractLsb' (8 * j) 8) := by
          rw [read_cellsAt, if_pos (by omega), Nat.add_sub_cancel_left, leBytes_getElem val 0 hj, Nat.zero_add]
        have := Memory.mem_of_read this
        simp [codeCells, this]
      | succ i =>
        have := ih (s + 1) i (by simpa using h)
        rw [show s + (i + 1) = s + 1 + i by omega]
        refine ⟨?_, fun j hj => ?_⟩
        · simpa [codeCells] using Or.inr (Or.inr this.1)
        · simpa [codeCells] using Or.inr (Or.inr (this.2 j hj))
  exact ⟨Memory.read_of_mem wf (cells s i t h).1, fun j hj => Memory.read_of_mem wf ((cells s i t h).2 j hj)⟩

/-- CODE after a table of 256 entries is stored. -/
theorem State.setCodeTable_read (s : State) {t : List CodeEntry} {sym : Nat} (ht : t.length = 256) (h : sym < 256) :
    (s.setCodeTable t).mem.read (codeLenAddr sym) = some (t[sym]'(by omega)).1 ∧
    ∀ j, j < 32 → (s.setCodeTable t).mem.read (codeValAddr sym + j) =
      some ((t[sym]'(by omega)).2.extractLsb' (8 * j) 8) := by
  have rd := read_codeCells 0 (t := t) (i := sym) (by omega)
  rw [Nat.zero_add] at rd
  have range : ∀ c ∈ codeCells 0 t, codeLenAddr 0 ≤ c.1 ∧ c.1 < codeLenAddr 256 := fun c hc => by
    have := codeCells_range hc
    rwa [Nat.zero_add, ht] at this
  rw [State.setCodeTable_mem]
  refine ⟨?_, fun j hj => ?_⟩
  · rw [Memory.read_splice _ (by decide) range, if_pos (by simp only [codeLenAddr]; omega), rd.1]
  · rw [Memory.read_splice _ (by decide) range, if_pos (by simp only [codeLenAddr, codeValAddr]; omega), rd.2 j hj]

/-- Storing CODE changes no address outside its window. -/
theorem State.setCodeTable_read_outside (s : State) {t : List CodeEntry} {a : Nat} (ht : t.length = 256)
    (ha : a < 0x4000 ∨ 0x8000 ≤ a) : (s.setCodeTable t).mem.read a = s.mem.read a := by
  have range : ∀ c ∈ codeCells 0 t, codeLenAddr 0 ≤ c.1 ∧ c.1 < codeLenAddr 256 := fun c hc => by
    have := codeCells_range hc
    rwa [Nat.zero_add, ht] at this
  rw [State.setCodeTable_mem, Memory.read_splice _ (by decide) range, if_neg (by simp only [codeLenAddr]; omega)]

theorem State.setCodeTable_wf {s : State} (h : s.mem.wf) {t : List CodeEntry} (ht : t.length = 256) :
    (s.setCodeTable t).mem.wf := by
  refine Memory.wf_splice h (by decide) (codeCells_wf 0 t) fun c hc => ?_
  have := codeCells_range hc
  rwa [Nat.zero_add, ht] at this

@[simp] theorem countSymbols_length (bytes : List Byte) : (countSymbols bytes).length = 256 := by
  simp [countSymbols]

@[simp] theorem codeTable_length (codes : List (Byte × Bits)) : (codeTable codes).length = 256 := by
  simp [codeTable]

/-! ### OUT -/

theorem State.appendOut_wf {s : State} (h : s.mem.wf) (bs : List Byte) : (s.appendOut bs).mem.wf :=
  Memory.wf_writeBytes h _ _

@[simp] theorem freeBytes_length (k n : Nat) : (freeBytes k n).length = n := by
  induction n generalizing k with
  | zero => rfl
  | succ n ih => simp [freeBytes, ih]

theorem State.unspecifyOut_wf {s : State} (h : s.mem.wf) : s.unspecifyOut.mem.wf := Memory.wf_writeBytes h _ _

/-- The unspecified bytes are those of OUT from DST_PTR on; every other address reads as before. -/
theorem State.unspecifyOut_read (s : State) {a : Nat}
    (h : a < outAddr s.dstPtr.toNat ∨ outAddr s.params.outSize ≤ a) : s.unspecifyOut.mem.read a = s.mem.read a := by
  rw [State.unspecifyOut_mem, Memory.read_writeBytes]
  split
  next h' => rw [freeBytes_length] at h'; simp only [outAddr] at *; omega
  next => rfl

/-- The memory after reset has the canonical form. -/
theorem State.reset_wf : State.reset.mem.wf := .nil

end Sys2Proof.Machine
end

