-- ==== Sys2Proof/Laws/Commands.lean ====
section
/-! SUPPORT. What a command's parts do as a whole: the error of a command that writes OUT, and the leaves BUILD seeds. -/

namespace Sys2Proof.Machine

open Sys2Proof.Safety

/-- The error commit over unspecified OUT (R252) is what failsOverOut says. -/
theorem failsOverOut_of_raise {s : State} {i : Instr} {e : ErrKind} {info : Word}
    (h : exec i s = .next (s.unspecifyOut.raiseError e info)) : failsOverOut s i e.code info :=
  ⟨_, h, rfl, fun _ ha => s.unspecifyOut_read ha⟩

/-- The words of a frequency table that are not 0, each with its symbol, from the symbol sym on. -/
def nonzeroFrom (sym : Nat) (fs : List Word) : List (Word × Nat) := (fs.zipIdx sym).filter (fun p => p.1 ≠ 0)

theorem nonzeroFrom_nil (sym : Nat) : nonzeroFrom sym [] = [] := rfl

theorem nonzeroFrom_cons (sym : Nat) (f : Word) (fs : List Word) :
    nonzeroFrom sym (f :: fs) = if f = 0 then nonzeroFrom (sym + 1) fs else (f, sym) :: nonzeroFrom (sym + 1) fs := by
  simp only [nonzeroFrom, List.zipIdx_cons, List.filter_cons]
  split <;> simp_all

/-- Seeding (R133) appends one leaf and one entry for each word that is not 0, in the order of the symbols. -/
theorem seedLeaves_eq (sym : Nat) (fs : List Word) (q : PQueue) (a : Arena) :
    seedLeaves sym fs (q, a) =
      (⟨q.entries ++ (nonzeroFrom sym fs).mapIdx (fun i p => ⟨p.1.setWidth 64, q.nextSeq + BitVec.ofNat 32 i,
          (BitVec.ofNat 9 (a.nodes.length + i)).setWidth 16⟩),
        q.nextSeq + BitVec.ofNat 32 (nonzeroFrom sym fs).length⟩,
      ⟨a.nodes ++ (nonzeroFrom sym fs).map (fun p => .leaf (BitVec.ofNat 8 p.2)), a.internalCount⟩) := by
  induction fs generalizing sym q a with
  | nil => cases q; cases a; simp [seedLeaves, nonzeroFrom_nil]
  | cons f fs ih =>
    rw [seedLeaves, nonzeroFrom_cons]
    split
    next => exact ih ..
    next =>
      have e (x : Word) (i : Nat) : x + 1#32 + BitVec.ofNat 32 i = x + BitVec.ofNat 32 (i + 1) := by
        rw [BitVec.add_assoc, ← BitVec.ofNat_add, Nat.add_comm 1 i]
      have c (i : Nat) : a.nodes.length + 1 + i = a.nodes.length + (i + 1) := by omega
      refine (ih ..).trans ?_
      simp [PQueue.insert, List.mapIdx_cons, e, c]

end Sys2Proof.Machine
end

