-- ==== Sys2Proof/Laws/Ops.lean ====
section
/-! SUPPORT. What each shared operation can do, said once: completion and the error commit, the checks, the readers
of memory, the arena, codes, and the emitters and readers of bits. Proofs about a command cite these. -/

namespace Sys2Proof.Machine

/-! ### Completion (R101, R252) -/

@[simp] theorem conclude_ok (onError t : State) : conclude onError (.ok t) = .next t.finish := rfl

@[simp] theorem conclude_raise (onError : State) (e : ErrKind) (i : Word) :
    conclude onError (raise e i) = .next (onError.raiseError e i) := rfl

@[simp] theorem conclude_error_raise (onError : State) (e : ErrKind) (i : Word) :
    conclude onError (.error (.raise e i)) = .next (onError.raiseError e i) := rfl

@[simp] theorem conclude_error_fault (onError : State) (f : Fault) :
    conclude onError (.error (.fault f)) = .fault f := rfl

/-- A command that answers a next state succeeded, or raised an error and committed it. -/
theorem conclude_eq_next {onError t : State} {r : Except Stop State} (h : conclude onError r = .next t) :
    (∃ u, r = .ok u ∧ t = u.finish) ∨ ∃ e i, r = .error (.raise e i) ∧ t = onError.raiseError e i := by
  rcases r with (⟨e, i⟩ | f) | u
  · exact .inr ⟨e, i, rfl, by simpa using h.symm⟩
  · simp at h
  · exact .inl ⟨u, rfl, by simpa using h.symm⟩

/-- A completion is never a refusal. -/
theorem conclude_ne_refused (onError : State) (r : Except Stop State) (x : Refusal) :
    conclude onError r ≠ .refused x := by
  rcases r with (⟨e, i⟩ | f) | u <;> simp

/-- Every error code of R250 is other than "no error". -/
theorem ErrKind.code_ne_zero (e : ErrKind) : e.code ≠ 0 := by cases e <;> decide

theorem ErrKind.code_inj {a b : ErrKind} (h : a.code = b.code) : a = b := by
  revert h; cases a <;> cases b <;> decide

/-! ### Rules that end early -/

@[simp] theorem except_pure_eq_ok {α : Type} (a : α) : (pure a : Except Stop α) = .ok a := rfl

@[simp] theorem except_ok_bind {α β : Type} (a : α) (f : α → Except Stop β) : (Except.ok a >>= f) = f a := rfl

@[simp] theorem except_error_bind {α β : Type} (x : Stop) (f : α → Except Stop β) :
    (Except.error x >>= f) = .error x := rfl

theorem except_bind_eq_ok {α β : Type} {x : Except Stop α} {f : α → Except Stop β} {b : β} :
    x >>= f = .ok b ↔ ∃ a, x = .ok a ∧ f a = .ok b := by
  cases x <;> simp

theorem except_bind_eq_error {α β : Type} {x : Except Stop α} {f : α → Except Stop β} {e : Stop} :
    x >>= f = .error e ↔ x = .error e ∨ ∃ a, x = .ok a ∧ f a = .error e := by
  cases x <;> simp

/-! ### Checks (R255) -/

theorem State.checkSrc_ok {s : State} :
    s.checkSrc = .ok () ↔ s.srcEnd.toNat ≤ s.params.inSize ∧ s.srcPtr.toNat ≤ s.srcEnd.toNat := by
  unfold State.checkSrc raise
  split
  · simp; omega
  · split
    · simp; omega
    · simp; omega

theorem State.checkSrc_end {s : State} (h : s.params.inSize < s.srcEnd.toNat) :
    s.checkSrc = raise .bufferOverflow s.srcEnd := by rw [State.checkSrc, if_pos h]

theorem State.checkSrc_ptr {s : State} (h : s.srcEnd.toNat ≤ s.params.inSize) (h' : s.srcEnd.toNat < s.srcPtr.toNat) :
    s.checkSrc = raise .bufferOverflow s.srcPtr := by rw [State.checkSrc, if_neg (by omega), if_pos h']

theorem State.checkDstRoom_ok {s : State} {m : Nat} :
    s.checkDstRoom m = .ok () ↔ s.dstPtr.toNat + m ≤ s.params.outSize := by
  unfold State.checkDstRoom raise
  split
  · simp; omega
  · split
    · simp; omega
    · simp; omega

theorem State.checkDstRoom_full {s : State} {m : Nat} (h : s.params.outSize < s.dstPtr.toNat + m) :
    s.checkDstRoom m = raise .bufferOverflow
      (if s.params.outSize < s.dstPtr.toNat then s.dstPtr else BitVec.ofNat 32 s.params.outSize) := by
  rw [State.checkDstRoom, if_pos h]
  split <;> rfl

theorem State.checkTree_ok {s : State} : s.checkTree = .ok () ↔ s.treeValid = true := by
  unfold State.checkTree raise
  cases s.treeValid <;> simp

/-! ### Readers of memory -/

theorem fetchByte_ok {m : Memory} {a : Nat} {b : Byte} : fetchByte m a = .ok b ↔ m.read a = some b := by
  unfold fetchByte noValue
  cases m.read a <;> simp

/-- A byte that is consumed has a value, or the machine faults at its address. -/
theorem fetchByte_cases (m : Memory) (a : Nat) :
    (∃ b, m.read a = some b ∧ fetchByte m a = .ok b) ∨
      (m.read a = none ∧ fetchByte m a = .error (.fault (.noValue a))) := by
  unfold fetchByte noValue
  cases h : m.read a <;> simp

@[simp] theorem collect_zero {α : Type} (f : Nat → Except Stop α) (a : Nat) : collect f a 0 = .ok [] := rfl

theorem collect_succ {α : Type} (f : Nat → Except Stop α) (a n : Nat) :
    collect f a (n + 1) = (do let x ← f a; let xs ← collect f (a + 1) n; return x :: xs) := rfl

/-- collect succeeds exactly with the list of the n results. -/
theorem collect_ok {α : Type} {f : Nat → Except Stop α} {a n : Nat} {xs : List α} :
    collect f a n = .ok xs ↔ xs.length = n ∧ ∀ i, (h : i < xs.length) → f (a + i) = .ok xs[i] := by
  induction n generalizing a xs with
  | zero =>
    constructor
    · intro h; cases h; simp
    · rintro ⟨h, -⟩; rw [List.length_eq_zero_iff.1 h]; rfl
  | succ n ih =>
    rw [collect_succ, except_bind_eq_ok]
    simp only [except_bind_eq_ok, except_pure_eq_ok, Except.ok.injEq]
    constructor
    · rintro ⟨x, hx, ys, hys, rfl⟩
      obtain ⟨hl, hi⟩ := ih.1 hys
      refine ⟨by simp [hl], fun i h => ?_⟩
      cases i with
      | zero => simpa using hx
      | succ i =>
        have := hi i (by simpa using h)
        rw [show a + (i + 1) = a + 1 + i by omega]
        simpa using this
    · rintro ⟨hl, hi⟩
      cases xs with
      | nil => simp at hl
      | cons y ys =>
        refine ⟨y, hi 0 (Nat.succ_pos _), ys, ih.2 ⟨by simpa using hl, fun i h => ?_⟩, rfl⟩
        have := hi (i + 1) (by simpa using h)
        rw [show a + 1 + i = a + (i + 1) by omega]
        simpa using this

/-- collect stops with the first result that stops. -/
theorem collect_error {α : Type} {f : Nat → Except Stop α} {a n : Nat} {e : Stop} (h : collect f a n = .error e) :
    ∃ i, i < n ∧ f (a + i) = .error e ∧ ∀ j, j < i → ∃ x, f (a + j) = .ok x := by
  induction n generalizing a with
  | zero => simp at h
  | succ n ih =>
    rw [collect_succ, except_bind_eq_error] at h
    rcases h with h | ⟨x, hx, h⟩
    · exact ⟨0, by omega, by simpa using h, fun j hj => by omega⟩
    · rcases except_bind_eq_error.1 h with h | ⟨ys, -, h⟩
      · obtain ⟨i, hi, hf, hj⟩ := ih h
        refine ⟨i + 1, by omega, by rwa [show a + (i + 1) = a + 1 + i by omega], fun j hj' => ?_⟩
        cases j with
        | zero => exact ⟨x, by simpa using hx⟩
        | succ j => rw [show a + (j + 1) = a + 1 + j by omega]; exact hj j (by omega)
      · simp at h

theorem fetchWord_ok {m : Memory} {a : Nat} {w : Word}
    (h : ∀ i, i < 4 → m.read (a + i) = some (w.extractLsb' (8 * i) 8)) : fetchWord m a = .ok w := by
  have hc : collect (fetchByte m) a 4 = .ok (le32Bytes w) := by
    refine collect_ok.2 ⟨rfl, fun i hi => fetchByte_ok.2 ?_⟩
    have e := le32Bytes_getElem w (i := i) hi
    rw [List.getElem?_eq_getElem hi] at e
    rw [h i hi, ← e]
  unfold fetchWord
  rw [hc]
  simp only [except_ok_bind, except_pure_eq_ok, leNat_le32Bytes, BitVec.ofNat_toNat, BitVec.setWidth_eq]

theorem State.inByte_ok {s : State} {a : Nat} {b : Byte} : s.inByte a = .ok b ↔ s.mem.read (inAddr a) = some b :=
  fetchByte_ok

/-- BUILD's operand is the table that was stored. -/
theorem State.freqTable_of_read {s : State} {ws : List Word} (hl : ws.length = 256)
    (h : ∀ sym, (hs : sym < ws.length) → ∀ i, i < 4 →
      s.mem.read (freqAddr sym + i) = some (ws[sym].extractLsb' (8 * i) 8)) : s.freqTable = .ok ws := by
  refine collect_ok.2 ⟨hl, fun i hi => ?_⟩
  rw [Nat.zero_add]
  exact fetchWord_ok (h i hi)

theorem State.freqTable_setFreqTable (s : State) {ws : List Word} (hl : ws.length = 256) :
    (s.setFreqTable ws).freqTable = .ok ws := by
  refine State.freqTable_of_read hl fun sym hs i hi => ?_
  rw [State.setFreqTable_read s hl (by omega) hi, List.getD_eq_getElem?_getD, List.getElem?_eq_getElem hs]
  rfl

/-! ### The command offer (R100) -/

theorem State.offer_accept {s : State} (h : s.busy = false ∧ s.errCode = 0) (c : Word) : s.offer c = s.accept c :=
  if_pos h

theorem State.offer_drop {s : State} (h : ¬ (s.busy = false ∧ s.errCode = 0)) (c : Word) : s.offer c = s.drop :=
  if_neg h

/-! ### The arena (R132) -/

@[simp] theorem Arena.allocLeaf_fst (a : Arena) (sym : Byte) :
    (a.allocLeaf sym).1 = ⟨a.nodes ++ [.leaf sym], a.internalCount⟩ := rfl

@[simp] theorem Arena.allocLeaf_snd (a : Arena) (sym : Byte) :
    (a.allocLeaf sym).2 = BitVec.ofNat 9 a.nodes.length := rfl

@[simp] theorem Arena.allocInternal_fst (a : Arena) (l r : Ref) :
    (a.allocInternal l r).1 = ⟨a.nodes ++ [.internal l r 0], a.internalCount + 1⟩ := rfl

@[simp] theorem Arena.allocInternal_snd (a : Arena) (l r : Ref) :
    (a.allocInternal l r).2 = BitVec.ofNat 9 a.nodes.length := rfl

@[simp] theorem Node.clearNum_isLeaf (n : Node) : n.clearNum.isLeaf = n.isLeaf := by cases n <;> rfl

@[simp] theorem Node.clearNum_clearNum (n : Node) : n.clearNum.clearNum = n.clearNum := by cases n <;> rfl

/-- Numbering keeps how many nodes there are, and every node but for its number. -/
theorem numberFrom_shape {fuel : Nat} {r : Ref} {b b' : List Node × Nat} (h : numberFrom fuel r b = .ok b') :
    b'.1.map Node.clearNum = b.1.map Node.clearNum := by
  induction fuel generalizing r b b' with
  | zero => simp [numberFrom, badTree] at h
  | succ fuel ih =>
    obtain ⟨nodes, n⟩ := b
    simp only [numberFrom] at h
    split at h
    · simp [badTree] at h
    · simp only [Except.ok.injEq] at h; rw [← h]
    · next l rt num hr =>
      simp only [except_bind_eq_ok, except_pure_eq_ok, Except.ok.injEq] at h
      obtain ⟨b₁, h₁, b₂, h₂, rfl⟩ := h
      have e := (ih h₂).trans (ih h₁)
      simp only at e ⊢
      rw [List.map_set, e]
      refine List.ext_getElem? fun i => ?_
      rw [List.getElem?_set]
      split
      next hi =>
        subst hi
        split
        · simp [hr, Node.clearNum]
        · next hlt => rw [List.getElem?_eq_none (by omega)]
      next => rfl

theorem numberFrom_length {fuel : Nat} {r : Ref} {b b' : List Node × Nat} (h : numberFrom fuel r b = .ok b') :
    b'.1.length = b.1.length := by simpa using congrArg List.length (numberFrom_shape h)

/-! ### Codes (R11, R211, R212) -/

@[simp] theorem codeBits_length (len val : Nat) : (codeBits len val).length = len := by simp [codeBits]

theorem codeBits_getElem (len val : Nat) {i : Nat} (h : i < (codeBits len val).length) :
    (codeBits len val)[i] = val.testBit (len - 1 - i) := by simp [codeBits]

/-- V of a bit string with one more bit after it. -/
theorem bitsVal_append_singleton (c : Bits) (b : Bool) : bitsVal (c ++ [b]) = 2 * bitsVal c + b.toNat := by
  simp [bitsVal]

theorem bitsVal_lt (c : Bits) : bitsVal c < 2 ^ c.length := by
  induction c using List.reverseRecOn with
  | nil => simp [bitsVal]
  | append_singleton c b ih =>
    rw [bitsVal_append_singleton, List.length_append, List.length_singleton, Nat.pow_succ]
    have := b.toNat_lt
    omega

/-! ### The packer (R210) -/

theorem State.emitByte_ok {s : State} {v : Byte} {k : PackState}
    (h : s.dstPtr.toNat + k.emitted.length < s.params.outSize) :
    s.emitByte v k = .ok { k with emitted := v :: k.emitted } := if_neg (by omega)

theorem State.emitByte_full {s : State} {v : Byte} {k : PackState}
    (h : s.params.outSize ≤ s.dstPtr.toNat + k.emitted.length) :
    s.emitByte v k = raise .bufferOverflow (BitVec.ofNat 32 (s.dstPtr.toNat + k.emitted.length)) := if_pos h

/-- Emitting bytes in order keeps the buffer and the bit count, and lists the bytes last first. -/
theorem State.emitAll_ok {s : State} {bs : List Byte} {k : PackState}
    (h : s.dstPtr.toNat + k.emitted.length + bs.length ≤ s.params.outSize) :
    s.emitAll bs k = .ok { k with emitted := bs.reverse ++ k.emitted } := by
  induction bs generalizing k with
  | nil => rfl
  | cons b bs ih =>
    simp only [List.length_cons] at h
    rw [State.emitAll, State.emitByte_ok (by omega), except_ok_bind, ih (by simp only [List.length_cons]; omega)]
    simp

theorem State.drainBits_short (s : State) {c : Bits} (h : c.length < 8) (k : PackState) :
    s.drainBits c k = .ok { k with buf := c } := by
  rcases c with _ | ⟨b₀, _ | ⟨b₁, _ | ⟨b₂, _ | ⟨b₃, _ | ⟨b₄, _ | ⟨b₅, _ | ⟨b₆, _ | ⟨b₇, c⟩⟩⟩⟩⟩⟩⟩⟩
  all_goals first | rfl | (simp only [List.length_cons] at h; omega)

/-- Eight bits go out as one byte. -/
theorem State.drainBits_byte (s : State) {c : Bits} (h : c.length = 8) (rest : Bits) (k : PackState) :
    s.drainBits (c ++ rest) k = (do let k' ← s.emitByte (byteOfBits c) k; s.drainBits rest k') := by
  rcases c with _ | ⟨b₀, _ | ⟨b₁, _ | ⟨b₂, _ | ⟨b₃, _ | ⟨b₄, _ | ⟨b₅, _ | ⟨b₆, _ | ⟨b₇, _ | ⟨b₈, c⟩⟩⟩⟩⟩⟩⟩⟩⟩
  all_goals first | rfl | (simp only [List.length_cons, List.length_nil] at h; omega)

/-! ### The unpacker (R225) -/

theorem State.nextBit_end {s : State} {p avail j k : Nat} (h : avail ≤ k) : s.nextBit p avail j k = corrupt j := if_pos h

theorem State.nextBit_ok {s : State} {p avail j k : Nat} {b : Byte} (h : k < avail)
    (hb : s.mem.read (inAddr (p + k / 8)) = some b) : s.nextBit p avail j k = .ok (b.getLsbD (7 - k % 8)) := by
  rw [State.nextBit, if_neg (by omega), State.inByte_ok.2 hb]
  rfl

/-! ### The deserializer (R189) -/

/-- A type byte with a value is 0, is 1, or is malformed. -/
theorem State.childType_of_read {s : State} {a : Nat} {b : Byte} (h : s.mem.read (inAddr a) = some b) :
    s.childType a = if b = 0 then .ok false else if b = 1 then .ok true else malformed a := by
  rw [State.childType, State.inByte_ok.2 h]
  rfl

theorem State.createChild_some (s : State) (r : Ref) (a : Nat) (ar : Arena) :
    s.createChild (some r) a ar = .ok (ar, r) := rfl

theorem State.createChild_none {s : State} {a : Nat} {b : Byte} (h : s.mem.read (inAddr a) = some b) (ar : Arena) :
    s.createChild none a ar = .ok (ar.allocLeaf b) := by
  rw [State.createChild, State.inByte_ok.2 h]
  rfl

end Sys2Proof.Machine
end

