-- ==== Sys2Proof/Laws/PerInstr.lean ====
section
/-! SUPPORT. Statements made of every instruction as syntax, one lemma per constructor. -/

/-- R81, R84: the word of an instruction is legal by all three checks and is covered by exactly the row that R84 lists for
its opcode. -/
def Sys2Proof.Laws.EncodedLegal.Statement (i : Instr) : Prop :=
  Cmd.legal (encode i) = true ∧ (opcodeRows.filter fun row => row.covers (encode i)).map (fun row => row.pattern) =
    [i.opcode.setWidth 32]

namespace Sys2Proof.Laws

theorem EncodedLegal.nop : EncodedLegal.Statement .nop := ⟨by decide, by decide⟩
theorem EncodedLegal.clear : EncodedLegal.Statement .clear := ⟨by decide, by decide⟩
theorem EncodedLegal.freqClr : EncodedLegal.Statement .freqClr := ⟨by decide, by decide⟩
theorem EncodedLegal.freqCnt : EncodedLegal.Statement .freqCnt := ⟨by decide, by decide⟩
theorem EncodedLegal.pqClr : EncodedLegal.Statement .pqClr := ⟨by decide, by decide⟩
theorem EncodedLegal.pqIns : EncodedLegal.Statement .pqIns := ⟨by decide, by decide⟩
theorem EncodedLegal.pqExt : EncodedLegal.Statement .pqExt := ⟨by decide, by decide⟩
theorem EncodedLegal.build : EncodedLegal.Statement .build := ⟨by decide, by decide⟩
theorem EncodedLegal.codeClr : EncodedLegal.Statement .codeClr := ⟨by decide, by decide⟩
theorem EncodedLegal.codegen : EncodedLegal.Statement .codegen := ⟨by decide, by decide⟩
theorem EncodedLegal.number : EncodedLegal.Statement .number := ⟨by decide, by decide⟩
theorem EncodedLegal.ser : EncodedLegal.Statement .ser := ⟨by decide, by decide⟩
theorem EncodedLegal.deser (postorder : Bool) : EncodedLegal.Statement (.deser postorder) := by
  cases postorder <;> exact ⟨by decide, by decide⟩
theorem EncodedLegal.pack (sized : Bool) : EncodedLegal.Statement (.pack sized) := by
  cases sized <;> exact ⟨by decide, by decide⟩
theorem EncodedLegal.unpack (sized : Bool) : EncodedLegal.Statement (.unpack sized) := by
  cases sized <;> exact ⟨by decide, by decide⟩

end Sys2Proof.Laws
end

