-- ==== Sys2Proof/Laws/Queue.lean ====
section
/-! SUPPORT. The priority queue's operations (R114) and the order R41. -/

namespace Sys2Proof.Machine

open Sys2Proof.Safety

@[simp] theorem PQueue.insert_entries (q : PQueue) (w : BitVec 64) (tag : BitVec 16) :
    (q.insert w tag).entries = q.entries ++ [⟨w, q.nextSeq, tag⟩] := rfl

@[simp] theorem PQueue.insert_nextSeq (q : PQueue) (w : BitVec 64) (tag : BitVec 16) :
    (q.insert w tag).nextSeq = q.nextSeq + 1 := rfl

/-- precedes is the order R41 of keys. -/
theorem PqEntry.precedes_iff (a b : PqEntry) : a.precedes b = true ↔ keyLess a b := by
  simp [PqEntry.precedes, keyLess, BitVec.lt_def]

/-- The order R41 is transitive. -/
theorem keyLess_trans {a b c : PqEntry} (h₁ : keyLess a b) (h₂ : keyLess b c) : keyLess a c := by
  unfold keyLess at *
  rcases h₁ with h₁ | ⟨e₁, h₁⟩ <;> rcases h₂ with h₂ | ⟨e₂, h₂⟩
  · exact .inl (by omega)
  · exact .inl (by rw [← e₂]; exact h₁)
  · exact .inl (by rw [e₁]; exact h₂)
  · exact .inr ⟨e₁.trans e₂, by omega⟩

theorem keyLess_irrefl (a : PqEntry) : ¬ keyLess a a := by
  unfold keyLess
  omega

/-- Two entries neither of which precedes the other have one key. -/
theorem eq_key_of_not_keyLess {a b : PqEntry} (h₁ : ¬ keyLess a b) (h₂ : ¬ keyLess b a) :
    a.w = b.w ∧ a.seq = b.seq := by
  unfold keyLess at *
  have hw : a.w = b.w := BitVec.eq_of_toNat_eq (by omega)
  simp only [hw, true_and, lt_self_iff_false, false_or] at h₁ h₂
  exact ⟨hw, BitVec.eq_of_toNat_eq (by omega)⟩

theorem leastEntry_eq_none {l : List PqEntry} : leastEntry l = none ↔ l = [] := by
  cases l with
  | nil => simp [leastEntry]
  | cons e l =>
    simp only [leastEntry, reduceCtorEq, iff_false]
    split
    · simp
    · split <;> simp

/-- The least entry is an entry, and no entry precedes it. -/
theorem leastEntry_spec {l : List PqEntry} {e : PqEntry} (h : leastEntry l = some e) :
    e ∈ l ∧ ∀ x ∈ l, ¬ keyLess x e := by
  induction l generalizing e with
  | nil => simp [leastEntry] at h
  | cons a l ih =>
    rw [leastEntry] at h
    split at h
    · next hn =>
      rw [leastEntry_eq_none] at hn
      subst hn
      simp only [Option.some.injEq] at h
      subst h
      exact ⟨by simp, fun x hx => by rw [List.mem_singleton.1 hx]; exact keyLess_irrefl a⟩
    · next m hm =>
      obtain ⟨hmem, hmin⟩ := ih hm
      split at h
      · next hp =>
        simp only [Option.some.injEq] at h
        subst h
        rw [PqEntry.precedes_iff] at hp
        refine ⟨by simp [hmem], fun x hx => ?_⟩
        rcases List.mem_cons.1 hx with rfl | hx
        · exact fun hl => keyLess_irrefl m (keyLess_trans hp hl)
        · exact hmin x hx
      · next hp =>
        simp only [Option.some.injEq] at h
        subst h
        rw [PqEntry.precedes_iff] at hp
        refine ⟨by simp, fun x hx => ?_⟩
        rcases List.mem_cons.1 hx with rfl | hx
        · exact keyLess_irrefl _
        · intro hl
          by_cases hma : keyLess a m
          · exact hmin x hx (keyLess_trans hl hma)
          · obtain ⟨hw, hs⟩ := eq_key_of_not_keyLess hp hma
            refine hmin x hx ?_
            unfold keyLess at *
            rw [hw, hs]
            exact hl

theorem PQueue.extractMin_eq_none {q : PQueue} : q.extractMin = none ↔ q.entries = [] := by
  rw [PQueue.extractMin, ← leastEntry_eq_none]
  cases leastEntry q.entries <;> simp

/-- Extraction takes an entry that no entry precedes, and only it; PQ_SEQ stays. -/
theorem PQueue.extractMin_eq_some {q q' : PQueue} {e : PqEntry} (h : q.extractMin = some (e, q')) :
    e ∈ q.entries ∧ (∀ x ∈ q.entries, ¬ keyLess x e) ∧ q' = ⟨q.entries.erase e, q.nextSeq⟩ := by
  rw [PQueue.extractMin] at h
  split at h
  · simp at h
  · next hl =>
    simp only [Option.some.injEq, Prod.mk.injEq] at h
    obtain ⟨rfl, rfl⟩ := h
    exact ⟨(leastEntry_spec hl).1, (leastEntry_spec hl).2, rfl⟩

theorem PQueue.extractMin_length {q q' : PQueue} {e : PqEntry} (h : q.extractMin = some (e, q')) :
    q'.entries.length + 1 = q.entries.length := by
  obtain ⟨hm, -, rfl⟩ := PQueue.extractMin_eq_some h
  have := List.length_pos_of_mem hm
  simp only [List.length_erase_of_mem hm]
  omega

theorem PQueue.extractMin_perm {q q' : PQueue} {e : PqEntry} (h : q.extractMin = some (e, q')) :
    q.entries.Perm (e :: q'.entries) := by
  obtain ⟨hm, -, rfl⟩ := PQueue.extractMin_eq_some h
  exact List.perm_cons_erase hm

end Sys2Proof.Machine
end

