-- ==== Sys2Proof/Laws/Step.lean ====
section
/-! SUPPORT. What one step can do: its cases, said once. Invariant proofs split on these. -/

namespace Sys2Proof.Machine

theorem step_nil {s : State} (h : s.host = []) : step s = engineTurn s := by rw [step, h]

theorem step_cons {s : State} {op : HostOp} {rest : List HostOp} (h : s.host = op :: rest) :
    step s = hostTurn op { s with host := rest } := by rw [step, h]

theorem engineTurn_busy {s : State} (h : s.busy = true) : engineTurn s = engineStep s := if_pos h

theorem engineTurn_quiet {s : State} (h : s.busy = false) : engineTurn s = .next s := if_neg (by simp [h])

theorem engineStep_ok {s : State} {i : Instr} (h : decode s.cmdLast = .ok i) : engineStep s = exec i s := by
  rw [engineStep, h]

/-- A completion: a legal word runs its rule, any other one raises IllegalCommand. -/
theorem engineStep_cases {s t : State} (h : engineStep s = .next t) :
    (∃ i, decode s.cmdLast = .ok i ∧ exec i s = .next t) ∨
      ((∃ e, decode s.cmdLast = .error e) ∧ t = s.raiseError .illegalCommand s.cmdLast) := by
  rw [engineStep] at h
  split at h
  · next i hi => exact .inl ⟨i, hi, h⟩
  · next e he => exact .inr ⟨⟨e, he⟩, by simpa using h.symm⟩

/-- A turn of the engine: a completion, or nothing in a quiescent block. -/
theorem engineTurn_cases {s t : State} (h : engineTurn s = .next t) :
    (s.busy = true ∧ engineStep s = .next t) ∨ (s.busy = false ∧ t = s) := by
  rw [engineTurn] at h
  split at h
  · next hb => exact .inl ⟨hb, h⟩
  · next hb => exact .inr ⟨by simpa using hb, by simpa using h.symm⟩

/-- ONE STEP. `rest` is what remains of the host's list. The engine completes a command; or nothing happens in a quiescent
block; or the host reads, writes, asserts reset, sees BUSY = 0, or checks for an error. -/
theorem step_cases {s t : State} (h : step s = .next t) : ∃ rest : List HostOp,
    (s.busy = true ∧ engineStep { s with host := rest } = .next t) ∨
    (s.busy = false ∧ t = { s with host := rest }) ∨
    (∃ width a, State.busRead { s with host := rest } width a = .next t) ∨
    (∃ width a v, State.busWrite { s with host := rest } width a v = .next t) ∨
    t = State.assertReset { s with host := rest } ∨
    (s.busy = false ∧ t = State.replyData { s with host := rest } s.statusWord) ∨
    (s.errCode = 0 ∧ t = State.replyData { s with host := rest } s.statusWord) ∨
    (s.errCode ≠ 0 ∧ t = State.replyData { s with host := errorReads, hostStopped := true } s.statusWord) := by
  rw [step] at h
  split at h
  · next he =>
    have e : { s with host := [] } = s := by rw [← he]
    refine ⟨[], ?_⟩
    rw [e]
    rcases engineTurn_cases h with ⟨hb, h⟩ | ⟨hb, h⟩
    · exact .inl ⟨hb, h⟩
    · exact .inr (.inl ⟨hb, h⟩)
  · next op rest he =>
    cases op with
    | read width a => exact ⟨rest, .inr (.inr (.inl ⟨width, a, h⟩))⟩
    | write width a v => exact ⟨rest, .inr (.inr (.inr (.inl ⟨width, a, v, h⟩)))⟩
    | reset => exact ⟨rest, .inr (.inr (.inr (.inr (.inl (by simpa [hostTurn] using h.symm)))))⟩
    | idle =>
      refine ⟨rest, ?_⟩
      rcases engineTurn_cases (show engineTurn { s with host := rest } = .next t from h) with ⟨hb, h⟩ | ⟨hb, h⟩
      · exact .inl ⟨hb, h⟩
      · exact .inr (.inl ⟨hb, h⟩)
    | wait =>
      simp only [hostTurn] at h
      split at h
      · next hb => exact ⟨.wait :: rest, .inl ⟨hb, h⟩⟩
      · next hb =>
        simp only [Host.Outcome.next.injEq] at h
        exact ⟨rest, .inr (.inr (.inr (.inr (.inr (.inl ⟨by simpa using hb, h.symm⟩)))))⟩
    | checkOk =>
      refine ⟨rest, .inr (.inr (.inr (.inr (.inr (.inr ?_)))))⟩
      simp only [hostTurn, Host.Outcome.next.injEq] at h
      by_cases hc : s.errCode = 0
      · rw [if_neg (by simp [State.err, hc])] at h
        exact .inl ⟨hc, h.symm⟩
      · rw [if_pos (by simpa [State.err] using hc)] at h
        exact .inr ⟨hc, h.symm⟩

/-- A write that answers: an aligned word access to a mapped target. -/
theorem busWrite_cases {s t : State} {width : AccessWidth} {a : Addr} {v : Word}
    (h : s.busWrite width a v = .next t) :
    accessOk width a = true ∧ busTarget s.params a ≠ .unmapped ∧
      t = { (if s.busy then s.writeBusy v (busTarget s.params a) else s.writeTarget v (busTarget s.params a)) with
        reply := .written } := by
  rw [State.busWrite] at h
  split at h
  · next hc => exact ⟨hc.1, hc.2, by simpa using h.symm⟩
  · simp at h

/-- The register at its offset of the map (R60). -/
theorem busTarget_reg (p : Params) (r : RegName) : busTarget p (BitVec.ofNat 22 r.offset) = .reg r := by
  cases r <;> rfl

theorem accessOk_reg (r : RegName) : accessOk .word (BitVec.ofNat 22 r.offset) = true := by cases r <;> decide

/-- A register write of a quiescent block. -/
theorem busWrite_reg {s : State} (h : s.busy = false) (r : RegName) (v : Word) :
    s.busWrite .word (BitVec.ofNat 22 r.offset) v = .next { s.writeReg v r with reply := .written } := by
  rw [State.busWrite, busTarget_reg, if_pos ⟨accessOk_reg r, by simp⟩]
  simp [h, State.writeTarget]

/-- A register read of a quiescent block. -/
theorem busRead_reg {s : State} (h : s.busy = false) (r : RegName) :
    s.busRead .word (BitVec.ofNat 22 r.offset) = .next (s.replyData (s.readReg r)) := by
  rw [State.busRead, if_pos (accessOk_reg r), busTarget_reg]
  simp [h, State.readTarget]

end Sys2Proof.Machine
end

