-- ==== Sys2Proof/Laws/Tree.lean ====
section
/-! SUPPORT. Trees as data (Safety.HTree) against the arena, and what the tree walks of CODEGEN and UNPACK do on a tree the
arena holds. -/

namespace Sys2Proof.Safety

open Sys2Proof.Machine

theorem HTree.symbols_length (T : HTree) : T.symbols.length = T.internals + 1 := by
  induction T with
  | leaf => rfl
  | node l r hl hr => simp only [HTree.symbols, HTree.internals, List.length_append, hl, hr]; omega

/-- The paths below p are p followed by the paths below the root. -/
theorem HTree.paths_eq_map (T : HTree) (p : Bits) : T.paths p = (T.paths []).map fun e => (e.1, p ++ e.2) := by
  induction T generalizing p with
  | leaf sym => simp [HTree.paths]
  | node l r hl hr =>
    simp only [HTree.paths, List.nil_append, List.map_append]
    rw [hl (p ++ [false]), hr (p ++ [true]), hl [false], hr [true]]
    simp [Function.comp_def]

theorem HTree.paths_node (l r : HTree) :
    (HTree.node l r).paths [] =
      ((l.paths []).map fun e => (e.1, false :: e.2)) ++ (r.paths []).map fun e => (e.1, true :: e.2) := by
  rw [HTree.paths, HTree.paths_eq_map l, HTree.paths_eq_map r]
  rfl

/-- The leaves of the paths are the symbols, left to right. -/
theorem HTree.paths_symbols (T : HTree) (p : Bits) : (T.paths p).map Prod.fst = T.symbols := by
  induction T generalizing p with
  | leaf => rfl
  | node l r hl hr => simp [HTree.paths, HTree.symbols, hl, hr]

/-- A path is no longer than the tree has internal nodes. -/
theorem HTree.paths_length (T : HTree) {e : Byte × Bits} (h : e ∈ T.paths []) : e.2.length ≤ T.internals := by
  induction T generalizing e with
  | leaf sym =>
    rw [HTree.paths, List.mem_singleton] at h
    simp [h]
  | node l r hl hr =>
    rw [HTree.paths_node, List.mem_append, List.mem_map, List.mem_map] at h
    simp only [HTree.internals]
    rcases h with ⟨x, hx, rfl⟩ | ⟨x, hx, rfl⟩
    · have := hl hx; simp only [List.length_cons]; omega
    · have := hr hx; simp only [List.length_cons]; omega

theorem HTree.records_length (T : HTree) (first : Nat) : (HTree.records first T).length = 4 * T.internals := by
  have child : ∀ (n : Nat) (t : HTree), (HTree.childRecord n t).length = 2 := by intro n t; cases t <;> rfl
  induction T generalizing first with
  | leaf => rfl
  | node l r hl hr =>
    simp only [HTree.records, HTree.internals, List.length_append, hl, hr, child]
    omega

/-! ### The arena's tree -/

theorem treeAt_leaf {nodes : List Node} {fuel : Nat} {r : Ref} {sym : Byte}
    (h : nodes[r.toNat]? = some (.leaf sym)) : treeAt nodes (fuel + 1) r = some (.leaf sym) := by rw [treeAt, h]

/-- What treeAt says of a reference: a leaf, or an internal node with the trees of its children. -/
theorem treeAt_cases {nodes : List Node} {fuel : Nat} {r : Ref} {T : HTree} (h : treeAt nodes (fuel + 1) r = some T) :
    (∃ sym, nodes[r.toNat]? = some (.leaf sym) ∧ T = .leaf sym) ∨
      ∃ l rt num tl tr, nodes[r.toNat]? = some (.internal l rt num) ∧ treeAt nodes fuel l = some tl ∧
        treeAt nodes fuel rt = some tr ∧ T = .node tl tr := by
  rw [treeAt] at h
  split at h
  · next sym hn =>
    simp only [Option.some.injEq] at h
    exact .inl ⟨sym, hn, h.symm⟩
  · next l rt num hn =>
    split at h
    · next tl tr hl hr =>
      simp only [Option.some.injEq] at h
      exact .inr ⟨l, rt, num, tl, tr, hn, hl, hr, h.symm⟩
    · simp at h
  · simp at h

/-- More fuel finds the same tree. -/
theorem treeAt_mono {nodes : List Node} {fuel fuel' : Nat} {r : Ref} {T : HTree} (hf : fuel ≤ fuel')
    (h : treeAt nodes fuel r = some T) : treeAt nodes fuel' r = some T := by
  induction fuel generalizing fuel' r T with
  | zero => simp [treeAt] at h
  | succ fuel ih =>
    obtain ⟨n, rfl⟩ : ∃ n, fuel' = n + 1 := ⟨fuel' - 1, by omega⟩
    rcases treeAt_cases h with ⟨sym, hn, rfl⟩ | ⟨l, rt, num, tl, tr, hn, hl, hr, rfl⟩
    · exact treeAt_leaf hn
    · rw [treeAt, hn]
      simp only [ih (by omega : fuel ≤ n) hl, ih (by omega : fuel ≤ n) hr]

/-- Numbers aside, one arena holds one tree. -/
theorem treeAt_congr {ns ms : List Node} (h : ns.map Node.clearNum = ms.map Node.clearNum) (fuel : Nat) (r : Ref) :
    treeAt ns fuel r = treeAt ms fuel r := by
  induction fuel generalizing r with
  | zero => rfl
  | succ fuel ih =>
    have e := congrArg (fun l => l[r.toNat]?) h
    simp only [List.getElem?_map] at e
    rw [treeAt, treeAt]
    rcases hn : ns[r.toNat]? with _ | (s | ⟨l, rt, k⟩) <;> rcases hm : ms[r.toNat]? with _ | (s' | ⟨l', rt', k'⟩) <;>
      simp only [hn, hm, Option.map_none, Option.map_some, Node.clearNum, Option.some.injEq, reduceCtorEq,
        Node.leaf.injEq, Node.internal.injEq, and_true] at e
    · rfl
    · subst e; rfl
    · obtain ⟨rfl, rfl⟩ := e
      simp only [ih]

/-- CODEGEN's walk records the paths of the tree the arena holds. -/
theorem leafPaths_of_treeAt {nodes : List Node} {fuel : Nat} {r : Ref} {T : HTree} (h : treeAt nodes fuel r = some T)
    (p : Bits) : leafPaths nodes fuel r p = .ok (T.paths p) := by
  induction fuel generalizing r T p with
  | zero => simp [treeAt] at h
  | succ fuel ih =>
    rcases treeAt_cases h with ⟨sym, hn, rfl⟩ | ⟨l, rt, num, tl, tr, hn, hl, hr, rfl⟩
    · rw [leafPaths, hn]; rfl
    · rw [leafPaths, hn]
      simp only [ih hl, ih hr, except_ok_bind, except_pure_eq_ok]
      rfl

end Sys2Proof.Safety
end

