-- ==== Sys2Proof/Tests/Slice0.lean ====
section
/-! SUPPORT. Tests of the model. Expected results are the vectors of spec/95_test_vectors.md and the words of
30_encoding.md R84, not the model's own answers. Then one witness for each obligation with hypotheses. -/

namespace Sys2Proof.Tests

open Sys2Proof.Machine Sys2Proof.Safety

-- The tests are elaborated one after another: kernel evaluations that wait for each other would each hold a thread.
set_option Elab.async false

/-! ### Helpers -/

/-- What a test sees of an outcome. -/
def see {α : Type} (o : Host.Outcome State Fault Refusal) (f : State → α) : Option α :=
  match o with
  | .next t => some (f t)
  | .fault _ => none
  | .refused _ => none

/-- The fault of an outcome. -/
def faultOf (o : Host.Outcome State Fault Refusal) : Option Fault :=
  match o with
  | .next _ => none
  | .fault f => some f
  | .refused _ => none

/-- The state of an outcome that answers one. -/
def nextOf (o : Host.Outcome State Fault Refusal) : State :=
  match o with
  | .next t => t
  | .fault _ => State.reset
  | .refused _ => State.reset

theorem eq_nextOf {o : Host.Outcome State Fault Refusal} (h : (see o fun _ => ()) = some ()) : o = .next (nextOf o) := by
  cases o with
  | next t => rfl
  | fault f => simp [see] at h
  | refused r => simp [see] at h

/-- Buffers of 64 bytes, after reset. -/
def blank : State := State.resetWith ⟨64, 64⟩

/-- IN from index 0 holds the bytes, and the source cursors span them. -/
def withIn (s : State) (bytes : List Byte) : State :=
  { s with mem := s.mem.writeBytes (inAddr 0) bytes, srcPtr := 0, srcEnd := BitVec.ofNat 32 bytes.length }

/-- A state that holds a tree: the root is the last node. -/
def withTree (s : State) (nodes : List Node) : State :=
  { s with
    arena := ⟨nodes, BitVec.ofNat 9 (nodes.countP fun n => !n.isLeaf)⟩
    root := BitVec.ofNat 9 (nodes.length - 1)
    treeValid := true
    leafRoot := nodes.length == 1 }

/-- The tree of vector V-B1. -/
def abcTree : List Node := [.leaf 65, .leaf 66, .leaf 67, .internal 0 2 0, .internal 1 3 0]

/-- A state with the tree of V-B1. -/
def abc : State := withTree blank abcTree

/-- A state with the leaf root of V-B3. -/
def seven : State := withTree blank [.leaf 7]

/-- The codes of source scenario 2: 0, 10 and 11 for the symbols 0, 1 and 2, and none for 3. -/
def withCodes (s : State) : State :=
  { s with mem := (((((((s.mem.writeBytes (codeLenAddr 0) [1]).writeBytes (codeValAddr 0) [0]).writeBytes
    (codeLenAddr 1) [2]).writeBytes (codeValAddr 1) [2]).writeBytes (codeLenAddr 2) [2]).writeBytes
    (codeValAddr 2) [3]).writeBytes (codeLenAddr 3) [0]) }

/-- The first n bytes of OUT from index a. -/
def outFrom (t : State) (a n : Nat) : List (Option Byte) := (List.range n).map fun i => t.mem.read (outAddr (a + i))

/-! ### Well-formedness: what each check refuses (R81, R8) -/

theorem test_wf_refuses_unlisted_op : Cmd.opListed 0x00000002#32 = false ∧ Cmd.legal 0x00000002#32 = false := by decide
theorem test_wf_refuses_rsv1 : Cmd.reservedZero 0x00000248#32 = false ∧ Cmd.legal 0x00000248#32 = false := by decide
theorem test_wf_refuses_rsv2 : Cmd.reservedZero 0x00010000#32 = false ∧ Cmd.legal 0x00010000#32 = false := by decide
theorem test_wf_refuses_f0 : Cmd.f0Allowed 0x00000130#32 = false ∧ Cmd.legal 0x00000130#32 = false := by decide
theorem test_wf_accepts : Cmd.legal 0x00000158#32 = true ∧ Instr.wf (.unpack true) = true := by decide
theorem test_params_refuse_in : Params.legal ⟨0, 4⟩ = false ∧ Params.legal ⟨6, 4⟩ = false ∧
    Params.legal ⟨0x100004, 4⟩ = false := by decide
theorem test_params_refuse_out : Params.legal ⟨4, 0⟩ = false ∧ Params.legal ⟨4, 6⟩ = false ∧
    Params.legal ⟨4, 0x200004⟩ = false := by decide
theorem test_params_accept : Params.legal ⟨0x100000, 0x200000⟩ = true ∧ Params.legal ⟨4, 4⟩ = true ∧
    Params.legal Params.reference = true := by decide

/-! ### Decoding: the words of R84, bit by bit as R80 places them -/

theorem test_decode_nop : decode 0b00000000000000000000000000000000#32 = .ok .nop := by decide
theorem test_decode_clear : decode 0b00000000000000000000000000000001#32 = .ok .clear := by decide
theorem test_decode_freqClr : decode 0b00000000000000000000000000010000#32 = .ok .freqClr := by decide
theorem test_decode_freqCnt : decode 0b00000000000000000000000000010001#32 = .ok .freqCnt := by decide
theorem test_decode_pqClr : decode 0b00000000000000000000000000100000#32 = .ok .pqClr := by decide
theorem test_decode_pqIns : decode 0b00000000000000000000000000100001#32 = .ok .pqIns := by decide
theorem test_decode_pqExt : decode 0b00000000000000000000000000100010#32 = .ok .pqExt := by decide
theorem test_decode_build : decode 0b00000000000000000000000000110000#32 = .ok .build := by decide
theorem test_decode_codeClr : decode 0b00000000000000000000000000111000#32 = .ok .codeClr := by decide
theorem test_decode_codegen : decode 0b00000000000000000000000000111001#32 = .ok .codegen := by decide
theorem test_decode_number : decode 0b00000000000000000000000001000000#32 = .ok .number := by decide
theorem test_decode_ser : decode 0b00000000000000000000000001000001#32 = .ok .ser := by decide
theorem test_decode_deser : decode 0b00000000000000000000000001001000#32 = .ok (.deser false) ∧
    decode 0b00000000000000000000000101001000#32 = .ok (.deser true) := by decide
theorem test_decode_pack : decode 0b00000000000000000000000001010000#32 = .ok (.pack false) ∧
    decode 0b00000000000000000000000101010000#32 = .ok (.pack true) := by decide
theorem test_decode_unpack : decode 0b00000000000000000000000001011000#32 = .ok (.unpack false) ∧
    decode 0b00000000000000000000000101011000#32 = .ok (.unpack true) := by decide
theorem test_decode_rejects : decode 0x00000111#32 = .error .f0NotDefined ∧
    decode 0x80000048#32 = .error .reservedBits ∧ decode 0x00000059#32 = .error .unlistedOp := by decide
theorem test_decode_table_word : decodeTableWord 32 0x150 = some (.pack true) ∧
    decodeTableWord 32 0x1150 = none := by decide
/-- R91. -/
theorem test_assemble_mnemonics : assembleMnemonic "DESER.P" = some 0x00000148#32 ∧
    assembleMnemonic "PACK.S" = some 0x00000150#32 ∧ assembleMnemonic "BUILD.S" = none := by decide
/-- R90 to R92: a line of statements with a comment, and the word `loadin` writes (V-M2). -/
theorem test_assemble : assemble "wr SRC_END, 0x2 ; cmd DESER.P -- x\nwait" =
      .ok [.write .word 0x34 2, .write .word 0x10 0x148, .wait] ∧
    assemble "loadin 0, [65,66,67,66]" = .ok [.write .word 0x100000 0x42434241] ∧
    assemble "cmd BUILD.S" = .error .mnemonic := by decide +kernel

/-- R90 to R96 leave these open (log 25): the blank after a keyword may be a tab, and what no IN or OUT window or 32-bit
register can hold is refused. -/
theorem test_assemble_choices : splitKeyword ['r', 'd', '\t', 'I', 'D'] = (['r', 'd'], ['I', 'D']) ∧
    readBufferIndex inAddr inWindow ['0', 'x', 'F', 'F', 'F', 'F', 'C'] = some 0x1FFFFC ∧
    readBufferIndex inAddr inWindow ['0', 'x', '1', '0', '0', '0', '0', '0'] = none ∧
    readBufferIndex outAddr outWindow ['0', 'x', '2', '0', '0', '0', '0', '0'] = none ∧
    readLoad ['0', 'x', '3', '0', '0', '0', '1', '0', ',', ' ', '[', '0', ']'] = .error .name ∧
    readCount compress ['0', 'x', '1', '0', '0', '0', '0', '0', '0', '0', '0'] = .error .number := by
  decide +kernel

/-! ### A command runs as the first step after its acceptance -/

/-- V-C1. -/
theorem test_first_step_nop : see (step (State.reset.withFetchWord 32 0x00)) (fun t => (t.statusWord, t.cmdLast)) =
    some (0x12, 0) := by decide
/-- V-C3. -/
theorem test_first_step_illegal : see (step (State.reset.withFetchWord 32 0x02)) (fun t =>
    (t.errCode, t.errInfo, t.statusWord)) = some (0x10, 2, 0x16) := by decide
/-- V-R3. -/
theorem test_first_step_build : faultOf (step (State.reset.withFetchWord 32 0x30)) = some (.noValue 0x1000) := by decide
/-- V-R4. -/
theorem test_first_step_codegen : see (step (State.reset.withFetchWord 32 0x39)) (fun t => t.errCode) = some 0x13 := by
  decide

/-! ### Control, bus and the error latch -/

/-- V-C6. -/
theorem test_latched_error_drops : see (({ blank with errCode := 0x10, cmdLast := 0x10000 }).busWrite .word 0x10 0x150)
    (fun t => (t.dropped, t.cmdLast, t.busy)) = some (true, 0x10000, false) := by decide
/-- V-C2. -/
theorem test_clear : see (exec .clear { abc with queue := ⟨[⟨4, 4, 4⟩], 5⟩ }) (fun t =>
    (t.statusWord, t.root, t.nodeCount, t.pqCount, t.queue.nextSeq)) = some (0x12, 0, 0, 0, 0) := by decide
/-- V-C7, V-C8. -/
theorem test_err_code_write : see (({ blank with errCode := 0x10, errInfo := 9 }).busWrite .word 0x18 0)
      (fun t => (t.errCode, t.errInfo)) = some (0, 0) ∧
    see (({ blank with errCode := 0x10, errInfo := 9 }).busWrite .word 0x18 5)
      (fun t => (t.errCode, t.errInfo)) = some (0x10, 9) := by decide
/-- V-C10, V-C11. -/
theorem test_busy_writes : see (({ blank with busy := true }).busWrite .word 0x30 7) (fun t => (t.srcPtr, t.dropped)) =
      some (0, true) ∧
    see (({ blank with busy := true }).busWrite .word 0x20 1) (fun t => (t.irqEn, t.dropped)) = some (1, false) := by
  decide
/-- V-C13, V-C14. -/
theorem test_irq : State.irq { blank with errCode := 1, irqEn := 2 } = true ∧
    State.irq { blank with errCode := 1, irqEn := 4 } = false ∧
    State.irq { blank with dropped := true, irqEn := 4 } = true := by decide
/-- V-M1, V-M5, V-R1. -/
theorem test_reads : see (State.reset.busRead .word 0x0) (fun t => t.reply) = some (.data 0x48554646) ∧
    see (State.reset.busRead .word 0xC) (fun t => t.reply) = some (.data 0x10000) ∧
    see (State.reset.busRead .word 0x14) (fun t => t.reply) = some (.data 0x10) ∧
    see (State.reset.busRead .word 0xFC) (fun t => t.reply) = some (.data 0) := by decide
/-- V-M4, V-M6, V-M7. -/
theorem test_bus_errors : faultOf (State.reset.busRead .byte 0) = some (.busError 0) ∧
    faultOf (State.reset.busRead .word 2) = some (.busError 2) ∧
    faultOf (State.reset.busRead .word 0x3000) = some (.busError 0x3000) ∧
    faultOf (State.reset.busRead .word 0x110000) = some (.busError 0x110000) := by decide
/-- V-M2. -/
theorem test_in_write : see (State.reset.busWrite .word 0x100000 0x42434241) (fun t =>
    (List.range 4).map fun i => t.mem.read (inAddr i)) = some [some 65, some 66, some 67, some 66] := by decide
/-- V-M9, V-M11. -/
theorem test_node_window : see (abc.busRead .word 0x2020) (fun t => t.reply) = some (.data 1) ∧
    see (abc.busRead .word 0x2024) (fun t => t.reply) = some (.data 0x00030001) ∧
    see (abc.busWrite .word 0x2020 5) (fun t => t.arena) = some abc.arena := by decide
/-- V-R2. -/
theorem test_reset_abandons : see (step { abc with busy := true, cmdLast := 0x40, host := [.reset] }) (fun t =>
    (t.busy, t.cmdLast, t.statusWord, t.nodeCount)) = some (false, 0, 0x10, 0) := by decide

/-! ### The priority queue -/

/-- V-Q1 after its fourth insertion; V-Q4. -/
theorem test_pqIns : see (exec .pqIns { blank with
      queue := ⟨[⟨5, 0, 0xA⟩, ⟨3, 1, 0xB⟩, ⟨5, 2, 0xC⟩], 3⟩, arg0 := 3, arg2 := 0xD })
        (fun t => (t.res, t.queue.entries.getLast?, t.queue.nextSeq)) =
      some (⟨3, 4, 0, 0⟩, some ⟨3, 3, 0xD⟩, 4) ∧
    see (exec .pqIns { blank with arg1 := 0xFFFFFFFF, arg2 := 1 }) (fun t => (t.errCode, t.errInfo, t.queue)) =
      some (0x11, 0xFFFFFFFF, ⟨[], 0⟩) := by decide
/-- V-Q7. -/
theorem test_pqIns_seq : see (exec .pqIns { blank with queue := ⟨[], 0xFFFFFFFF⟩ }) (fun t => (t.errCode, t.errInfo)) =
    some (0x12, 1) := by decide
/-- V-Q2, its second extraction; V-Q3. -/
theorem test_pqExt : see (exec .pqExt { blank with
      queue := ⟨[⟨5, 0, 0xA⟩, ⟨5, 2, 0xC⟩, ⟨3, 3, 0xD⟩], 4⟩ }) (fun t => (t.res, t.queue.entries.length)) =
      some (⟨3, 0, 0xD, 3⟩, 2) ∧
    see (exec .pqExt { blank with res := ⟨5, 0, 0xC, 2⟩ }) (fun t => (t.errCode, t.errInfo, t.res)) =
      some (2, 0, ⟨5, 0, 0xC, 2⟩) := by decide
/-- V-Q5: a weight above 2^32. -/
theorem test_pqExt_wide : see (exec .pqExt { blank with queue := ⟨[⟨0x7FFFFFFF00000000, 0, 0xFFFF⟩], 1⟩ })
    (fun t => t.res) = some ⟨0, 0x7FFFFFFF, 0xFFFF, 0⟩ := by decide
/-- V-Q8. -/
theorem test_pqClr : see (exec .pqClr { blank with queue := ⟨[⟨0, 1, 0⟩], 2⟩, res := ⟨1, 2, 3, 4⟩ })
    (fun t => (t.statusWord, t.queue, t.res)) = some (0x12, ⟨[], 0⟩, ⟨0, 0, 0, 0⟩) := by decide

/-! ### FREQ and BUILD -/

/-- V-B1. -/
theorem test_freqCnt : see (exec .freqCnt (withIn blank [65, 66, 67, 66])) (fun t =>
    (t.res, t.mem.read (freqAddr 66), t.mem.read (freqAddr 68), t.srcPtr)) =
    some (⟨3, 4, 0, 0⟩, some 2, some 0, 0) := by decide +kernel
/-- V-B8. -/
theorem test_freqCnt_range : see (exec .freqCnt { blank with srcPtr := 5, srcEnd := 4 }) (fun t =>
    (t.errCode, t.errInfo, t.mem)) = some (0x15, 5, []) := by decide
/-- V-B11. -/
theorem test_freqClr : see (exec .freqClr blank) (fun t => (t.mem.read (freqAddr 65), t.mem.read (freqAddr 255 + 3))) =
    some (some 0, some 0) := by decide +kernel
/-- V-B1. -/
theorem test_build_tree : buildTree (List.replicate 65 0 ++ [1, 2, 1]) = (⟨[⟨4, 4, 4⟩], 5⟩, ⟨abcTree, 2⟩) := by decide
/-- V-B2, after BUILD has read a table the host stored. -/
theorem test_build : see (exec .build (blank.setFreqTable
      (List.replicate 10 0 ++ [5] ++ List.replicate 9 0 ++ [1] ++ List.replicate 9 0 ++ [1] ++ List.replicate 9 0 ++ [2] ++
        List.replicate 215 0))) (fun t => (t.res, t.arena.nodes.drop 4, t.treeValid, t.leafRoot)) =
    some (⟨9, 0, 6, 3⟩, [.internal 1 2 0, .internal 3 4 0, .internal 5 0 0], true, false) := by
  rw [exec, execBuild, State.freqTable_setFreqTable _ (by decide +kernel)]
  decide +kernel
/-- V-B3. -/
theorem test_build_one : buildTree (List.replicate 7 0 ++ [3]) = (⟨[⟨3, 0, 0⟩], 1⟩, ⟨[.leaf 7], 0⟩) := by decide

/-! ### CODE -/

/-- V-G9. -/
theorem test_codeClr : see (exec .codeClr blank) (fun t => (t.mem.read (codeLenAddr 0), t.mem.read (codeValAddr 0),
    t.mem.read (codeLenAddr 9), t.mem.read (codeValAddr 9 + 31))) = some (some 0, some 0, some 0, some 0) := by
  decide +kernel
/-- The table of V-G1: 65, 66 and 67 have the codes 10, 0 and 11. -/
def abcCodes : List CodeEntry := codeTable [(66, [false]), (65, [true, false]), (67, [true, true])]

/-- V-G1. -/
theorem test_codegen : exec .codegen abc = .next (((abc.setCodeTable abcCodes).withRes 3 2 1 0).finish) := by
  have hc : abc.checkTree = .ok () := by decide +kernel
  have ht : treeCodes abc.arena.nodes abc.root = .ok [(66, [false]), (65, [true, false]), (67, [true, true])] := by
    decide +kernel
  have hl : codeLengths abcCodes = [2, 1, 2] := by decide +kernel
  rw [exec, execCodegen, hc, except_ok_bind, ht, except_ok_bind]
  simp only [show codeTable _ = abcCodes from rfl, hl]
  rfl

theorem test_codegen_table : [65, 66, 67, 68].map (fun sym => abcCodes[sym]?) =
    [some (2, 2), some (1, 0), some (2, 3), some (0, 0)] := by decide +kernel

/-- What memory holds of an entry of that table. -/
theorem abcCodes_read {sym : Nat} {len : Byte} {val : BitVec 256} (hs : sym < 256) (h : abcCodes[sym]? = some (len, val)) :
    (nextOf (exec .codegen abc)).mem.read (codeLenAddr sym) = some len ∧
      ∀ i, i < 32 → (nextOf (exec .codegen abc)).mem.read (codeValAddr sym + i) = some (val.extractLsb' (8 * i) 8) := by
  have hl : abcCodes.length = 256 := codeTable_length _
  rw [List.getElem?_eq_getElem (by omega), Option.some.injEq] at h
  have r := State.setCodeTable_read abc hl hs
  rw [h] at r
  rw [test_codegen]
  exact r

/-- V-G2. -/
theorem test_codegen_leaf : see (exec .codegen seven) (fun t => (t.res, t.mem.read (codeLenAddr 7),
    t.mem.read (codeValAddr 7))) = some (⟨1, 1, 1, 0⟩, some 1, some 0) := by decide +kernel

/-! ### NUMBER and SER -/

/-- V-N1. -/
theorem test_number : see (exec .number abc) (fun t => (t.res, t.arena.nodes.drop 3, t.statusWord)) =
    some (⟨2, 0, 0, 0⟩, [.internal 0 2 0, .internal 1 3 1], 0xB2) := by decide
/-- V-N2. -/
theorem test_number_order : see (exec .number (withTree blank
      [.leaf 10, .leaf 20, .leaf 30, .leaf 40, .internal 1 2 9, .internal 3 4 9, .internal 5 0 9]))
    (fun t => t.arena.nodes.drop 4) = some [.internal 1 2 0, .internal 3 4 1, .internal 5 0 2] := by decide
/-- V-S1. -/
theorem test_ser : see (exec .ser abc) (fun t => (t.res, t.dstPtr, outFrom t 0 10)) =
    some (⟨2, 9, 0, 0⟩, 9, [2, 0, 65, 0, 67, 0, 66, 1, 0].map some ++ [none]) := by decide +kernel
/-- V-S4; V-S7 on a buffer of 64 bytes. -/
theorem test_ser_edges : see (exec .ser seven) (fun t => outFrom t 0 5) = some ([1, 0, 7, 0, 8].map some) ∧
    see (exec .ser { abc with dstPtr := 56 }) (fun t => (t.errCode, t.errInfo, t.numbered, outFrom t 56 1)) =
      some (0x15, 64, false, [none]) := by decide +kernel

/-! ### DESER -/

/-- V-D5, V-D6: the two strategies allocate in different orders. -/
theorem test_deser : see (exec (.deser false) (withIn blank [4, 0, 1, 0, 2, 0, 3, 0, 4, 1, 1, 0, 5, 1, 0, 1, 2]))
      (fun t => (t.res, t.arena.nodes)) = some (⟨4, 17, 8, 4⟩,
        [.leaf 1, .leaf 2, .internal 0 1 0, .leaf 3, .leaf 4, .internal 3 4 0, .leaf 5, .internal 5 6 0, .internal 2 7 0]) ∧
    see (exec (.deser true) (withIn blank [4, 0, 1, 0, 2, 0, 3, 0, 4, 1, 1, 0, 5, 1, 0, 1, 2]))
      (fun t => (t.res, t.arena.nodes)) = some (⟨4, 17, 8, 4⟩,
        [.leaf 3, .leaf 4, .internal 0 1 0, .leaf 5, .internal 2 3 0, .leaf 1, .leaf 2, .internal 5 6 0, .internal 7 4 0]) :=
  by decide +kernel
/-- V-D18, V-D19. -/
theorem test_deser_malformed : see (exec (.deser false) (withIn abc [3, 0, 1, 0, 2, 1, 0, 1, 0, 1, 0, 1, 1]))
      (fun t => (t.errCode, t.errInfo, t.treeValid)) = some (3, 6, false) ∧
    see (exec (.deser true) (withIn abc [3, 0, 1, 0, 2, 1, 0, 1, 0, 1, 0, 1, 1]))
      (fun t => (t.errCode, t.errInfo, t.nodeCount)) = some (3, 5, 0) := by decide +kernel

/-! ### PACK and UNPACK -/

/-- V-P1; V-P3. -/
theorem test_pack : see (exec (.pack false) (withIn (withCodes blank) [1, 2, 1, 0]))
      (fun t => (t.res, outFrom t 0 1, t.srcPtr, t.dstPtr)) = some (⟨4, 7, 1, 1⟩, [some 0xB8], 4, 1) ∧
    see (exec (.pack true) (withIn (withCodes blank) [1, 2, 1, 0, 2]))
      (fun t => (t.res, outFrom t 0 6, t.dstPtr)) = some (⟨5, 9, 2, 6⟩, [5, 0, 0, 0, 0xB9, 0x80].map some, 6) := by
  decide +kernel
/-- V-P4, with symbol 3 in the place of 2; V-P6 on a buffer of 64 bytes. -/
theorem test_pack_errors : see (exec (.pack false) (withIn (withCodes blank) [1, 3, 1]))
      (fun t => (t.errCode, t.errInfo, t.srcPtr, t.dstPtr)) = some (0x14, 3, 0, 0) ∧
    see (exec (.pack true) { withIn (withCodes blank) [1, 2, 1, 0, 2] with dstPtr := 63 })
      (fun t => (t.errCode, t.errInfo, t.srcPtr, t.dstPtr)) = some (0x15, 64, 0, 63) := by decide +kernel
/-- V-U1 and V-U5, on the tree of V-D1. -/
theorem test_unpack : see (exec (.unpack true) (withIn (withTree blank
        [.leaf 65, .leaf 67, .internal 0 1 0, .leaf 66, .internal 3 2 0]) [4, 0, 0, 0, 152]))
      (fun t => (t.res, outFrom t 0 4, t.srcPtr, t.dstPtr)) =
      some (⟨4, 6, 1, 4⟩, [65, 66, 67, 66].map some, 5, 4) ∧
    see (exec (.unpack false) { withIn (withTree blank
        [.leaf 65, .leaf 67, .internal 0 1 0, .leaf 66, .internal 3 2 0]) [152] with arg0 := 5 })
      (fun t => (t.res, outFrom t 0 5, t.srcPtr)) =
      some (⟨5, 7, 1, 0⟩, [65, 66, 67, 66, 66].map some, 1) := by decide +kernel
/-- V-U9, V-U10: a leaf root. -/
theorem test_unpack_leaf : see (exec (.unpack false) { withIn seven [0x00] with arg0 := 3 })
      (fun t => (t.res, outFrom t 0 3, t.srcPtr)) = some (⟨3, 3, 1, 0⟩, [7, 7, 7].map some, 1) ∧
    see (exec (.unpack false) { withIn seven [0x20] with arg0 := 3 }) (fun t => (t.errCode, t.errInfo, t.srcPtr)) =
      some (4, 2, 0) := by decide +kernel

/-! ### Witnesses: a concrete state that meets the hypotheses of each obligation -/

/-- A command word pending, nothing for the host to do. -/
def pending (s : State) (c : Word) : State := { s with cmdLast := c, busy := true }

theorem witness_DecodeAndEncodeAgree : Instr.wf (.deser true) = true ∧ decode 0x00000148#32 = .ok (.deser true) := by
  decide

theorem witness_OpcodeRowsPartitionLegalWords : ∃ row ∈ opcodeRows, row.covers 0x00000150#32 = true ∧
    (∃ i, decode 0x00000150#32 = .ok i) ∧ row.mnemonic = "PACK" :=
  ⟨⟨"PACK", 0x00000050#32, 0xFFFFFEFF#32⟩, by decide, by decide, ⟨_, rfl⟩, rfl⟩

theorem witness_StepRunsDecodedCommand :
    ((pending blank 0x39).busy = true ∧ decode (pending blank 0x39).cmdLast = .ok .codegen ∧
      (pending blank 0x39).host = []) ∧
    ({ pending blank 0x39 with host := [.idle] }).host = .idle :: [] ∧
    ({ pending blank 0x39 with host := [.wait] }).host = .wait :: [] ∧ blank.busy = false ∧ blank.host = [] := by decide

/-- The state of a host that is about to write CMD. -/
def offering (c : Word) : State := { blank with host := [.write .word 0x000010#22 c] }

theorem witness_IllegalWordCompletesWithIllegalCommand :
    ((offering 0x148).busy = false ∧ (offering 0x148).errCode = 0 ∧
      (offering 0x148).host = [.write .word 0x000010#22 0x148] ∧ Cmd.opListed 0x148 = true ∧
      Cmd.reservedZero 0x148 = true ∧ Cmd.f0Allowed 0x148 = true) ∧
    ((offering 0x130).busy = false ∧ (offering 0x130).errCode = 0 ∧
      (offering 0x130).host = [.write .word 0x000010#22 0x130] ∧ Cmd.f0Allowed 0x130 = false) := by decide

theorem witness_CommandOfferAcceptsOrDrops :
    (offering 5).host = .write .word 0x000010#22 5 :: [] ∧ ((offering 5).busy = false ∧ (offering 5).errCode = 0) ∧
    ¬ (({ offering 5 with busy := true }).busy = false ∧ ({ offering 5 with busy := true }).errCode = 0) ∧
    ¬ (({ offering 5 with errCode := 1 }).busy = false ∧ ({ offering 5 with errCode := 1 }).errCode = 0) := by decide

theorem witness_CompletionEndsTheCommand : exec .ser abc = .next (nextOf (exec .ser abc)) := eq_nextOf (by decide)

theorem witness_FailedCommandCommitsNothing :
    (blank.errCode = 0 ∧ exec .pqExt blank = .next (nextOf (exec .pqExt blank)) ∧
      (nextOf (exec .pqExt blank)).errCode ≠ 0) ∧
    (exec (.deser true) blank = .next (nextOf (exec (.deser true) blank)) ∧
      (nextOf (exec (.deser true) blank)).errCode ≠ 0) ∧
    (exec (.pack true) { blank with srcEnd := 65 } = .next (nextOf (exec (.pack true) { blank with srcEnd := 65 })) ∧
      (nextOf (exec (.pack true) { blank with srcEnd := 65 })).errCode ≠ 0) :=
  ⟨⟨rfl, eq_nextOf (by decide), by decide⟩, ⟨eq_nextOf (by decide), by decide⟩, eq_nextOf (by decide), by decide⟩

/-- The same obligation's arm for BUILD. -/
theorem witness_FailedCommandCommitsNothing_build : ∃ t,
    exec .build (abc.setFreqTable (List.replicate 256 0)) = .next t ∧ t.errCode ≠ 0 := by
  rw [exec, execBuild, State.freqTable_setFreqTable _ List.length_replicate]
  exact ⟨_, eq_nextOf (by decide +kernel), by decide +kernel⟩

theorem witness_WriteOfZeroClearsTheError :
    ({ blank with errCode := 3, host := [.write .word 0x000018#22 0] }).busy = false ∧
    ({ blank with errCode := 3, host := [.write .word 0x000018#22 0] }).host = .write .word 0x000018#22 0 :: [] ∧
    ({ blank with errCode := 3, host := [.write .word 0x000018#22 7] }).host = .write .word 0x000018#22 7 :: [] ∧
    ({ blank with errCode := 3, host := [.read .word 0x000018#22] }).host = .read .word 0x000018#22 :: [] := by decide

theorem witness_WaitokStopsTheHostOnError :
    ({ blank with errCode := 3, host := [.checkOk, .idle] }).host = .checkOk :: [.idle] ∧
    ({ blank with errCode := 3, host := [.checkOk, .idle] }).errCode ≠ 0 ∧
    ({ blank with host := [.checkOk, .idle] }).host = .checkOk :: [.idle] ∧
    ({ blank with host := [.checkOk, .idle] }).errCode = 0 := by decide

theorem witness_ResetAbandonsThePendingCommand :
    ({ pending abc 0x40 with host := [.reset, .wait] }).host = .reset :: [.wait] := by decide

/-- A pending SER on the tree of V-B1, with an entry in the queue and a byte in IN. -/
def busyAbc : State := { pending (withIn abc [1]) 0x41 with queue := ⟨[⟨4, 4, 4⟩], 5⟩ }

theorem busyAbc_steps : step busyAbc = .next (nextOf (step busyAbc)) := eq_nextOf (by decide +kernel)

/-- The tree of V-B1 meets the tree invariant, whatever else the state holds. -/
theorem abc_treeInv : TreeInv abc := by
  refine ⟨fun _ => ⟨⟨by decide, by decide, by decide, by decide, by decide⟩, by decide⟩, fun h => ?_, fun _ => by decide⟩
  exact absurd h (by decide)

theorem seven_treeInv : TreeInv seven := by
  refine ⟨fun _ => ⟨⟨by decide, by decide, by decide, by decide, by decide⟩, by decide⟩, fun h => ?_, fun _ => by decide⟩
  exact absurd h (by decide)

theorem witness_StepKeepsMemoryCanonical : busyAbc.mem.wf ∧ step busyAbc = .next (nextOf (step busyAbc)) :=
  ⟨by decide, busyAbc_steps⟩

theorem witness_StepStoresOnlyInMappedMemory :
    busyAbc.params.legal = true ∧ MappedInv busyAbc ∧ step busyAbc = .next (nextOf (step busyAbc)) :=
  ⟨by decide, by unfold MappedInv; decide, busyAbc_steps⟩

theorem witness_StepKeepsQueueInvariant : QueueInv busyAbc.queue ∧ step busyAbc = .next (nextOf (step busyAbc)) :=
  ⟨⟨by decide, by decide, by decide⟩, busyAbc_steps⟩

theorem witness_StepKeepsTreeInvariant : TreeInv busyAbc ∧ step busyAbc = .next (nextOf (step busyAbc)) :=
  ⟨abc_treeInv, busyAbc_steps⟩

theorem witness_StepKeepsNumberInvariant :
    TreeInv busyAbc ∧ NumberInv busyAbc ∧ step busyAbc = .next (nextOf (step busyAbc)) :=
  ⟨abc_treeInv, fun h => absurd h (by decide), busyAbc_steps⟩

/-- The number invariant with NUMBERED = 1: the state that SER leaves. -/
theorem witness_StepKeepsNumberInvariant_numbered :
    (nextOf (exec .ser abc)).numbered = true ∧ NumberInv (nextOf (exec .ser abc)) :=
  ⟨by decide, fun _ => by decide +kernel⟩

theorem witness_StepKeepsErrorLatch : LatchInv busyAbc ∧ step busyAbc = .next (nextOf (step busyAbc)) :=
  ⟨⟨by decide, by decide, by decide⟩, busyAbc_steps⟩

theorem witness_ValidArenaIsAFullBinaryTree : TreeInv abc ∧ abc.treeValid = true := ⟨abc_treeInv, rfl⟩

/-! #### The bus -/

/-- The first and the last word of each range. -/
theorem witness_WindowWordsAreLittleEndian : blank.params.legal = true ∧ blank.busy = false ∧
    ∀ n ∈ [0x1000, 0x13FC, 0x4004, 0x4020, 0x7FC4, 0x7FE0, 0x100000, 0x10003C, 0x200000, 0x20003C], n % 4 = 0 ∧
      ((0x1000 ≤ n ∧ n < 0x1400) ∨ (0x4000 ≤ n ∧ n < 0x8000 ∧ 4 ≤ n % 64 ∧ n % 64 < 36) ∨
        (0x100000 ≤ n ∧ n < 0x100000 + blank.params.inSize) ∨
        (0x200000 ≤ n ∧ n < 0x200000 + blank.params.outSize)) := by decide

theorem witness_CodeLengthWordStoresOneByte : blank.busy = false ∧ (0 < 256 ∧ 255 < 256) ∧ (9 ≤ 9 ∧ 9 ≤ 15) ∧
    (9 ≤ 15 ∧ 15 ≤ 15) := by decide

/-- Every entry of the arena in use. -/
theorem witness_NodeWindowShowsTheFields :
    (abc.busy = false ∧ 0 < abc.arena.nodes.length ∧ 4 < abc.arena.nodes.length) ∧
    510 < ({ blank with arena := ⟨List.replicate 511 (.leaf 1), 0⟩ }).arena.nodes.length ∧ 510 < 511 := by
  exact ⟨by decide, by decide +kernel, by decide⟩

theorem witness_RegistersStoreOrIgnoreWrites : blank.busy = false := rfl

/-- Both ends of every range, and the reserved offsets at the ends of the register page (n is the address's number). -/
theorem witness_BusErrorsAndReservedWords :
    (AccessWidth.byte ≠ .word ∧ (0x000002#22).toNat % 4 ≠ 0) ∧ blank.params.legal = true ∧ blank.busy = false ∧
    (∀ n ∈ [0x100, 0xFFC, 0x1400, 0x1FFC, 0x3000, 0x3FFC, 0x8000, 0xFFFFC, 0x100040, 0x1FFFFC,
        0x200040, 0x3FFFFC], n < 2 ^ 22 ∧ n % 4 = 0 ∧
      ((0x100 ≤ n ∧ n < 0x1000) ∨ (0x1400 ≤ n ∧ n < 0x2000) ∨
        (0x3000 ≤ n ∧ n < 0x4000) ∨ (0x8000 ≤ n ∧ n < 0x100000) ∨
        (0x100000 + blank.params.inSize ≤ n ∧ n < 0x200000) ∨
        (0x200000 + blank.params.outSize ≤ n))) ∧
    ∀ n ∈ [0x024, 0x03C, 0x074, 0x0FC, 0x2FF8, 0x2FFC], n < 2 ^ 22 ∧ n % 4 = 0 ∧
      ((n < 0x100 ∧ ∀ r ∈ RegName.all, r.offset ≠ n) ∨ (0x2FF8 ≤ n ∧ n < 0x3000)) := by
  decide +kernel

/-- RegName.all lists every register. -/
theorem regName_all (r : RegName) : r ∈ RegName.all := by cases r <;> decide

theorem witness_ReadsHaveNoSideEffects : ∃ t, blank.busRead .word 0x14 = .next t := ⟨_, rfl⟩

theorem witness_BusyReadsAreStableOrFree : (pending blank 0x41).busy = true ∧
    ∀ n ∈ [0x1000, 0x13FC, 0x4000, 0x4020, 0x7FE0, 0x100000, 0x10003C, 0x200000, 0x20003C,
      0x2000, 0x2FF4], n < 2 ^ 22 ∧ n % 4 = 0 ∧
      (isFreqAddr n ∨ isCodeAddr n ∨ isInAddr blank.params n ∨ isOutAddr blank.params n ∨
        (0x2000 ≤ n ∧ n < 0x2FF8)) := by
  decide +kernel

theorem witness_BusyWritesAreDropped : (pending blank 0x41).busy = true ∧
    ∀ n ∈ [0x1000, 0x13FC, 0x4000, 0x4020, 0x7FE0, 0x100000, 0x10003C, 0x200000, 0x20003C],
      n < 2 ^ 22 ∧ n % 4 = 0 ∧ (isFreqAddr n ∨ isCodeAddr n ∨ isInAddr blank.params n ∨
        isOutAddr blank.params n) := by
  decide +kernel

/-! #### The priority queue -/

theorem witness_PqInsInsertsOrRefuses :
    ({ blank with arg1 := 0x80000000 }).arg1.getLsbD 31 = true ∧
    (blank.arg1.getLsbD 31 = false ∧
      ({ blank with queue := ⟨List.replicate 256 ⟨0, 0, 0⟩, 9⟩ }).queue.entries.length = 256) ∧
    (({ blank with queue := ⟨[], 0xFFFFFFFF⟩ }).queue.entries.length ≠ 256 ∧
      ({ blank with queue := ⟨[], 0xFFFFFFFF⟩ }).queue.nextSeq = 0xFFFFFFFF#32) ∧
    (({ blank with queue := ⟨[], 0xFFFFFFFE⟩ }).queue.entries.length ≠ 256 ∧
      ({ blank with queue := ⟨[], 0xFFFFFFFE⟩ }).queue.nextSeq ≠ 0xFFFFFFFF#32) :=
  ⟨by decide, ⟨by decide, List.length_replicate⟩, by decide, by decide⟩

theorem witness_PqExtTakesTheLeastEntry : blank.queue.entries = [] ∧ busyAbc.queue.entries ≠ [] := by decide

theorem witness_ExtractionsReturnEveryEntryInOrder : QueueInv ⟨[⟨5, 0, 0xA⟩, ⟨3, 1, 0xB⟩, ⟨5, 2, 0xC⟩], 3⟩ :=
  ⟨by decide, by decide, by decide⟩

/-! #### The frequency table and the merge engine -/

/-- A state with 3 bytes of input, its memory mapped. -/
def input : State := withIn blank [65, 66, 65]

theorem input_mapped : MappedInv input := by unfold MappedInv; decide

theorem input_holds : inHolds input 0 [65, 66, 65] := by unfold inHolds bufferHolds; decide

theorem witness_ClearCommandsZeroTheirTables : MappedInv input := input_mapped

theorem witness_FreqCntCountsTheInput : input.params.legal = true ∧ input.srcEnd.toNat ≤ input.params.inSize ∧
    input.srcPtr.toNat + [65, 66, 65].length = input.srcEnd.toNat ∧
    inHolds input input.srcPtr.toNat [65, 66, 65] := ⟨by decide, by decide, by decide, input_holds⟩

theorem witness_SourceRangeIsCheckedFirst :
    ({ blank with srcEnd := 65 }).params.inSize < ({ blank with srcEnd := 65 }).srcEnd.toNat ∧
    ({ blank with srcPtr := 65, srcEnd := 64 }).srcEnd.toNat ≤ ({ blank with srcPtr := 65, srcEnd := 64 }).params.inSize ∧
    ({ blank with srcPtr := 65, srcEnd := 64 }).srcEnd.toNat < ({ blank with srcPtr := 65, srcEnd := 64 }).srcPtr.toNat ∧
    ({ abc with srcEnd := 65 }).treeValid = true ∧
    ({ abc with srcEnd := 65 }).params.inSize < ({ abc with srcEnd := 65 }).srcEnd.toNat ∧
    ({ abc with srcPtr := 65, srcEnd := 64 }).treeValid = true ∧
    ({ abc with srcPtr := 65, srcEnd := 64 }).srcEnd.toNat ≤ ({ abc with srcPtr := 65, srcEnd := 64 }).params.inSize ∧
    ({ abc with srcPtr := 65, srcEnd := 64 }).srcEnd.toNat < ({ abc with srcPtr := 65, srcEnd := 64 }).srcPtr.toNat := by
  decide

/-- A state whose frequency table holds the given 256 words. -/
theorem freqIs_setFreqTable (s : State) {ws : List Word} (hw : ws.length = 256) (sym : Nat) (h : sym < 256) :
    freqIs (s.setFreqTable ws) sym (ws.getD sym 0) := fun _ hi => s.setFreqTable_read hw h hi

theorem witness_BuildLeavesTheShapeOfR134 : ∃ (s : State) (f : Nat → Word),
    (∀ sym, sym < 256 → freqIs s sym (f sym)) ∧ ∃ sym, sym < 256 ∧ f sym ≠ 0 :=
  ⟨blank.setFreqTable (3 :: List.replicate 255 0), fun sym => (3 :: List.replicate 255 0 : List Word).getD sym 0,
    freqIs_setFreqTable blank (by decide +kernel), 0, by decide, by decide⟩

/-- A frequency table with two symbols, so that there is a merge: R134's L is 2. -/
def twoFreqs (sym : Nat) : Word := if sym = 0 then 3 else if sym = 1 then 5 else 0

theorem twoFreqs_getD {n sym : Nat} (h : sym < n + 2) :
    (3 :: 5 :: List.replicate n 0 : List Word).getD sym 0 = twoFreqs sym := by
  match sym with
  | 0 | 1 => rfl
  | k + 2 => simp [twoFreqs, show k < n by omega]

theorem witness_BuildLeavesTheShapeOfR134_two : ∃ s : State, (∀ sym, sym < 256 → freqIs s sym (twoFreqs sym)) ∧
    (∃ sym, sym < 256 ∧ twoFreqs sym ≠ 0) ∧ (List.range 256).filter (fun sym => twoFreqs sym ≠ 0) = [0, 1] := by
  refine ⟨blank.setFreqTable (3 :: 5 :: List.replicate 254 0), fun sym h => ?_, ⟨0, by decide, by decide⟩, by decide +kernel⟩
  exact twoFreqs_getD (n := 254) h ▸ freqIs_setFreqTable blank (by decide +kernel) sym h

theorem witness_BuildOfAnEmptyTableFails : ∃ s : State, ∀ sym, sym < 256 → freqIs s sym 0 :=
  ⟨blank.setFreqTable (List.replicate 256 0), fun sym h => by
    have := freqIs_setFreqTable blank (ws := List.replicate 256 0) List.length_replicate sym h
    rw [List.getD_replicate] at this
    · exact this
    · exact h⟩

/-- No entry, one entry, two entries; and the state of BUILD with two symbols. -/
theorem witness_MergeJoinsTheTwoLeastEntries :
    ((PQueue.mk [] 2).entries.length ≤ 1 ∧ (PQueue.mk [⟨5, 0, 0⟩] 2).entries.length ≤ 1 ∧
      2 ≤ (PQueue.mk [⟨5, 0, 0⟩, ⟨5, 1, 1⟩] 2).entries.length) ∧
    ∃ s : State, (∀ sym, sym < 256 → freqIs s sym (twoFreqs sym)) ∧ (∃ sym, sym < 256 ∧ twoFreqs sym ≠ 0) ∧
      (List.range 256).filter (fun sym => twoFreqs sym ≠ 0) = [0, 1] :=
  ⟨by decide, witness_BuildLeavesTheShapeOfR134_two⟩

/-! #### The tree commands -/

/-- The tree of V-B1 as data. -/
def abcT : HTree := .node (.leaf 66) (.node (.leaf 65) (.leaf 67))

theorem witness_CodegenRecordsThePaths : TreeInv abc ∧ MappedInv abc ∧ abc.treeValid = true ∧ treeOf abc = some abcT ∧
    1 ≤ abcT.internals ∧ abcT.paths [] = [(66, [false]), (65, [true, false])] ++ (67, [true, true]) :: [] ∧
    (68 : Byte) ∉ abcT.symbols :=
  ⟨abc_treeInv, fun _ h => absurd h (List.not_mem_nil), by decide, by decide, by decide, by decide, by decide⟩

theorem witness_DegenerateTreeHasCodeZero :
    MappedInv seven ∧ seven.treeValid = true ∧ treeOf seven = some (.leaf 7) :=
  ⟨fun _ h => absurd h (List.not_mem_nil), by decide, by decide⟩

theorem witness_GeneratedCodesArePrefixFree : TreeInv abc ∧ abc.treeValid = true ∧ treeOf abc = some abcT ∧
    abcT.symbols.Nodup ∧ exec .codegen abc = .next (nextOf (exec .codegen abc)) ∧ (65 : Byte) ≠ 66 ∧
    hasCode (nextOf (exec .codegen abc)) 65 [true, false] ∧ hasCode (nextOf (exec .codegen abc)) 66 [false] := by
  have r₁ := abcCodes_read (sym := 65) (len := 2) (val := 2) (by decide) (by decide +kernel)
  have r₂ := abcCodes_read (sym := 66) (len := 1) (val := 0) (by decide) (by decide +kernel)
  exact ⟨abc_treeInv, by decide, by decide, by decide, by rw [test_codegen]; rfl, by decide,
    ⟨by decide, by decide, r₁.1, 2, fun i hi => r₁.2 i (by simp at hi; omega), by decide⟩,
    ⟨by decide, by decide, r₂.1, 0, fun i hi => r₂.2 i (by simp at hi; omega), by decide⟩⟩

theorem witness_TreeCommandsNeedATree : blank.treeValid = false := rfl

theorem witness_NumberIsPostorder : TreeInv abc ∧ abc.treeValid = true ∧ treeOf abc = some abcT :=
  ⟨abc_treeInv, by decide, by decide⟩

theorem witness_SerWritesThePostorderRecords : abc.params.legal = true ∧ TreeInv abc ∧ abc.treeValid = true ∧
    treeOf abc = some abcT ∧ 1 ≤ abcT.internals ∧ abc.dstPtr.toNat + (1 + 4 * abcT.internals) ≤ abc.params.outSize :=
  ⟨by decide, abc_treeInv, by decide, by decide, by decide, by decide⟩

/-- The header of that tree, against V-S1. -/
theorem test_header : abcT.header = [2, 0, 65, 0, 67, 0, 66, 1, 0] := by decide

theorem witness_SerOfALeafRootWritesFiveBytes : seven.params.legal = true ∧ TreeInv seven ∧ seven.treeValid = true ∧
    treeOf seven = some (.leaf 7) ∧ seven.dstPtr.toNat + 5 ≤ seven.params.outSize :=
  ⟨by decide, seven_treeInv, by decide, by decide, by decide⟩

theorem witness_SerWithoutRoomKeepsNothing :
    (TreeInv { abc with dstPtr := 56 } ∧ treeOf { abc with dstPtr := 56 } = some abcT ∧
      ({ abc with dstPtr := 56 }).params.outSize < ({ abc with dstPtr := 56 }).dstPtr.toNat +
        (if abcT.internals = 0 then 5 else 1 + 4 * abcT.internals)) ∧
    (TreeInv { seven with dstPtr := 60 } ∧ treeOf { seven with dstPtr := 60 } = some (.leaf 7) ∧
      ({ seven with dstPtr := 60 }).params.outSize < ({ seven with dstPtr := 60 }).dstPtr.toNat +
        (if (HTree.leaf 7).internals = 0 then 5 else 1 + 4 * (HTree.leaf 7).internals)) :=
  ⟨⟨abc_treeInv, by decide, by decide⟩, seven_treeInv, by decide, by decide⟩

/-- A state whose IN holds the header of V-S1. -/
def abcFile : State := withIn blank [2, 0, 65, 0, 67, 0, 66, 1, 0]

theorem witness_DeserRebuildsTheSerializedTree : 1 ≤ abcT.internals ∧ abcT.internals ≤ 255 ∧
    abcFile.srcEnd.toNat ≤ abcFile.params.inSize ∧
    abcFile.srcPtr.toNat + (1 + 4 * abcT.internals) ≤ abcFile.srcEnd.toNat ∧
    inHolds abcFile abcFile.srcPtr.toNat abcT.header := by
  refine ⟨by decide, by decide, by decide, by decide, ?_⟩
  unfold inHolds bufferHolds
  decide +kernel

/-- No byte; the byte 0; one record byte too few. -/
theorem witness_DeserChecksTheNodeCount :
    (blank.srcEnd.toNat ≤ blank.params.inSize ∧ blank.srcPtr.toNat = blank.srcEnd.toNat) ∧
    ((withIn blank [0]).srcPtr.toNat < (withIn blank [0]).srcEnd.toNat ∧
      (withIn blank [0]).mem.read (inAddr (withIn blank [0]).srcPtr.toNat) = some 0) ∧
    ((withIn blank [1, 0, 7, 0]).mem.read (inAddr (withIn blank [1, 0, 7, 0]).srcPtr.toNat) = some 1 ∧
      (withIn blank [1, 0, 7, 0]).srcEnd.toNat <
        (withIn blank [1, 0, 7, 0]).srcPtr.toNat + 1 + 4 * (1 : Byte).toNat) := by decide

/-- What DeserChecksTheRootRecord asks of IN, for one record. -/
def rootRecordIs (s : State) (n lt ld rt : Byte) : Prop :=
  s.srcEnd.toNat ≤ s.params.inSize ∧ n ≠ 0 ∧ s.srcPtr.toNat + 1 + 4 * n.toNat ≤ s.srcEnd.toNat ∧
  s.mem.read (inAddr s.srcPtr.toNat) = some n ∧
  s.mem.read (inAddr (s.srcPtr.toNat + 1 + 4 * (n.toNat - 1))) = some lt ∧
  s.mem.read (inAddr (s.srcPtr.toNat + 1 + 4 * (n.toNat - 1) + 1)) = some ld ∧
  s.mem.read (inAddr (s.srcPtr.toNat + 1 + 4 * (n.toNat - 1) + 2)) = some rt

/-- V-D13; the right child's type byte; V-D11 and V-D15; V-D12. -/
theorem witness_DeserChecksTheRootRecord :
    (rootRecordIs (withIn blank [1, 2, 1, 0, 2]) 1 2 1 0 ∧ (2 : Byte).toNat > 1) ∧
    (rootRecordIs (withIn blank [1, 1, 0, 2, 2]) 1 1 0 2 ∧ (1 : Byte).toNat ≤ 1 ∧ (2 : Byte).toNat > 1) ∧
    (rootRecordIs (withIn blank [1, 1, 1, 0, 2]) 1 1 1 0 ∧ (1 : Byte).toNat ≤ (1 : Byte).toNat) ∧
    (rootRecordIs (withIn blank [1, 1, 0, 0, 5]) 1 1 0 0 ∧ (0 : Byte).toNat + 1 = (1 : Byte).toNat) := by
  unfold rootRecordIs
  decide +kernel

/-! #### The packer and the unpacker -/

/-- The codes of source scenario 2. -/
def codes (b : Byte) : Bits := if b = 0 then [false] else if b = 1 then [true, false] else [true, true]

/-- The input of V-P2. -/
def packing : State := withIn (withCodes blank) [1, 2, 1, 0, 2]

theorem packing_holds : inHolds packing 0 [1, 2, 1, 0, 2] := by
  unfold inHolds bufferHolds
  decide +kernel

theorem packing_codes (b : Byte) (hb : b ∈ [(1 : Byte), 2, 1, 0, 2]) : hasCode packing b.toNat (codes b) := by
  have hb : b = 0 ∨ b = 1 ∨ b = 2 := by simp at hb; tauto
  rcases hb with rfl | rfl | rfl
  · refine ⟨by decide, by decide, by decide +kernel, 0, fun i hi => ?_, by decide⟩
    obtain rfl : i = 0 := by simp [codes] at hi; omega
    decide +kernel
  · refine ⟨by decide, by decide, by decide +kernel, 2, fun i hi => ?_, by decide⟩
    obtain rfl : i = 0 := by simp [codes] at hi; omega
    decide +kernel
  · refine ⟨by decide, by decide, by decide +kernel, 3, fun i hi => ?_, by decide⟩
    obtain rfl : i = 0 := by simp [codes] at hi; omega
    decide +kernel

theorem witness_SymbolCodeReadsTheTable :
    (packing.mem.read (codeLenAddr (3 : Byte).toNat) = some 0) ∧
    (packing.mem.read (codeLenAddr (1 : Byte).toNat) = some 2 ∧ (2 : Byte) ≠ 0 ∧
      packing.mem.read (codeValAddr (1 : Byte).toNat + 0) = some ((2 : BitVec 256).extractLsb' (8 * 0) 8)) := by
  decide +kernel

theorem witness_PackWritesTheCodesInOrder : packing.params.legal = true ∧
    packing.srcEnd.toNat ≤ packing.params.inSize ∧
    packing.srcPtr.toNat + [(1 : Byte), 2, 1, 0, 2].length = packing.srcEnd.toNat ∧
    inHolds packing packing.srcPtr.toNat [1, 2, 1, 0, 2] ∧
    (∀ b ∈ [(1 : Byte), 2, 1, 0, 2], hasCode packing b.toNat (codes b)) ∧
    packing.dstPtr.toNat + (4 + (([(1 : Byte), 2, 1, 0, 2].flatMap codes).length + 7) / 8) ≤ packing.params.outSize :=
  ⟨by decide, by decide, by decide, packing_holds, packing_codes, by decide⟩

/-- An input whose last symbol, 3, has no code. -/
def packing3 : State := withIn (withCodes blank) [1, 2, 1, 0, 2, 3]

theorem witness_PackOfAMissingCodeFails : packing3.srcEnd.toNat ≤ packing3.params.inSize ∧
    packing3.srcPtr.toNat + ([(1 : Byte), 2, 1, 0, 2].length + 1) ≤ packing3.srcEnd.toNat ∧
    inHolds packing3 packing3.srcPtr.toNat ([1, 2, 1, 0, 2] ++ [3]) ∧
    (∀ b ∈ [(1 : Byte), 2, 1, 0, 2], hasCode packing3 b.toNat (codes b)) ∧ hasNoCode packing3 (3 : Byte).toNat ∧
    packing3.dstPtr.toNat + 4 + ([(1 : Byte), 2, 1, 0, 2].flatMap codes).length / 8 ≤ packing3.params.outSize := by
  have same : ∀ a, a < 0x100000 → packing3.mem.read a = packing.mem.read a := by
    intro a ha
    have e₁ : packing3.mem = (withCodes blank).mem.writeBytes (inAddr 0) [1, 2, 1, 0, 2, 3] := rfl
    have e₂ : packing.mem = (withCodes blank).mem.writeBytes (inAddr 0) [1, 2, 1, 0, 2] := rfl
    have hk : a < inAddr 0 := ha
    rw [e₁, e₂, Memory.read_writeBytes_outside _ _ _ (.inl hk), Memory.read_writeBytes_outside _ _ _ (.inl hk)]
  refine ⟨by decide, by decide, ?_, fun b hb => ?_, ?_, by decide⟩
  · unfold inHolds bufferHolds
    decide +kernel
  · obtain ⟨h₁, h₂, h₃, val, h₄, h₅⟩ := packing_codes b hb
    have hb := b.isLt
    refine ⟨h₁, h₂, by rw [same _ (by simp only [codeLenAddr]; omega)]; exact h₃, val, fun i hi => ?_, h₅⟩
    rw [same _ (by simp only [codeValAddr]; omega)]
    exact h₄ i hi
  · unfold hasNoCode
    decide +kernel

theorem witness_PackWithoutRoomFails : ∃ s : State, s.srcEnd.toNat ≤ s.params.inSize ∧
    s.srcPtr.toNat + [(1 : Byte), 2, 1, 0, 2].length = s.srcEnd.toNat ∧ inHolds s s.srcPtr.toNat [1, 2, 1, 0, 2] ∧
    (∀ b ∈ [(1 : Byte), 2, 1, 0, 2], hasCode s b.toNat (codes b)) ∧
    s.params.outSize < s.dstPtr.toNat + 0 + (([(1 : Byte), 2, 1, 0, 2].flatMap codes).length + 7) / 8 :=
  ⟨{ packing with dstPtr := 63 }, by decide, by decide, packing_holds, packing_codes, by decide⟩

/-- The payload 10 0 11 0 with its size field, on the tree of V-B1: V-U1. -/
def unpacking : State := withIn abc [4, 0, 0, 0, 152]

/-- The leaves whose paths that payload spells. -/
def unpackLeaves : List (Byte × Bits) := [(65, [true, false]), (66, [false]), (67, [true, true]), (66, [false])]

theorem witness_UnpackDecodesThePaths : unpacking.params.legal = true ∧ unpacking.treeValid = true ∧
    treeOf unpacking = some abcT ∧ 1 ≤ abcT.internals ∧ unpacking.srcEnd.toNat ≤ unpacking.params.inSize ∧
    unpacking.srcPtr.toNat ≤ unpacking.srcEnd.toNat ∧ countIs unpacking true unpackLeaves.length 4 ∧
    4 + [(152 : Byte)].length ≤ unpacking.srcEnd.toNat ∧ inHolds unpacking 4 [152] ∧
    (∀ e ∈ unpackLeaves, e ∈ abcT.paths []) ∧
    payloadBits [152] = unpackLeaves.flatMap (fun e => e.2) ++ [false, false] ∧
    unpacking.dstPtr.toNat + unpackLeaves.length ≤ unpacking.params.outSize := by
  refine ⟨by decide, by decide, by decide, by decide, by decide, by decide, ⟨by decide, by decide, by decide, ?_⟩, by decide, ?_,
    by decide, by decide, by decide⟩ <;> unfold inHolds bufferHolds <;> decide +kernel

/-- V-U9. -/
theorem witness_UnpackOfALeafRootTakesZeroBits : ∃ s : State, s.params.legal = true ∧ s.treeValid = true ∧
    treeOf s = some (.leaf 7) ∧ s.srcEnd.toNat ≤ s.params.inSize ∧ s.srcPtr.toNat ≤ s.srcEnd.toNat ∧
    countIs s false 3 0 ∧ 0 + [(0 : Byte)].length ≤ s.srcEnd.toNat ∧ inHolds s 0 [0] ∧
    payloadBits [0] = List.replicate 3 false ++ List.replicate 5 false ∧ s.dstPtr.toNat + 3 ≤ s.params.outSize := by
  refine ⟨{ withIn seven [0] with arg0 := 3 }, by decide, by decide, by decide, by decide, by decide,
    ⟨by decide, by decide⟩, by decide, ?_, by decide, by decide⟩
  unfold inHolds bufferHolds
  decide

/-- The payload 00000001 spells seven leaves 66 and ends after the first bit of a longer path. -/
theorem witness_UnpackOfACorruptPayloadFails : ∃ s : State, s.treeValid = true ∧ treeOf s = some abcT ∧
    s.srcEnd.toNat ≤ s.params.inSize ∧ s.srcPtr.toNat ≤ s.srcEnd.toNat ∧ countIs s false 9 0 ∧
    0 + [(0x01 : Byte)].length = s.srcEnd.toNat ∧ inHolds s 0 [0x01] ∧ (List.replicate 7 ((66 : Byte), [false])).length < 9 ∧
    s.dstPtr.toNat + 9 ≤ s.params.outSize ∧ 1 ≤ abcT.internals ∧
    (∀ e ∈ List.replicate 7 ((66 : Byte), [false]), e ∈ abcT.paths []) ∧
    payloadBits [0x01] = (List.replicate 7 ((66 : Byte), [false])).flatMap (fun e => e.2) ++ [true] ∧
    ∃ e ∈ abcT.paths [], [true] <+: e.2 ∧ [true] ≠ e.2 := by
  refine ⟨{ withIn abc [0x01] with arg0 := 9 }, by decide, by decide, by decide, by decide, ⟨by decide, by decide⟩,
    by decide, ?_, by decide, by decide, by decide, by decide, by decide, (65, [true, false]), by decide, by decide, by decide⟩
  unfold inHolds bufferHolds
  decide

/-- The same obligation's leaf root: V-U10. -/
theorem witness_UnpackOfACorruptPayloadFails_leaf : ∃ s : State, s.treeValid = true ∧ treeOf s = some (.leaf 7) ∧
    s.srcEnd.toNat ≤ s.params.inSize ∧ s.srcPtr.toNat ≤ s.srcEnd.toNat ∧ countIs s false 3 0 ∧
    0 + [(0x20 : Byte)].length = s.srcEnd.toNat ∧ inHolds s 0 [0x20] ∧ s.dstPtr.toNat + 3 ≤ s.params.outSize ∧
    (List.replicate 2 ((7 : Byte), [false])).length < 3 ∧ (HTree.leaf 7).internals = 0 ∧
    payloadBits [0x20] = List.replicate 2 false ++ true :: List.replicate 5 false := by
  refine ⟨{ withIn seven [0x20] with arg0 := 3 }, by decide, by decide, by decide, by decide, ⟨by decide, by decide⟩,
    by decide, ?_, by decide, by decide, by decide, by decide⟩
  unfold inHolds bufferHolds
  decide

/-- The same obligation's leaf root out of bits: eight zeros for nine symbols. -/
theorem witness_UnpackOfACorruptPayloadFails_short : ∃ s : State, s.treeValid = true ∧ treeOf s = some (.leaf 7) ∧
    s.srcEnd.toNat ≤ s.params.inSize ∧ s.srcPtr.toNat ≤ s.srcEnd.toNat ∧ countIs s false 9 0 ∧
    0 + [(0 : Byte)].length = s.srcEnd.toNat ∧ inHolds s 0 [0] ∧ s.dstPtr.toNat + 9 ≤ s.params.outSize ∧
    (List.replicate 8 ((7 : Byte), [false])).length < 9 ∧ (HTree.leaf 7).internals = 0 ∧
    payloadBits [0] = List.replicate (List.replicate 8 ((7 : Byte), [false])).length false := by
  refine ⟨{ withIn seven [0] with arg0 := 9 }, by decide, by decide, by decide, by decide, ⟨by decide, by decide⟩,
    by decide, ?_, by decide, by decide, by decide, by decide⟩
  unfold inHolds bufferHolds
  decide

/-- Its first two cases: three bytes for a size field; a count of 65 for 64 bytes of OUT, and DST_PTR beyond OUT. -/
theorem witness_UnpackOfACorruptPayloadFails_header :
    ((withIn abc [1, 0, 0]).treeValid = true ∧ (withIn abc [1, 0, 0]).srcEnd.toNat ≤ (withIn abc [1, 0, 0]).params.inSize ∧
      (withIn abc [1, 0, 0]).srcPtr.toNat ≤ (withIn abc [1, 0, 0]).srcEnd.toNat ∧
      (withIn abc [1, 0, 0]).srcEnd.toNat < (withIn abc [1, 0, 0]).srcPtr.toNat + 4) ∧
    ({ abc with arg0 := 65 }).treeValid = true ∧ countIs { abc with arg0 := 65 } false 65 0 ∧
    ({ abc with arg0 := 65 }).params.outSize < ({ abc with arg0 := 65 }).dstPtr.toNat + 65 ∧
    countIs { abc with dstPtr := 65 } false 0 0 ∧
    ({ abc with dstPtr := 65 }).params.outSize < ({ abc with dstPtr := 65 }).dstPtr.toNat + 0 :=
  ⟨by decide, by decide, ⟨by decide, by decide⟩, by decide, ⟨by decide, by decide⟩, by decide⟩

/-! #### Frames and the round trip -/

theorem witness_CommandsChangeOnlyWhatTheirRuleNames :
    (MappedInv abc ∧ exec .ser abc = .next (nextOf (exec .ser abc)) ∧
      (nextOf (exec .ser abc)).mem.read (outAddr 0) ≠ abc.mem.read (outAddr 0)) ∧
    (exec .freqClr abc = .next (nextOf (exec .freqClr abc)) ∧
      (nextOf (exec .freqClr abc)).mem.read 0x13FF ≠ abc.mem.read 0x13FF) ∧
    (exec .codegen abc = .next (nextOf (exec .codegen abc)) ∧
      (nextOf (exec .codegen abc)).mem.read 0x4000 ≠ abc.mem.read 0x4000) :=
  ⟨⟨fun _ h => absurd h (List.not_mem_nil), eq_nextOf (by decide), by decide +kernel⟩,
    ⟨eq_nextOf (by decide +kernel), by decide +kernel⟩, eq_nextOf (by decide +kernel), by decide +kernel⟩

/-- A state with the tree of V-B1 and every byte of FREQ, CODE and IN written. -/
def allWritten : State :=
  ((withIn abc (List.replicate 64 7)).setFreqTable (List.replicate 256 1)).setCodeTable (codeTable [])

theorem witness_EveryCommandCompletesOnDefinedMemory : TreeInv allWritten ∧
    (∀ sym, sym < 256 → ∃ f, freqIs allWritten sym f) ∧
    (∀ sym, sym < 256 → ∃ len val, codeIs allWritten sym len val) ∧
    ∀ a, a < allWritten.params.inSize → ∃ b, allWritten.mem.read (inAddr a) = some b := by
  refine ⟨abc_treeInv, fun sym h => ⟨(List.replicate 256 1 : List Word).getD sym 0, fun i hi => ?_⟩,
    fun sym h => ?_, fun a h => ?_⟩
  · have e := State.setFreqTable_read (withIn abc (List.replicate 64 7)) (ws := List.replicate 256 1)
      List.length_replicate h hi
    rw [allWritten, State.setCodeTable_read_outside (t := codeTable []) _ (codeTable_length _)
      (.inl (by simp only [freqAddr]; omega)), e]
  · exact ⟨_, _, State.setCodeTable_read _ (codeTable_length _) h⟩
  · have ha : a < 64 := h
    have e : allWritten.mem.read (inAddr a) = (abc.mem.writeBytes (inAddr 0) (List.replicate 64 7)).read (inAddr a) := by
      rw [allWritten, State.setCodeTable_read_outside (t := codeTable []) _ (codeTable_length _)
        (.inr (by simp only [inAddr]; omega)), State.setFreqTable_read_outside _ List.length_replicate
        (.inr (by simp only [inAddr]; omega))]
      rfl
    have r := Memory.read_writeBytes_inside abc.mem (inAddr 0) (List.replicate 64 7) (i := a) (by simpa using ha)
    exact ⟨_, e.trans r⟩

/-- The states of a compression of [0, 1, 0], one command after another. -/
def run0 : State := withIn blank [0, 1, 0]
def run1 : State := ((run0.setFreqTable (countSymbols [0, 1, 0])).withRes 2 3 0 0).finish
def run2 : State := (({ run1 with
  queue := ⟨[⟨3, 2, 2⟩], 3⟩, arena := ⟨[.leaf 0, .leaf 1, .internal 1 0 0], 1⟩, root := 2, treeValid := true,
  leafRoot := false, numbered := false }).withRes 3 0 2 1).finish
/-- The code table CODEGEN makes: 1 for the symbol 0, 0 for the symbol 1. -/
def runCodes : List CodeEntry := codeTable [(1, [false]), (0, [true])]
def run3 : State := ((run2.setCodeTable runCodes).withRes 2 1 1 0).finish
/-- The header SER writes. -/
def runHeader : List Byte := [1, 0, 1, 0, 0]
def run4 : State :=
  (((run3.withNumbered [.leaf 0, .leaf 1, .internal 1 0 0]).appendOut runHeader).withRes 1 5 0 0).finish
/-- The size 3, and the codes 1 0 1. -/
def runPayload : List Byte := [3, 0, 0, 0, 0xA0]
def run5 : State := (({ run4.appendOut runPayload with srcPtr := run4.srcEnd }).withRes 3 3 1 5).finish
/-- What COMPRESS writes. -/
def runFile : List Byte := runHeader ++ runPayload

theorem run0_holds : inHolds run0 0 [0, 1, 0] := by unfold inHolds bufferHolds; decide

theorem run_freqCnt : exec .freqCnt run0 = .next run1 := by
  have hs : run0.srcBytes = .ok [0, 1, 0] := by decide +kernel
  have hn : (countSymbols [0, 1, 0]).countP (· ≠ 0) = 2 := by decide +kernel
  have hc : run0.checkSrc = .ok () := by decide +kernel
  rw [exec, execFreqCnt, hc, except_ok_bind, hs, except_ok_bind]
  simp only [hn]
  rfl

theorem run_build : exec .build run1 = .next run2 := by
  have h : run1.freqTable = .ok (countSymbols [0, 1, 0]) := State.freqTable_setFreqTable run0 (by simp)
  have hb : buildTree (countSymbols [0, 1, 0]) =
    (⟨[⟨3, 2, 2⟩], 3⟩, ⟨[.leaf 0, .leaf 1, .internal 1 0 0], 1⟩) := by decide +kernel
  rw [exec, execBuild, h, except_ok_bind, State.buildFrom, hb]
  rfl

theorem run_codegen : exec .codegen run2 = .next run3 := by
  have hc : run2.checkTree = .ok () := by decide +kernel
  have ht : treeCodes run2.arena.nodes run2.root = .ok [(1, [false]), (0, [true])] := by decide +kernel
  have hl : codeLengths (codeTable [(1, [false]), (0, [true])]) = [1, 1] := by decide +kernel
  rw [exec, execCodegen, hc, except_ok_bind, ht, except_ok_bind]
  simp only [hl]
  rfl

theorem run_ser : exec .ser run3 = .next run4 := by
  have hc : run3.checkTree = .ok () := by decide +kernel
  have hn : numberTree run3.arena.nodes run3.root = .ok ([.leaf 0, .leaf 1, .internal 1 0 0], 1) := by decide +kernel
  have hh : run3.headerBytes [.leaf 0, .leaf 1, .internal 1 0 0] = .ok runHeader := by decide +kernel
  have hd : run3.checkDstRoom runHeader.length = .ok () := by decide +kernel
  rw [exec, execSer, hc, except_ok_bind, hn, except_ok_bind]
  simp only [hh, except_ok_bind, hd]
  rfl

theorem run3_dstPtr : run3.dstPtr = 0 := rfl

theorem run4_mem : run4.mem = run3.mem.writeBytes (outAddr 0) runHeader := by
  rw [run4, State.finish_mem, State.withRes_mem, State.appendOut_mem, State.withNumbered_mem, State.withNumbered_dstPtr,
    run3_dstPtr]
  rfl

theorem run4_dstPtr : run4.dstPtr = 5 := rfl

/-- The input is still in IN when PACK reads it. -/
theorem run4_in {a : Nat} (h : a < 64) : run4.mem.read (inAddr a) = run0.mem.read (inAddr a) := by
  rw [run4_mem, Memory.read_writeBytes_outside _ _ _ (.inl (by simp only [inAddr, outAddr]; omega))]
  rw [run3, State.finish_mem, State.withRes_mem,
    State.setCodeTable_read_outside (t := runCodes) _ (codeTable_length _) (.inr (by simp only [inAddr]; omega))]
  rw [run2, State.finish_mem, State.withRes_mem, run1, State.finish_mem, State.withRes_mem,
    State.setFreqTable_read_outside _ (countSymbols_length _) (.inr (by simp only [inAddr]; omega))]

/-- The code table is still CODEGEN's when PACK reads it. -/
theorem run4_code {a : Nat} (h : a < outAddr 0) : run4.mem.read a = (run2.setCodeTable runCodes).mem.read a := by
  rw [run4_mem, Memory.read_writeBytes_outside _ _ _ (.inl h), run3, State.finish_mem, State.withRes_mem]

theorem run4_symbolCode (sym : Byte) (b : Bool)
    (h : runCodes[sym.toNat]? = some (1, if b then 1 else 0)) : run4.symbolCode sym = .ok [b] := by
  have hs := sym.isLt
  have hl : runCodes.length = 256 := codeTable_length _
  obtain ⟨h₁, h₂⟩ := State.setCodeTable_read run2 hl hs
  rw [List.getElem?_eq_getElem (by omega), Option.some.injEq] at h
  rw [h] at h₁ h₂
  have f₁ : fetchByte run4.mem (codeLenAddr sym.toNat) = .ok 1 := by
    rw [fetchByte_ok, run4_code (by simp only [codeLenAddr, outAddr]; omega), h₁]
  have f₂ := fetchByte_ok.2 ((run4_code (by simp only [codeValAddr, outAddr]; omega)).trans (h₂ 0 (by decide)))
  rw [State.symbolCode, f₁]
  rw [except_ok_bind, if_neg (by decide), show ((1 : Byte).toNat + 7) / 8 = 1 from rfl, collect_succ]
  rw [Nat.add_zero] at f₂
  rw [f₂]
  cases b <;> rfl

theorem run_pack : exec (.pack true) run4 = .next run5 := by
  have hc : run4.checkSrc = .ok () := by decide +kernel
  have hl : run4.srcLen = 3 := by decide +kernel
  have hd : ¬ run4.params.outSize < run4.dstPtr.toNat := by decide +kernel
  have hp : run4.srcPtr.toNat = 0 := by decide +kernel
  have e (k : PackState) (v : Byte) (hk : k.emitted.length ≤ 58) :
      run4.emitByte v k = .ok { k with emitted := v :: k.emitted } := by
    refine State.emitByte_ok ?_
    rw [run4_dstPtr]
    exact Nat.lt_of_le_of_lt (Nat.add_le_add_left hk 5) (by decide)
  have s₀ := run4_symbolCode 0 true (by decide +kernel)
  have s₁ := run4_symbolCode 1 false (by decide +kernel)
  have i₀ : run4.inByte 0 = .ok 0 := State.inByte_ok.2 ((run4_in (by decide)).trans (by decide))
  have i₁ : run4.inByte 1 = .ok 1 := State.inByte_ok.2 ((run4_in (by decide)).trans (by decide))
  have i₂ : run4.inByte 2 = .ok 0 := State.inByte_ok.2 ((run4_in (by decide)).trans (by decide))
  have hh : run4.emitAll (le32Bytes 3) ⟨[], 0, []⟩ = .ok ⟨[], 0, [0, 0, 0, 3]⟩ := by
    rw [State.emitAll_ok (by rw [run4_dstPtr]; decide)]
    rfl
  have hk : run4.packAll true = .ok ⟨[true, false, true], 3, runPayload.reverse⟩ := by
    rw [State.packAll, hc, except_ok_bind, if_neg hd, hl, hp]
    simp only [if_true]
    rw [show le32Bytes (BitVec.ofNat 32 3) = le32Bytes 3 from rfl, hh, except_ok_bind]
    simp only [State.packFrom, State.packSymbol, i₀, i₁, i₂, s₀, s₁, except_ok_bind, Nat.zero_add, Nat.reduceAdd,
      List.nil_append, List.length_singleton]
    rw [State.drainBits_short _ (by decide), except_ok_bind]
    simp only [List.nil_append, List.cons_append]
    rw [State.drainBits_short _ (by decide), except_ok_bind]
    simp only [List.nil_append, List.cons_append]
    rw [State.drainBits_short _ (by decide), except_ok_bind, except_ok_bind, State.padTail, if_neg (by decide), e _ _ (by decide)]
    rfl
  rw [exec, execPack, hk, except_ok_bind]
  simp only [hl, List.reverse_reverse]
  rfl

theorem run_out : outHolds run5 0 runFile := by
  intro i hi
  have m₅ : run5.mem = run4.mem.writeBytes (outAddr 5) runPayload := by
    rw [run5, State.finish_mem, State.withRes_mem, State.appendOut_mem, run4_dstPtr]
    rfl
  rw [m₅, run4_mem, Memory.read_writeBytes, Memory.read_writeBytes]
  have hi : i < 10 := hi
  interval_cases i <;> rfl

theorem witness_DecompressOfCompressIsTheInput : ∃ (s₀ s₁ s₂ s₃ s₄ s₅ u₀ : State) (B file : List Byte),
    s₀.params.legal = true ∧ B ≠ [] ∧ B.length ≤ s₀.params.inSize ∧ B.length ≤ s₀.params.outSize ∧
    s₀.errCode = 0 ∧ s₀.srcPtr = 0 ∧ s₀.srcEnd.toNat = B.length ∧ s₀.dstPtr = 0 ∧ inHolds s₀ 0 B ∧
    exec .freqCnt s₀ = .next s₁ ∧ exec .build s₁ = .next s₂ ∧ exec .codegen s₂ = .next s₃ ∧
    exec .ser s₃ = .next s₄ ∧ exec (.pack true) s₄ = .next s₅ ∧
    (s₁.errCode = 0 ∧ s₂.errCode = 0 ∧ s₃.errCode = 0 ∧ s₄.errCode = 0 ∧ s₅.errCode = 0) ∧
    file.length = s₅.dstPtr.toNat ∧ outHolds s₅ 0 file ∧ file.length ≤ s₀.params.inSize ∧
    u₀.params = s₀.params ∧ u₀.errCode = 0 ∧ u₀.srcPtr = 0 ∧ u₀.srcEnd.toNat = file.length ∧ u₀.dstPtr = 0 ∧
    inHolds u₀ 0 file := by
  refine ⟨run0, run1, run2, run3, run4, run5, withIn blank runFile, [0, 1, 0], runFile, by decide, by decide, by decide,
    by decide, by decide, by decide, by decide, by decide, run0_holds, run_freqCnt, run_build,
    run_codegen, run_ser, run_pack, ⟨rfl, rfl, rfl, rfl, rfl⟩, rfl, run_out,
    by decide, by decide, by decide, by decide, by decide, by decide, ?_⟩
  unfold inHolds bufferHolds
  decide +kernel

end Sys2Proof.Tests
end

section
/-! The tree invariant (R14, R42): how BUILD and DESER grow a forest in the arena until one root is left. -/

namespace Sys2Proof.Proofs

open Sys2Proof.Machine Sys2Proof.Safety

/-! ### Forests in the arena -/

/-- The arena while a tree grows in it (R132): every entry is the child of one node or one of the roots, and nothing is
numbered. There are as many leaves as internal nodes and roots together, and at most 256 of them (one for each symbol in
BUILD, one more than records in DESER), which keeps every reference within 9 bits (R42). -/
structure Forest (a : Arena) (roots : List Nat) : Prop where
  children_lt : ∀ r, (h : r < a.nodes.length) → ∀ c ∈ children a.nodes[r], c < r
  perm : (a.nodes.flatMap children ++ roots).Perm (List.range a.nodes.length)
  count : a.internalCount.toNat = a.nodes.countP (fun n => !n.isLeaf)
  unnumbered : ∀ n ∈ a.nodes, nodeNum n = none ∨ nodeNum n = some 0
  bound : a.internalCount.toNat + roots.length ≤ 256

theorem flatMap_children_length (nodes : List Node) :
    (nodes.flatMap children).length = 2 * nodes.countP (fun n => !n.isLeaf) := by
  induction nodes with
  | nil => rfl
  | cons n nodes ih =>
    cases n with
    | leaf sym => simpa [children, Node.isLeaf] using ih
    | internal l r num =>
      simp only [List.flatMap_cons, List.length_append, ih, List.countP_cons, children, Node.isLeaf, List.length_cons,
        List.length_nil]
      simp only [Bool.not_false, if_true]
      omega

theorem Forest.empty : Forest .empty [] where
  children_lt := fun _ h => absurd h (Nat.not_lt_zero _)
  perm := .nil
  count := rfl
  unnumbered := by simp [Arena.empty]
  bound := by decide

theorem Forest.of_perm {a : Arena} {roots roots' : List Nat} (h : Forest a roots) (hp : roots.Perm roots') :
    Forest a roots' where
  children_lt := h.children_lt
  perm := (List.Perm.append_left _ hp.symm).trans h.perm
  count := h.count
  unnumbered := h.unnumbered
  bound := hp.length_eq ▸ h.bound

theorem Forest.length_eq {a : Arena} {roots : List Nat} (h : Forest a roots) :
    a.nodes.length = 2 * a.internalCount.toNat + roots.length := by
  have e := h.perm.length_eq
  rw [List.length_append, flatMap_children_length, List.length_range, ← h.count] at e
  exact e.symm

theorem Forest.root_lt {a : Arena} {roots : List Nat} (h : Forest a roots) {r : Nat} (hr : r ∈ roots) :
    r < a.nodes.length :=
  List.mem_range.1 (h.perm.subset (List.mem_append_right _ hr))

/-- A new entry takes roots as its children and is a root itself. -/
theorem Forest.push {a : Arena} {roots rest : List Nat} (h : Forest a roots) (n : Node) {count : BitVec 9}
    (hp : roots.Perm (children n ++ rest)) (hnum : nodeNum n = none ∨ nodeNum n = some 0)
    (hcount : count.toNat = a.internalCount.toNat + if n.isLeaf then 0 else 1)
    (hbound : count.toNat + rest.length + 1 ≤ 256) :
    Forest ⟨a.nodes ++ [n], count⟩ (a.nodes.length :: rest) where
  children_lt := by
    intro r hr c hc
    simp only [List.length_append, List.length_singleton] at hr
    by_cases hlt : r < a.nodes.length
    · rw [List.getElem_append_left hlt] at hc
      exact h.children_lt r hlt c hc
    · obtain rfl : r = a.nodes.length := by omega
      rw [List.getElem_concat_length rfl] at hc
      exact h.root_lt (hp.mem_iff.2 (List.mem_append_left _ hc))
  perm := by
    rw [List.flatMap_append, List.flatMap_singleton, List.length_append, List.length_singleton, List.range_succ,
      List.append_assoc]
    have parents : (children n ++ a.nodes.length :: rest).Perm (roots ++ [a.nodes.length]) := calc
      List.Perm _ (children n ++ rest ++ [a.nodes.length]) := by
        rw [List.append_assoc]
        exact (List.perm_append_singleton _ _).symm.append_left _
      List.Perm _ (roots ++ [a.nodes.length]) := hp.symm.append_right _
    refine (parents.append_left _).trans ?_
    rw [← List.append_assoc]
    exact h.perm.append_right _
  count := by
    rw [hcount, h.count, List.countP_append, List.countP_singleton]
    cases n.isLeaf <;> rfl
  unnumbered := by
    intro m hm
    rcases List.mem_append.1 hm with hm | hm
    · exact h.unnumbered m hm
    · exact List.mem_singleton.1 hm ▸ hnum
  bound := by
    rw [List.length_cons]
    omega

/-- alloc_leaf (R132) adds a root. -/
theorem Forest.allocLeaf {a : Arena} {roots : List Nat} (h : Forest a roots)
    (hb : a.internalCount.toNat + roots.length + 1 ≤ 256) (sym : Byte) :
    Forest (a.allocLeaf sym).1 ((a.allocLeaf sym).2.toNat :: roots) := by
  have hl := h.length_eq
  have e : (BitVec.ofNat 9 a.nodes.length).toNat = a.nodes.length := by
    rw [BitVec.toNat_ofNat, Nat.mod_eq_of_lt (by omega)]
  rw [Arena.allocLeaf_snd, e]
  exact h.push (.leaf sym) (.refl _) (.inl rfl) rfl hb

theorem Forest.internalCount_succ {a : Arena} {roots : List Nat} (h : Forest a roots) :
    (a.internalCount + 1).toNat = a.internalCount.toNat + 1 := by
  have hb := h.bound
  rw [BitVec.toNat_add]
  exact Nat.mod_eq_of_lt (show a.internalCount.toNat + 1 < 512 by omega)

/-- alloc_internal (R132) puts a root above two. -/
theorem Forest.allocInternal {a : Arena} {l r : Ref} {roots : List Nat} (h : Forest a (l.toNat :: r.toNat :: roots)) :
    Forest (a.allocInternal l r).1 ((a.allocInternal l r).2.toNat :: roots) := by
  have hl := h.length_eq
  have hb := h.bound
  simp only [List.length_cons] at hl hb
  have e : (BitVec.ofNat 9 a.nodes.length).toNat = a.nodes.length := by
    rw [BitVec.toNat_ofNat, Nat.mod_eq_of_lt (by omega)]
  rw [Arena.allocInternal_snd, e]
  exact h.push (.internal l r 0) (.refl _) (.inr rfl) h.internalCount_succ (by rw [h.internalCount_succ]; omega)

/-- One root is the last entry: an entry that is no child. -/
theorem Forest.single_root {a : Arena} {r : Nat} (h : Forest a [r]) : r + 1 = a.nodes.length := by
  have hr : r < a.nodes.length := h.root_lt (List.mem_singleton_self r)
  have last : a.nodes.length - 1 ∈ a.nodes.flatMap children ++ [r] :=
    h.perm.mem_iff.2 (List.mem_range.2 (by omega))
  rcases List.mem_append.1 last with hc | hc
  · obtain ⟨n, hn, hc⟩ := List.mem_flatMap.1 hc
    obtain ⟨i, hi, rfl⟩ := List.mem_iff_getElem.1 hn
    have := h.children_lt i hi _ hc
    omega
  · have := List.mem_singleton.1 hc
    omega

/-- A forest with one root is a tree as R14 and R42 say. -/
theorem Forest.arenaInv {a : Arena} {root : Ref} (h : Forest a [root.toNat]) : ArenaInv a root := by
  have hroot := h.single_root
  have hl := h.length_eq
  have hb := h.bound
  rw [List.length_singleton] at hl hb
  refine ⟨by omega, hroot, h.children_lt, ?_, h.count⟩
  have hp := h.perm
  rw [← hroot, List.range_succ] at hp
  rw [← hroot, Nat.add_sub_cancel]
  exact (List.perm_append_right_iff _).1 hp

end Sys2Proof.Proofs
end

section
/-! BUILD and DESER grow a forest to one root (R133, R185 to R191). -/

namespace Sys2Proof.Proofs

open Sys2Proof.Machine Sys2Proof.Safety

/-! ### BUILD (R133) -/

/-- The reference an entry's tag holds (R133). -/
def tagRef (e : PqEntry) : Nat := (e.tag.setWidth 9 : Ref).toNat

/-- While BUILD runs, the entries of the queue are the roots of its forest. -/
def BuildForest (q : PQueue) (a : Arena) : Prop := Forest a (q.entries.map tagRef)

@[simp] theorem tagRef_mk (w : BitVec 64) (seq : Word) (r : Ref) : tagRef ⟨w, seq, r.setWidth 16⟩ = r.toNat := by
  simp [tagRef]

/-- Inserting an entry for a reference makes it a root. -/
theorem BuildForest.insert {q : PQueue} {a : Arena} {r : Ref} (h : Forest a (r.toNat :: q.entries.map tagRef))
    (w : BitVec 64) : BuildForest (q.insert w (r.setWidth 16)) a := by
  refine h.of_perm ?_
  simpa using (List.perm_append_singleton r.toNat (q.entries.map tagRef)).symm

theorem seedLeaves_buildForest {fs : List Word} {sym : Nat} {q : PQueue} {a : Arena} (h : BuildForest q a)
    (hb : a.internalCount.toNat + q.entries.length + fs.length ≤ 256) :
    BuildForest (seedLeaves sym fs (q, a)).1 (seedLeaves sym fs (q, a)).2 := by
  induction fs generalizing sym q a with
  | nil => exact h
  | cons f fs ih =>
    rw [List.length_cons] at hb
    rw [seedLeaves]
    split
    · exact ih h (by omega)
    · refine ih (.insert (Forest.allocLeaf h ?_ _) _) ?_
      · rw [List.length_map]
        omega
      · simp only [PQueue.insert_entries, List.length_append, List.length_singleton]
        omega

/-- One round of the merge loop: it ends with at most one entry left, or makes one entry of two. -/
theorem mergeAll_succ_cases (fuel : Nat) (q : PQueue) (a : Arena) :
    (q.entries.length ≤ 1 ∧ mergeAll (fuel + 1) (q, a) = (q, a)) ∨
      ∃ (e₁ e₂ : PqEntry) (q₂ : PQueue), q.entries.Perm (e₁ :: e₂ :: q₂.entries) ∧ mergeAll (fuel + 1) (q, a) =
        mergeAll fuel
          (q₂.insert (e₁.w + e₂.w) ((a.allocInternal (e₁.tag.setWidth 9) (e₂.tag.setWidth 9)).2.setWidth 16),
          (a.allocInternal (e₁.tag.setWidth 9) (e₂.tag.setWidth 9)).1) := by
  rw [mergeAll]
  split
  next h => exact .inl ⟨by simp [PQueue.extractMin_eq_none.1 h], rfl⟩
  next e₁ q₁ h₁ =>
    split
    next h₂ => exact .inl ⟨by rw [← PQueue.extractMin_length h₁, PQueue.extractMin_eq_none.1 h₂]; rfl, rfl⟩
    next e₂ q₂ h₂ =>
      exact .inr ⟨e₁, e₂, q₂, (PQueue.extractMin_perm h₁).trans ((PQueue.extractMin_perm h₂).cons e₁), rfl⟩

theorem mergeAll_buildForest {fuel : Nat} {q : PQueue} {a : Arena} (h : BuildForest q a) :
    BuildForest (mergeAll fuel (q, a)).1 (mergeAll fuel (q, a)).2 := by
  induction fuel generalizing q a with
  | zero => exact h
  | succ fuel ih =>
    rcases mergeAll_succ_cases fuel q a with ⟨-, e⟩ | ⟨e₁, e₂, q₂, hp, e⟩
    · rwa [e]
    · rw [e]
      exact ih (.insert (Forest.allocInternal (Forest.of_perm h (hp.map tagRef))) _)

/-- The merge loop leaves at most one entry. -/
theorem mergeAll_length_le_one {fuel : Nat} {q : PQueue} {a : Arena} (h : q.entries.length ≤ fuel + 1) :
    (mergeAll fuel (q, a)).1.entries.length ≤ 1 := by
  induction fuel generalizing q a with
  | zero => exact h
  | succ fuel ih =>
    rcases mergeAll_succ_cases fuel q a with ⟨h₁, e⟩ | ⟨e₁, e₂, q₂, hp, e⟩
    · rwa [e]
    · rw [e]
      have hl := hp.length_eq
      simp only [List.length_cons] at hl
      exact ih (by simp only [PQueue.insert_entries, List.length_append, List.length_singleton]; omega)

theorem buildTree_forest {freqs : List Word} (hl : freqs.length ≤ 256) :
    BuildForest (buildTree freqs).1 (buildTree freqs).2 :=
  mergeAll_buildForest (seedLeaves_buildForest .empty (by simpa [PQueue.empty, Arena.empty] using hl))

theorem buildTree_length_le_one (freqs : List Word) : (buildTree freqs).1.entries.length ≤ 1 :=
  mergeAll_length_le_one (Nat.le_succ _)

/-! ### DESER (R185 to R191) -/

/-- What the walk of DESER does to the arena: the roots it found stay, `new` are added, and each of the n records it
uses (`free` were unused before, `free'` are after) makes one internal node. -/
def Grows (n : Nat) (a : Arena) (free : Nat) (a' : Arena) (new : List Nat) (free' : Nat) : Prop :=
  ∀ roots, Forest a roots → a.internalCount.toNat + roots.length + free ≤ n →
    Forest a' (new ++ roots) ∧ a'.internalCount.toNat + free' = a.internalCount.toNat + free

/-- The root of a child that is already built. -/
def builtRoot (o : Option Ref) : List Nat := (o.map BitVec.toNat).toList

theorem builtRoot_length_le (o : Option Ref) : (builtRoot o).length ≤ 1 := by cases o <;> simp [builtRoot]

theorem Grows.refl (n : Nat) (a : Arena) (free : Nat) : Grows n a free a (builtRoot none) free :=
  fun _ h _ => ⟨h, rfl⟩

theorem createChild_forest {s : State} {o : Option Ref} {x : Nat} {a a' : Arena} {r : Ref} {roots : List Nat}
    (hc : s.createChild o x a = .ok (a', r)) (h : Forest a (builtRoot o ++ roots))
    (hb : a.internalCount.toNat + roots.length + 1 ≤ 256) :
    Forest a' (r.toNat :: roots) ∧ a'.internalCount = a.internalCount := by
  cases o with
  | some b =>
    simp only [State.createChild_some, Except.ok.injEq, Prod.mk.injEq] at hc
    obtain ⟨rfl, rfl⟩ := hc
    exact ⟨h, rfl⟩
  | none =>
    obtain ⟨sym, -, hc⟩ := except_bind_eq_ok.1 hc
    simp only [except_pure_eq_ok, Except.ok.injEq] at hc
    have hf := Forest.allocLeaf h hb sym
    rw [hc] at hf
    exact ⟨hf, congrArg (fun p => p.1.internalCount) hc.symm⟩

/-- create (R189) ends with alloc_internal of the two children. -/
theorem createNode_ok {s : State} {base i : Nat} {l r : Option Ref} {a a' : Arena} {ref : Ref}
    (hc : s.createNode base i l r a = .ok (a', ref)) : ∃ a₁ lref a₂ rref,
      s.createChild l (recOff base i 1) a = .ok (a₁, lref) ∧ s.createChild r (recOff base i 3) a₁ = .ok (a₂, rref) ∧
      a₂.allocInternal lref rref = (a', ref) := by
  obtain ⟨⟨a₁, lref⟩, hl, hc⟩ := except_bind_eq_ok.1 hc
  obtain ⟨⟨a₂, rref⟩, hr, hc⟩ := except_bind_eq_ok.1 hc
  simp only [except_pure_eq_ok, Except.ok.injEq] at hc
  exact ⟨a₁, lref, a₂, rref, hl, hr, hc⟩

/-- create (R189) replaces the roots of the built children by one root. -/
theorem createNode_forest {s : State} {base i : Nat} {l r : Option Ref} {a a' : Arena} {ref : Ref} {roots : List Nat}
    (hc : s.createNode base i l r a = .ok (a', ref)) (h : Forest a (builtRoot l ++ builtRoot r ++ roots))
    (hb : a.internalCount.toNat + roots.length + 2 ≤ 256) :
    Forest a' (ref.toNat :: roots) ∧ a'.internalCount.toNat = a.internalCount.toNat + 1 := by
  obtain ⟨a₁, lref, a₂, rref, hl, hr, he⟩ := createNode_ok hc
  rw [List.append_assoc] at h
  have hlen := builtRoot_length_le r
  obtain ⟨h₁, e₁⟩ := createChild_forest hl h (by rw [List.length_append]; omega)
  obtain ⟨h₂, e₂⟩ := createChild_forest hr (h₁.of_perm List.perm_middle.symm)
    (by rw [e₁, List.length_cons]; omega)
  have hf := Forest.allocInternal (h₂.of_perm (.swap ..))
  have hs := h₂.internalCount_succ
  rw [he] at hf
  rw [e₂, e₁] at hs
  exact ⟨hf, by rw [← hs, ← e₁, ← e₂]; exact congrArg (fun p => p.1.internalCount.toNat) he.symm⟩

/-- A record of the walk: its two subtrees in either order, then its node (R187, R188). -/
theorem Grows.node {s : State} {n base i free free₁ free₂ : Nat} {x y l r : Option Ref} {a a₁ a₂ a' : Arena} {ref : Ref}
    (hn : n ≤ 255) (hx : Grows n a free a₁ (builtRoot x) free₁) (hy : Grows n a₁ free₁ a₂ (builtRoot y) free₂)
    (hlr : (builtRoot y ++ builtRoot x).Perm (builtRoot l ++ builtRoot r))
    (hc : s.createNode base i l r a₂ = .ok (a', ref)) : Grows n a (free + 1) a' [ref.toNat] free₂ := by
  intro roots hf hb
  have hlen := builtRoot_length_le x
  obtain ⟨h₁, e₁⟩ := hx roots hf (by omega)
  obtain ⟨h₂, e₂⟩ := hy _ h₁ (by rw [List.length_append]; omega)
  rw [← List.append_assoc] at h₂
  obtain ⟨h₃, e₃⟩ := createNode_forest hc (h₂.of_perm (hlr.append_right _)) (by omega)
  exact ⟨h₃, by omega⟩

/-- The records the general walk has visited: distinct, and below the number of records (R187). -/
def Visited (n : Nat) (visited : List Nat) : Prop := visited.Nodup ∧ ∀ i ∈ visited, i < n

theorem Visited.length_le {n : Nat} {visited : List Nat} (h : Visited n visited) : visited.length ≤ n := by
  have := (h.1.subperm fun i hi => List.mem_range.2 (h.2 i hi)).length_le
  rwa [List.length_range] at this

/-- What the general walk does (R187): the arena grows by a node for each record visited. -/
def GenGrows (n : Nat) (g g' : GenState) (new : List Nat) : Prop :=
  Visited n g'.visited ∧ Grows n g.arena (n - g.visited.length) g'.arena new (n - g'.visited.length)

theorem genChild_grows {s : State} {n x : Nat} {walk : Nat → GenState → Except Stop (GenState × Ref)} {internal : Bool}
    {g g' : GenState} {o : Option Ref} (hv : Visited n g.visited)
    (hw : ∀ i g' r, walk i g = .ok (g', r) → Visited n (i :: g.visited) → GenGrows n g g' [r.toNat])
    (h : s.genChild n x walk internal g = .ok (g', o)) : GenGrows n g g' (builtRoot o) := by
  cases internal with
  | false =>
    simp only [State.genChild, Bool.false_eq_true, if_false, Except.ok.injEq, Prod.mk.injEq] at h
    obtain ⟨rfl, rfl⟩ := h
    exact ⟨hv, .refl _ _ _⟩
  | true =>
    obtain ⟨d, -, h⟩ := except_bind_eq_ok.1 h
    split at h
    · cases h
    · next hd =>
      obtain ⟨⟨g₁, r⟩, hr, h⟩ := except_bind_eq_ok.1 h
      cases h
      rw [not_or, Nat.not_le, List.contains_iff_mem] at hd
      exact hw _ _ _ hr ⟨List.nodup_cons.2 ⟨hd.2, hv.1⟩, List.forall_mem_cons.2 ⟨hd.1, hv.2⟩⟩

/-- A visit of the general walk (R187): its record, its two children, and create. -/
theorem genTree_succ_ok {s : State} {base n fuel i : Nat} {g g' : GenState} {ref : Ref}
    (h : s.genTree base n (fuel + 1) i g = .ok (g', ref)) : ∃ lt rt g₁ l g₂ r,
      s.genChild n (recOff base i 1) (s.genTree base n fuel) lt { g with visited := i :: g.visited } = .ok (g₁, l) ∧
      s.genChild n (recOff base i 3) (s.genTree base n fuel) rt g₁ = .ok (g₂, r) ∧
      s.createNode base i l r g₂.arena = .ok (g'.arena, ref) ∧ g'.visited = g₂.visited := by
  obtain ⟨lt, -, h⟩ := except_bind_eq_ok.1 h
  obtain ⟨rt, -, h⟩ := except_bind_eq_ok.1 h
  obtain ⟨⟨g₁, l⟩, hl, h⟩ := except_bind_eq_ok.1 h
  obtain ⟨⟨g₂, r⟩, hr, h⟩ := except_bind_eq_ok.1 h
  obtain ⟨⟨ar, ref⟩, hc, h⟩ := except_bind_eq_ok.1 h
  cases h
  exact ⟨lt, rt, g₁, l, g₂, r, hl, hr, hc, rfl⟩

theorem genTree_grows {s : State} {base n : Nat} (hn : n ≤ 255) {fuel i : Nat} {g g' : GenState} {ref : Ref}
    (h : s.genTree base n fuel i g = .ok (g', ref)) (hv : Visited n (i :: g.visited)) :
    GenGrows n g g' [ref.toNat] := by
  induction fuel generalizing i g g' ref with
  | zero => cases h
  | succ fuel ih =>
    obtain ⟨lt, rt, g₁, l, g₂, r, hl, hr, hc, hg⟩ := genTree_succ_ok h
    obtain ⟨hv₁, hx⟩ := genChild_grows hv (fun _ _ _ => ih) hl
    obtain ⟨hv₂, hy⟩ := genChild_grows hv₁ (fun _ _ _ => ih) hr
    have hlen := hv.length_le
    rw [List.length_cons] at hlen
    have hfree : n - g.visited.length = n - (i :: g.visited).length + 1 := by rw [List.length_cons]; omega
    rw [GenGrows, hg, hfree]
    exact ⟨hv₂, .node hn hx hy List.perm_append_comm hc⟩

theorem postChild_grows {s : State} {n x : Nat} {walk : Nat → Arena → Except Stop (PostState × Ref)} {internal : Bool}
    {p p' : PostState} {o : Option Ref}
    (hw : ∀ i p' r, walk i p.arena = .ok (p', r) → Grows n p.arena (i + 1) p'.arena [r.toNat] p'.left)
    (h : s.postChild x walk internal p = .ok (p', o)) : Grows n p.arena p.left p'.arena (builtRoot o) p'.left := by
  cases internal with
  | false =>
    simp only [State.postChild, Bool.false_eq_true, if_false, Except.ok.injEq, Prod.mk.injEq] at h
    obtain ⟨rfl, rfl⟩ := h
    exact .refl _ _ _
  | true =>
    simp only [State.postChild, if_true] at h
    split at h
    · cases h
    · next j hj =>
      obtain ⟨⟨p₁, r⟩, hr, h⟩ := except_bind_eq_ok.1 h
      cases h
      rw [hj]
      exact hw _ _ _ hr

/-- A visit of the postorder walk (R188): the right child, the left child, and create. -/
theorem postTree_succ_ok {s : State} {base fuel i : Nat} {a : Arena} {p' : PostState} {ref : Ref}
    (h : s.postTree base (fuel + 1) i a = .ok (p', ref)) : ∃ lt rt p₁ r p₂ l,
      s.postChild (recOff base i 2) (s.postTree base fuel) rt ⟨a, i⟩ = .ok (p₁, r) ∧
      s.postChild (recOff base i 0) (s.postTree base fuel) lt p₁ = .ok (p₂, l) ∧
      s.createNode base i l r p₂.arena = .ok (p'.arena, ref) ∧ p'.left = p₂.left := by
  obtain ⟨lt, -, h⟩ := except_bind_eq_ok.1 h
  obtain ⟨rt, -, h⟩ := except_bind_eq_ok.1 h
  obtain ⟨⟨p₁, r⟩, hr, h⟩ := except_bind_eq_ok.1 h
  obtain ⟨⟨p₂, l⟩, hl, h⟩ := except_bind_eq_ok.1 h
  obtain ⟨⟨ar, ref⟩, hc, h⟩ := except_bind_eq_ok.1 h
  cases h
  exact ⟨lt, rt, p₁, r, p₂, l, hr, hl, hc, rfl⟩

theorem postTree_grows {s : State} {base n : Nat} (hn : n ≤ 255) {fuel i : Nat} {a : Arena} {p' : PostState} {ref : Ref}
    (h : s.postTree base fuel i a = .ok (p', ref)) : Grows n a (i + 1) p'.arena [ref.toNat] p'.left := by
  induction fuel generalizing i a p' ref with
  | zero => cases h
  | succ fuel ih =>
    obtain ⟨lt, rt, p₁, r, p₂, l, hr, hl, hc, hp⟩ := postTree_succ_ok h
    rw [hp]
    exact .node hn (postChild_grows (fun _ _ _ => ih) hr) (postChild_grows (fun _ _ _ => ih) hl) (.refl _) hc

/-- Both strategies end with create of the root's record. -/
theorem readTree_ok {s : State} {postorder : Bool} {base n : Nat} {a : Arena} {root : Ref}
    (h : s.readTree postorder base n = .ok (a, root)) :
    (∃ p, s.postTree base n (n - 1) .empty = .ok (p, root) ∧ p.arena = a) ∨
      ∃ g, s.genTree base n n (n - 1) ⟨.empty, []⟩ = .ok (g, root) ∧ g.arena = a := by
  cases postorder with
  | true =>
    obtain ⟨⟨p, r⟩, hp, h⟩ := except_bind_eq_ok.1 h
    cases h
    exact .inl ⟨p, hp, rfl⟩
  | false =>
    obtain ⟨⟨g, r⟩, hg, h⟩ := except_bind_eq_ok.1 h
    cases h
    exact .inr ⟨g, hg, rfl⟩

theorem readTree_forest {s : State} {postorder : Bool} {base n : Nat} {a : Arena} {root : Ref} (hpos : 1 ≤ n)
    (hn : n ≤ 255) (h : s.readTree postorder base n = .ok (a, root)) : Forest a [root.toNat] := by
  rcases readTree_ok h with ⟨p, hp, rfl⟩ | ⟨g, hg, rfl⟩
  · have hg := postTree_grows hn hp
    rw [Nat.sub_add_cancel hpos] at hg
    exact (hg [] .empty (by simp [Arena.empty])).1
  · have hv : Visited n [n - 1] :=
      ⟨List.nodup_singleton _, fun i hi => List.mem_singleton.1 hi ▸ Nat.sub_lt hpos Nat.one_pos⟩
    exact ((genTree_grows hn hg hv).2 [] .empty (by simp [Arena.empty])).1

/-- The root DESER makes is an internal node: each record is one (R189). -/
theorem readTree_root {s : State} {postorder : Bool} {base n : Nat} {a : Arena} {root : Ref}
    (h : s.readTree postorder base n = .ok (a, root)) : ∃ a₀ l r, Arena.allocInternal a₀ l r = (a, root) := by
  obtain ⟨fuel, rfl⟩ : ∃ fuel, n = fuel + 1 := by
    cases n with
    | zero => rcases readTree_ok h with ⟨p, h, -⟩ | ⟨g, h, -⟩ <;> cases h
    | succ fuel => exact ⟨fuel, rfl⟩
  rcases readTree_ok h with ⟨p, hp, rfl⟩ | ⟨g, hg, rfl⟩
  · obtain ⟨_, _, _, _, _, _, -, -, hc, -⟩ := postTree_succ_ok hp
    obtain ⟨_, l, a₂, r, -, -, he⟩ := createNode_ok hc
    exact ⟨a₂, l, r, he⟩
  · obtain ⟨_, _, _, _, _, _, -, -, hc, -⟩ := genTree_succ_ok hg
    obtain ⟨_, l, a₂, r, -, -, he⟩ := createNode_ok hc
    exact ⟨a₂, l, r, he⟩

theorem nodeCountByte_ok {s : State} {n : Nat} (h : s.nodeCountByte = .ok n) : 1 ≤ n ∧ n ≤ 255 := by
  rw [State.nodeCountByte] at h
  split at h
  · cases h
  · obtain ⟨b, -, h⟩ := except_bind_eq_ok.1 h
    split at h
    · cases h
    · next hb =>
      split at h
      · cases h
      · cases h
        have hlt := b.isLt
        have hne : b.toNat ≠ 0 := fun he => hb (BitVec.eq_of_toNat_eq he)
        omega

end Sys2Proof.Proofs
end

section
/-! What a step can do to the tree, said once, and the tree invariant from it. -/

namespace Sys2Proof.Proofs

open Sys2Proof.Machine Sys2Proof.Safety

/-- The tree's part of the state (R23, R30, R31, R42). -/
structure TreeRegs where
  treeValid : Bool
  leafRoot : Bool
  numbered : Bool
  root : Ref
  arena : Arena

def treeRegs (s : State) : TreeRegs := ⟨s.treeValid, s.leafRoot, s.numbered, s.root, s.arena⟩

/-- LEAF_ROOT of an arena below a root (R30). -/
def leafAt (a : Arena) (root : Ref) : Bool := (a.nodes[root.toNat]?.map Node.isLeaf).getD false

theorem leafAt_eq_match (a : Arena) (root : Ref) :
    leafAt a root = match a.nodes[root.toNat]? with
      | some n => n.isLeaf
      | none => false := by
  rw [leafAt]
  cases a.nodes[root.toNat]? <;> rfl

/-- What a step can do to the tree: keep it, reset it (tree_reset, R132, and reset, R50), make a new one (BUILD and
DESER), or number the nodes of a valid one (NUMBER and SER). -/
inductive TreeChange (s : State) : TreeRegs → Prop
  | kept : TreeChange s (treeRegs s)
  | reset : TreeChange s ⟨false, false, false, 0, .empty⟩
  | made {a : Arena} {root : Ref} (h : Forest a [root.toNat]) :
      TreeChange s ⟨true, leafAt a root, false, root, a⟩
  | renumbered {nodes : List Node} {n : Nat} (hv : s.treeValid = true)
      (h : numberTree s.arena.nodes s.root = .ok (nodes, n)) :
      TreeChange s ⟨s.treeValid, s.leafRoot, true, s.root, ⟨nodes, s.arena.internalCount⟩⟩

/-! ### Commands -/

/-- The change of a completion is that of its rule's result or of the state its error commit starts from. -/
theorem conclude_treeChange {s onError t : State} {r : Except Stop State} (h : conclude onError r = .next t)
    (hok : ∀ u, r = .ok u → TreeChange s (treeRegs u)) (herr : TreeChange s (treeRegs onError)) :
    TreeChange s (treeRegs t) := by
  rcases conclude_eq_next h with ⟨u, hu, rfl⟩ | ⟨e, i, -, rfl⟩
  · exact hok u hu
  · exact herr

/-- A rule that succeeds with the tree as it was. -/
theorem conclude_kept {s onError t : State} {r : Except Stop State} (h : conclude onError r = .next t)
    (hok : ∀ u, r = .ok u → treeRegs u = treeRegs s) (herr : treeRegs onError = treeRegs s) :
    TreeChange s (treeRegs t) :=
  conclude_treeChange h (fun u hu => hok u hu ▸ .kept) (herr ▸ .kept)

theorem buildFrom_made {s u : State} {freqs : List Word} (hl : freqs.length ≤ 256)
    (h : s.buildFrom freqs = .ok u) : TreeChange s (treeRegs u) := by
  have hf := buildTree_forest hl
  have hone := buildTree_length_le_one freqs
  rw [State.buildFrom] at h
  generalize buildTree freqs = b at h hf hone
  obtain ⟨⟨entries, nextSeq⟩, a⟩ := b
  rcases entries with _ | ⟨e, rest⟩
  · cases h
  · obtain rfl : rest = [] := by simpa using hone
    cases h
    have hmade := TreeChange.made (s := s) (root := e.tag.setWidth 9) hf
    rw [leafAt_eq_match] at hmade
    exact hmade

theorem execBuild_treeChange {s t : State} (h : execBuild s = .next t) : TreeChange s (treeRegs t) := by
  refine conclude_treeChange h (fun u hu => ?_) .reset
  obtain ⟨freqs, hf, hu⟩ := except_bind_eq_ok.1 hu
  exact buildFrom_made (collect_ok.1 hf).1.le hu

theorem execDeser_treeChange {s t : State} {postorder : Bool} (h : execDeser postorder s = .next t) :
    TreeChange s (treeRegs t) := by
  refine conclude_treeChange h (fun u hu => ?_) .reset
  obtain ⟨-, -, hu⟩ := except_bind_eq_ok.1 hu
  obtain ⟨n, hn, hu⟩ := except_bind_eq_ok.1 hu
  obtain ⟨⟨a, root⟩, hr, hu⟩ := except_bind_eq_ok.1 hu
  obtain ⟨hpos, hle⟩ := nodeCountByte_ok hn
  have hf := readTree_forest hpos hle hr
  obtain ⟨a₀, l, r, he⟩ := readTree_root hr
  have hleaf : leafAt a root = false := by
    have hroot := hf.single_root
    have hnodes : a.nodes = a₀.nodes ++ [.internal l r 0] := congrArg (fun p => p.1.nodes) he.symm
    rw [hnodes, List.length_append, List.length_singleton] at hroot
    have hlast : root.toNat = a₀.nodes.length := by omega
    simp [leafAt, hnodes, hlast, Node.isLeaf]
  have hm := TreeChange.made (s := s) hf
  rw [hleaf] at hm
  cases hu
  exact hm

theorem execNumber_treeChange {s t : State} (h : execNumber s = .next t) : TreeChange s (treeRegs t) := by
  refine conclude_treeChange h (fun u hu => ?_) .kept
  obtain ⟨_, hc, hu⟩ := except_bind_eq_ok.1 hu
  obtain ⟨⟨nodes, n⟩, hn, hu⟩ := except_bind_eq_ok.1 hu
  cases hu
  exact .renumbered (State.checkTree_ok.1 hc) hn

theorem execSer_treeChange {s t : State} (h : execSer s = .next t) : TreeChange s (treeRegs t) := by
  refine conclude_treeChange h (fun u hu => ?_) .kept
  obtain ⟨_, hc, hu⟩ := except_bind_eq_ok.1 hu
  obtain ⟨⟨nodes, n⟩, hn, hu⟩ := except_bind_eq_ok.1 hu
  obtain ⟨bytes, -, hu⟩ := except_bind_eq_ok.1 hu
  obtain ⟨-, -, hu⟩ := except_bind_eq_ok.1 hu
  cases hu
  exact .renumbered (State.checkTree_ok.1 hc) hn

theorem execPqIns_kept {s t : State} (h : execPqIns s = .next t) : TreeChange s (treeRegs t) := by
  refine conclude_kept h (fun u hu => ?_) rfl
  split at hu
  · cases hu
  · split at hu
    · cases hu
    · split at hu
      · cases hu
      · cases hu; rfl

theorem execPqExt_kept {s t : State} (h : execPqExt s = .next t) : TreeChange s (treeRegs t) := by
  refine conclude_kept h (fun u hu => ?_) rfl
  split at hu
  · cases hu
  · cases hu; rfl

theorem execFreqCnt_kept {s t : State} (h : execFreqCnt s = .next t) : TreeChange s (treeRegs t) := by
  refine conclude_kept h (fun u hu => ?_) rfl
  obtain ⟨-, -, hu⟩ := except_bind_eq_ok.1 hu
  obtain ⟨bytes, -, hu⟩ := except_bind_eq_ok.1 hu
  cases hu
  rfl

theorem execCodegen_kept {s t : State} (h : execCodegen s = .next t) : TreeChange s (treeRegs t) := by
  refine conclude_kept h (fun u hu => ?_) rfl
  obtain ⟨-, -, hu⟩ := except_bind_eq_ok.1 hu
  obtain ⟨codes, -, hu⟩ := except_bind_eq_ok.1 hu
  cases hu
  rfl

theorem execPack_kept {s t : State} {sized : Bool} (h : execPack sized s = .next t) : TreeChange s (treeRegs t) := by
  refine conclude_kept h (fun u hu => ?_) rfl
  obtain ⟨k, -, hu⟩ := except_bind_eq_ok.1 hu
  cases hu
  rfl

theorem execUnpack_kept {s t : State} {sized : Bool} (h : execUnpack sized s = .next t) :
    TreeChange s (treeRegs t) := by
  refine conclude_kept h (fun u hu => ?_) rfl
  obtain ⟨-, -, hu⟩ := except_bind_eq_ok.1 hu
  obtain ⟨-, -, hu⟩ := except_bind_eq_ok.1 hu
  obtain ⟨⟨count, p⟩, -, hu⟩ := except_bind_eq_ok.1 hu
  obtain ⟨-, -, hu⟩ := except_bind_eq_ok.1 hu
  obtain ⟨⟨syms, k⟩, -, hu⟩ := except_bind_eq_ok.1 hu
  cases hu
  rfl

theorem exec_treeChange {i : Instr} {s t : State} (h : exec i s = .next t) : TreeChange s (treeRegs t) := by
  cases i with
  | nop => cases h; exact .kept
  | clear => cases h; exact .reset
  | freqClr => cases h; exact .kept
  | freqCnt => exact execFreqCnt_kept h
  | pqClr => cases h; exact .kept
  | pqIns => exact execPqIns_kept h
  | pqExt => exact execPqExt_kept h
  | build => exact execBuild_treeChange h
  | codeClr => cases h; exact .kept
  | codegen => exact execCodegen_kept h
  | number => exact execNumber_treeChange h
  | ser => exact execSer_treeChange h
  | deser postorder => exact execDeser_treeChange h
  | pack sized => exact execPack_kept h
  | unpack sized => exact execUnpack_kept h

/-! ### The bus -/

theorem offer_treeRegs (s : State) (c : Word) : treeRegs (s.offer c) = treeRegs s := by
  by_cases h : s.busy = false ∧ s.errCode = 0
  · rw [State.offer_accept h]; rfl
  · rw [State.offer_drop h]; rfl

theorem writeReg_treeRegs (s : State) (v : Word) (r : RegName) : treeRegs (s.writeReg v r) = treeRegs s := by
  cases r with
  | cmd => exact offer_treeRegs s v
  | errCode => rw [State.writeReg]; split <;> rfl
  | _ => rfl

theorem writeTarget_treeRegs (s : State) (v : Word) (target : BusTarget) :
    treeRegs (s.writeTarget v target) = treeRegs s := by
  cases target with
  | reg r => exact writeReg_treeRegs s v r
  | _ => rfl

theorem writeBusy_treeRegs (s : State) (v : Word) (target : BusTarget) :
    treeRegs (s.writeBusy v target) = treeRegs s := by
  cases target with
  | reg r =>
    cases r with
    | cmd => exact offer_treeRegs s v
    | _ => rfl
  | _ => rfl

theorem busWrite_treeRegs {s t : State} {width : AccessWidth} {a : Addr} {v : Word}
    (h : s.busWrite width a v = .next t) : treeRegs t = treeRegs s := by
  obtain ⟨-, -, rfl⟩ := busWrite_cases h
  cases hb : s.busy
  · exact writeTarget_treeRegs s v _
  · exact writeBusy_treeRegs s v _

theorem readTarget_treeRegs {s t : State} {a : Addr} {target : BusTarget} (h : s.readTarget a target = .next t) :
    treeRegs t = treeRegs s := by
  cases target with
  | reg r => cases h; rfl
  | regReserved => cases h; rfl
  | ram n =>
    simp only [State.readTarget, State.readRam] at h
    split at h
    · cases h
    · cases h; rfl
  | codeLen n =>
    simp only [State.readTarget] at h
    split at h
    · cases h; rfl
    · cases h
  | node r second =>
    simp only [State.readTarget] at h
    split at h
    · cases h; rfl
    · cases h; rfl
  | windowReserved => cases h; rfl
  | unmapped => cases h

theorem readBusy_treeRegs {s t : State} {a : Addr} {target : BusTarget} (h : s.readBusy a target = .next t) :
    treeRegs t = treeRegs s := by
  cases target with
  | reg r =>
    cases h
    cases r.stable <;> rfl
  | unmapped => cases h
  | _ => cases h; rfl

theorem busRead_treeRegs {s t : State} {width : AccessWidth} {a : Addr} (h : s.busRead width a = .next t) :
    treeRegs t = treeRegs s := by
  rw [State.busRead] at h
  split at h
  · split at h
    · exact readBusy_treeRegs h
    · exact readTarget_treeRegs h
  · cases h

/-! ### Steps -/

theorem engineStep_treeChange {s t : State} (h : engineStep s = .next t) : TreeChange s (treeRegs t) := by
  rcases engineStep_cases h with ⟨i, -, h⟩ | ⟨-, rfl⟩
  · exact exec_treeChange h
  · exact .kept

/-- The host's list has no part in the tree. -/
theorem TreeChange.of_host {s : State} {host : List HostOp} {g : TreeRegs} (h : TreeChange { s with host := host } g) :
    TreeChange s g := by
  cases h with
  | kept => exact .kept
  | reset => exact .reset
  | made h => exact .made h
  | renumbered hv h => exact .renumbered hv h

theorem step_treeChange {s t : State} (h : step s = .next t) : TreeChange s (treeRegs t) := by
  obtain ⟨rest, h⟩ := step_cases h
  rcases h with ⟨-, h⟩ | ⟨-, rfl⟩ | ⟨width, a, h⟩ | ⟨width, a, v, h⟩ | rfl | ⟨-, rfl⟩ | ⟨-, rfl⟩ | ⟨-, rfl⟩
  · exact (engineStep_treeChange h).of_host
  · exact .kept
  · exact busRead_treeRegs h ▸ .kept
  · exact busWrite_treeRegs h ▸ .kept
  · exact .reset
  · exact .kept
  · exact .kept
  · exact .kept

/-! ### The invariant -/

theorem children_clearNum (n : Node) : children n.clearNum = children n := by cases n <;> rfl

/-- The shape of a tree does not depend on its numbers (R165). -/
theorem arenaInv_of_clearNum {a b : Arena} {root : Ref} (h : ArenaInv a root)
    (hn : b.nodes.map Node.clearNum = a.nodes.map Node.clearNum) (hk : b.internalCount = a.internalCount) :
    ArenaInv b root := by
  obtain ⟨hle, hroot, hlt, hp, hc⟩ := h
  have hlen : b.nodes.length = a.nodes.length := by simpa using congrArg List.length hn
  have hchildren : b.nodes.map children = a.nodes.map children := by
    simpa [Function.comp_def, children_clearNum] using congrArg (List.map children) hn
  have hleaf : b.nodes.map Node.isLeaf = a.nodes.map Node.isLeaf := by
    simpa [Function.comp_def] using congrArg (List.map Node.isLeaf) hn
  refine ⟨hlen ▸ hle, hlen ▸ hroot, fun r hr c hc => ?_, ?_, ?_⟩
  · have e := congrArg (fun l => l[r]?) hchildren
    simp only [List.getElem?_map, List.getElem?_eq_getElem hr, List.getElem?_eq_getElem (hlen ▸ hr), Option.map_some,
      Option.some.injEq] at e
    exact hlt r (hlen ▸ hr) c (e ▸ hc)
  · rw [hlen, List.flatMap_def, hchildren, ← List.flatMap_def]
    exact hp
  · have e := congrArg (List.countP (fun x => !x)) hleaf
    simp only [List.countP_map] at e
    rw [hk, hc]
    exact e.symm

theorem numberTree_shape {nodes nodes' : List Node} {root : Ref} {n : Nat}
    (h : numberTree nodes root = .ok (nodes', n)) : nodes'.map Node.clearNum = nodes.map Node.clearNum := by
  simpa [Function.comp_def] using numberFrom_shape h

theorem treeInv_of_numberTree {s t : State} {nodes : List Node} {n : Nat} (hs : TreeInv s) (hv : s.treeValid = true)
    (hn : numberTree s.arena.nodes s.root = .ok (nodes, n))
    (ht : treeRegs t = ⟨s.treeValid, s.leafRoot, true, s.root, ⟨nodes, s.arena.internalCount⟩⟩) : TreeInv t := by
  obtain ⟨hvalid, -, -⟩ := hs
  obtain ⟨harena, hroot⟩ := hvalid hv
  have hshape := numberTree_shape hn
  obtain ⟨e₁, e₂, e₃, e₄, e₅⟩ := TreeRegs.mk.inj ht
  refine ⟨fun _ => ?_, fun h => ?_, fun h => ?_⟩
  · rw [e₂, e₄, e₅, hroot]
    refine ⟨arenaInv_of_clearNum harena hshape rfl, ?_⟩
    have e := congrArg (fun l => (l[s.root.toNat]?.map Node.isLeaf).getD false) hshape
    simpa [Option.map_map, Function.comp_def] using e.symm
  · rw [e₁, hv] at h; cases h
  · rw [e₃] at h; cases h

/-- The tree invariant from what a step can do to the tree. -/
theorem TreeChange.treeInv {s t : State} (h : TreeChange s (treeRegs t)) (hs : TreeInv s) : TreeInv t := by
  generalize hg : treeRegs t = g at h
  cases h with
  | kept =>
    obtain ⟨e₁, e₂, e₃, e₄, e₅⟩ := TreeRegs.mk.inj hg
    rw [TreeInv, e₁, e₂, e₃, e₄, e₅]
    exact hs
  | reset =>
    obtain ⟨e₁, e₂, e₃, e₄, e₅⟩ := TreeRegs.mk.inj hg
    rw [TreeInv, e₁, e₂, e₃, e₄, e₅]
    exact ⟨nofun, fun _ => ⟨rfl, rfl, rfl, rfl⟩, fun _ => Forest.empty.unnumbered⟩
  | made hf =>
    obtain ⟨e₁, e₂, e₃, e₄, e₅⟩ := TreeRegs.mk.inj hg
    rw [TreeInv, e₁, e₂, e₃, e₄, e₅]
    exact ⟨fun _ => ⟨hf.arenaInv, rfl⟩, nofun, fun _ => hf.unnumbered⟩
  | renumbered hv hn => exact treeInv_of_numberTree hs hv hn hg

end Sys2Proof.Proofs

/-- Settles O18: what a step can do to the tree is one of the cases of TreeChange, and each keeps the invariant. BUILD
and DESER grow a forest until one root is left. -/
theorem stepKeepsTreeInvariant : Obligations.StepKeepsTreeInvariant :=
  fun _ _ hs h => (Sys2Proof.Proofs.step_treeChange h).treeInv hs
end

section
/-! A valid arena holds a full binary tree that uses every entry (R14). -/

namespace Sys2Proof.Safety

open Sys2Proof.Machine Sys2Proof.Proofs

theorem ArenaInv.root_lt {a : Arena} {root : Ref} (h : ArenaInv a root) : root.toNat < a.nodes.length := by
  obtain ⟨-, hroot, -⟩ := h
  omega

/-- Children have smaller refs, so every entry of a valid arena has a tree below it. -/
theorem ArenaInv.exists_treeAt {a : Arena} {root : Ref} (h : ArenaInv a root) {fuel : Nat} {r : Ref}
    (hr : r.toNat < a.nodes.length) (hf : r.toNat < fuel) : ∃ T, treeAt a.nodes fuel r = some T := by
  obtain ⟨-, -, hlt, -, -⟩ := h
  induction fuel generalizing r with
  | zero => omega
  | succ fuel ih =>
    have hn := List.getElem?_eq_getElem hr
    have hc := hlt r.toNat hr
    cases hnode : a.nodes[r.toNat] with
    | leaf sym => exact ⟨.leaf sym, treeAt_leaf (hn.trans (congrArg some hnode))⟩
    | internal l rt num =>
      rw [hnode] at hn hc
      have hl : l.toNat < r.toNat := hc _ (by simp [children])
      have hrt : rt.toNat < r.toNat := hc _ (by simp [children])
      obtain ⟨tl, el⟩ := ih (r := l) (by omega) (by omega)
      obtain ⟨tr, er⟩ := ih (r := rt) (by omega) (by omega)
      exact ⟨.node tl tr, by simp only [treeAt, hn, el, er]⟩

/-- The number of internal nodes of the tree below an entry. -/
def internalsBelow (nodes : List Node) (r : Nat) : Nat :=
  ((treeAt nodes nodes.length (BitVec.ofNat 9 r)).map HTree.internals).getD 0

theorem internalsBelow_eq {nodes : List Node} {r : Ref} {T : HTree} (h : treeAt nodes nodes.length r = some T) :
    internalsBelow nodes r.toNat = T.internals := by
  rw [internalsBelow, BitVec.ofNat_toNat, BitVec.setWidth_eq, h]
  rfl

/-- An entry counts itself, if it is internal, and what is below its children. -/
def internalsAt (nodes : List Node) (n : Node) : Nat :=
  (if n.isLeaf then 0 else 1) + ((children n).map (internalsBelow nodes)).sum

theorem internalsAt_leaf (nodes : List Node) (sym : Byte) : internalsAt nodes (.leaf sym) = 0 := rfl

theorem internalsAt_internal (nodes : List Node) (l r : Ref) (num : Byte) : internalsAt nodes (.internal l r num) =
    internalsBelow nodes l.toNat + internalsBelow nodes r.toNat + 1 := by
  simp [internalsAt, children, Node.isLeaf, Nat.add_comm]

theorem internalsBelow_eq_internalsAt {a : Arena} {root : Ref} (h : ArenaInv a root) {r : Nat}
    (hr : r < a.nodes.length) : internalsBelow a.nodes r = internalsAt a.nodes a.nodes[r] := by
  obtain ⟨ref, rfl⟩ : ∃ ref : Ref, ref.toNat = r :=
    ⟨BitVec.ofNat 9 r, by rw [BitVec.toNat_ofNat]; exact Nat.mod_eq_of_lt (by have := h.1; omega)⟩
  obtain ⟨T, hT⟩ := h.exists_treeAt hr hr
  rw [internalsBelow_eq hT]
  obtain ⟨m, hm⟩ : ∃ m, a.nodes.length = m + 1 := ⟨a.nodes.length - 1, by omega⟩
  rw [hm] at hT
  rcases treeAt_cases hT with ⟨sym, hn, rfl⟩ | ⟨l, rt, num, tl, tr, hn, hl, hrt, rfl⟩
  · obtain ⟨_, hn⟩ := List.getElem?_eq_some_iff.1 hn
    rw [hn, internalsAt_leaf, HTree.internals]
  · obtain ⟨_, hn⟩ := List.getElem?_eq_some_iff.1 hn
    have el := internalsBelow_eq (treeAt_mono (by omega : m ≤ a.nodes.length) hl)
    have er := internalsBelow_eq (treeAt_mono (by omega : m ≤ a.nodes.length) hrt)
    rw [hn, internalsAt_internal, el, er, HTree.internals]

theorem sum_internalsAt (nodes ns : List Node) : (ns.map (internalsAt nodes)).sum =
    ns.countP (fun n => !n.isLeaf) + ((ns.flatMap children).map (internalsBelow nodes)).sum := by
  induction ns with
  | nil => rfl
  | cons n ns ih =>
    rw [List.map_cons, List.sum_cons, ih, List.countP_cons, List.flatMap_cons, List.map_append, List.sum_append]
    cases n with
    | leaf sym => simp [internalsAt_leaf, children, Node.isLeaf]
    | internal l r num =>
      simp only [internalsAt_internal, children, Node.isLeaf, List.map_cons, List.map_nil, List.sum_cons, List.sum_nil,
        Bool.not_false, if_true]
      omega

/-- Summed over all entries, what is below a child cancels: every entry but the root is one child, so the root counts
every internal node. -/
theorem ArenaInv.internals_root {a : Arena} {root : Ref} (h : ArenaInv a root) :
    internalsBelow a.nodes root.toNat = a.internalCount.toNat := by
  have heq : (List.range a.nodes.length).map (internalsBelow a.nodes) = a.nodes.map (internalsAt a.nodes) :=
    List.ext_getElem (by simp) fun r hr _ => by
      simpa using internalsBelow_eq_internalsAt h (by simpa using hr)
  obtain ⟨-, hroot, -, hperm, hcount⟩ := h
  have hsum := congrArg List.sum heq
  rw [sum_internalsAt, (hperm.map _).sum_eq, ← hroot, List.range_succ, List.map_append, List.sum_append,
    Nat.add_sub_cancel, ← hcount] at hsum
  simp only [List.map_cons, List.map_nil, List.sum_cons, List.sum_nil] at hsum
  omega

theorem ArenaInv.length_eq {a : Arena} {root : Ref} (h : ArenaInv a root) :
    a.nodes.length = 2 * a.internalCount.toNat + 1 := by
  obtain ⟨-, hroot, -, hperm, hcount⟩ := h
  have e := hperm.length_eq
  rw [flatMap_children_length, List.length_range, ← hcount] at e
  omega

/-- With TREE_VALID = 1 the arena holds a tree of K internal nodes (R14). -/
theorem TreeInv.exists_tree {s : State} (h : TreeInv s) (hv : s.treeValid = true) :
    ∃ T, treeOf s = some T ∧ T.internals = s.arena.internalCount.toNat := by
  obtain ⟨hvalid, -, -⟩ := h
  obtain ⟨harena, -⟩ := hvalid hv
  obtain ⟨T, hT⟩ := harena.exists_treeAt harena.root_lt harena.root_lt
  exact ⟨T, hT, (internalsBelow_eq hT).symm.trans harena.internals_root⟩

/-- K of a valid tree is at most 255 (R154). -/
theorem TreeInv.internals_lt {s : State} {T : HTree} (h : TreeInv s) (hv : s.treeValid = true)
    (hT : treeOf s = some T) : T.internals < 256 := by
  obtain ⟨T', hT', hK⟩ := h.exists_tree hv
  obtain rfl : T = T' := Option.some.inj (hT.symm.trans hT')
  obtain ⟨harena, -⟩ := h.1 hv
  have hle := harena.1
  rw [harena.length_eq] at hle
  omega

end Sys2Proof.Safety

/-- Settles O21: the internal nodes below the entries, summed over the arena, leave those below the root. -/
theorem validArenaIsAFullBinaryTree : Obligations.ValidArenaIsAFullBinaryTree := by
  intro s h hv
  obtain ⟨T, hT, hK⟩ := h.exists_tree hv
  obtain ⟨harena, -⟩ := h.1 hv
  exact ⟨T, hT, hK, T.symbols_length, hK ▸ harena.length_eq⟩
end

section
/-! No code of the table CODEGEN leaves begins another (R15, R151). -/

namespace Sys2Proof.Safety

open Sys2Proof.Machine

/-! ### Paths -/

/-- The path of one leaf does not begin the path of another. -/
theorem HTree.eq_of_path_isPrefix {T : HTree} {x y : Byte} {p q : Bits} (hx : (x, p) ∈ T.paths [])
    (hy : (y, q) ∈ T.paths []) (h : p <+: q) : x = y := by
  induction T generalizing p q with
  | leaf sym =>
    simp only [HTree.paths, List.mem_singleton, Prod.mk.injEq] at hx hy
    rw [hx.1, hy.1]
  | node l r hl hr =>
    simp only [HTree.paths_node, List.mem_append, List.mem_map, Prod.mk.injEq] at hx hy
    rcases hx with ⟨⟨_, p'⟩, hp, rfl, rfl⟩ | ⟨⟨_, p'⟩, hp, rfl, rfl⟩ <;>
      rcases hy with ⟨⟨_, q'⟩, hq, rfl, rfl⟩ | ⟨⟨_, q'⟩, hq, rfl, rfl⟩ <;>
      rw [List.cons_prefix_cons] at h
    · exact hl hp hq h.2
    · exact absurd h.1 Bool.false_ne_true
    · exact absurd h.1.symm Bool.false_ne_true
    · exact hr hp hq h.2

/-! ### The value of a code -/

/-- V (R11) holds the bits of the string, the first one highest. -/
theorem bitsVal_testBit {p : Bits} {i : Nat} (h : i < p.length) : (bitsVal p).testBit (p.length - 1 - i) = p[i] := by
  induction p using List.reverseRecOn with
  | nil => exact absurd h (Nat.not_lt_zero i)
  | append_singleton p b ih =>
    rw [bitsVal_append_singleton]
    simp only [List.length_append, List.length_singleton, Nat.add_sub_cancel] at h ⊢
    by_cases hi : i < p.length
    · have hhalf : (2 * bitsVal p + b.toNat) / 2 = bitsVal p := by have := b.toNat_lt; omega
      rw [show p.length - i = p.length - 1 - i + 1 by omega, Nat.testBit_succ, hhalf, ih hi,
        List.getElem_append_left hi]
    · obtain rfl : i = p.length := by omega
      rw [Nat.sub_self, Nat.testBit_zero, List.getElem_concat_length rfl]
      cases b <;> simp

/-- A bit of a value is a bit of one of its bytes (R10). -/
theorem getLsbD_eq_of_byte_eq {w : Nat} {v v' : BitVec w} {k : Nat}
    (h : v.extractLsb' (8 * (k / 8)) 8 = v'.extractLsb' (8 * (k / 8)) 8) : v.getLsbD k = v'.getLsbD k := by
  have e := congrArg (fun b => b.getLsbD (k % 8)) h
  simpa [BitVec.getLsbD_extractLsb', Nat.mod_lt, Nat.div_add_mod] using e

/-! ### The table -/

/-- An entry of the table: empty, or the length and the value of a recorded code of its symbol (R151, R153). -/
theorem codeTable_getElem_cases (codes : List (Byte × Bits)) (sym : Byte)
    (h : sym.toNat < (codeTable codes).length) : (codeTable codes)[sym.toNat] = (0, 0) ∨
      ∃ p, (sym, p) ∈ codes ∧
        (codeTable codes)[sym.toNat] = (BitVec.ofNat 8 p.length, BitVec.ofNat 256 (bitsVal p)) := by
  simp only [codeTable, List.getElem_map, List.getElem_range, BitVec.ofNat_toNat, BitVec.setWidth_eq]
  split
  next => exact .inl rfl
  next x p hlast =>
    have hmem := List.mem_of_getLast? hlast
    rw [List.mem_filter, beq_iff_eq] at hmem
    obtain ⟨hmem, rfl⟩ := hmem
    exact .inr ⟨p, hmem, rfl⟩

/-- A code read back from the stored table is a recorded code of its symbol. -/
theorem mem_of_hasCode_setCodeTable {s : State} {codes : List (Byte × Bits)} {x : Byte} {c : Bits}
    (hlen : ∀ e ∈ codes, e.2.length < 256) (h : hasCode (s.setCodeTable (codeTable codes)) x.toNat c) :
    (x, c) ∈ codes := by
  obtain ⟨hne, hlt, hl, val, hval, hbits⟩ := h
  have hc := List.length_pos_iff.2 hne
  obtain ⟨rl, rv⟩ := s.setCodeTable_read (codeTable_length codes) x.isLt
  have elen : _ = BitVec.ofNat 8 c.length := Option.some.inj (rl.symm.trans hl)
  rcases codeTable_getElem_cases codes x (by rw [codeTable_length]; exact x.isLt) with he | ⟨p, hp, he⟩
  · rw [he] at elen
    have hzero : 0 = c.length % 256 := congrArg BitVec.toNat elen
    omega
  · rw [he] at elen
    have hplen : p.length = c.length := by
      have hmod : p.length % 256 = c.length % 256 := congrArg BitVec.toNat elen
      rwa [Nat.mod_eq_of_lt hlt, Nat.mod_eq_of_lt (hlen _ hp)] at hmod
    have hpc : p = c := List.ext_getElem hplen fun i hi hi' => by
      have hbyte : (BitVec.ofNat 256 (bitsVal p)).getLsbD (c.length - 1 - i) = val.getLsbD (c.length - 1 - i) := by
        refine getLsbD_eq_of_byte_eq (Option.some.inj ?_)
        have r := rv ((c.length - 1 - i) / 8) (by omega)
        rw [he, hval _ (by omega)] at r
        exact r.symm
      rw [hbits i hi', ← hbyte, BitVec.getLsbD_ofNat, decide_eq_true (by omega), Bool.true_and, ← hplen,
        bitsVal_testBit hi]
    exact hpc ▸ hp

/-! ### CODEGEN -/

/-- What CODEGEN records (R151, R152): the code "0" of a leaf root, or the paths of the tree. -/
theorem treeCodes_cases {s : State} {T : HTree} (h : treeOf s = some T) :
    (∃ sym, treeCodes s.arena.nodes s.root = .ok [(sym, [false])]) ∨
      treeCodes s.arena.nodes s.root = .ok (T.paths []) := by
  rw [treeCodes]
  split
  next sym _ => exact .inl ⟨sym, rfl⟩
  next => exact .inr (leafPaths_of_treeAt h [])

/-- CODEGEN on a valid tree stores the table of the codes it records. -/
theorem execCodegen_mem {s t : State} {codes : List (Byte × Bits)} (hv : s.treeValid = true)
    (hc : treeCodes s.arena.nodes s.root = .ok codes) (h : execCodegen s = .next t) :
    t.mem = (s.setCodeTable (codeTable codes)).mem := by
  rw [execCodegen, State.checkTree_ok.2 hv, except_ok_bind, hc, except_ok_bind, except_pure_eq_ok, conclude_ok] at h
  cases h
  rfl

theorem hasCode_congr {s t : State} (h : t.mem = s.mem) {sym : Nat} {c : Bits} : hasCode t sym c ↔ hasCode s sym c := by
  rw [hasCode, hasCode, h]

end Sys2Proof.Safety

open Sys2Proof Sys2Proof.Machine Sys2Proof.Safety in
/-- Settles O42: each code in the table is the path of a leaf of its symbol, and no path begins that of another leaf. -/
theorem generatedCodesArePrefixFree : Obligations.GeneratedCodesArePrefixFree := by
  intro s t T hinv hv hT _ h x y cx cy hne hx hy hpre
  rcases treeCodes_cases hT with ⟨sym, hc⟩ | hc
  · rw [hasCode_congr (execCodegen_mem hv hc h)] at hx hy
    have hlen : ∀ e ∈ [(sym, [false])], e.2.length < 256 := by simp
    have ex := mem_of_hasCode_setCodeTable hlen hx
    have ey := mem_of_hasCode_setCodeTable hlen hy
    simp only [List.mem_singleton, Prod.mk.injEq] at ex ey
    exact hne (ex.1.trans ey.1.symm)
  · rw [hasCode_congr (execCodegen_mem hv hc h)] at hx hy
    have hlen : ∀ e ∈ T.paths [], e.2.length < 256 := fun e he =>
      (T.paths_length he).trans_lt (hinv.internals_lt hv hT)
    exact hne (HTree.eq_of_path_isPrefix (mem_of_hasCode_setCodeTable hlen hx) (mem_of_hasCode_setCodeTable hlen hy)
      hpre)
end

section
/-! What a command can commit, said once: the tree, the queue, the cursors and the memory after its completion (R101,
R252 and each command's rule). -/

namespace Sys2Proof.Proofs

open Sys2Proof.Machine Sys2Proof.Safety

/-- What commands own (R34, 10_state.md section 6): the tree, the queue, the two moving cursors and the memories. -/
structure Owned where
  tree : TreeRegs
  queue : PQueue
  srcPtr : Word
  dstPtr : Word
  mem : Memory

def owned (s : State) : Owned := ⟨treeRegs s, s.queue, s.srcPtr, s.dstPtr, s.mem⟩

/-- The queue BUILD leaves (R133, R252): the one it merged from a frequency table, or none. -/
def BuiltQueue (q : PQueue) : Prop := q = .empty ∨ ∃ freqs : List Word, freqs.length ≤ 256 ∧ q = (buildTree freqs).1

/-- What the completion of a command commits, for each command that commits something. What BUILD, DESER, NUMBER and SER
make of the tree is TreeChange's. -/
inductive Commits (s : State) : Instr → Owned → Prop
  | kept {i : Instr} : Commits s i (owned s)
  | clear {tree : TreeRegs} : Commits s .clear { owned s with tree := tree, queue := .empty }
  | freq {i : Instr} {ws : List Word} (hi : i = .freqClr ∨ i = .freqCnt) (hw : ws.length = 256) :
      Commits s i (owned (s.setFreqTable ws))
  | pqClr : Commits s .pqClr { owned s with queue := .empty }
  | pqIns {w : BitVec 64} {tag : BitVec 16} (hw : w.msb = false) (hl : s.queue.entries.length ≠ 256)
      (hs : s.queue.nextSeq ≠ 0xFFFFFFFF#32) : Commits s .pqIns { owned s with queue := s.queue.insert w tag }
  | pqExt {e : PqEntry} {q : PQueue} (h : s.queue.extractMin = some (e, q)) :
      Commits s .pqExt { owned s with queue := q }
  | build {tree : TreeRegs} {q : PQueue} (h : BuiltQueue q) :
      Commits s .build { owned s with tree := tree, queue := q }
  | code {i : Instr} {table : List CodeEntry} (hi : i = .codeClr ∨ i = .codegen) (ht : table.length = 256) :
      Commits s i (owned (s.setCodeTable table))
  | number {tree : TreeRegs} : Commits s .number { owned s with tree := tree }
  | deser {postorder : Bool} {tree : TreeRegs} {p : Word} :
      Commits s (.deser postorder) { owned s with tree := tree, srcPtr := p }
  | ser {tree : TreeRegs} {bytes : List Byte} (hb : bytes.length ≤ s.params.outSize - s.dstPtr.toNat) :
      Commits s .ser { owned (s.appendOut bytes) with tree := tree }
  | out {i : Instr} {p d : Word} {bytes : List Byte} (hi : ∃ sized, i = .pack sized ∨ i = .unpack sized)
      (hb : bytes.length ≤ s.params.outSize - s.dstPtr.toNat) :
      Commits s i { owned (s.appendOut bytes) with srcPtr := p, dstPtr := d }

/-- A completion commits what its rule's result holds, or what its error commit starts from. -/
theorem conclude_commits {s onError t : State} {i : Instr} {r : Except Stop State} (h : conclude onError r = .next t)
    (hok : ∀ u, r = .ok u → Commits s i (owned u)) (herr : Commits s i (owned onError)) : Commits s i (owned t) := by
  rcases conclude_eq_next h with ⟨u, hu, rfl⟩ | ⟨e, info, -, rfl⟩
  · exact hok u hu
  · exact herr

theorem execFreqCnt_commits {s t : State} (h : execFreqCnt s = .next t) : Commits s .freqCnt (owned t) := by
  refine conclude_commits h (fun u hu => ?_) .kept
  obtain ⟨-, -, hu⟩ := except_bind_eq_ok.1 hu
  obtain ⟨bytes, -, hu⟩ := except_bind_eq_ok.1 hu
  cases hu
  exact .freq (.inr rfl) (countSymbols_length bytes)

theorem execPqIns_commits {s t : State} (h : execPqIns s = .next t) : Commits s .pqIns (owned t) := by
  refine conclude_commits h (fun u hu => ?_) .kept
  split at hu
  · cases hu
  · next hw =>
    split at hu
    · cases hu
    · next hl =>
      split at hu
      · cases hu
      · next hs =>
        cases hu
        exact .pqIns (by simpa using hw) hl hs

theorem execPqExt_commits {s t : State} (h : execPqExt s = .next t) : Commits s .pqExt (owned t) := by
  refine conclude_commits h (fun u hu => ?_) .kept
  split at hu
  · cases hu
  · next e q hq => cases hu; exact .pqExt hq

theorem buildFrom_commits {s u : State} {freqs : List Word} (hl : freqs.length ≤ 256) (h : s.buildFrom freqs = .ok u) :
    Commits s .build (owned u) := by
  have hq : BuiltQueue (buildTree freqs).1 := .inr ⟨freqs, hl, rfl⟩
  rw [State.buildFrom] at h
  generalize buildTree freqs = b at h hq
  obtain ⟨⟨_ | ⟨e, rest⟩, nextSeq⟩, a⟩ := b
  · cases h
  · cases h
    exact .build hq

theorem execBuild_commits {s t : State} (h : execBuild s = .next t) : Commits s .build (owned t) := by
  refine conclude_commits h (fun u hu => ?_) (.build (.inl rfl))
  obtain ⟨freqs, hf, hu⟩ := except_bind_eq_ok.1 hu
  exact buildFrom_commits (collect_ok.1 hf).1.le hu

theorem execCodegen_commits {s t : State} (h : execCodegen s = .next t) : Commits s .codegen (owned t) := by
  refine conclude_commits h (fun u hu => ?_) .kept
  obtain ⟨-, -, hu⟩ := except_bind_eq_ok.1 hu
  obtain ⟨codes, -, hu⟩ := except_bind_eq_ok.1 hu
  cases hu
  exact .code (.inr rfl) (codeTable_length codes)

theorem execNumber_commits {s t : State} (h : execNumber s = .next t) : Commits s .number (owned t) := by
  refine conclude_commits h (fun u hu => ?_) .kept
  obtain ⟨-, -, hu⟩ := except_bind_eq_ok.1 hu
  obtain ⟨⟨nodes, n⟩, -, hu⟩ := except_bind_eq_ok.1 hu
  cases hu
  exact .number

theorem execSer_commits {s t : State} (h : execSer s = .next t) : Commits s .ser (owned t) := by
  refine conclude_commits h (fun u hu => ?_) .kept
  obtain ⟨-, -, hu⟩ := except_bind_eq_ok.1 hu
  obtain ⟨⟨nodes, n⟩, -, hu⟩ := except_bind_eq_ok.1 hu
  obtain ⟨bytes, -, hu⟩ := except_bind_eq_ok.1 hu
  obtain ⟨_, hroom, hu⟩ := except_bind_eq_ok.1 hu
  cases hu
  exact .ser (Nat.le_sub_of_add_le' (State.checkDstRoom_ok.1 hroom))

theorem execDeser_commits {s t : State} {postorder : Bool} (h : execDeser postorder s = .next t) :
    Commits s (.deser postorder) (owned t) := by
  refine conclude_commits h (fun u hu => ?_) .deser
  obtain ⟨-, -, hu⟩ := except_bind_eq_ok.1 hu
  obtain ⟨n, -, hu⟩ := except_bind_eq_ok.1 hu
  obtain ⟨⟨a, root⟩, -, hu⟩ := except_bind_eq_ok.1 hu
  cases hu
  exact .deser

/-! ### The bytes PACK and UNPACK emit -/

/-- The bytes emitted so far stand within OUT (R210). -/
def EmitsWithin (s : State) (k : PackState) : Prop := k.emitted.length ≤ s.params.outSize - s.dstPtr.toNat

theorem emitByte_within {s : State} {v : Byte} {k k' : PackState} (h : s.emitByte v k = .ok k') : EmitsWithin s k' := by
  rw [State.emitByte] at h
  split at h
  · cases h
  · cases h
    rw [EmitsWithin, List.length_cons]
    omega

theorem emitAll_within {s : State} {bs : List Byte} {k k' : PackState} (hk : EmitsWithin s k)
    (h : s.emitAll bs k = .ok k') : EmitsWithin s k' := by
  induction bs generalizing k with
  | nil => cases h; exact hk
  | cons b bs ih =>
    obtain ⟨k₁, h₁, h⟩ := except_bind_eq_ok.1 h
    exact ih (emitByte_within h₁) h

theorem drainBits_within {s : State} {c : Bits} {k k' : PackState} (hk : EmitsWithin s k)
    (h : s.drainBits c k = .ok k') : EmitsWithin s k' := by
  induction c, k using State.drainBits.induct with
  | case1 b₀ b₁ b₂ b₃ b₄ b₅ b₆ b₇ rest k ih =>
    obtain ⟨k₁, h₁, h⟩ := except_bind_eq_ok.1 h
    exact ih k₁ (emitByte_within h₁) h
  | case2 c k hc =>
    rw [State.drainBits] at h
    · cases h; exact hk
    · exact hc

theorem packFrom_within {s : State} {a n : Nat} {k k' : PackState} (hk : EmitsWithin s k)
    (h : s.packFrom a n k = .ok k') : EmitsWithin s k' := by
  induction n generalizing a k with
  | zero => cases h; exact hk
  | succ n ih =>
    obtain ⟨sym, -, h⟩ := except_bind_eq_ok.1 h
    obtain ⟨k₁, h₁, h⟩ := except_bind_eq_ok.1 h
    obtain ⟨c, -, h₁⟩ := except_bind_eq_ok.1 h₁
    have hk₁ := drainBits_within (k := ⟨k.buf, k.bits + c.length, k.emitted⟩) hk h₁
    exact ih hk₁ h

theorem padTail_within {s : State} {k k' : PackState} (hk : EmitsWithin s k) (h : s.padTail k = .ok k') :
    EmitsWithin s k' := by
  rw [State.padTail] at h
  split at h
  · cases h; exact hk
  · exact emitByte_within h

theorem packAll_within {s : State} {sized : Bool} {k : PackState} (h : s.packAll sized = .ok k) : EmitsWithin s k := by
  obtain ⟨-, -, h⟩ := except_bind_eq_ok.1 h
  split at h
  · cases h
  · obtain ⟨k₀, h₀, h⟩ := except_bind_eq_ok.1 h
    obtain ⟨k₁, h₁, h⟩ := except_bind_eq_ok.1 h
    exact padTail_within (packFrom_within (emitAll_within (Nat.zero_le _) h₀) h₁) h

/-- UNPACK decodes as many symbols as it was asked for (R225). -/
theorem decodeFrom_length {s : State} {p avail n j k k' : Nat} {syms : List Byte}
    (h : s.decodeFrom p avail n j k = .ok (syms, k')) : syms.length = n := by
  induction n generalizing j k k' syms with
  | zero => cases h; rfl
  | succ n ih =>
    obtain ⟨⟨sym, k₁⟩, -, h⟩ := except_bind_eq_ok.1 h
    obtain ⟨⟨rest, k₂⟩, h₂, h⟩ := except_bind_eq_ok.1 h
    cases h
    exact congrArg (· + 1) (ih h₂)

/-- A failed PACK or UNPACK leaves free bytes in OUT from DST_PTR on (R252). -/
theorem unspecifyOut_commits (s : State) {i : Instr} (hi : ∃ sized, i = .pack sized ∨ i = .unpack sized) :
    Commits s i (owned s.unspecifyOut) :=
  .out hi (freeBytes_length s.draws _).le

theorem execPack_commits {s t : State} {sized : Bool} (h : execPack sized s = .next t) :
    Commits s (.pack sized) (owned t) := by
  refine conclude_commits h (fun u hu => ?_) (unspecifyOut_commits s ⟨sized, .inl rfl⟩)
  obtain ⟨k, hk, hu⟩ := except_bind_eq_ok.1 hu
  cases hu
  exact .out ⟨sized, .inl rfl⟩ (List.length_reverse.trans_le (packAll_within hk))

theorem execUnpack_commits {s t : State} {sized : Bool} (h : execUnpack sized s = .next t) :
    Commits s (.unpack sized) (owned t) := by
  refine conclude_commits h (fun u hu => ?_) (unspecifyOut_commits s ⟨sized, .inr rfl⟩)
  obtain ⟨-, -, hu⟩ := except_bind_eq_ok.1 hu
  obtain ⟨-, -, hu⟩ := except_bind_eq_ok.1 hu
  obtain ⟨⟨count, p⟩, -, hu⟩ := except_bind_eq_ok.1 hu
  obtain ⟨_, hroom, hu⟩ := except_bind_eq_ok.1 hu
  obtain ⟨⟨syms, k⟩, hd, hu⟩ := except_bind_eq_ok.1 hu
  cases hu
  exact .out ⟨sized, .inr rfl⟩
    ((decodeFrom_length hd).trans_le (Nat.le_sub_of_add_le' (State.checkDstRoom_ok.1 hroom)))

theorem exec_commits {i : Instr} {s t : State} (h : exec i s = .next t) : Commits s i (owned t) := by
  cases i with
  | nop => cases h; exact .kept
  | clear => cases h; exact .clear
  | freqClr => cases h; exact .freq (.inl rfl) List.length_replicate
  | freqCnt => exact execFreqCnt_commits h
  | pqClr => cases h; exact .pqClr
  | pqIns => exact execPqIns_commits h
  | pqExt => exact execPqExt_commits h
  | build => exact execBuild_commits h
  | codeClr => cases h; exact .code (.inl rfl) List.length_replicate
  | codegen => exact execCodegen_commits h
  | number => exact execNumber_commits h
  | ser => exact execSer_commits h
  | deser postorder => exact execDeser_commits h
  | pack sized => exact execPack_commits h
  | unpack sized => exact execUnpack_commits h

end Sys2Proof.Proofs
end

section
/-! The queue invariant (R40, R41, R111): each queue operation keeps it, and BUILD's sums do not overflow (R136). -/

namespace Sys2Proof.Machine

theorem PQueue.insert_nextSeq_toNat {q : PQueue} (h : q.nextSeq.toNat + 1 < 2 ^ 32) (w : BitVec 64) (tag : BitVec 16) :
    (q.insert w tag).nextSeq.toNat = q.nextSeq.toNat + 1 := by
  rw [PQueue.insert_nextSeq, BitVec.toNat_add]
  exact Nat.mod_eq_of_lt h

end Sys2Proof.Machine

namespace Sys2Proof.Safety

open Sys2Proof.Machine

theorem QueueInv.empty : QueueInv .empty := ⟨Nat.zero_le _, nofun, .nil⟩

/-- pq_insert (R114) below the capacity, of a non-negative weight, before PQ_SEQ wraps around. -/
theorem QueueInv.insert {q : PQueue} (h : QueueInv q) {w : BitVec 64} (hw : w.msb = false)
    (hl : q.entries.length < 256) (hs : q.nextSeq.toNat + 1 < 2 ^ 32) (tag : BitVec 16) :
    QueueInv (q.insert w tag) := by
  obtain ⟨-, hentries, hrise⟩ := h
  rw [QueueInv, PQueue.insert_entries, PQueue.insert_nextSeq_toNat hs, List.length_append, List.length_singleton]
  refine ⟨hl, fun e he => ?_, List.pairwise_append.2 ⟨hrise, List.pairwise_singleton _ _, fun a ha b hb => ?_⟩⟩
  · rcases List.mem_append.1 he with he | he
    · exact ⟨(hentries e he).1, Nat.lt_succ_of_lt (hentries e he).2⟩
    · obtain rfl := List.mem_singleton.1 he
      exact ⟨hw, Nat.lt_succ_self _⟩
  · obtain rfl := List.mem_singleton.1 hb
    exact (hentries a ha).2

/-- pq_extract_min (R114) leaves entries of the queue in their order. -/
theorem QueueInv.extractMin {q q' : PQueue} {e : PqEntry} (h : QueueInv q) (he : q.extractMin = some (e, q')) :
    QueueInv q' := by
  obtain ⟨hl, hentries, hrise⟩ := h
  obtain ⟨-, -, rfl⟩ := PQueue.extractMin_eq_some he
  exact ⟨List.length_erase_le.trans hl, fun x hx => hentries x (List.mem_of_mem_erase hx),
    hrise.sublist List.erase_sublist⟩

end Sys2Proof.Safety

namespace Sys2Proof.Proofs

open Sys2Proof.Machine Sys2Proof.Safety

/-! ### The weights of BUILD's queue (R136) -/

/-- The weights in the queue, added up. -/
def totalWeight (q : PQueue) : Nat := (q.entries.map (·.w.toNat)).sum

theorem totalWeight_insert (q : PQueue) (w : BitVec 64) (tag : BitVec 16) :
    totalWeight (q.insert w tag) = totalWeight q + w.toNat := by simp [totalWeight]

theorem totalWeight_extractMin {q q' : PQueue} {e : PqEntry} (h : q.extractMin = some (e, q')) :
    totalWeight q = e.w.toNat + totalWeight q' := by
  rw [totalWeight, ((PQueue.extractMin_perm h).map _).sum_eq, List.map_cons, List.sum_cons, totalWeight]

theorem msb_of_toNat_lt {w : BitVec 64} (h : w.toNat < 2 ^ 63) : w.msb = false := by
  rw [BitVec.msb_eq_false_iff_two_mul_lt]
  omega

/-- BUILD's queue (R133, R136): `left` more insertions keep PQ_SEQ below 512, and the weights sum to less than 2^63. -/
structure BuildQueue (q : PQueue) (left : Nat) : Prop where
  inv : QueueInv q
  seq : q.nextSeq.toNat + left ≤ 512
  weight : totalWeight q < 2 ^ 63

theorem BuildQueue.insert {q : PQueue} {left : Nat} {w : BitVec 64} (h : BuildQueue q (left + 1))
    (hl : q.entries.length < 256) (hw : totalWeight q + w.toNat < 2 ^ 63) (tag : BitVec 16) :
    BuildQueue (q.insert w tag) left := by
  have hseq := h.seq
  refine ⟨h.inv.insert (msb_of_toNat_lt (by omega)) hl (by omega) tag, ?_, totalWeight_insert q w tag ▸ hw⟩
  rw [PQueue.insert_nextSeq_toNat (by omega)]
  omega

/-- A merge keeps the sum of the weights (R136). -/
theorem BuildQueue.merge {q q₁ q₂ : PQueue} {e₁ e₂ : PqEntry} {left : Nat} (h : BuildQueue q (left + 1))
    (h₁ : q.extractMin = some (e₁, q₁)) (h₂ : q₁.extractMin = some (e₂, q₂)) (tag : BitVec 16) :
    BuildQueue (q₂.insert (e₁.w + e₂.w) tag) left := by
  obtain ⟨hinv, hseq, hweight⟩ := h
  have hinv₂ := (hinv.extractMin h₁).extractMin h₂
  have hlen := PQueue.extractMin_length h₁
  have hlen₂ := PQueue.extractMin_length h₂
  have hcap := hinv.1
  rw [totalWeight_extractMin h₁, totalWeight_extractMin h₂] at hweight
  have hsum : (e₁.w + e₂.w).toNat = e₁.w.toNat + e₂.w.toNat := by
    rw [BitVec.toNat_add]
    exact Nat.mod_eq_of_lt (by omega)
  have hnext : q₂.nextSeq = q.nextSeq := by
    obtain ⟨-, -, rfl⟩ := PQueue.extractMin_eq_some h₁
    obtain ⟨-, -, rfl⟩ := PQueue.extractMin_eq_some h₂
    rfl
  exact BuildQueue.insert ⟨hinv₂, hnext ▸ hseq, by omega⟩ (by omega) (by omega) tag

theorem mergeAll_buildQueue {fuel : Nat} {q : PQueue} {a : Arena} (h : BuildQueue q fuel) :
    QueueInv (mergeAll fuel (q, a)).1 := by
  induction fuel generalizing q a with
  | zero => exact h.inv
  | succ fuel ih =>
    rw [mergeAll]
    split
    next => exact h.inv
    next e₁ q₁ h₁ =>
      split
      next => exact h.inv
      next e₂ q₂ h₂ => exact ih (h.merge h₁ h₂ _)

/-- Seeding fills the queue with at most one entry for each word of the table, each weight below 2^32. -/
theorem seedLeaves_buildQueue {fs : List Word} {sym left : Nat} {q : PQueue} {a : Arena}
    (h : BuildQueue q (left + fs.length)) (hl : q.entries.length + fs.length ≤ 256)
    (hw : totalWeight q + 2 ^ 32 * fs.length < 2 ^ 63) :
    BuildQueue (seedLeaves sym fs (q, a)).1 left := by
  induction fs generalizing sym q a with
  | nil => exact h
  | cons f fs ih =>
    rw [List.length_cons] at h hl hw
    rw [seedLeaves]
    split
    · exact ih ⟨h.inv, by have := h.seq; omega, h.weight⟩ (by omega) (by omega)
    · have hf : (f.setWidth 64).toNat = f.toNat := BitVec.toNat_setWidth_of_le (by decide)
      have hlt := f.isLt
      refine ih (BuildQueue.insert h (by omega) (by omega) _) ?_ ?_
      · rw [PQueue.insert_entries, List.length_append, List.length_singleton]
        omega
      · rw [totalWeight_insert, hf]
        omega

theorem BuiltQueue.queueInv {q : PQueue} (h : BuiltQueue q) : QueueInv q := by
  rcases h with rfl | ⟨freqs, hl, rfl⟩
  · exact .empty
  · have hzero : BuildQueue .empty (256 + freqs.length) :=
      ⟨.empty, by rw [show PQueue.empty.nextSeq.toNat = 0 from rfl]; omega, by decide⟩
    have hseed := seedLeaves_buildQueue (sym := 0) (a := .empty) hzero
      (by simp only [PQueue.empty, List.length_nil]; omega)
      (by simp only [totalWeight, PQueue.empty, List.map_nil, List.sum_nil]; omega)
    exact mergeAll_buildQueue ⟨hseed.inv, by have := hseed.seq; have := hseed.inv.1; omega, hseed.weight⟩

end Sys2Proof.Proofs
end

section
/-! What a bus access leaves of the queue, and every step keeps the queue invariant (R40). -/

namespace Sys2Proof.Proofs

open Sys2Proof.Machine Sys2Proof.Safety

/-! ### The bus -/

theorem offer_queue (s : State) (c : Word) : (s.offer c).queue = s.queue := by
  by_cases h : s.busy = false ∧ s.errCode = 0
  · rw [State.offer_accept h, State.accept_queue]
  · rw [State.offer_drop h, State.drop_queue]

theorem writeReg_queue (s : State) (v : Word) (r : RegName) : (s.writeReg v r).queue = s.queue := by
  cases r with
  | cmd => exact offer_queue s v
  | errCode => rw [State.writeReg]; split <;> rfl
  | _ => rfl

theorem writeTarget_queue (s : State) (v : Word) (target : BusTarget) : (s.writeTarget v target).queue = s.queue := by
  cases target with
  | reg r => exact writeReg_queue s v r
  | _ => rfl

theorem writeBusy_queue (s : State) (v : Word) (target : BusTarget) : (s.writeBusy v target).queue = s.queue := by
  cases target with
  | reg r =>
    cases r with
    | cmd => exact offer_queue s v
    | _ => rfl
  | _ => rfl

theorem busWrite_queue {s t : State} {width : AccessWidth} {a : Addr} {v : Word}
    (h : s.busWrite width a v = .next t) : t.queue = s.queue := by
  obtain ⟨-, -, rfl⟩ := busWrite_cases h
  cases hb : s.busy
  · exact writeTarget_queue s v _
  · exact writeBusy_queue s v _

/-- A read changes only the reply and the counter of free values (R65). -/
def OnlyReplies (s t : State) : Prop := ∃ (w : Word) (d : Nat), t = { s with reply := .data w, draws := d }

theorem OnlyReplies.replyData (s : State) (w : Word) : OnlyReplies s (s.replyData w) := ⟨w, s.draws, rfl⟩

theorem OnlyReplies.replyFree (s : State) : OnlyReplies s s.replyFree := ⟨Config.freeWord s.draws, s.draws + 1, rfl⟩

theorem readTarget_onlyReplies {s t : State} {a : Addr} {target : BusTarget} (h : s.readTarget a target = .next t) :
    OnlyReplies s t := by
  cases target with
  | reg r => cases h; exact .replyData s _
  | regReserved => cases h; exact .replyData s _
  | ram n =>
    simp only [State.readTarget, State.readRam] at h
    split at h
    · cases h
    · cases h; exact ⟨_, _, rfl⟩
  | codeLen n =>
    simp only [State.readTarget] at h
    split at h
    · cases h; exact .replyData s _
    · cases h
  | node r second =>
    simp only [State.readTarget] at h
    split at h
    · cases h; exact .replyData s _
    · cases h; exact .replyFree s
  | windowReserved => cases h; exact .replyData s _
  | unmapped => cases h

theorem readBusy_onlyReplies {s t : State} {a : Addr} {target : BusTarget} (h : s.readBusy a target = .next t) :
    OnlyReplies s t := by
  cases target with
  | reg r =>
    cases h
    split
    · exact .replyData s _
    · exact .replyFree s
  | regReserved => cases h; exact .replyData s _
  | unmapped => cases h
  | _ => cases h; exact .replyFree s

theorem busRead_onlyReplies {s t : State} {width : AccessWidth} {a : Addr} (h : s.busRead width a = .next t) :
    OnlyReplies s t := by
  rw [State.busRead] at h
  split at h
  · split at h
    · exact readBusy_onlyReplies h
    · exact readTarget_onlyReplies h
  · cases h

theorem busRead_queue {s t : State} {width : AccessWidth} {a : Addr} (h : s.busRead width a = .next t) :
    t.queue = s.queue := by
  obtain ⟨w, d, rfl⟩ := busRead_onlyReplies h
  rfl

/-! ### Steps -/

theorem Commits.queueInv {s : State} {i : Instr} {o : Owned} (h : Commits s i o) (hs : QueueInv s.queue) :
    QueueInv o.queue := by
  cases h with
  | clear => exact .empty
  | pqClr => exact .empty
  | pqIns hw hl hn =>
    have hcap := hs.1
    have hmax : s.queue.nextSeq.toNat ≠ 0xFFFFFFFF := fun he => hn (BitVec.eq_of_toNat_eq he)
    have hlt := s.queue.nextSeq.isLt
    exact hs.insert hw (by omega) (by omega) _
  | pqExt he => exact hs.extractMin he
  | build hq => exact hq.queueInv
  | _ => exact hs

theorem engineStep_queueInv {s t : State} (h : engineStep s = .next t) (hs : QueueInv s.queue) : QueueInv t.queue := by
  rcases engineStep_cases h with ⟨i, -, h⟩ | ⟨-, rfl⟩
  · exact (exec_commits h).queueInv hs
  · exact hs

end Sys2Proof.Proofs

open Sys2Proof Sys2Proof.Machine Sys2Proof.Safety Sys2Proof.Proofs in
/-- Settles O17: a completion commits one of the queues of Commits, each of which meets the invariant, and no other step
but reset changes the queue. -/
theorem stepKeepsQueueInvariant : Obligations.StepKeepsQueueInvariant := by
  intro s t hs h
  obtain ⟨rest, h⟩ := step_cases h
  rcases h with ⟨-, h⟩ | ⟨-, rfl⟩ | ⟨width, a, h⟩ | ⟨width, a, v, h⟩ | rfl | ⟨-, rfl⟩ | ⟨-, rfl⟩ | ⟨-, rfl⟩
  · exact engineStep_queueInv h hs
  · exact hs
  · exact busRead_queue h ▸ hs
  · exact busWrite_queue h ▸ hs
  · exact .empty
  · exact hs
  · exact hs
  · exact hs
end

section
/-! What each command leaves alone (R34, R290, R294, R295), from what it can commit. -/

namespace Sys2Proof.Proofs

open Sys2Proof.Machine Sys2Proof.Safety

theorem Commits.tree_eq {s : State} {i : Instr} {o : Owned} (h : Commits s i o) :
    o.tree = treeRegs s ∨ i ∈ [.build, .number, .ser, .clear] ∨ ∃ f, i = .deser f := by
  cases h with
  | clear | build _ | number | ser _ => exact .inr (.inl (by simp))
  | deser => exact .inr (.inr ⟨_, rfl⟩)
  | _ => exact .inl rfl

theorem Commits.queue_eq {s : State} {i : Instr} {o : Owned} (h : Commits s i o) :
    o.queue = s.queue ∨ i ∈ [.pqClr, .pqIns, .pqExt, .build, .clear] := by
  cases h with
  | clear | pqClr | pqIns _ _ _ | pqExt _ | build _ => exact .inr (by simp)
  | _ => exact .inl rfl

theorem Commits.srcPtr_eq {s : State} {i : Instr} {o : Owned} (h : Commits s i o) :
    o.srcPtr = s.srcPtr ∨ ∃ f, i = .deser f ∨ i = .pack f ∨ i = .unpack f := by
  cases h with
  | deser => exact .inr ⟨_, .inl rfl⟩
  | out hi _ => exact .inr (hi.imp fun _ => .inr)
  | _ => exact .inl rfl

theorem Commits.dstPtr_eq {s : State} {i : Instr} {o : Owned} (h : Commits s i o) :
    o.dstPtr = s.dstPtr ∨ i = .ser ∨ ∃ f, i = .pack f ∨ i = .unpack f := by
  cases h with
  | ser _ => exact .inr (.inl rfl)
  | out hi _ => exact .inr (.inr hi)
  | _ => exact .inl rfl

/-! ### Where a store shows -/

/-- FREQ stores show in FREQ alone (R294). -/
theorem setFreqTable_changes {s : State} {ws : List Word} (hw : ws.length = 256) {a : Nat}
    (h : (s.setFreqTable ws).mem.read a ≠ s.mem.read a) : isFreqAddr a := by
  by_contra ha
  exact h (s.setFreqTable_read_outside hw (by unfold isFreqAddr at ha; omega))

/-- Bytes appended within OUT show in OUT from DST_PTR on alone (R295). -/
theorem appendOut_changes {s : State} {bytes : List Byte} (hb : bytes.length ≤ s.params.outSize - s.dstPtr.toNat)
    {a : Nat} (h : (s.appendOut bytes).mem.read a ≠ s.mem.read a) :
    outAddr s.dstPtr.toNat ≤ a ∧ a < outAddr s.params.outSize := by
  by_contra ha
  refine h (Memory.read_writeBytes_outside _ _ _ ?_)
  simp only [outAddr] at *
  omega

/-- Every cell of the code table is at a byte of an entry (R45). -/
theorem codeCells_isCodeAddr {table : List CodeEntry} (ht : table.length = 256) {c : Host.Cell}
    (h : c ∈ codeCells 0 table) : isCodeAddr c.1 := by
  unfold isCodeAddr
  obtain ⟨i, hi, h | ⟨j, hj, h⟩⟩ := codeCells_key h
  · simp only [codeLenAddr] at h
    omega
  · simp only [codeValAddr] at h
    omega

/-- Where nothing is mapped, nothing has been written (R60). -/
theorem read_eq_none_of_mapped {s : State} (h : MappedInv s) {a : Nat} (hlo : 0x4000 ≤ a) (hhi : a < 0x8000)
    (ha : ¬ isCodeAddr a) : s.mem.read a = none := by
  refine Memory.read_eq_none _ _ fun c hc he => ?_
  subst he
  rcases h c hc with hf | hcode | hin | hout
  · unfold isFreqAddr at hf; omega
  · exact ha hcode
  · unfold isInAddr at hin; omega
  · unfold isOutAddr at hout; omega

/-- CODE stores show in CODE alone (R294): the gaps between its bytes hold nothing before and after. -/
theorem setCodeTable_changes {s : State} (hs : MappedInv s) {table : List CodeEntry} (ht : table.length = 256) {a : Nat}
    (h : (s.setCodeTable table).mem.read a ≠ s.mem.read a) : isCodeAddr a := by
  by_contra ha
  have range : ∀ c ∈ codeCells 0 table, codeLenAddr 0 ≤ c.1 ∧ c.1 < codeLenAddr 256 := fun c hc =>
    ht ▸ Nat.zero_add table.length ▸ codeCells_range hc
  rw [State.setCodeTable_mem, Memory.read_splice _ (by decide) range] at h
  split at h
  next hr =>
    have gap : Memory.read (codeCells 0 table) a = none :=
      Memory.read_eq_none _ _ fun c hc he => ha (he ▸ codeCells_isCodeAddr ht hc)
    exact h (gap.trans (read_eq_none_of_mapped hs hr.1 hr.2 ha).symm)
  next => exact h rfl

theorem Commits.mem_changes {s : State} {i : Instr} {o : Owned} (h : Commits s i o) (hs : MappedInv s) {a : Nat}
    (ha : o.mem.read a ≠ s.mem.read a) :
    ((i = .freqClr ∨ i = .freqCnt) ∧ isFreqAddr a) ∨ ((i = .codeClr ∨ i = .codegen) ∧ isCodeAddr a) ∨
      ((i = .ser ∨ ∃ f, i = .pack f ∨ i = .unpack f) ∧ outAddr s.dstPtr.toNat ≤ a ∧ a < outAddr s.params.outSize) := by
  cases h with
  | freq hi hw => exact .inl ⟨hi, setFreqTable_changes hw ha⟩
  | code hi ht => exact .inr (.inl ⟨hi, setCodeTable_changes hs ht ha⟩)
  | ser hb => exact .inr (.inr ⟨.inl rfl, appendOut_changes hb ha⟩)
  | out hi hb => exact .inr (.inr ⟨.inr hi, appendOut_changes hb ha⟩)
  | _ => exact absurd rfl ha

end Sys2Proof.Proofs

open Sys2Proof Sys2Proof.Machine Sys2Proof.Safety Sys2Proof.Proofs in
/-- Settles O58: each part read off what the command can commit. -/
theorem commandsChangeOnlyWhatTheirRuleNames : Obligations.CommandsChangeOnlyWhatTheirRuleNames := by
  intro i s t h
  have hc := exec_commits h
  refine ⟨hc.tree_eq.imp_left fun htree => ?_, hc.queue_eq, hc.srcPtr_eq, hc.dstPtr_eq, fun hs a => hc.mem_changes hs⟩
  obtain ⟨hvalid, hleaf, hnumbered, hroot, harena⟩ := TreeRegs.mk.inj htree
  exact ⟨harena, hroot, hvalid, hleaf, hnumbered⟩
end

section
/-! Reset (R50), and the registers over the bus while BUSY = 0 (R20 to R32). -/

namespace Sys2Proof.Proofs

open Sys2Proof.Machine Sys2Proof.Safety

theorem resetWith_treeInv (p : Params) : TreeInv (State.resetWith p) :=
  ⟨nofun, fun _ => ⟨rfl, rfl, rfl, rfl⟩, fun _ => nofun⟩

theorem resetWith_latchInv (p : Params) : LatchInv (State.resetWith p) :=
  ⟨nofun, List.mem_cons_self, fun _ => rfl⟩

/-- The registers a host write leaves alone (R20 to R32). -/
theorem writeReg_readOnly (s : State) (v : Word) {r : RegName}
    (h : r ∈ [RegName.id, .version, .inSizeR, .outSizeR, .errInfo, .res0, .res1, .res2, .res3, .root, .nodeCount,
      .internalCount, .pqCount, .pqSeq]) : s.writeReg v r = s := by
  cases r with
  | cmd | status | errCode | irqEn | srcPtr | srcEnd | dstPtr | arg0 | arg1 | arg2 => simp at h
  | _ => rfl

/-- A register read of a quiescent block, at a literal address and with the value as a number. -/
theorem busRead_reg_eq {s : State} (h : s.busy = false) (r : RegName) {a : Addr} {w : Word}
    (ha : BitVec.ofNat 22 r.offset = a) (hw : s.readReg r = w) :
    s.busRead .word a = .next { s with reply := .data w } := by
  rw [← ha, ← hw]
  exact busRead_reg h r

end Sys2Proof.Proofs

open Sys2Proof Sys2Proof.Machine Sys2Proof.Safety Sys2Proof.Proofs

/-- Settles O12: register by register. -/
theorem resetLeavesTheValuesOfR50 : Obligations.ResetLeavesTheValuesOfR50 := fun p =>
  ⟨fun r => by cases r <;> rfl, rfl, rfl, fun _ => rfl, rfl⟩

/-- Settles O14: after reset nothing is queued, stored or latched, and there is no tree. -/
theorem invariantsHoldAfterReset : Obligations.InvariantsHoldAfterReset := fun p =>
  ⟨.nil, nofun, .empty, resetWith_treeInv p, nofun, resetWith_latchInv p⟩

/-- Settles O9: the host's step is the register access. -/
theorem writeOfZeroClearsTheError : Obligations.WriteOfZeroClearsTheError := by
  intro s v rest hb
  refine ⟨fun h => ?_, fun h => ?_⟩
  · have hw := busWrite_reg (s := { s with host := rest }) hb .errCode v
    rw [step_cons h]
    refine hw.trans ?_
    rw [State.writeReg]
    split <;> rfl
  · rw [step_cons h]
    exact busRead_reg_eq (s := { s with host := rest }) hb .errCode rfl (BitVec.ofNat_toNat 32 s.errCode).symm

/-- Settles O25: each access is that of the register at its offset. -/
theorem registersStoreOrIgnoreWrites : Obligations.RegistersStoreOrIgnoreWrites := by
  intro s v hb
  have rd (r : RegName) {a : Addr} (ha : BitVec.ofNat 22 r.offset = a) := busRead_reg_eq hb r ha rfl
  have wr (r : RegName) := busWrite_reg hb r v
  refine ⟨⟨⟨rd .id rfl, rd .version rfl, rd .inSizeR rfl, rd .outSizeR rfl⟩,
    ⟨rd .cmd rfl, rd .status rfl, busRead_reg_eq hb .errCode rfl (BitVec.ofNat_toNat _ _).symm, rd .errInfo rfl,
      busRead_reg_eq hb .irqEn rfl (BitVec.ofNat_toNat _ _).symm⟩,
    ⟨rd .srcPtr rfl, rd .srcEnd rfl, rd .dstPtr rfl⟩, ⟨rd .arg0 rfl, rd .arg1 rfl, rd .arg2 rfl⟩,
    ⟨rd .res0 rfl, rd .res1 rfl, rd .res2 rfl, rd .res3 rfl⟩,
    busRead_reg_eq hb .root rfl (BitVec.ofNat_toNat _ _).symm, rd .nodeCount rfl,
    busRead_reg_eq hb .internalCount rfl (BitVec.ofNat_toNat _ _).symm, rd .pqCount rfl, rd .pqSeq rfl⟩,
    wr .status, wr .irqEn, wr .srcPtr, wr .srcEnd, wr .dstPtr, wr .arg0, wr .arg1, wr .arg2, fun r hr => ?_⟩
  rw [wr r, writeReg_readOnly s v hr]
end

section
/-! The CODE entry's word 0 and reserved words (R45), and the NODE window (R43), over the bus while BUSY = 0. -/

namespace Sys2Proof.Proofs

open Sys2Proof.Machine Sys2Proof.Safety

/-! ### The map (R60) at an aligned address -/

theorem toNat_addr {n : Nat} (hn : n < 0x8000) : (BitVec.ofNat 22 n).toNat = n := by
  rw [BitVec.toNat_ofNat]
  exact Nat.mod_eq_of_lt (by omega)

theorem accessOk_word {n : Nat} (hn : n < 0x8000) (h4 : n % 4 = 0) : accessOk .word (BitVec.ofNat 22 n) = true := by
  simp [accessOk, toNat_addr hn, h4]

/-- Word k of CODE[sym] (R45): the length, a word of the value, or reserved. -/
theorem busTarget_code (p : Params) {sym k : Nat} (hs : sym < 256) (hk : k < 16) :
    busTarget p (BitVec.ofNat 22 (0x4000 + 64 * sym + 4 * k)) =
      if k = 0 then .codeLen (0x4000 + 64 * sym + 4 * k)
      else if k ≤ 8 then .ram (0x4000 + 64 * sym + 4 * k) else .windowReserved := by
  have hword : (0x4000 + 64 * sym + 4 * k) % 64 / 4 = k := by omega
  rw [busTarget, toNat_addr (by omega), hword]
  rw [if_neg (by omega), if_neg (by omega), if_neg (by omega), if_neg (by omega), if_pos (by omega)]

/-- Word 0 or word 1 of NODE[r] (R43). -/
theorem busTarget_node (p : Params) {r : Nat} (hr : r < 511) (second : Bool) :
    busTarget p (BitVec.ofNat 22 (0x2000 + 4 * second.toNat + 8 * r)) = .node r second := by
  have hlt := second.toNat_lt
  have hindex : (0x2000 + 4 * second.toNat + 8 * r - 0x2000) / 8 = r := by omega
  have hword : ((0x2000 + 4 * second.toNat + 8 * r) % 8 == 4) = second := by cases second <;> simp
  rw [busTarget, toNat_addr (by omega), hindex, hword]
  rw [if_neg (by omega), if_neg (by omega), if_pos (by omega)]

/-! ### Accesses of a quiescent block -/

theorem busWrite_quiet {s : State} (hb : s.busy = false) {n : Nat} {target : BusTarget} (hn : n < 0x8000)
    (h4 : n % 4 = 0) (ht : busTarget s.params (BitVec.ofNat 22 n) = target) (hm : target ≠ .unmapped) (v : Word) :
    s.busWrite .word (BitVec.ofNat 22 n) v = .next { s.writeTarget v target with reply := .written } := by
  rw [State.busWrite, ht, if_pos ⟨accessOk_word hn h4, hm⟩, hb]
  rfl

theorem busRead_quiet {s : State} (hb : s.busy = false) {n : Nat} {target : BusTarget} (hn : n < 0x8000)
    (h4 : n % 4 = 0) (ht : busTarget s.params (BitVec.ofNat 22 n) = target) :
    s.busRead .word (BitVec.ofNat 22 n) = s.readTarget (BitVec.ofNat 22 n) target := by
  rw [State.busRead, ht, if_pos (accessOk_word hn h4), hb]
  rfl

theorem read_writeBytes_singleton (m : Memory) (a : Nat) (b : Byte) : (m.writeBytes a [b]).read a = some b :=
  m.read_writeBytes_inside a [b] (i := 0) (Nat.succ_pos 0)

theorem readTarget_codeLen {s : State} {n : Nat} {len : Byte} (a : Addr) (h : s.mem.read n = some len) :
    s.readTarget a (.codeLen n) = .next (s.replyData (len.setWidth 32)) := by rw [State.readTarget, h]

theorem busTarget_codeLen (p : Params) {sym : Nat} (hs : sym < 256) :
    busTarget p (BitVec.ofNat 22 (0x4000 + 64 * sym)) = .codeLen (0x4000 + 64 * sym) :=
  busTarget_code p (k := 0) hs (by decide)

theorem busTarget_codeReserved (p : Params) {sym k : Nat} (hs : sym < 256) (hk : 9 ≤ k ∧ k ≤ 15) :
    busTarget p (BitVec.ofNat 22 (0x4000 + 64 * sym + 4 * k)) = .windowReserved := by
  rw [busTarget_code p hs (by omega), if_neg (by omega), if_neg (by omega)]

theorem busRead_codeLen {s : State} (hb : s.busy = false) {sym : Nat} (hs : sym < 256) {len : Byte}
    (h : s.mem.read (0x4000 + 64 * sym) = some len) : s.busRead .word (BitVec.ofNat 22 (0x4000 + 64 * sym)) =
      .next { s with reply := .data (BitVec.ofNat 32 len.toNat) } := by
  rw [busRead_quiet hb (by omega) (by omega) (busTarget_codeLen _ hs), readTarget_codeLen _ h, BitVec.ofNat_toNat]
  rfl

theorem busWrite_codeLen {s : State} (hb : s.busy = false) {sym : Nat} (hs : sym < 256) (v : Word) :
    s.busWrite .word (BitVec.ofNat 22 (0x4000 + 64 * sym)) v =
      .next { s with mem := s.mem.writeBytes (0x4000 + 64 * sym) [v.extractLsb' 0 8], reply := .written } :=
  busWrite_quiet hb (by omega) (by omega) (busTarget_codeLen _ hs) (by simp) v

theorem readTarget_node {s : State} {r : Nat} (a : Addr) (h : r < s.arena.nodes.length) (second : Bool) :
    s.readTarget a (.node r second) = .next (s.replyData (s.arena.nodes[r].word second)) := by
  rw [State.readTarget, List.getElem?_eq_getElem h]

theorem busRead_node {s : State} (hb : s.busy = false) {r : Nat} (h : r < s.arena.nodes.length) (hr : r < 511)
    (second : Bool) : s.busRead .word (BitVec.ofNat 22 (0x2000 + 4 * second.toNat + 8 * r)) =
      .next { s with reply := .data (s.arena.nodes[r].word second) } := by
  have hlt := second.toNat_lt
  rw [busRead_quiet hb (by omega) (by omega) (busTarget_node _ hr second)]
  exact readTarget_node _ h second

theorem busWrite_node {s : State} (hb : s.busy = false) {r : Nat} (hr : r < 511) (second : Bool) (v : Word) :
    s.busWrite .word (BitVec.ofNat 22 (0x2000 + 4 * second.toNat + 8 * r)) v = .next { s with reply := .written } := by
  have hlt := second.toNat_lt
  exact busWrite_quiet hb (by omega) (by omega) (busTarget_node _ hr second) (by simp) v

/-! ### The words of a node (R43) -/

theorem word_leaf_toNat (sym : Byte) : ((Node.leaf sym).word false).toNat = 256 * sym.toNat := by
  have hlt := sym.isLt
  exact Nat.mod_eq_of_lt (by omega)

theorem word_internal_toNat (l r : Ref) (num : Byte) :
    ((Node.internal l r num).word false).toNat = 1 + 65536 * num.toNat := by
  have hlt := num.isLt
  exact Nat.mod_eq_of_lt (by omega)

theorem word_children_toNat (l r : Ref) (num : Byte) :
    ((Node.internal l r num).word true).toNat = l.toNat + 65536 * r.toNat := by
  have hl := l.isLt
  have hr := r.isLt
  exact Nat.mod_eq_of_lt (by omega)

end Sys2Proof.Proofs

open Sys2Proof Sys2Proof.Machine Sys2Proof.Safety Sys2Proof.Proofs

/-- Settles O23: word 0 is the length byte of the entry, and words 9 to 15 are reserved. -/
theorem codeLengthWordStoresOneByte : Obligations.CodeLengthWordStoresOneByte := by
  intro s sym k v hb hs
  refine ⟨⟨_, busWrite_codeLen hb hs v, rfl, ?_, fun a ha => ?_, ?_⟩, fun hk => ⟨?_, ?_⟩⟩
  · exact read_writeBytes_singleton ..
  · exact Memory.read_writeBytes_outside _ _ _ (by rw [List.length_singleton]; omega)
  · have hbyte : (v.extractLsb' 0 8).toNat = v.toNat % 256 := BitVec.extractLsb'_toNat ..
    rw [← hbyte]
    exact ⟨_, busRead_codeLen (by exact hb) hs (read_writeBytes_singleton ..), rfl⟩
  · exact busWrite_quiet hb (by omega) (by omega) (busTarget_codeReserved _ hs hk) (by simp) v
  · exact busRead_quiet hb (by omega) (by omega) (busTarget_codeReserved _ hs hk)

/-- Settles O24: the two words of the entry, for each kind of node. -/
theorem nodeWindowShowsTheFields : Obligations.NodeWindowShowsTheFields := by
  intro s r v hb h hr
  refine ⟨⟨_, _, busRead_node hb h hr false, busRead_node hb h hr true, ?_⟩, busWrite_node hb hr false v,
    busWrite_node hb hr true v⟩
  cases s.arena.nodes[r] with
  | leaf sym => exact ⟨word_leaf_toNat sym, rfl⟩
  | internal l rt num => exact ⟨word_internal_toNat l rt num, word_children_toNat l rt num⟩
end

section
/-! Numbering a valid tree (R165) gives each internal node one of the numbers 0 to K-1 (R166). -/

namespace Sys2Proof.Proofs

open Sys2Proof.Machine Sys2Proof.Safety

/-! ### The internal nodes in postorder -/

/-- The references of the internal nodes below r, in the order post(r) (R165) meets them. -/
def internalRefs (nodes : List Node) : Nat → Ref → List Nat
  | 0, _ => []
  | fuel + 1, r =>
    match nodes[r.toNat]? with
    | some (.internal l rt _) => internalRefs nodes fuel l ++ internalRefs nodes fuel rt ++ [r.toNat]
    | _ => []

theorem internalRefs_leaf {nodes : List Node} {r : Ref} {sym : Byte} (h : nodes[r.toNat]? = some (.leaf sym))
    (fuel : Nat) : internalRefs nodes (fuel + 1) r = [] := by rw [internalRefs, h]

theorem internalRefs_internal {nodes : List Node} {r l rt : Ref} {num : Byte}
    (h : nodes[r.toNat]? = some (.internal l rt num)) (fuel : Nat) : internalRefs nodes (fuel + 1) r =
      internalRefs nodes fuel l ++ internalRefs nodes fuel rt ++ [r.toNat] := by rw [internalRefs, h]

/-- The order does not depend on the numbers. -/
theorem internalRefs_clearNum (nodes : List Node) (fuel : Nat) (r : Ref) :
    internalRefs (nodes.map Node.clearNum) fuel r = internalRefs nodes fuel r := by
  induction fuel generalizing r with
  | zero => rfl
  | succ fuel ih =>
    rw [internalRefs, internalRefs, List.getElem?_map]
    rcases nodes[r.toNat]? with _ | (sym | ⟨l, rt, num⟩)
    · rfl
    · rfl
    · simp only [Option.map_some, Node.clearNum, ih]

theorem internalRefs_congr {ns ms : List Node} (h : ns.map Node.clearNum = ms.map Node.clearNum) (fuel : Nat)
    (r : Ref) : internalRefs ns fuel r = internalRefs ms fuel r := by
  rw [← internalRefs_clearNum ns, h, internalRefs_clearNum]

theorem internalRefs_length {nodes : List Node} {fuel : Nat} {r : Ref} {T : HTree}
    (h : treeAt nodes fuel r = some T) : (internalRefs nodes fuel r).length = T.internals := by
  induction fuel generalizing r T with
  | zero => cases h
  | succ fuel ih =>
    rcases treeAt_cases h with ⟨sym, hn, rfl⟩ | ⟨l, rt, num, tl, tr, hn, hl, hr, rfl⟩
    · rw [internalRefs_leaf hn]
      rfl
    · rw [internalRefs_internal hn, List.length_append, List.length_append, ih hl, ih hr]
      rfl

theorem self_mem_internalRefs {nodes : List Node} {fuel : Nat} {r : Ref} {T : HTree} {n : Node}
    (h : treeAt nodes fuel r = some T) (hn : nodes[r.toNat]? = some n) (hi : n.isLeaf = false) :
    r.toNat ∈ internalRefs nodes fuel r := by
  cases fuel with
  | zero => cases h
  | succ fuel =>
    cases n with
    | leaf sym => cases hi
    | internal l rt num =>
      rw [internalRefs_internal hn]
      exact List.mem_append_right _ (List.mem_singleton_self _)

/-- The walk goes on to the children of every node it meets. -/
theorem child_mem_internalRefs {nodes : List Node} {fuel : Nat} {r : Ref} {T : HTree} {p c : Nat} {parent n : Node}
    (h : treeAt nodes fuel r = some T) (hp : p ∈ internalRefs nodes fuel r) (hparent : nodes[p]? = some parent)
    (hc : c ∈ children parent) (hn : nodes[c]? = some n) (hi : n.isLeaf = false) : c ∈ internalRefs nodes fuel r := by
  induction fuel generalizing r T with
  | zero => cases h
  | succ fuel ih =>
    rcases treeAt_cases h with ⟨sym, hr, rfl⟩ | ⟨l, rt, num, tl, tr, hr, hl, hrt, rfl⟩
    · rw [internalRefs_leaf hr] at hp
      cases hp
    · rw [internalRefs_internal hr] at hp ⊢
      refine List.mem_append_left _ ?_
      rcases List.mem_append.1 hp with hp | hp
      · exact List.mem_append.2 ((List.mem_append.1 hp).imp (ih hl) (ih hrt))
      · obtain rfl := List.mem_singleton.1 hp
        obtain rfl : .internal l rt num = parent := Option.some.inj (hr.symm.trans hparent)
        rcases List.mem_pair.1 hc with rfl | rfl
        · exact List.mem_append_left _ (self_mem_internalRefs hl hn hi)
        · exact List.mem_append_right _ (self_mem_internalRefs hrt hn hi)

/-- Every internal node of a valid arena is below the root: each entry but the root has a parent with a larger ref. -/
theorem mem_internalRefs_of_arenaInv {a : Arena} {root : Ref} {T : HTree} (h : ArenaInv a root)
    (hT : treeAt a.nodes a.nodes.length root = some T) {p : Nat} (hp : p < a.nodes.length)
    (hi : a.nodes[p].isLeaf = false) : p ∈ internalRefs a.nodes a.nodes.length root := by
  obtain ⟨-, hroot, hlt, hperm, -⟩ := h
  induction hd : root.toNat - p using Nat.strong_induction_on generalizing p with
  | _ d ih =>
    have hn := List.getElem?_eq_getElem hp
    by_cases hr : p = root.toNat
    · subst hr
      exact self_mem_internalRefs hT hn hi
    · obtain ⟨parent, hmem, hc⟩ := List.mem_flatMap.1 (hperm.mem_iff.2 (List.mem_range.2 (by omega : p < _)))
      obtain ⟨q, hq, rfl⟩ := List.mem_iff_getElem.1 hmem
      have hpq := hlt q hq p hc
      have hqi : a.nodes[q].isLeaf = false := by
        cases hnode : a.nodes[q] with
        | leaf sym => rw [hnode] at hc; cases hc
        | internal l rt num => rfl
      exact child_mem_internalRefs hT (ih _ (by omega) hq hqi rfl) (List.getElem?_eq_getElem hq) hc hn hi

/-- The walk of a valid tree meets each of the K internal nodes once: it meets K, and misses none. -/
theorem internalRefs_nodup {a : Arena} {root : Ref} (h : ArenaInv a root) :
    (internalRefs a.nodes a.nodes.length root).Nodup ∧
      (internalRefs a.nodes a.nodes.length root).length = a.internalCount.toNat := by
  obtain ⟨T, hT⟩ := h.exists_treeAt h.root_lt h.root_lt
  have hlen : (internalRefs a.nodes a.nodes.length root).length = a.internalCount.toNat :=
    (internalRefs_length hT).trans ((internalsBelow_eq hT).symm.trans h.internals_root)
  have hall : a.nodes.findIdxs (fun n => !n.isLeaf) ⊆ internalRefs a.nodes a.nodes.length root := fun p hp => by
    obtain ⟨hi, hleaf⟩ := List.mem_findIdxs_iff_exists_getElem_pos.1 hp
    exact mem_internalRefs_of_arenaInv h hT hi (by simpa using hleaf)
  obtain ⟨-, -, -, -, hcount⟩ := h
  have hperm := (List.nodup_findIdxs.subperm hall).perm_of_length_le
    (by rw [List.length_findIdxs, ← hcount, hlen])
  exact ⟨hperm.nodup_iff.1 List.nodup_findIdxs, hlen⟩

/-! ### What the walk does -/

/-- The nodes at `refs` get the numbers from b.2 on, one each, and no other node changes. -/
structure Numbers (refs : List Nat) (b b' : List Node × Nat) : Prop where
  count : b'.2 = b.2 + refs.length
  frame : ∀ i, i ∉ refs → b'.1[i]? = b.1[i]?
  each : ∀ k, b.2 ≤ k → k < b'.2 → ∃ i ∈ refs, b'.1[i]?.bind nodeNum = some (k % 256)

theorem Numbers.nil (b : List Node × Nat) : Numbers [] b b where
  count := rfl
  frame := fun _ _ => rfl
  each := fun _ hk hlt => absurd hk (Nat.not_le.2 hlt)

theorem Numbers.append {xs ys : List Nat} {b b₁ b₂ : List Node × Nat} (hx : Numbers xs b b₁) (hy : Numbers ys b₁ b₂)
    (hd : xs.Disjoint ys) : Numbers (xs ++ ys) b b₂ where
  count := by rw [hy.count, hx.count, List.length_append, Nat.add_assoc]
  frame := by
    intro i hi
    rw [List.mem_append, not_or] at hi
    rw [hy.frame i hi.2, hx.frame i hi.1]
  each := by
    intro k hk hlt
    by_cases h : k < b₁.2
    · obtain ⟨i, hi, hnum⟩ := hx.each k hk h
      exact ⟨i, List.mem_append_left _ hi, by rw [hy.frame i (hd hi), hnum]⟩
    · obtain ⟨i, hi, hnum⟩ := hy.each k (Nat.not_lt.1 h) hlt
      exact ⟨i, List.mem_append_right _ hi, hnum⟩

/-- Numbering one node. -/
theorem Numbers.set {nodes : List Node} {r : Nat} (hr : r < nodes.length) (n : Nat) (lc rc : Ref) :
    Numbers [r] (nodes, n) (nodes.set r (.internal lc rc (BitVec.ofNat 8 n)), n + 1) where
  count := rfl
  frame := fun i hi => List.getElem?_set_ne fun he => hi (List.mem_singleton.2 he.symm)
  each := by
    intro k hk hlt
    obtain rfl : n = k := by simp only at hk hlt; omega
    refine ⟨r, List.mem_singleton_self r, ?_⟩
    rw [List.getElem?_set_self hr, Option.bind_some, nodeNum, BitVec.toNat_ofNat]

/-- A visit of post (R165): a leaf, or the two subtrees and then the node itself. -/
theorem numberFrom_succ_ok {fuel : Nat} {r : Ref} {nodes : List Node} {n : Nat} {b' : List Node × Nat}
    (h : numberFrom (fuel + 1) r (nodes, n) = .ok b') :
    (∃ sym, nodes[r.toNat]? = some (.leaf sym) ∧ b' = (nodes, n)) ∨
      ∃ l rt num b₁ b₂, nodes[r.toNat]? = some (.internal l rt num) ∧ numberFrom fuel l (nodes, n) = .ok b₁ ∧
        numberFrom fuel rt b₁ = .ok b₂ ∧ b' = (b₂.1.set r.toNat (.internal l rt (BitVec.ofNat 8 b₂.2)), b₂.2 + 1) := by
  rw [numberFrom] at h
  split at h
  next => cases h
  next sym hn => cases h; exact .inl ⟨sym, hn, rfl⟩
  next l rt num hn =>
    obtain ⟨b₁, h₁, h⟩ := except_bind_eq_ok.1 h
    obtain ⟨b₂, h₂, h⟩ := except_bind_eq_ok.1 h
    cases h
    exact .inr ⟨l, rt, num, b₁, b₂, hn, h₁, h₂, rfl⟩

theorem numberFrom_numbers {fuel : Nat} {r : Ref} {b b' : List Node × Nat} (h : numberFrom fuel r b = .ok b')
    (hd : (internalRefs b.1 fuel r).Nodup) : Numbers (internalRefs b.1 fuel r) b b' := by
  induction fuel generalizing r b b' with
  | zero => cases h
  | succ fuel ih =>
    obtain ⟨nodes, n⟩ := b
    rcases numberFrom_succ_ok h with ⟨sym, hn, rfl⟩ | ⟨l, rt, num, b₁, b₂, hn, h₁, h₂, rfl⟩
    · rw [internalRefs_leaf hn]
      exact .nil _
    · rw [internalRefs_internal hn] at hd ⊢
      have hsame : internalRefs b₁.1 fuel rt = internalRefs nodes fuel rt :=
        internalRefs_congr (numberFrom_shape h₁) fuel rt
      have hlt : r.toNat < b₂.1.length := by
        rw [numberFrom_length h₂, numberFrom_length h₁]
        exact (List.getElem?_eq_some_iff.1 hn).1
      obtain ⟨hsub, -, hself⟩ := List.nodup_append'.1 hd
      obtain ⟨hleft, hright, hlr⟩ := List.nodup_append'.1 hsub
      have numbersLeft := ih h₁ hleft
      have numbersRight := ih h₂ (hsame ▸ hright)
      rw [hsame] at numbersRight
      exact (numbersLeft.append numbersRight hlr).append (.set hlt b₂.2 l rt) hself

/-! ### The invariant -/

theorem nodeNum_isSome (n : Node) : (nodeNum n).isSome = !n.isLeaf := by cases n <;> rfl

/-- number_tree() on a valid tree (R165, R166): the K numbers 0 to K-1 all occur, on K nodes. -/
theorem numberTree_perm {a : Arena} {root : Ref} {nodes : List Node} {n : Nat} (h : ArenaInv a root)
    (hn : numberTree a.nodes root = .ok (nodes, n)) :
    (nodes.filterMap nodeNum).Perm (List.range a.internalCount.toNat) := by
  obtain ⟨hnodup, hlen⟩ := internalRefs_nodup h
  have hnumbers := numberFrom_numbers hn
  rw [internalRefs_clearNum] at hnumbers
  have hnumbers := hnumbers hnodup
  have hK : n = a.internalCount.toNat := by
    rw [← hlen, ← Nat.zero_add (List.length _)]
    exact hnumbers.count
  have hle := h.1
  rw [h.length_eq] at hle
  have hall : List.range a.internalCount.toNat ⊆ nodes.filterMap nodeNum := fun k hk => by
    have hk := List.mem_range.1 hk
    obtain ⟨i, -, hi⟩ := hnumbers.each k (Nat.zero_le k) (hK ▸ hk)
    obtain ⟨node, hnode, hnum⟩ := Option.bind_eq_some_iff.1 hi
    rw [Nat.mod_eq_of_lt (by omega)] at hnum
    exact List.mem_filterMap.2 ⟨node, List.mem_of_getElem? hnode, hnum⟩
  have hcount : (nodes.filterMap nodeNum).length = a.internalCount.toNat := by
    obtain ⟨-, -, -, -, hcount⟩ := arenaInv_of_clearNum (b := ⟨nodes, a.internalCount⟩) h (numberTree_shape hn) rfl
    rw [List.length_filterMap_eq_countP, hcount]
    simp only [nodeNum_isSome]
  exact ((List.nodup_range.subperm hall).perm_of_length_le (by rw [hcount, List.length_range])).symm

theorem TreeChange.numberInv {s t : State} (h : TreeChange s (treeRegs t)) (hs : TreeInv s) (hnum : NumberInv s) :
    NumberInv t := by
  generalize hg : treeRegs t = g at h
  cases h with
  | kept =>
    obtain ⟨-, -, e₃, -, e₅⟩ := TreeRegs.mk.inj hg
    rw [NumberInv, e₃, e₅]
    exact hnum
  | reset =>
    obtain ⟨-, -, e₃, -, -⟩ := TreeRegs.mk.inj hg
    rw [NumberInv, e₃]
    exact nofun
  | made _ =>
    obtain ⟨-, -, e₃, -, -⟩ := TreeRegs.mk.inj hg
    rw [NumberInv, e₃]
    exact nofun
  | renumbered hv hn =>
    obtain ⟨-, -, -, -, e₅⟩ := TreeRegs.mk.inj hg
    obtain ⟨hvalid, -, -⟩ := hs
    rw [NumberInv, e₅]
    exact fun _ => numberTree_perm (a := s.arena) (hvalid hv).1 hn

end Sys2Proof.Proofs

/-- Settles O19: only NUMBER and SER set NUMBERED, and the walk of a valid tree numbers each internal node once. -/
theorem stepKeepsNumberInvariant : Obligations.StepKeepsNumberInvariant :=
  fun _ _ hs hnum h => (Sys2Proof.Proofs.step_treeChange h).numberInv hs hnum
end

section
/-! The address map (R60) range by range, R61's accesses, and an access at the target of its address. -/

namespace Sys2Proof.Proofs

open Sys2Proof.Machine Sys2Proof.Safety

theorem accessOk_iff {width : AccessWidth} {a : Addr} :
    accessOk width a = true ↔ width = .word ∧ a.toNat % 4 = 0 := by
  simp [accessOk]

/-- The sizes R8 allows are multiples of 4 within the windows of R60. -/
theorem legal_bounds {p : Params} (h : p.legal = true) :
    (p.inSize % 4 = 0 ∧ p.inSize ≤ 0x100000) ∧ p.outSize % 4 = 0 ∧ p.outSize ≤ 0x200000 := by
  simp only [Params.legal, Bool.and_eq_true, beq_iff_eq, decide_eq_true_eq] at h
  omega

/-! ### The map (R60) -/

/-- An address in the words the host reads and writes as four bytes: FREQ, the values of CODE, IN and OUT (R62). -/
def isRamAddr (p : Params) (n : Nat) : Prop :=
  isFreqAddr n ∨ (0x4000 ≤ n ∧ n < 0x8000 ∧ 4 ≤ n % 64 ∧ n % 64 < 36) ∨ isInAddr p n ∨ isOutAddr p n

/-- An address of a byte that FREQ, CODE, IN or OUT holds (R60), as MappedInv asks. -/
def isMappedAddr (p : Params) (n : Nat) : Prop := isFreqAddr n ∨ isCodeAddr n ∨ isInAddr p n ∨ isOutAddr p n

/-- An address in the word that holds the length of a CODE entry (R45). -/
def isCodeLenAddr (n : Nat) : Prop := 0x4000 ≤ n ∧ n < 0x8000 ∧ n % 64 < 4

theorem busTarget_ram {p : Params} {a : Addr} (h : isRamAddr p a.toNat) : busTarget p a = .ram a.toNat := by
  rcases h with hfreq | hval | hin | hout
  · rw [busTarget, if_neg (by omega), if_pos hfreq]
  · rw [busTarget, if_neg (by omega), if_neg (by omega), if_neg (by omega), if_neg (by omega), if_pos (by omega)]
    rw [if_neg (by omega), if_pos (by omega)]
  · rw [busTarget, if_neg (by omega), if_neg (by omega), if_neg (by omega), if_neg (by omega), if_neg (by omega)]
    rw [if_pos hin]
  · rw [busTarget, if_neg (by omega), if_neg (by omega), if_neg (by omega), if_neg (by omega), if_neg (by omega)]
    rw [if_pos hout, ite_self]

theorem busTarget_codeLenWord (p : Params) {a : Addr} (h : isCodeLenAddr a.toNat) :
    busTarget p a = .codeLen a.toNat := by
  obtain ⟨hlo, hhi, hword⟩ := h
  rw [busTarget, if_neg (by omega), if_neg (by omega), if_neg (by omega), if_neg (by omega), if_pos (by omega)]
  rw [if_pos (by omega)]

/-- A word of FREQ, CODE, IN or OUT is one of the two kinds of target that store (R60). -/
theorem busTarget_mapped {p : Params} {a : Addr} (h : isMappedAddr p a.toNat) :
    busTarget p a = .ram a.toNat ∨ busTarget p a = .codeLen a.toNat := by
  rcases h with hfreq | ⟨hlo, hhi, hlen | hval⟩ | hin | hout
  · exact .inl (busTarget_ram (.inl hfreq))
  · exact .inr (busTarget_codeLenWord p ⟨hlo, hhi, by omega⟩)
  · exact .inl (busTarget_ram (.inr (.inl ⟨hlo, hhi, hval⟩)))
  · exact .inl (busTarget_ram (.inr (.inr (.inl hin))))
  · exact .inl (busTarget_ram (.inr (.inr (.inr hout))))

theorem busTarget_nodeWord (p : Params) {a : Addr} (h : 0x2000 ≤ a.toNat ∧ a.toNat < 0x2FF8) :
    ∃ r second, busTarget p a = .node r second := by
  rw [busTarget, if_neg (by omega), if_neg (by omega), if_pos h]
  exact ⟨_, _, rfl⟩

theorem busTarget_nodeReserved (p : Params) {a : Addr} (h : 0x2FF8 ≤ a.toNat ∧ a.toNat < 0x3000) :
    busTarget p a = .windowReserved := by
  rw [busTarget, if_neg (by omega), if_neg (by omega), if_neg (by omega), if_pos h]

theorem regAt_eq_none {n : Nat} (h : ∀ r : RegName, r.offset ≠ n) : regAt n = none :=
  List.find?_eq_none.2 fun r _ => by simpa using h r

theorem busTarget_regReserved (p : Params) {a : Addr} (hlt : a.toNat < 0x100)
    (h : ∀ r : RegName, r.offset ≠ a.toNat) : busTarget p a = .regReserved := by
  rw [busTarget, if_pos hlt, regAt_eq_none h]

theorem busTarget_unmapped {p : Params} {a : Addr} (hp : p.legal = true)
    (h : (0x100 ≤ a.toNat ∧ a.toNat < 0x1000) ∨ (0x1400 ≤ a.toNat ∧ a.toNat < 0x2000) ∨
      (0x3000 ≤ a.toNat ∧ a.toNat < 0x4000) ∨ (0x8000 ≤ a.toNat ∧ a.toNat < 0x100000) ∨
      (0x100000 + p.inSize ≤ a.toNat ∧ a.toNat < 0x200000) ∨ (0x200000 + p.outSize ≤ a.toNat)) :
    busTarget p a = .unmapped := by
  obtain ⟨⟨-, hin⟩, -⟩ := legal_bounds hp
  rw [busTarget, if_neg (by omega), if_neg (by omega), if_neg (by omega), if_neg (by omega), if_neg (by omega)]
  rw [if_neg (by omega), if_neg (by omega)]

/-- A target that stores what is written to it names the address itself. -/
theorem busTarget_store {p : Params} {a : Addr} {n : Nat} :
    (busTarget p a = .ram n → n = a.toNat ∧ isRamAddr p n) ∧
      (busTarget p a = .codeLen n → n = a.toNat ∧ isCodeLenAddr n) := by
  simp only [busTarget]
  split
  · cases regAt a.toNat <;> simp
  split
  next hfreq => simpa using fun hn => ⟨hn.symm, hn ▸ .inl hfreq⟩
  split
  · simp
  split
  · simp
  split
  next hcode =>
    split
    next => simpa using fun hn => ⟨hn.symm, hn ▸ ⟨hcode.1, hcode.2, by omega⟩⟩
    split
    next => simpa using fun hn => ⟨hn.symm, hn ▸ .inr (.inl ⟨hcode.1, hcode.2, by omega, by omega⟩)⟩
    next => simp
  split
  next hin => simpa using fun hn => ⟨hn.symm, hn ▸ .inr (.inr (.inl hin))⟩
  split
  next hout => simpa using fun hn => ⟨hn.symm, hn ▸ .inr (.inr (.inr hout))⟩
  next => simp

/-! ### Accesses -/

theorem bus_badAccess {s : State} {width : AccessWidth} {a : Addr} (h : width ≠ .word ∨ a.toNat % 4 ≠ 0) (v : Word) :
    s.busRead width a = .fault (.busError a) ∧ s.busWrite width a v = .fault (.busError a) := by
  have hbad : ¬ accessOk width a = true := by rw [accessOk_iff]; tauto
  exact ⟨if_neg hbad, if_neg fun hc => hbad hc.1⟩

section

variable {s : State} {a : Addr} {target : BusTarget} (h4 : a.toNat % 4 = 0) (ht : busTarget s.params a = target)
include h4 ht

theorem busRead_idle (hb : s.busy = false) : s.busRead .word a = s.readTarget a target := by
  rw [State.busRead, ht, if_pos (accessOk_iff.2 ⟨rfl, h4⟩), hb]
  rfl

theorem busRead_busy (hb : s.busy = true) : s.busRead .word a = s.readBusy a target := by
  rw [State.busRead, ht, if_pos (accessOk_iff.2 ⟨rfl, h4⟩), hb]
  rfl

theorem busWrite_idle (hb : s.busy = false) (hm : target ≠ .unmapped) (v : Word) :
    s.busWrite .word a v = .next { s.writeTarget v target with reply := .written } := by
  rw [State.busWrite, ht, if_pos ⟨accessOk_iff.2 ⟨rfl, h4⟩, hm⟩, hb]
  rfl

theorem busWrite_busy (hb : s.busy = true) (hm : target ≠ .unmapped) (v : Word) :
    s.busWrite .word a v = .next { s.writeBusy v target with reply := .written } := by
  rw [State.busWrite, ht, if_pos ⟨accessOk_iff.2 ⟨rfl, h4⟩, hm⟩, hb]
  rfl

end

theorem bus_unmapped {s : State} {a : Addr} (ht : busTarget s.params a = .unmapped) (v : Word) :
    s.busRead .word a = .fault (.busError a) ∧ s.busWrite .word a v = .fault (.busError a) := by
  constructor
  · rw [State.busRead, ht]
    cases s.busy <;> exact ite_self _
  · exact if_neg fun hc => hc.2 ht

end Sys2Proof.Proofs
end

section
/-! What a step can store (R60, R66): the sizes stay, and every byte it adds to memory is in FREQ, CODE, IN or OUT. -/

namespace Sys2Proof.Proofs

open Sys2Proof.Machine Sys2Proof.Safety

/-- What a step from s can leave: the sizes of s, and memory with cells of s and cells at mapped addresses. -/
def StoresMapped (s t : State) : Prop :=
  t.params = s.params ∧ ∀ c ∈ t.mem, c ∈ s.mem ∨ isMappedAddr s.params c.1

theorem StoresMapped.of_eq {s t : State} (hp : t.params = s.params) (hm : t.mem = s.mem) : StoresMapped s t :=
  ⟨hp, fun _ hc => .inl (hm ▸ hc)⟩

theorem StoresMapped.mappedInv {s t : State} (h : StoresMapped s t) (hs : MappedInv s) : MappedInv t := by
  obtain ⟨hp, hcells⟩ := h
  intro c hc
  rw [hp]
  exact (hcells c hc).elim (hs c) id

/-! ### Commands -/

/-- Every result of a rule has the property. -/
def Yields {α : Type} (P : α → Prop) (r : Except Stop α) : Prop := ∀ a, r = .ok a → P a

theorem Yields.ok {α : Type} {P : α → Prop} {a : α} (h : P a) : Yields P (.ok a) := fun _ ha => Except.ok.inj ha ▸ h

theorem Yields.error {α : Type} {P : α → Prop} {e : Stop} : Yields P (.error e : Except Stop α) := nofun

theorem Yields.bind {α β : Type} {P : β → Prop} {x : Except Stop α} {f : α → Except Stop β}
    (h : ∀ a, Yields P (f a)) : Yields P (x >>= f) := fun b hb => by
  obtain ⟨a, -, hb⟩ := except_bind_eq_ok.1 hb
  exact h a b hb

theorem conclude_params {s onError t : State} {r : Except Stop State} (h : conclude onError r = .next t)
    (hok : Yields (fun u => u.params = s.params) r) (herr : onError.params = s.params) : t.params = s.params := by
  rcases conclude_eq_next h with ⟨u, hu, rfl⟩ | ⟨e, info, -, rfl⟩
  · exact hok u hu
  · exact herr

theorem execPqIns_params {s t : State} (h : execPqIns s = .next t) : t.params = s.params := by
  refine conclude_params h ?_ rfl
  split
  · exact .error
  split
  · exact .error
  split
  · exact .error
  · exact .ok rfl

theorem execPqExt_params {s t : State} (h : execPqExt s = .next t) : t.params = s.params := by
  refine conclude_params h ?_ rfl
  split
  · exact .error
  · exact .ok rfl

theorem buildFrom_params (s : State) (freqs : List Word) :
    Yields (fun u => u.params = s.params) (s.buildFrom freqs) := by
  rw [State.buildFrom]
  rcases buildTree freqs with ⟨⟨_ | ⟨e, rest⟩, nextSeq⟩, a⟩
  · exact .error
  · exact .ok rfl

/-- The sizes are the hardware's: no command changes them (R8). -/
theorem exec_params {i : Instr} {s t : State} (h : exec i s = .next t) : t.params = s.params := by
  cases i with
  | nop | clear | freqClr | pqClr | codeClr => cases h; rfl
  | pqIns => exact execPqIns_params h
  | pqExt => exact execPqExt_params h
  | build => exact conclude_params h (.bind (buildFrom_params s)) rfl
  | freqCnt => exact conclude_params h (.bind fun _ => .bind fun _ => .ok rfl) rfl
  | codegen => exact conclude_params h (.bind fun _ => .bind fun _ => .ok rfl) rfl
  | number => exact conclude_params h (.bind fun _ => .bind fun _ => .ok rfl) rfl
  | ser => exact conclude_params h (.bind fun _ => .bind fun _ => .bind fun _ => .bind fun _ => .ok rfl) rfl
  | deser _ => exact conclude_params h (.bind fun _ => .bind fun _ => .bind fun _ => .ok rfl) rfl
  | pack _ => exact conclude_params h (.bind fun _ => .ok rfl) rfl
  | unpack _ =>
    exact conclude_params h (.bind fun _ => .bind fun _ => .bind fun _ => .bind fun _ => .bind fun _ => .ok rfl) rfl

theorem setFreqTable_cells {s : State} {ws : List Word} (hw : ws.length = 256) {c : Host.Cell}
    (h : c ∈ (s.setFreqTable ws).mem) : c ∈ s.mem ∨ isFreqAddr c.1 := by
  refine (Memory.mem_writeBytes h).imp_right fun hc => ?_
  rw [flatMap_le32Bytes_length, hw, freqAddr] at hc
  unfold isFreqAddr
  omega

theorem setCodeTable_cells {s : State} {table : List CodeEntry} (ht : table.length = 256) {c : Host.Cell}
    (h : c ∈ (s.setCodeTable table).mem) : c ∈ s.mem ∨ isCodeAddr c.1 :=
  (Memory.mem_splice h).imp And.left (codeCells_isCodeAddr ht)

theorem appendOut_cells {s : State} {bytes : List Byte} (hb : bytes.length ≤ s.params.outSize - s.dstPtr.toNat)
    {c : Host.Cell} (h : c ∈ (s.appendOut bytes).mem) : c ∈ s.mem ∨ isOutAddr s.params c.1 := by
  refine (Memory.mem_writeBytes h).imp_right fun hc => ?_
  rw [outAddr] at hc
  unfold isOutAddr
  omega

/-- What a command commits to memory, cell by cell. -/
theorem Commits.cells {s : State} {i : Instr} {o : Owned} (h : Commits s i o) {c : Host.Cell} (hc : c ∈ o.mem) :
    c ∈ s.mem ∨ isMappedAddr s.params c.1 := by
  cases h with
  | freq _ hw => exact (setFreqTable_cells hw hc).imp_right .inl
  | code _ ht => exact (setCodeTable_cells ht hc).imp_right fun h => .inr (.inl h)
  | ser hb => exact (appendOut_cells hb hc).imp_right fun h => .inr (.inr (.inr h))
  | out _ hb => exact (appendOut_cells hb hc).imp_right fun h => .inr (.inr (.inr h))
  | _ => exact .inl hc

theorem engineStep_storesMapped {s t : State} (h : engineStep s = .next t) : StoresMapped s t := by
  rcases engineStep_cases h with ⟨i, -, h⟩ | ⟨-, rfl⟩
  · exact ⟨exec_params h, fun _ => (exec_commits h).cells⟩
  · exact .of_eq rfl rfl

/-! ### The bus -/

theorem offer_storesMapped (s : State) (c : Word) : StoresMapped s (s.offer c) := by
  by_cases h : s.busy = false ∧ s.errCode = 0
  · rw [State.offer_accept h]; exact .of_eq rfl rfl
  · rw [State.offer_drop h]; exact .of_eq rfl rfl

theorem writeReg_storesMapped (s : State) (v : Word) (r : RegName) : StoresMapped s (s.writeReg v r) := by
  cases r with
  | cmd => exact offer_storesMapped s v
  | errCode => rw [State.writeReg]; split <;> exact .of_eq rfl rfl
  | _ => exact .of_eq rfl rfl

theorem writeBusy_storesMapped (s : State) (v : Word) (target : BusTarget) : StoresMapped s (s.writeBusy v target) := by
  cases target with
  | reg r =>
    cases r with
    | cmd => exact offer_storesMapped s v
    | _ => exact .of_eq rfl rfl
  | _ => exact .of_eq rfl rfl

/-- The four bytes of an aligned word of memory lie in its window, as the sizes are multiples of 4 (R8). -/
theorem isMappedAddr_of_ram {p : Params} (hp : p.legal = true) {n k : Nat} (h4 : n % 4 = 0) (h : isRamAddr p n)
    (hk : n ≤ k ∧ k < n + 4) : isMappedAddr p k := by
  obtain ⟨⟨hin4, -⟩, hout4, -⟩ := legal_bounds hp
  unfold isMappedAddr isFreqAddr isCodeAddr isInAddr isOutAddr
  rcases h with hfreq | hval | hin | hout
  · exact .inl (by omega)
  · exact .inr (.inl (by omega))
  · exact .inr (.inr (.inl (by omega)))
  · exact .inr (.inr (.inr (by omega)))

theorem isCodeAddr_of_codeLen {n : Nat} (h4 : n % 4 = 0) (h : isCodeLenAddr n) : isCodeAddr n := by
  obtain ⟨hlo, hhi, hword⟩ := h
  exact ⟨hlo, hhi, .inl (by omega)⟩

theorem writeTarget_storesMapped {s : State} (hp : s.params.legal = true) {a : Addr} (h4 : a.toNat % 4 = 0) (v : Word) :
    StoresMapped s (s.writeTarget v (busTarget s.params a)) := by
  cases ht : busTarget s.params a with
  | reg r => exact writeReg_storesMapped s v r
  | ram n =>
    obtain ⟨rfl, hram⟩ := busTarget_store.1 ht
    exact ⟨rfl, fun c hc => (Memory.mem_writeBytes hc).imp_right (isMappedAddr_of_ram hp h4 hram)⟩
  | codeLen n =>
    obtain ⟨rfl, hlen⟩ := busTarget_store.2 ht
    refine ⟨rfl, fun c hc => (Memory.mem_writeBytes hc).imp_right fun hk => .inr (.inl ?_)⟩
    rw [List.length_singleton] at hk
    rw [show c.1 = a.toNat by omega]
    exact isCodeAddr_of_codeLen h4 hlen
  | _ => exact .of_eq rfl rfl

theorem busWrite_storesMapped {s t : State} (hp : s.params.legal = true) {width : AccessWidth} {a : Addr} {v : Word}
    (h : s.busWrite width a v = .next t) : StoresMapped s t := by
  obtain ⟨hok, -, rfl⟩ := busWrite_cases h
  cases hb : s.busy
  · exact writeTarget_storesMapped hp (accessOk_iff.1 hok).2 v
  · exact writeBusy_storesMapped s v _

theorem busRead_storesMapped {s t : State} {width : AccessWidth} {a : Addr} (h : s.busRead width a = .next t) :
    StoresMapped s t := by
  obtain ⟨w, d, rfl⟩ := busRead_onlyReplies h
  exact .of_eq rfl rfl

/-! ### Steps -/

/-- The host's list has no part in the store. -/
theorem StoresMapped.of_host {s t : State} {host : List HostOp} (h : StoresMapped { s with host := host } t) :
    StoresMapped s t := h

theorem step_storesMapped {s t : State} (hp : s.params.legal = true) (h : step s = .next t) : StoresMapped s t := by
  obtain ⟨rest, h⟩ := step_cases h
  rcases h with ⟨-, h⟩ | ⟨-, rfl⟩ | ⟨width, a, h⟩ | ⟨width, a, v, h⟩ | rfl | ⟨-, rfl⟩ | ⟨-, rfl⟩ | ⟨-, rfl⟩
  · exact (engineStep_storesMapped h).of_host
  · exact .of_eq rfl rfl
  · exact (busRead_storesMapped h).of_host
  · exact (busWrite_storesMapped (by exact hp) h).of_host
  · exact ⟨rfl, nofun⟩
  · exact .of_eq rfl rfl
  · exact .of_eq rfl rfl
  · exact .of_eq rfl rfl

end Sys2Proof.Proofs

open Sys2Proof Sys2Proof.Machine Sys2Proof.Safety Sys2Proof.Proofs

/-- Settles O16: every byte a step adds to memory is mapped, so the invariant is kept. -/
theorem stepStoresOnlyInMappedMemory : Obligations.StepStoresOnlyInMappedMemory := fun _ _ hp hs h =>
  have hstep := step_storesMapped hp h
  ⟨hstep.1, hstep.mappedInv hs⟩
end

section
/-! Accesses of a quiescent block to memory (R62, R44, R64 (a)), and the accesses the bus refuses or ignores (R61, R63,
R33). -/

namespace Sys2Proof.Proofs

open Sys2Proof.Machine Sys2Proof.Safety

/-! ### A word of memory -/

/-- Memory holds the four bytes of a word from address n up, the least significant first (R10). -/
def holdsWord (m : Memory) (n : Nat) (v : Word) : Prop := ∀ j, j < 4 → m.read (n + j) = some (v.extractLsb' (8 * j) 8)

theorem writeBytes_holdsWord (m : Memory) (n : Nat) (v : Word) : holdsWord (m.writeBytes n (le32Bytes v)) n v := by
  intro j hj
  rw [m.read_writeBytes, if_pos ⟨Nat.le_add_right n j, Nat.add_lt_add_left hj n⟩, Nat.add_sub_cancel_left]
  exact le32Bytes_getElem v hj

theorem hostByte_of_read {s : State} {a : Nat} {b : Byte} (h : s.mem.read a = some b) (k : Nat) :
    s.hostByte a k = b := by rw [State.hostByte, h, Option.getD_some]

theorem readRam_of_holdsWord {s : State} {n : Nat} {v : Word} (h : holdsWord s.mem n v) :
    s.readRam n = .next ({ s with draws := s.draws + 4 }.replyData v) := by
  have h₀ : s.mem.read n = some (v.extractLsb' 0 8) := h 0 (by decide)
  have hbytes : [s.hostByte n 0, s.hostByte (n + 1) 1, s.hostByte (n + 2) 2, s.hostByte (n + 3) 3] = le32Bytes v := by
    rw [hostByte_of_read h₀, hostByte_of_read (h 1 (by decide)), hostByte_of_read (h 2 (by decide)),
      hostByte_of_read (h 3 (by decide))]
    rfl
  rw [State.readRam, if_neg (by simp [h₀]), hbytes, leNat_le32Bytes, BitVec.ofNat_toNat, BitVec.setWidth_eq]

/-- Every window of memory stands within the 22 address bits (R7, R60). -/
theorem toNat_ramAddr {p : Params} (hp : p.legal = true) {n : Nat} (h : isRamAddr p n) :
    (BitVec.ofNat 22 n).toNat = n := by
  obtain ⟨⟨-, hin⟩, -, hout⟩ := legal_bounds hp
  refine (BitVec.toNat_ofNat n 22).trans (Nat.mod_eq_of_lt ?_)
  rcases h with hfreq | hval | hi | ho <;> omega

theorem busTarget_ramAddr {p : Params} (hp : p.legal = true) {n : Nat} (h : isRamAddr p n) :
    busTarget p (BitVec.ofNat 22 n) = .ram n := by
  have ha := toNat_ramAddr hp h
  rw [busTarget_ram (by rwa [ha]), ha]

section

variable {s : State} {n : Nat} {rest : List HostOp} (hp : s.params.legal = true) (hb : s.busy = false)
  (h4 : n % 4 = 0) (h : isRamAddr s.params n)
include hp hb h4 h

theorem step_writeRam {v : Word} (hhost : s.host = .write .word (BitVec.ofNat 22 n) v :: rest) :
    step s = .next { s with mem := s.mem.writeBytes n (le32Bytes v), host := rest, reply := .written } := by
  have ha := toNat_ramAddr hp h
  rw [step_cons hhost]
  exact busWrite_idle (s := { s with host := rest }) (by rwa [ha]) (busTarget_ramAddr hp h) hb (by simp) v

theorem step_readRam {v : Word} (hhost : s.host = .read .word (BitVec.ofNat 22 n) :: rest)
    (hv : holdsWord s.mem n v) :
    step s = .next { s with host := rest, reply := .data v, draws := s.draws + 4 } := by
  have ha := toNat_ramAddr hp h
  rw [step_cons hhost]
  exact (busRead_idle (s := { s with host := rest }) (by rwa [ha]) (busTarget_ramAddr hp h) hb).trans
    (readRam_of_holdsWord hv)

end

end Sys2Proof.Proofs

open Sys2Proof Sys2Proof.Machine Sys2Proof.Safety Sys2Proof.Proofs

/-- Settles O22: the write stores the four bytes at the address, and the read finds them. -/
theorem windowWordsAreLittleEndian : Obligations.WindowWordsAreLittleEndian := by
  intro s n v hp hb h4 hn hhost
  have hv := writeBytes_holdsWord s.mem n v
  refine ⟨_, step_writeRam hp hb h4 hn hhost, rfl, hv, fun a ha => ?_, _, step_readRam ?_ ?_ h4 ?_ rfl ?_, rfl, rfl⟩
  · exact Memory.read_writeBytes_outside _ _ _ ha
  exacts [hp, hb, hn, hv]

/-- Settles O26: a bad access and an unmapped address are bus errors, and a reserved word is a target of its own. -/
theorem busErrorsAndReservedWords : Obligations.BusErrorsAndReservedWords := by
  refine ⟨fun s width a v h => bus_badAccess h v, fun s a v h4 => ⟨fun hp h => ?_, fun hb h => ?_⟩⟩
  · exact bus_unmapped (busTarget_unmapped hp h) v
  · rcases h with ⟨hlt, hnone⟩ | hnode
    · have ht := busTarget_regReserved s.params hlt hnone
      exact ⟨busRead_idle h4 ht hb, busWrite_idle h4 ht hb (by simp) v⟩
    · have ht := busTarget_nodeReserved s.params hnode
      exact ⟨busRead_idle h4 ht hb, busWrite_idle h4 ht hb (by simp) v⟩

/-- Settles O27: a read that answers only replies. -/
theorem readsHaveNoSideEffects : Obligations.ReadsHaveNoSideEffects := fun _ _ _ _ h => busRead_onlyReplies h
end

section
/-! Accesses while BUSY = 1 (R68, R69). -/

namespace Sys2Proof.Proofs

open Sys2Proof.Machine Sys2Proof.Safety

theorem aligned_reg (r : RegName) : (BitVec.ofNat 22 r.offset).toNat % 4 = 0 :=
  (accessOk_iff.1 (accessOk_reg r)).2

section

variable {s : State} (hb : s.busy = true)
include hb

theorem busRead_busyReg (r : RegName) : s.busRead .word (BitVec.ofNat 22 r.offset) =
    .next (if r.stable then s.replyData (s.readReg r) else s.replyFree) :=
  busRead_busy (aligned_reg r) (busTarget_reg s.params r) hb

/-- A stable register (R68), at a literal address and with the value as a number. -/
theorem busRead_stable {r : RegName} {a : Addr} {w : Word} (ha : BitVec.ofNat 22 r.offset = a)
    (hr : r.stable = true) (hw : s.readReg r = w) : s.busRead .word a = .next { s with reply := .data w } := by
  rw [← ha, ← hw, busRead_busyReg hb, if_pos hr]
  rfl

theorem busRead_busyWindow {a : Addr} (h4 : a.toNat % 4 = 0)
    (h : isMappedAddr s.params a.toNat ∨ (0x2000 ≤ a.toNat ∧ a.toNat < 0x2FF8)) :
    s.busRead .word a = .next s.replyFree := by
  rcases h with hmapped | hnode
  · rcases busTarget_mapped hmapped with ht | ht <;> exact busRead_busy h4 ht hb
  · obtain ⟨r, second, ht⟩ := busTarget_nodeWord s.params hnode
    exact busRead_busy h4 ht hb

theorem busWrite_busyReg (r : RegName) (v : Word) : s.busWrite .word (BitVec.ofNat 22 r.offset) v =
    .next { s.writeBusy v (.reg r) with reply := .written } :=
  busWrite_busy (aligned_reg r) (busTarget_reg s.params r) hb (by simp) v

theorem busWrite_busyMapped {a : Addr} (h4 : a.toNat % 4 = 0) (h : isMappedAddr s.params a.toNat) (v : Word) :
    s.busWrite .word a v = .next { s with dropped := true, reply := .written } := by
  rcases busTarget_mapped h with ht | ht <;> exact busWrite_busy h4 ht hb (by simp) v

/-- While a command is pending an offer is dropped too (R100). -/
theorem writeBusy_dropped {r : RegName}
    (h : r ∈ [RegName.cmd, .errCode, .srcPtr, .srcEnd, .dstPtr, .arg0, .arg1, .arg2]) (v : Word) :
    s.writeBusy v (.reg r) = s.drop := by
  cases r with
  | cmd => exact State.offer_drop (by simp [hb]) v
  | errCode | srcPtr | srcEnd | dstPtr | arg0 | arg1 | arg2 => rfl
  | _ => simp at h

end

theorem writeBusy_readOnly (s : State) {r : RegName}
    (h : r ∈ [RegName.id, .version, .inSizeR, .outSizeR, .errInfo, .res0, .res1, .res2, .res3, .root, .nodeCount,
      .internalCount, .pqCount, .pqSeq]) (v : Word) : s.writeBusy v (.reg r) = s := by
  cases r with
  | cmd | status | errCode | irqEn | srcPtr | srcEnd | dstPtr | arg0 | arg1 | arg2 => simp at h
  | _ => rfl

theorem stable_eq_false {r : RegName}
    (h : r ∈ [RegName.errInfo, .srcPtr, .srcEnd, .dstPtr, .arg0, .arg1, .arg2, .res0, .res1, .res2, .res3, .root,
      .nodeCount, .internalCount, .pqCount, .pqSeq]) : r.stable = false := by
  cases r with
  | id | version | inSizeR | outSizeR | cmd | status | irqEn | errCode => simp at h
  | _ => rfl

end Sys2Proof.Proofs

open Sys2Proof Sys2Proof.Machine Sys2Proof.Safety Sys2Proof.Proofs

/-- Settles O28: a stable register replies with its value, and everything else with one free word. -/
theorem busyReadsAreStableOrFree : Obligations.BusyReadsAreStableOrFree := by
  intro s hb
  have rd (r : RegName) (hr : r.stable = true) {a : Addr} (ha : BitVec.ofNat 22 r.offset = a) :=
    busRead_stable hb ha hr rfl
  refine ⟨⟨rd .id rfl rfl, rd .version rfl rfl, rd .inSizeR rfl rfl, rd .outSizeR rfl rfl, rd .cmd rfl rfl,
    rd .status rfl rfl, ?_, ?_⟩, fun r hr => ⟨Config.freeWord s.draws, ?_⟩, fun a h4 h => ⟨_, busRead_busyWindow hb h4 ?_⟩⟩
  · exact busRead_stable hb (r := .errCode) rfl rfl (BitVec.ofNat_toNat _ _).symm
  · exact busRead_stable hb (r := .irqEn) rfl rfl (BitVec.ofNat_toNat _ _).symm
  · rw [busRead_busyReg hb, stable_eq_false hr]
    rfl
  · unfold isMappedAddr
    tauto

/-- Settles O29: STATUS and IRQ_EN take the write, a read-only register ignores it, and every other target drops it. -/
theorem busyWritesAreDropped : Obligations.BusyWritesAreDropped := by
  intro s v hb
  refine ⟨busWrite_busyReg hb .status v, busWrite_busyReg hb .irqEn v, fun r hr => ?_, fun r hr => ?_,
    fun a h4 h => busWrite_busyMapped hb h4 h v⟩
  · rw [busWrite_busyReg hb, writeBusy_readOnly s hr]
  · rw [busWrite_busyReg hb, writeBusy_dropped hb hr]
    rfl
end

section
/-! Decoding inverts encoding (R80 to R84): the fields of a command word determine it, so a word decodes exactly to the
instruction whose opcode and F0 it carries; and the legal words of R81, the words that decode and the words the rows of
R84 cover are the same. -/

namespace Sys2Proof.Proofs

/-! ### The fields of a word (R80) -/

/-- A word is its OP, its F0 and its reserved bits. -/
theorem word_ext {c c' : Word} (hop : Cmd.op c = Cmd.op c') (hf0 : Cmd.f0 c = Cmd.f0 c')
    (hrsv : c.extractLsb' 9 23 = c'.extractLsb' 9 23) : c = c' := by
  refine BitVec.eq_of_getLsbD_eq fun j hj => ?_
  rcases Nat.lt_trichotomy j 8 with h | rfl | h
  · simpa [Cmd.op, h] using congrArg (BitVec.getLsbD · j) hop
  · exact hf0
  · have hbit := congrArg (BitVec.getLsbD · (j - 9)) hrsv
    simpa [show j - 9 < 23 by omega, show 9 + (j - 9) = j by omega] using hbit

theorem fields_encode (i : Instr) : (encode i).extractLsb' 9 23 = 0#23 ∧ i.opcode = Cmd.op (encode i) ∧
    i.flag = Cmd.f0 (encode i) := by
  cases i with
  | deser f | pack f | unpack f => cases f <;> exact ⟨rfl, rfl, rfl⟩
  | _ => exact ⟨rfl, rfl, rfl⟩

/-- The word of an instruction is the one with its opcode, its F0 and no reserved bit (R84). -/
theorem encode_eq_iff {i : Instr} {c : Word} :
    encode i = c ↔ c.extractLsb' 9 23 = 0#23 ∧ i.opcode = Cmd.op c ∧ i.flag = Cmd.f0 c := by
  obtain ⟨hrsv, hop, hf0⟩ := fields_encode i
  constructor
  · rintro rfl
    exact ⟨hrsv, hop, hf0⟩
  · rintro ⟨hrsv', hop', hf0'⟩
    exact word_ext (hop.symm.trans hop') (hf0.symm.trans hf0') (hrsv.trans hrsv'.symm)

/-- RSV1 and RSV2 together are bits [31:9]. -/
theorem reserved_of_reservedZero {c : Word} (h : Cmd.reservedZero c = true) : c.extractLsb' 9 23 = 0#23 := by
  obtain ⟨h1, h2⟩ : Cmd.rsv1 c = 0 ∧ Cmd.rsv2 c = 0 := by simpa [Cmd.reservedZero] using h
  have happend : Cmd.rsv2 c ++ Cmd.rsv1 c = c.extractLsb' 9 23 :=
    BitVec.extractLsb'_append_extractLsb'_eq_extractLsb' rfl
  rw [← happend, h1, h2]
  rfl

/-! ### The decoder (R81 to R83) -/

theorem mem_toOption_iff {ε α : Type} {x : Except ε α} {a : α} : a ∈ x.toOption ↔ x = .ok a := by
  cases x <;> simp [Except.toOption]

theorem decodeOp_unlisted {op : Byte} (h : op ∉ Cmd.listedOps) (f : Bool) : decodeOp op f = .error .unlistedOp := by
  simp only [Cmd.listedOps, List.mem_cons, List.not_mem_nil, or_false, not_or, BitVec.ofNat_eq_ofNat] at h
  simp [decodeOp, h]

/-- A row of the map gives an instruction with the OP and the F0 it is asked for. -/
theorem fields_of_decodeOp_listed : ∀ op ∈ Cmd.listedOps, ∀ f, ∀ i ∈ (decodeOp op f).toOption,
    i.opcode = op ∧ i.flag = f := by decide

/-- A row of the map gives an instruction for every F0 that R82 allows. -/
theorem decodeOp_allowed : ∀ op ∈ Cmd.listedOps, ∀ f : Bool, (!f || Cmd.flaggedOps.contains op) = true →
    (decodeOp op f).toOption.isSome = true := by decide

/-- The opcode map and the opcodes of the instructions are the same. -/
theorem decodeOp_eq_ok_iff {op : Byte} {f : Bool} {i : Instr} :
    decodeOp op f = .ok i ↔ i.opcode = op ∧ i.flag = f := by
  constructor
  · intro h
    by_cases hop : op ∈ Cmd.listedOps
    · exact fields_of_decodeOp_listed op hop f i (mem_toOption_iff.2 h)
    · rw [decodeOp_unlisted hop] at h
      cases h
  · rintro ⟨rfl, rfl⟩
    cases i <;> rfl

/-- A word decodes to an instruction exactly when it is the word of that instruction. -/
theorem decode_eq_ok_iff {c : Word} {i : Instr} : decode c = .ok i ↔ encode i = c := by
  rw [encode_eq_iff, ← decodeOp_eq_ok_iff, decode]
  split
  · next h => simp [h, Cmd.op, Cmd.f0]
  · next h => simp [h]

/-! ### Legal words (R81) -/

theorem encodedLegal (i : Instr) : Laws.EncodedLegal.Statement i := by
  cases i with
  | nop => exact Laws.EncodedLegal.nop
  | clear => exact Laws.EncodedLegal.clear
  | freqClr => exact Laws.EncodedLegal.freqClr
  | freqCnt => exact Laws.EncodedLegal.freqCnt
  | pqClr => exact Laws.EncodedLegal.pqClr
  | pqIns => exact Laws.EncodedLegal.pqIns
  | pqExt => exact Laws.EncodedLegal.pqExt
  | build => exact Laws.EncodedLegal.build
  | codeClr => exact Laws.EncodedLegal.codeClr
  | codegen => exact Laws.EncodedLegal.codegen
  | number => exact Laws.EncodedLegal.number
  | ser => exact Laws.EncodedLegal.ser
  | deser f => exact Laws.EncodedLegal.deser f
  | pack f => exact Laws.EncodedLegal.pack f
  | unpack f => exact Laws.EncodedLegal.unpack f

theorem legal_iff {c : Word} : Cmd.legal c = true ↔
    Cmd.opListed c = true ∧ Cmd.reservedZero c = true ∧ Cmd.f0Allowed c = true := by
  simp [Cmd.legal, and_assoc]

/-- The words that decode are the legal words of R81. -/
theorem decodes_iff_legal {c : Word} : (∃ i, decode c = .ok i) ↔ Cmd.legal c = true := by
  constructor
  · rintro ⟨i, hi⟩
    obtain rfl := decode_eq_ok_iff.1 hi
    exact (encodedLegal i).1
  · intro h
    obtain ⟨hop, hrsv, hf0⟩ := legal_iff.1 h
    obtain ⟨i, hi⟩ := Option.isSome_iff_exists.1
      (decodeOp_allowed (Cmd.op c) (List.contains_iff_mem.1 hop) (Cmd.f0 c) hf0)
    obtain ⟨hopcode, hflag⟩ := decodeOp_eq_ok_iff.1 (mem_toOption_iff.1 hi)
    exact ⟨i, decode_eq_ok_iff.2 (encode_eq_iff.2 ⟨reserved_of_reservedZero hrsv, hopcode, hflag⟩)⟩

/-! ### The opcode table (R84) -/

/-- A mask leaves out F0 or nothing. -/
theorem not_mask_eq : ∀ row ∈ opcodeRows, ~~~row.mask = 0#32 ∨ ~~~row.mask = BitVec.twoPow 32 8 := by decide

/-- The words of a row: its pattern, and its pattern with the bit its mask leaves out. -/
theorem legal_rowWords : ∀ row ∈ opcodeRows,
    Cmd.legal row.pattern = true ∧ Cmd.legal (row.pattern ||| ~~~row.mask) = true := by decide

/-- A covered word differs from the row's pattern at most in the one bit the mask leaves out. -/
theorem eq_of_covers {row : OpcodeRow} (hrow : row ∈ opcodeRows) {c : Word} (h : row.covers c = true) :
    c = row.pattern ∨ c = row.pattern ||| ~~~row.mask := by
  have hmask : c &&& row.mask = row.pattern := by simpa [OpcodeRow.covers] using h
  have hc : c = row.pattern ||| (c &&& ~~~row.mask) := by
    rw [← hmask, ← BitVec.and_or_distrib_left, BitVec.or_not_self, BitVec.and_allOnes]
  rcases not_mask_eq row hrow with hm | hm
  · exact .inl (by simpa [hm] using hc)
  · rw [hm, BitVec.and_twoPow] at hc
    split at hc
    · exact .inr (hm ▸ hc)
    · exact .inl (by simpa using hc)

/-- The word of an instruction is covered by one row of the table. -/
theorem rows_covering_encode (i : Instr) : ∃ row, (opcodeRows.filter fun row => row.covers (encode i)) = [row] := by
  obtain ⟨row, hrow, -⟩ := List.map_eq_singleton_iff.1 (encodedLegal i).2
  exact ⟨row, hrow⟩

/-- The words the rows cover are the legal words of R81. -/
theorem covered_iff_legal {c : Word} : (∃ row ∈ opcodeRows, row.covers c = true) ↔ Cmd.legal c = true := by
  constructor
  · rintro ⟨row, hrow, h⟩
    obtain ⟨hclear, hset⟩ := legal_rowWords row hrow
    rcases eq_of_covers hrow h with rfl | rfl
    · exact hclear
    · exact hset
  · intro h
    obtain ⟨i, hi⟩ := decodes_iff_legal.2 h
    obtain rfl := decode_eq_ok_iff.1 hi
    obtain ⟨row, hrow⟩ := rows_covering_encode i
    exact ⟨row, List.mem_filter.1 (hrow ▸ List.mem_singleton_self row)⟩

end Sys2Proof.Proofs

open Sys2Proof Sys2Proof.Proofs

/-- Settles O1: a word decodes to an instruction exactly when it is that instruction's word. -/
theorem decodeAndEncodeAgree : Obligations.DecodeAndEncodeAgree :=
  ⟨fun _ _ => decode_eq_ok_iff.2 rfl, fun _ _ => decode_eq_ok_iff.1⟩

/-- Settles O2: both sides are the legal words of R81, and each of these is the word of an instruction, which one row
covers. -/
theorem opcodeRowsPartitionLegalWords : Obligations.OpcodeRowsPartitionLegalWords := by
  refine ⟨fun c => decodes_iff_legal.trans covered_iff_legal.symm, fun c r₁ r₂ h₁ h₂ hc₁ hc₂ => ?_⟩
  obtain ⟨i, hi⟩ := decodes_iff_legal.2 (covered_iff_legal.1 ⟨r₁, h₁, hc₁⟩)
  obtain rfl := decode_eq_ok_iff.1 hi
  obtain ⟨row, hrow⟩ := rows_covering_encode i
  have only {r : OpcodeRow} (h : r ∈ opcodeRows) (hc : r.covers (encode i) = true) : r = row :=
    List.mem_singleton.1 (hrow ▸ List.mem_filter.2 ⟨h, hc⟩)
  exact (only h₁ hc₁).trans (only h₂ hc₂).symm

/-- Settles O3: each word is the word of its command, and the decoder computes the name of each rejection. -/
theorem listedWordsDecode : Obligations.ListedWordsDecode := by
  unfold Obligations.ListedWordsDecode
  simp only [decode_eq_ok_iff]
  decide
end

section
/-! A command offered to a quiescent block (R100) and what the engine makes of its word (R81, R87), and the check of
waitok (R92). -/

namespace Sys2Proof.Proofs

open Sys2Proof.Machine

/-- An illegal word raises IllegalCommand with the word as its detail (R81, R87). -/
theorem engineStep_error {s : State} {e : DecodeError} (h : decode s.cmdLast = .error e) :
    engineStep s = .next (s.raiseError .illegalCommand s.cmdLast) := by
  rw [engineStep, h]
  rfl

theorem step_pending {s : State} (hb : s.busy = true) (hh : s.host = []) : step s = engineStep s := by
  rw [step_nil hh, engineTurn_busy hb]

/-- Acceptance of an offer (R100). -/
theorem step_offer_accepted {s : State} {c : Word} {rest : List HostOp} (hb : s.busy = false) (he : s.errCode = 0)
    (hh : s.host = .write .word 0x000010#22 c :: rest) :
    step s = .next { s with cmdLast := c, busy := true, done := false, host := rest, reply := .written } := by
  have hw := busWrite_reg (s := { s with host := rest }) hb .cmd c
  rw [step_cons hh]
  refine hw.trans ?_
  rw [State.writeReg, State.offer_accept (s := { s with host := rest }) ⟨hb, he⟩]
  rfl

/-- The second half of waitok: a read of STATUS, and the stop where it shows an error (R92). -/
theorem step_checkOk {s : State} {rest : List HostOp} (hh : s.host = .checkOk :: rest) :
    step s = .next (if s.err then { s with host := errorReads, hostStopped := true }.replyData s.statusWord
      else { s with host := rest }.replyData s.statusWord) := by
  rw [step_cons hh]
  rfl

theorem err_iff {s : State} : s.err = true ↔ s.errCode ≠ 0 := by simp [State.err]

end Sys2Proof.Proofs

open Sys2Proof Sys2Proof.Machine Sys2Proof.Proofs

/-- Settles O5: the offer is accepted, the next step is the engine's, and the legal words are those that decode. -/
theorem illegalWordCompletesWithIllegalCommand : Obligations.IllegalWordCompletesWithIllegalCommand := by
  intro s c hb he hh
  refine ⟨_, step_offer_accepted hb he hh, rfl, rfl, rfl, fun h => ?_, fun h => ?_⟩
  all_goals rw [step_pending rfl rfl]
  · obtain ⟨i, hi⟩ := decodes_iff_legal.2 (legal_iff.2 h)
    exact ⟨i, hi, engineStep_ok hi⟩
  · cases hd : decode c with
    | ok i => exact absurd (legal_iff.1 (decodes_iff_legal.1 ⟨i, hd⟩)) h
    | error e => exact engineStep_error hd

/-- Settles O11: the two branches of the check. -/
theorem waitokStopsTheHostOnError : Obligations.WaitokStopsTheHostOnError := by
  intro s rest hh
  rw [step_checkOk hh]
  refine ⟨fun he => ?_, fun he => ?_⟩
  · rw [if_pos (err_iff.2 he)]
    rfl
  · rw [if_neg (by simpa [err_iff])]
    rfl
end

section
/-! What every completion does to the registers around the command (R101, R252), and the error latch from it (R100,
R250, R258). -/

namespace Sys2Proof.Proofs

open Sys2Proof.Machine Sys2Proof.Safety

/-! ### Completions (R101, R252) -/

/-- What neither a command's rule nor its completion writes: the sizes, the host's registers, CMD_LAST and DROPPED, and
the host agent (R29, 40_control.md section 1). -/
structure ControlRegs where
  params : Params
  cmdLast : Word
  dropped : Bool
  irqEn : BitVec 3
  srcEnd : Word
  arg0 : Word
  arg1 : Word
  arg2 : Word
  host : List HostOp
  reply : Reply
  hostStopped : Bool

def controlRegs (s : State) : ControlRegs :=
  ⟨s.params, s.cmdLast, s.dropped, s.irqEn, s.srcEnd, s.arg0, s.arg1, s.arg2, s.host, s.reply, s.hostStopped⟩

/-- What a command's rule leaves alone: the control registers, and the error registers, which only the error commit
writes (R24, R252). -/
def ControlKept (s u : State) : Prop :=
  controlRegs u = controlRegs s ∧ u.errCode = s.errCode ∧ u.errInfo = s.errInfo

/-- What a completion leaves: the command is over, the control registers are kept, and the error registers are kept or
hold an error of R250. -/
def Completed (s t : State) : Prop :=
  t.busy = false ∧ t.done = true ∧ controlRegs t = controlRegs s ∧
    ((t.errCode = s.errCode ∧ t.errInfo = s.errInfo) ∨ ∃ e : ErrKind, t.errCode = e.code)

theorem finish_completed {s u : State} (h : ControlKept s u) : Completed s u.finish :=
  ⟨rfl, rfl, h.1, .inl h.2⟩

theorem raiseError_completed {s onError : State} (h : ControlKept s onError) (e : ErrKind) (info : Word) :
    Completed s (onError.raiseError e info) :=
  ⟨rfl, rfl, h.1, .inr ⟨e, rfl⟩⟩

theorem conclude_completed {s onError t : State} {r : Except Stop State} (h : conclude onError r = .next t)
    (hok : Yields (ControlKept s) r) (herr : ControlKept s onError) : Completed s t := by
  rcases conclude_eq_next h with ⟨u, hu, rfl⟩ | ⟨e, info, -, rfl⟩
  · exact finish_completed (hok u hu)
  · exact raiseError_completed herr e info

theorem execPqIns_completed {s t : State} (h : execPqIns s = .next t) : Completed s t := by
  refine conclude_completed h ?_ ⟨rfl, rfl, rfl⟩
  split
  · exact .error
  split
  · exact .error
  split
  · exact .error
  · exact .ok ⟨rfl, rfl, rfl⟩

theorem execPqExt_completed {s t : State} (h : execPqExt s = .next t) : Completed s t := by
  refine conclude_completed h ?_ ⟨rfl, rfl, rfl⟩
  split
  · exact .error
  · exact .ok ⟨rfl, rfl, rfl⟩

theorem buildFrom_controlKept (s : State) (freqs : List Word) : Yields (ControlKept s) (s.buildFrom freqs) := by
  rw [State.buildFrom]
  rcases buildTree freqs with ⟨⟨_ | ⟨e, rest⟩, nextSeq⟩, a⟩
  · exact .error
  · exact .ok ⟨rfl, rfl, rfl⟩

theorem exec_completed {i : Instr} {s t : State} (h : exec i s = .next t) : Completed s t := by
  cases i with
  | nop | clear | freqClr | pqClr | codeClr => cases h; exact finish_completed ⟨rfl, rfl, rfl⟩
  | pqIns => exact execPqIns_completed h
  | pqExt => exact execPqExt_completed h
  | build => exact conclude_completed h (.bind (buildFrom_controlKept s)) ⟨rfl, rfl, rfl⟩
  | freqCnt => exact conclude_completed h (.bind fun _ => .bind fun _ => .ok ⟨rfl, rfl, rfl⟩) ⟨rfl, rfl, rfl⟩
  | codegen => exact conclude_completed h (.bind fun _ => .bind fun _ => .ok ⟨rfl, rfl, rfl⟩) ⟨rfl, rfl, rfl⟩
  | number => exact conclude_completed h (.bind fun _ => .bind fun _ => .ok ⟨rfl, rfl, rfl⟩) ⟨rfl, rfl, rfl⟩
  | ser =>
    exact conclude_completed h (.bind fun _ => .bind fun _ => .bind fun _ => .bind fun _ => .ok ⟨rfl, rfl, rfl⟩)
      ⟨rfl, rfl, rfl⟩
  | deser _ =>
    exact conclude_completed h (.bind fun _ => .bind fun _ => .bind fun _ => .ok ⟨rfl, rfl, rfl⟩) ⟨rfl, rfl, rfl⟩
  | pack _ => exact conclude_completed h (.bind fun _ => .ok ⟨rfl, rfl, rfl⟩) ⟨rfl, rfl, rfl⟩
  | unpack _ =>
    exact conclude_completed h
      (.bind fun _ => .bind fun _ => .bind fun _ => .bind fun _ => .bind fun _ => .ok ⟨rfl, rfl, rfl⟩) ⟨rfl, rfl, rfl⟩

/-- An illegal word completes too (R81, R87). -/
theorem engineStep_completed {s t : State} (h : engineStep s = .next t) : Completed s t := by
  rcases engineStep_cases h with ⟨i, -, h⟩ | ⟨-, rfl⟩
  · exact exec_completed h
  · exact raiseError_completed ⟨rfl, rfl, rfl⟩ .illegalCommand s.cmdLast

/-! ### The error latch (R100, R250, R258) -/

theorem code_mem_errorCodes (e : ErrKind) : e.code ∈ errorCodes := by cases e <;> decide

/-- A completion latches an error of R250 or leaves the error registers alone, and nothing is pending after it. -/
theorem Completed.latchInv {s t : State} (h : Completed s t) (hs : LatchInv s) : LatchInv t := by
  obtain ⟨hbusy, -, -, herr⟩ := h
  obtain ⟨-, hcode, hinfo⟩ := hs
  refine ⟨fun hb => Bool.noConfusion (hbusy.symm.trans hb), ?_⟩
  rcases herr with ⟨ecode, einfo⟩ | ⟨e, ecode⟩
  · rw [ecode, einfo]
    exact ⟨hcode, hinfo⟩
  · rw [ecode]
    exact ⟨code_mem_errorCodes e, fun h0 => absurd h0 e.code_ne_zero⟩

/-- A 1 written to STATUS only clears DONE (R23). -/
theorem writeStatus_latchInv {s : State} (hs : LatchInv s) (v : Word) : LatchInv (s.writeStatus v) := by
  obtain ⟨hpending, herr⟩ := hs
  exact ⟨fun hb => ⟨by rw [State.writeStatus_done, (hpending hb).1, Bool.false_and], (hpending hb).2⟩, herr⟩

/-- An offer is accepted without a latched error only (R100). -/
theorem offer_latchInv {s : State} (hs : LatchInv s) (c : Word) : LatchInv (s.offer c) := by
  by_cases h : s.busy = false ∧ s.errCode = 0
  · rw [State.offer_accept h]
    exact ⟨fun _ => ⟨rfl, h.2⟩, hs.2⟩
  · rw [State.offer_drop h]
    exact hs

/-- The return from an error clears the code and the detail (R24). -/
theorem clearError_latchInv {s : State} (hs : LatchInv s) : LatchInv s.clearError :=
  ⟨fun hb => ⟨(hs.1 hb).1, rfl⟩, List.mem_cons_self, fun _ => rfl⟩

theorem writeReg_latchInv {s : State} (hs : LatchInv s) (v : Word) (r : RegName) : LatchInv (s.writeReg v r) := by
  cases r with
  | cmd => exact offer_latchInv hs v
  | status => exact writeStatus_latchInv hs v
  | errCode =>
    rw [State.writeReg]
    split
    · exact clearError_latchInv hs
    · exact hs
  | _ => exact hs

theorem writeTarget_latchInv {s : State} (hs : LatchInv s) (v : Word) (target : BusTarget) :
    LatchInv (s.writeTarget v target) := by
  cases target with
  | reg r => exact writeReg_latchInv hs v r
  | _ => exact hs

theorem writeBusy_latchInv {s : State} (hs : LatchInv s) (v : Word) (target : BusTarget) :
    LatchInv (s.writeBusy v target) := by
  cases target with
  | reg r =>
    cases r with
    | cmd => exact offer_latchInv hs v
    | status => exact writeStatus_latchInv hs v
    | _ => exact hs
  | _ => exact hs

theorem busWrite_latchInv {s t : State} {width : AccessWidth} {a : Addr} {v : Word}
    (h : s.busWrite width a v = .next t) (hs : LatchInv s) : LatchInv t := by
  obtain ⟨-, -, rfl⟩ := busWrite_cases h
  cases hb : s.busy
  · exact writeTarget_latchInv hs v _
  · exact writeBusy_latchInv hs v _

theorem busRead_latchInv {s t : State} {width : AccessWidth} {a : Addr} (h : s.busRead width a = .next t)
    (hs : LatchInv s) : LatchInv t := by
  obtain ⟨w, d, rfl⟩ := busRead_onlyReplies h
  exact hs

end Sys2Proof.Proofs

open Sys2Proof Sys2Proof.Machine Sys2Proof.Safety Sys2Proof.Proofs

/-- Settles O20: a completion ends the pending command, an offer is accepted only without a latched error, and the host
clears ERR_CODE and ERR_INFO together. -/
theorem stepKeepsErrorLatch : Obligations.StepKeepsErrorLatch := by
  intro s t hs h
  obtain ⟨rest, h⟩ := step_cases h
  have hrest : LatchInv { s with host := rest } := hs
  rcases h with ⟨-, h⟩ | ⟨-, rfl⟩ | ⟨width, a, h⟩ | ⟨width, a, v, h⟩ | rfl | ⟨-, rfl⟩ | ⟨-, rfl⟩ | ⟨-, rfl⟩
  · exact (engineStep_completed h).latchInv hrest
  · exact hs
  · exact busRead_latchInv h hrest
  · exact busWrite_latchInv h hrest
  · exact resetWith_latchInv s.params
  · exact hs
  · exact hs
  · exact hs

/-- Settles O7: each register read off what a completion leaves. -/
theorem completionEndsTheCommand : Obligations.CompletionEndsTheCommand := by
  intro i s t h
  obtain ⟨hbusy, hdone, hregs, herr⟩ := exec_completed h
  obtain ⟨hparams, hcmd, hdropped, hirq, hend, h0, h1, h2, hhost, hreply, hstop⟩ := ControlRegs.mk.inj hregs
  exact ⟨hbusy, hdone, hcmd, hdropped, hirq, hend, h0, h1, h2, hparams, hhost, hreply, hstop, herr⟩
end

section
/-! The pending command and the offer, step by step (R100, R101). -/

namespace Sys2Proof.Proofs

open Sys2Proof.Machine

/-- A write to CMD is an offer, whether or not a command is pending (R69, R100). -/
theorem busWrite_cmd (s : State) (c : Word) :
    s.busWrite .word 0x000010#22 c = .next { s.offer c with reply := .written } := by
  cases hb : s.busy with
  | false => exact busWrite_reg hb .cmd c
  | true => exact busWrite_busyReg hb .cmd c

theorem step_offer {s : State} {c : Word} {rest : List HostOp} (hh : s.host = .write .word 0x000010#22 c :: rest) :
    step s = .next { State.offer { s with host := rest } c with reply := .written } :=
  (step_cons hh).trans (busWrite_cmd { s with host := rest } c)

theorem step_idle {s : State} {rest : List HostOp} (hb : s.busy = true) (hh : s.host = .idle :: rest) :
    step s = engineStep { s with host := rest } := by
  rw [step_cons hh]
  exact engineTurn_busy (s := { s with host := rest }) hb

/-- While a command is pending `wait` stays where it is in the host's list (R92). -/
theorem step_wait {s : State} {rest : List HostOp} (hb : s.busy = true) (hh : s.host = .wait :: rest) :
    step s = engineStep s := by
  rw [step_cons hh, hostTurn, if_pos hb, ← hh]

end Sys2Proof.Proofs

open Sys2Proof Sys2Proof.Machine Sys2Proof.Proofs

/-- Settles O4: each of the three hosts leaves the turn to the engine. -/
theorem stepRunsDecodedCommand : Obligations.StepRunsDecodedCommand := by
  refine ⟨fun s i hb hd => ⟨fun hh => ?_, fun rest hh => ?_, fun rest hh => ?_⟩, fun s hb hh => ?_⟩
  · rw [step_pending hb hh, engineStep_ok hd]
  · rw [step_idle hb hh]
    exact engineStep_ok (s := { s with host := rest }) hd
  · rw [step_wait hb hh, engineStep_ok hd]
  · rw [step_nil hh, engineTurn_quiet hb]

/-- Settles O6: the two branches of the offer. -/
theorem commandOfferAcceptsOrDrops : Obligations.CommandOfferAcceptsOrDrops := by
  intro s c rest hh
  rw [step_offer hh]
  refine ⟨fun h => ?_, fun h => ?_⟩
  · rw [State.offer_accept (s := { s with host := rest }) h]
    rfl
  · rw [State.offer_drop (s := { s with host := rest }) h]
    rfl
end

section
/-! Rules that end without a fault: the checks, the readers of written memory, PACK and BUILD (R101, R255, U1). -/

namespace Sys2Proof.Proofs

open Sys2Proof.Machine Sys2Proof.Safety

/-- A rule that ends as R101 says: with a result, or with an error of R250. -/
def NoFault {α : Type} (r : Except Stop α) : Prop := ∀ f, r ≠ .error (.fault f)

theorem NoFault.ok {α : Type} {a : α} : NoFault (.ok a) := nofun

theorem NoFault.raise {α : Type} (e : ErrKind) (info : Word) : NoFault (raise e info : Except Stop α) := nofun

theorem NoFault.of_ok {α : Type} {r : Except Stop α} {a : α} (h : r = .ok a) : NoFault r := h ▸ .ok

theorem NoFault.bind {α β : Type} {x : Except Stop α} {f : α → Except Stop β} (hx : NoFault x)
    (hf : ∀ a, x = .ok a → NoFault (f a)) : NoFault (x >>= f) := fun e he => by
  rcases except_bind_eq_error.1 he with he | ⟨a, ha, he⟩
  · exact hx e he
  · exact hf a ha e he

theorem NoFault.collect {α : Type} {f : Nat → Except Stop α} {a n : Nat} (h : ∀ i, i < n → NoFault (f (a + i))) :
    NoFault (collect f a n) := fun e he => by
  obtain ⟨i, hi, hf, -⟩ := collect_error he
  exact h i hi e hf

/-- A command whose rule meets no fault answers a next state. -/
theorem conclude_answers {r : Except Stop State} (h : NoFault r) (onError : State) :
    ∃ t, conclude onError r = .next t := by
  rcases r with (⟨e, info⟩ | f) | u
  · exact ⟨_, rfl⟩
  · exact absurd rfl (h f)
  · exact ⟨_, rfl⟩

/-! ### Checks (R255) -/

theorem checkTree_noFault (s : State) : NoFault s.checkTree := by
  rw [State.checkTree]
  split
  · exact .ok
  · exact .raise _ _

theorem checkSrc_noFault (s : State) : NoFault s.checkSrc := by
  rw [State.checkSrc]
  split
  · exact .raise _ _
  split
  · exact .raise _ _
  · exact .ok

theorem checkDstRoom_noFault (s : State) (m : Nat) : NoFault (s.checkDstRoom m) := by
  rw [State.checkDstRoom]
  split
  · exact .raise _ _
  split
  · exact .raise _ _
  · exact .ok

/-! ### Written memory (U1) -/

theorem fetchByte_noFault {m : Memory} {a : Nat} {b : Byte} (h : m.read a = some b) : NoFault (fetchByte m a) :=
  .of_ok (fetchByte_ok.2 h)

/-- Every byte of IN has been written. -/
def InWritten (s : State) : Prop := ∀ a, a < s.params.inSize → ∃ b, s.mem.read (inAddr a) = some b

/-- Every byte of FREQ has been written. -/
def FreqWritten (s : State) : Prop := ∀ sym, sym < 256 → ∃ f, freqIs s sym f

/-- Every byte of CODE has been written. -/
def CodeWritten (s : State) : Prop := ∀ sym, sym < 256 → ∃ len val, codeIs s sym len val

/-- Every byte of IN below SRC_END can be consumed. -/
def SrcReads (s : State) : Prop := ∀ a, a < s.srcEnd.toNat → NoFault (s.inByte a)

/-- check_src bounds SRC_END by the size of IN (R255). -/
theorem srcReads {s : State} (h : InWritten s) (hc : s.checkSrc = .ok ()) : SrcReads s := fun a ha => by
  obtain ⟨b, hb⟩ := h a (ha.trans_le (State.checkSrc_ok.1 hc).1)
  exact fetchByte_noFault hb

theorem srcBytes_noFault {s : State} (h : SrcReads s) : NoFault s.srcBytes :=
  .collect fun i hi => h _ (by unfold State.srcLen at hi; omega)

theorem freqTable_noFault {s : State} (h : FreqWritten s) : NoFault s.freqTable :=
  .collect fun i hi => by
    obtain ⟨f, hf⟩ := h (0 + i) (by omega)
    exact .of_ok (fetchWord_ok hf)

/-- Of a code at most 255 bits long PACK consumes no byte beyond the 32 of its value (R45). -/
theorem symbolCode_noFault {s : State} (h : CodeWritten s) (sym : Byte) : NoFault (s.symbolCode sym) := by
  obtain ⟨len, val, hlen, hval⟩ := h sym.toNat sym.isLt
  refine .bind (fetchByte_noFault hlen) fun len' _ => ?_
  have hlt := len'.isLt
  split
  · exact .raise _ _
  · exact .bind (.collect fun i hi => fetchByte_noFault (hval i (by omega))) fun _ _ => .ok

/-! ### The packer (R210) -/

theorem emitByte_noFault (s : State) (v : Byte) (k : PackState) : NoFault (s.emitByte v k) := by
  rw [State.emitByte]
  split
  · exact .raise _ _
  · exact .ok

theorem emitAll_noFault (s : State) (bs : List Byte) (k : PackState) : NoFault (s.emitAll bs k) := by
  induction bs generalizing k with
  | nil => exact .ok
  | cons b bs ih => exact .bind (emitByte_noFault s b k) fun k' _ => ih k'

theorem drainBits_noFault (s : State) (c : Bits) (k : PackState) : NoFault (s.drainBits c k) := by
  induction c, k using State.drainBits.induct with
  | case1 b₀ b₁ b₂ b₃ b₄ b₅ b₆ b₇ rest k ih => exact .bind (emitByte_noFault s _ k) fun k' _ => ih k'
  | case2 c k hc =>
    rw [State.drainBits]
    · exact .ok
    · exact hc

theorem packFrom_noFault {s : State} (hs : SrcReads s) (hcode : CodeWritten s) {a n : Nat} (k : PackState)
    (h : a + n ≤ s.srcEnd.toNat) : NoFault (s.packFrom a n k) := by
  induction n generalizing a k with
  | zero => exact .ok
  | succ n ih =>
    have hpack (sym : Byte) : NoFault (s.packSymbol sym k) :=
      .bind (symbolCode_noFault hcode sym) fun c _ => drainBits_noFault s _ _
    exact .bind (hs a (by omega)) fun sym _ => .bind (hpack sym) fun k' _ => ih k' (by omega)

theorem padTail_noFault (s : State) (k : PackState) : NoFault (s.padTail k) := by
  rw [State.padTail]
  split
  · exact .ok
  · exact emitByte_noFault s _ k

theorem packAll_noFault {s : State} (hin : InWritten s) (hcode : CodeWritten s) (sized : Bool) :
    NoFault (s.packAll sized) := by
  refine .bind (checkSrc_noFault s) fun _ hc => ?_
  have hrange := (State.checkSrc_ok.1 hc).2
  split
  · exact .raise _ _
  · refine .bind (emitAll_noFault s _ _) fun k₀ _ => .bind (packFrom_noFault (srcReads hin hc) hcode k₀ ?_) fun k₁ _ =>
      padTail_noFault s k₁
    unfold State.srcLen
    omega

theorem buildFrom_noFault (s : State) (freqs : List Word) : NoFault (s.buildFrom freqs) := by
  rw [State.buildFrom]
  rcases buildTree freqs with ⟨⟨_ | ⟨e, rest⟩, nextSeq⟩, a⟩
  · exact .raise _ _
  · exact .ok

end Sys2Proof.Proofs
end

section
/-! DESER meets no fault (R191): the records lie below SRC_END, and the fuel lasts for the walk of either strategy. -/

namespace Sys2Proof.Proofs

open Sys2Proof.Machine Sys2Proof.Safety

theorem nodeCountByte_noFault {s : State} (hs : SrcReads s) : NoFault s.nodeCountByte := by
  rw [State.nodeCountByte]
  split
  · exact .raise _ _
  next hlen =>
    unfold State.srcLen at hlen
    refine .bind (hs _ (by omega)) fun n _ => ?_
    split
    · exact .raise _ _
    split
    · exact .raise _ _
    · exact .ok

/-- The records of a header that passed R186 (c) lie below SRC_END. -/
theorem nodeCountByte_records {s : State} {n : Nat} (h : s.nodeCountByte = .ok n) :
    s.srcPtr.toNat + 1 + 4 * n ≤ s.srcEnd.toNat := by
  rw [State.nodeCountByte] at h
  split at h
  · cases h
  · obtain ⟨b, -, h⟩ := except_bind_eq_ok.1 h
    split at h
    · cases h
    split at h
    · cases h
    next hlen =>
      cases h
      unfold State.srcLen at hlen
      omega

/-! ### What the walks leave -/

/-- The general walk forgets no record it has visited (R187). -/
theorem genChild_visited_le {s : State} {n x : Nat} {walk : Nat → GenState → Except Stop (GenState × Ref)}
    {internal : Bool} {g g' : GenState} {o : Option Ref}
    (hw : ∀ i g' r, walk i g = .ok (g', r) → g.visited.length ≤ g'.visited.length)
    (h : s.genChild n x walk internal g = .ok (g', o)) : g.visited.length ≤ g'.visited.length := by
  cases internal with
  | false => cases h; exact Nat.le_refl _
  | true =>
    obtain ⟨d, -, h⟩ := except_bind_eq_ok.1 h
    split at h
    · cases h
    · obtain ⟨⟨g₁, r⟩, hr, h⟩ := except_bind_eq_ok.1 h
      cases h
      exact hw _ _ _ hr

theorem genTree_visited_le {s : State} {base n fuel i : Nat} {g g' : GenState} {ref : Ref}
    (h : s.genTree base n fuel i g = .ok (g', ref)) : g.visited.length ≤ g'.visited.length := by
  induction fuel generalizing i g g' ref with
  | zero => cases h
  | succ fuel ih =>
    obtain ⟨lt, rt, g₁, l, g₂, r, hl, hr, -, hg⟩ := genTree_succ_ok h
    have h₁ := genChild_visited_le (fun _ _ _ => ih) hl
    have h₂ := genChild_visited_le (fun _ _ _ => ih) hr
    rw [List.length_cons] at h₁
    rw [hg]
    omega

/-- The postorder walk only goes down in the records (R188). -/
theorem postChild_left_le {s : State} {x : Nat} {walk : Nat → Arena → Except Stop (PostState × Ref)} {internal : Bool}
    {p p' : PostState} {o : Option Ref} (hw : ∀ j p' r, walk j p.arena = .ok (p', r) → p'.left ≤ j)
    (h : s.postChild x walk internal p = .ok (p', o)) : p'.left ≤ p.left := by
  cases internal with
  | false => cases h; exact Nat.le_refl _
  | true =>
    simp only [State.postChild, if_true] at h
    split at h
    · cases h
    next j hj =>
      obtain ⟨⟨p₁, r⟩, hr, h⟩ := except_bind_eq_ok.1 h
      cases h
      exact (hw _ _ _ hr).trans (by omega)

theorem postTree_left_le {s : State} {base fuel i : Nat} {a : Arena} {p' : PostState} {ref : Ref}
    (h : s.postTree base fuel i a = .ok (p', ref)) : p'.left ≤ i := by
  induction fuel generalizing i a p' ref with
  | zero => cases h
  | succ fuel ih =>
    obtain ⟨lt, rt, p₁, r, p₂, l, hr, hl, -, hp⟩ := postTree_succ_ok h
    rw [hp]
    exact (postChild_left_le (fun _ _ _ => ih) hl).trans (postChild_left_le (fun _ _ _ => ih) hr)

/-! ### The walks -/

theorem postChild_noFault {s : State} {walk : Nat → Arena → Except Stop (PostState × Ref)} {p : PostState}
    (hw : ∀ j, j < p.left → NoFault (walk j p.arena)) (x : Nat) (internal : Bool) :
    NoFault (s.postChild x walk internal p) := by
  cases internal with
  | false => exact .ok
  | true =>
    simp only [State.postChild, if_true]
    split
    · exact .raise _ _
    next j hj => exact .bind (hw j (by omega)) fun _ _ => .ok

section

variable {s : State} {base n : Nat} (hs : SrcReads s) (hrec : base + 4 * n ≤ s.srcEnd.toNat)
include hs hrec

theorem recByte_noFault {i f : Nat} (hi : i < n) (hf : f < 4) : NoFault (s.inByte (recOff base i f)) :=
  hs _ (by unfold recOff; omega)

theorem childType_noFault {i f : Nat} (hi : i < n) (hf : f < 4) : NoFault (s.childType (recOff base i f)) := by
  refine .bind (recByte_noFault hs hrec hi hf) fun b _ => ?_
  split
  · exact .ok
  split
  · exact .ok
  · exact .raise _ _

theorem createChild_noFault {i f : Nat} (hi : i < n) (hf : f < 4) (o : Option Ref) (a : Arena) :
    NoFault (s.createChild o (recOff base i f) a) := by
  cases o with
  | some r => exact .ok
  | none => exact .bind (recByte_noFault hs hrec hi hf) fun _ _ => .ok

theorem createNode_noFault {i : Nat} (hi : i < n) (l r : Option Ref) (a : Arena) :
    NoFault (s.createNode base i l r a) :=
  .bind (createChild_noFault hs hrec hi (by decide) l a) fun b _ =>
    .bind (createChild_noFault hs hrec hi (by decide) r b.1) fun _ _ => .ok

theorem genChild_noFault {i f : Nat} (hi : i < n) (hf : f < 4) {walk : Nat → GenState → Except Stop (GenState × Ref)}
    {g : GenState} (hv : Visited n g.visited) (hw : ∀ d, Visited n (d :: g.visited) → NoFault (walk d g))
    (internal : Bool) : NoFault (s.genChild n (recOff base i f) walk internal g) := by
  cases internal with
  | false => exact .ok
  | true =>
    refine .bind (recByte_noFault hs hrec hi hf) fun d _ => ?_
    split
    · exact .raise _ _
    next hd =>
      rw [not_or, Nat.not_le, List.contains_iff_mem] at hd
      exact .bind (hw _ ⟨List.nodup_cons.2 ⟨hd.2, hv.1⟩, List.forall_mem_cons.2 ⟨hd.1, hv.2⟩⟩) fun _ _ => .ok

/-- The general walk (R187) visits no record twice, so fuel for the records not yet visited lasts. -/
theorem genTree_noFault (hn : n ≤ 255) {fuel i : Nat} {g : GenState} (hv : Visited n (i :: g.visited))
    (hfuel : n ≤ fuel + g.visited.length) : NoFault (s.genTree base n fuel i g) := by
  induction fuel generalizing i g with
  | zero =>
    have := hv.length_le
    rw [List.length_cons] at this
    omega
  | succ fuel ih =>
    have hi : i < n := hv.2 i List.mem_cons_self
    refine .bind (childType_noFault hs hrec hi (by decide)) fun lt _ =>
      .bind (childType_noFault hs hrec hi (by decide)) fun rt _ =>
      .bind (genChild_noFault hs hrec hi (by decide) hv (fun d hd => ih hd ?_) lt) fun ⟨g₁, l⟩ h₁ =>
      .bind (genChild_noFault hs hrec hi (by decide) ?_ (fun d hd => ih hd ?_) rt) fun ⟨g₂, r⟩ _ =>
      .bind (createNode_noFault hs hrec hi l r g₂.arena) fun _ _ => .ok
    · rw [List.length_cons]
      omega
    · exact (genChild_grows hv (fun _ _ _ => genTree_grows hn) h₁).1
    · have := genChild_visited_le (fun _ _ _ => genTree_visited_le) h₁
      rw [List.length_cons] at this
      omega

/-- The postorder walk (R188) goes down in the records, so fuel for the records below lasts. -/
theorem postTree_noFault {fuel i : Nat} (a : Arena) (hi : i < n) (hfuel : i < fuel) :
    NoFault (s.postTree base fuel i a) := by
  induction fuel generalizing i a with
  | zero => omega
  | succ fuel ih =>
    have below (j : Nat) (hj : j < i) (a : Arena) : NoFault (s.postTree base fuel j a) := ih a (by omega) (by omega)
    exact .bind (childType_noFault hs hrec hi (by decide)) fun lt _ =>
      .bind (childType_noFault hs hrec hi (by decide)) fun rt _ =>
      .bind (postChild_noFault (fun j hj => below j hj _) _ rt) fun ⟨p₁, r⟩ h₁ =>
      have hle : p₁.left ≤ i := postChild_left_le (fun _ _ _ => postTree_left_le) h₁
      .bind (postChild_noFault (fun j hj => below j (Nat.lt_of_lt_of_le hj hle) _) _ lt) fun ⟨p₂, l⟩ _ =>
      .bind (createNode_noFault hs hrec hi l r p₂.arena) fun _ _ => .ok

theorem readTree_noFault (hpos : 1 ≤ n) (hn : n ≤ 255) (postorder : Bool) : NoFault (s.readTree postorder base n) := by
  cases postorder with
  | true => exact .bind (postTree_noFault hs hrec _ (by omega) (by omega)) fun _ _ => .ok
  | false =>
    have hv : Visited n [n - 1] :=
      ⟨List.nodup_singleton _, fun i hi => List.mem_singleton.1 hi ▸ Nat.sub_lt hpos Nat.one_pos⟩
    exact .bind (genTree_noFault hs hrec hn hv (Nat.le_add_right _ _)) fun _ _ => .ok

end

end Sys2Proof.Proofs
end

section
/-! The tree commands meet no fault on a valid tree (R14): their walks find a node at every reference. -/

namespace Sys2Proof.Proofs

open Sys2Proof.Machine Sys2Proof.Safety

/-! ### Numbering (R165) -/

/-- post(r) walks a tree to its end: what it numbers on the left keeps the tree on the right. -/
theorem numberFrom_noFault {fuel : Nat} {r : Ref} {b : List Node × Nat} {T : HTree} (h : treeAt b.1 fuel r = some T) :
    NoFault (numberFrom fuel r b) := by
  induction fuel generalizing r b T with
  | zero => cases h
  | succ fuel ih =>
    obtain ⟨nodes, n⟩ := b
    rcases treeAt_cases h with ⟨sym, hn, rfl⟩ | ⟨l, rt, num, tl, tr, hn, hl, hr, rfl⟩
    · rw [numberFrom, hn]
      exact .ok
    · rw [numberFrom, hn]
      exact .bind (ih hl) fun b₁ h₁ => .bind (ih ((treeAt_congr (numberFrom_shape h₁) fuel rt).trans hr)) fun _ _ => .ok

theorem numberTree_noFault {s : State} {T : HTree} (h : treeOf s = some T) :
    NoFault (numberTree s.arena.nodes s.root) :=
  numberFrom_noFault ((treeAt_congr (by simp [Function.comp_def]) _ _).trans h)

/-! ### The header SER writes (R167 to R169) -/

theorem childBytes_noFault {nodes : List Node} {c : Ref} (h : c.toNat < nodes.length) :
    NoFault (childBytes nodes c) := by
  rw [childBytes, List.getElem?_eq_getElem h]
  cases nodes[c.toNat] <;> exact .ok

/-- record(v) (R169) is that of a node with the number. -/
theorem recordOf_of_number {nodes : List Node} {i : Nat} {n : Node} (hn : n ∈ nodes) (hnum : nodeNum n = some i) :
    ∃ l rt num, .internal l rt num ∈ nodes ∧ recordOf nodes i = do
      let lb ← childBytes nodes l
      let rb ← childBytes nodes rt
      return lb ++ rb := by
  obtain _ | ⟨l, rt, num⟩ := n
  · cases hnum
  · obtain rfl : num.toNat = i := Option.some.inj hnum
    rw [recordOf]
    generalize hf : List.find? _ nodes = found
    rcases found with _ | (sym | ⟨l', rt', num'⟩)
    · exact absurd (by simp) (List.find?_eq_none.1 hf _ hn)
    · exact absurd (List.find?_some hf) Bool.false_ne_true
    · exact ⟨l', rt', num', List.mem_of_find?_eq_some hf, rfl⟩

theorem recordOf_noFault {a : Arena} {root : Ref} (h : ArenaInv a root) {n : Node} {i : Nat} (hn : n ∈ a.nodes)
    (hnum : nodeNum n = some i) : NoFault (recordOf a.nodes i) := by
  obtain ⟨l, rt, num, hmem, hrec⟩ := recordOf_of_number hn hnum
  obtain ⟨-, -, hlt, -, -⟩ := h
  obtain ⟨r, hr, hnode⟩ := List.mem_iff_getElem.1 hmem
  have hchild (c : Ref) (hc : c.toNat ∈ children (.internal l rt num)) : NoFault (childBytes a.nodes c) :=
    childBytes_noFault ((hlt r hr _ (hnode ▸ hc)).trans hr)
  rw [hrec]
  exact .bind (hchild l (by simp [children])) fun _ _ => .bind (hchild rt (by simp [children])) fun _ _ => .ok

theorem leaf_of_isLeaf {o : Option Node} (h : (o.map Node.isLeaf).getD false = true) : ∃ sym, o = some (.leaf sym) := by
  obtain _ | (sym | ⟨l, rt, num⟩) := o
  · cases h
  · exact ⟨sym, rfl⟩
  · cases h

/-- LEAF_ROOT = 1 tells a leaf at the root, before and after numbering (R30, R165). -/
theorem root_leaf_of_numberTree {s : State} (h : TreeInv s) (hv : s.treeValid = true) (hroot : s.leafRoot = true)
    {nodes : List Node} {n : Nat} (hn : numberTree s.arena.nodes s.root = .ok (nodes, n)) :
    ∃ sym, nodes[s.root.toNat]? = some (.leaf sym) := by
  obtain ⟨-, hleaf⟩ := h.1 hv
  have e := congrArg (fun l => (l[s.root.toNat]?.map Node.isLeaf).getD false) (numberTree_shape hn)
  simp only [List.getElem?_map, Option.map_map, Function.comp_def, Node.clearNum_isLeaf] at e
  exact leaf_of_isLeaf (e.trans (hleaf.symm.trans hroot))

/-- With the nodes of a valid tree numbered, every record of the header is there (R166). -/
theorem headerBytes_noFault {s : State} (h : TreeInv s) (hv : s.treeValid = true) {nodes : List Node} {n : Nat}
    (hn : numberTree s.arena.nodes s.root = .ok (nodes, n)) : NoFault (s.headerBytes nodes) := by
  rw [State.headerBytes]
  split
  next hroot =>
    obtain ⟨sym, hsym⟩ := root_leaf_of_numberTree h hv hroot hn
    rw [hsym]
    exact .ok
  next =>
    obtain ⟨harena, -⟩ := h.1 hv
    refine .bind (.collect fun i hi => ?_) fun _ _ => .ok
    have hmem := (numberTree_perm harena hn).mem_iff.2 (List.mem_range.2 hi)
    obtain ⟨node, hnode, hnum⟩ := List.mem_filterMap.1 hmem
    have hnumbered : ArenaInv ⟨nodes, s.arena.internalCount⟩ s.root :=
      arenaInv_of_clearNum harena (numberTree_shape hn) rfl
    exact recordOf_noFault hnumbered hnode (by rw [hnum, Nat.zero_add])

/-! ### The unpacker (R225, R226) -/

theorem leaf_of_treeAt {nodes : List Node} {fuel : Nat} {r : Ref} {sym : Byte}
    (h : treeAt nodes fuel r = some (.leaf sym)) : nodes[r.toNat]? = some (.leaf sym) := by
  cases fuel with
  | zero => cases h
  | succ fuel =>
    rcases treeAt_cases h with ⟨_, hn, he⟩ | ⟨_, _, _, _, _, -, -, -, he⟩
    · cases he; exact hn
    · cases he

section

variable {s : State} (hs : SrcReads s) {p : Nat}
include hs

/-- A bit below the end of the payload lies in a byte below SRC_END. -/
theorem nextBit_noFault (j k : Nat) : NoFault (s.nextBit p (8 * (s.srcEnd.toNat - p)) j k) := by
  rw [State.nextBit]
  split
  · exact .raise _ _
  · exact .bind (hs _ (by omega)) fun _ _ => .ok

/-- decode_one() below an internal node of a tree (R226): every child is a leaf or an internal node of the tree. -/
theorem descend_noFault {fuel : Nat} {r : Ref} {tl tr : HTree} (h : treeAt s.arena.nodes fuel r = some (.node tl tr))
    (j k : Nat) : NoFault (s.descend p (8 * (s.srcEnd.toNat - p)) j fuel r k) := by
  induction fuel generalizing r tl tr k with
  | zero => cases h
  | succ fuel ih =>
    obtain ⟨sym, -, h⟩ | ⟨l, rt, num, tl', tr', hn, hl, hr, -⟩ := treeAt_cases h
    · cases h
    · have hnode : s.node r = some (.internal l rt num) := hn
      rw [State.descend, hnode]
      refine .bind (nextBit_noFault hs j k) fun b _ => ?_
      obtain ⟨T, hT⟩ : ∃ T, treeAt s.arena.nodes fuel (if b then rt else l) = some T := by
        cases b
        · exact ⟨tl', hl⟩
        · exact ⟨tr', hr⟩
      dsimp only
      split
      · exact .ok
      next hno =>
        cases T with
        | leaf sym => exact absurd (leaf_of_treeAt hT) (hno sym)
        | node tl tr => exact ih hT (k + 1)

theorem decodeOne_noFault {T : HTree} (h : treeOf s = some T) (j k : Nat) :
    NoFault (s.decodeOne p (8 * (s.srcEnd.toNat - p)) j k) := by
  rw [State.decodeOne]
  split
  · refine .bind (nextBit_noFault hs j k) fun b _ => ?_
    split
    · exact .raise _ _
    · exact .ok
  next hno =>
    cases T with
    | leaf sym => exact absurd (leaf_of_treeAt h) (hno sym)
    | node tl tr => exact descend_noFault hs h j k

theorem decodeFrom_noFault {T : HTree} (h : treeOf s = some T) (n j k : Nat) :
    NoFault (s.decodeFrom p (8 * (s.srcEnd.toNat - p)) n j k) := by
  induction n generalizing j k with
  | zero => exact .ok
  | succ n ih =>
    exact .bind (decodeOne_noFault hs h j k) fun ⟨sym, k'⟩ _ => .bind (ih (j + 1) k') fun _ _ => .ok

theorem expectedCount_noFault (sized : Bool) : NoFault (s.expectedCount sized) := by
  cases sized with
  | false => exact .ok
  | true =>
    rw [State.expectedCount, if_pos rfl]
    split
    · exact .raise _ _
    next hlen =>
      unfold State.srcLen at hlen
      exact .bind (.bind (.collect fun i hi => hs _ (by omega)) fun _ _ => .ok) fun _ _ => .ok

end

end Sys2Proof.Proofs
end

section
/-! Every command completes on a valid tree and written memory (R101). -/

namespace Sys2Proof.Proofs

open Sys2Proof.Machine Sys2Proof.Safety

theorem execFreqCnt_answers {s : State} (hin : InWritten s) : ∃ t, execFreqCnt s = .next t :=
  conclude_answers (.bind (checkSrc_noFault s) fun _ hc => .bind (srcBytes_noFault (srcReads hin hc)) fun _ _ => .ok) _

theorem execPqIns_answers (s : State) : ∃ t, execPqIns s = .next t := by
  refine conclude_answers ?_ _
  split
  · exact .raise _ _
  split
  · exact .raise _ _
  split
  · exact .raise _ _
  · exact .ok

theorem execPqExt_answers (s : State) : ∃ t, execPqExt s = .next t := by
  refine conclude_answers ?_ _
  split
  · exact .raise _ _
  · exact .ok

theorem execBuild_answers {s : State} (hfreq : FreqWritten s) : ∃ t, execBuild s = .next t :=
  conclude_answers (.bind (freqTable_noFault hfreq) fun freqs _ => buildFrom_noFault s freqs) _

theorem execDeser_answers {s : State} (hin : InWritten s) (postorder : Bool) : ∃ t, execDeser postorder s = .next t :=
  conclude_answers (.bind (checkSrc_noFault s) fun _ hc =>
    have hs := srcReads hin hc
    .bind (nodeCountByte_noFault hs) fun _ hn =>
    have hcount := nodeCountByte_ok hn
    .bind (readTree_noFault hs (nodeCountByte_records hn) hcount.1 hcount.2 postorder) fun _ _ => .ok) _

theorem execPack_answers {s : State} (hin : InWritten s) (hcode : CodeWritten s) (sized : Bool) :
    ∃ t, execPack sized s = .next t :=
  conclude_answers (.bind (packAll_noFault hin hcode sized) fun _ _ => .ok) _

section

variable {s : State} (h : TreeInv s)
include h

theorem execCodegen_answers : ∃ t, execCodegen s = .next t := by
  refine conclude_answers (.bind (checkTree_noFault s) fun _ hc => .bind ?_ fun _ _ => .ok) _
  obtain ⟨T, hT, -⟩ := h.exists_tree (State.checkTree_ok.1 hc)
  rcases treeCodes_cases hT with ⟨sym, h⟩ | h <;> exact .of_ok h

theorem execNumber_answers : ∃ t, execNumber s = .next t := by
  refine conclude_answers (.bind (checkTree_noFault s) fun _ hc => .bind ?_ fun _ _ => .ok) _
  obtain ⟨T, hT, -⟩ := h.exists_tree (State.checkTree_ok.1 hc)
  exact numberTree_noFault hT

theorem execSer_answers : ∃ t, execSer s = .next t := by
  refine conclude_answers (.bind (checkTree_noFault s) fun _ hc => ?_) _
  have hv := State.checkTree_ok.1 hc
  obtain ⟨T, hT, -⟩ := h.exists_tree hv
  exact .bind (numberTree_noFault hT) fun ⟨nodes, _⟩ hn => .bind (headerBytes_noFault h hv hn) fun bytes _ =>
    .bind (checkDstRoom_noFault s bytes.length) fun _ _ => .ok

theorem execUnpack_answers (hin : InWritten s) (sized : Bool) : ∃ t, execUnpack sized s = .next t := by
  refine conclude_answers (.bind (checkTree_noFault s) fun _ hc => .bind (checkSrc_noFault s) fun _ hsrc => ?_) _
  have hs := srcReads hin hsrc
  obtain ⟨T, hT, -⟩ := h.exists_tree (State.checkTree_ok.1 hc)
  exact .bind (expectedCount_noFault hs sized) fun ⟨count, p⟩ _ => .bind (checkDstRoom_noFault s count) fun _ _ =>
    .bind (decodeFrom_noFault hs hT count 0 0) fun _ _ => .ok

theorem exec_answers (hfreq : FreqWritten s) (hcode : CodeWritten s) (hin : InWritten s) (i : Instr) :
    ∃ t, exec i s = .next t := by
  cases i with
  | nop | clear | freqClr | pqClr | codeClr => exact ⟨_, rfl⟩
  | freqCnt => exact execFreqCnt_answers hin
  | pqIns => exact execPqIns_answers s
  | pqExt => exact execPqExt_answers s
  | build => exact execBuild_answers hfreq
  | codegen => exact execCodegen_answers h
  | number => exact execNumber_answers h
  | ser => exact execSer_answers h
  | deser postorder => exact execDeser_answers hin postorder
  | pack sized => exact execPack_answers hin hcode sized
  | unpack sized => exact execUnpack_answers h hin sized

end

end Sys2Proof.Proofs

open Sys2Proof Sys2Proof.Machine Sys2Proof.Safety Sys2Proof.Proofs

/-- Settles O59: no rule meets a fault, and what answers is a completion. -/
theorem everyCommandCompletesOnDefinedMemory : Obligations.EveryCommandCompletesOnDefinedMemory := by
  intro i s htree hfreq hcode hin
  obtain ⟨t, ht⟩ := exec_answers htree hfreq hcode hin i
  obtain ⟨hbusy, hdone, -⟩ := exec_completed ht
  exact ⟨t, ht, hbusy, hdone⟩
end

section
/-! The queue commands (R110 to R112): the operands of PQ.INS as numbers (R86), the words PQ.EXT writes, and how each
command answers. -/

namespace Sys2Proof.Machine

variable {s : State}

theorem weightOperand_eq_ofNat (s : State) :
    s.weightOperand = BitVec.ofNat 64 (s.arg1.toNat * 2 ^ 32 + s.arg0.toNat) := by
  apply BitVec.eq_of_toNat_eq
  have h₁ := s.arg1.isLt
  have h₀ := s.arg0.isLt
  rw [State.weightOperand, BitVec.toNat_append, ← Nat.shiftLeft_add_eq_or_of_lt h₀, Nat.shiftLeft_eq,
    BitVec.toNat_ofNat, Nat.mod_eq_of_lt (by omega)]

/-- The sign of W is ARG1[31], the bit PQ.INS tests (R111). -/
theorem weightOperand_msb (s : State) : s.weightOperand.msb = s.arg1.getLsbD 31 := by
  rw [State.weightOperand, BitVec.msb_append, if_neg (by decide), BitVec.msb_eq_getLsbD_last]

theorem weightOperand_nonneg (hw : s.arg1.getLsbD 31 = false) : ¬ s.weightOperand.msb = true :=
  Bool.eq_false_iff.1 ((weightOperand_msb s).trans hw)

theorem tagOperand_eq_ofNat (s : State) : s.tagOperand = BitVec.ofNat 16 s.arg2.toNat := rfl

theorem exec_pqIns_negative (hw : s.arg1.getLsbD 31 = true) :
    exec .pqIns s = .next (s.raiseError .negativeWeight s.arg1) := by
  rw [exec, execPqIns, if_pos ((weightOperand_msb s).trans hw), conclude_raise]

theorem exec_pqIns_full (hw : s.arg1.getLsbD 31 = false) (hl : s.queue.entries.length = Config.pqCap) :
    exec .pqIns s = .next (s.raiseError .queueOverflow 0) := by
  rw [exec, execPqIns, if_neg (weightOperand_nonneg hw), if_pos hl, conclude_raise]

theorem exec_pqIns_exhausted (hw : s.arg1.getLsbD 31 = false) (hl : s.queue.entries.length ≠ Config.pqCap)
    (hs : s.queue.nextSeq = 0xFFFFFFFF#32) : exec .pqIns s = .next (s.raiseError .queueOverflow 1) := by
  rw [exec, execPqIns, if_neg (weightOperand_nonneg hw), if_neg hl, if_pos hs, conclude_raise]

theorem exec_pqIns_insert (hw : s.arg1.getLsbD 31 = false) (hl : s.queue.entries.length ≠ Config.pqCap)
    (hs : s.queue.nextSeq ≠ 0xFFFFFFFF#32) :
    exec .pqIns s = .next (State.finish (({ s with queue := s.queue.insert s.weightOperand s.tagOperand }).withRes
      s.queue.nextSeq (BitVec.ofNat 32 (s.queue.entries.length + 1)) 0 0)) := by
  rw [exec, execPqIns, if_neg (weightOperand_nonneg hw), if_neg hl, if_neg hs]
  simp only [conclude_ok, PQueue.insert_entries, List.length_append, List.length_singleton]

theorem exec_pqExt_empty (h : s.queue.entries = []) : exec .pqExt s = .next (s.raiseError .queueUnderflow 0) := by
  rw [exec, execPqExt, PQueue.extractMin_eq_none.2 h, conclude_raise]

/-- RES0..RES3 of PQ.EXT (R112) in terms of the entry's numbers. -/
theorem exec_pqExt_extract {e : PqEntry} {q : PQueue} (h : s.queue.extractMin = some (e, q)) :
    exec .pqExt s = .next (State.finish (({ s with queue := q }).withRes (BitVec.ofNat 32 e.w.toNat)
      (BitVec.ofNat 32 (e.w.toNat / 2 ^ 32)) (BitVec.ofNat 32 e.tag.toNat) e.seq)) := by
  have hhigh : e.w.extractLsb' 32 32 = BitVec.ofNat 32 (e.w.toNat / 2 ^ 32) := by
    rw [BitVec.extractLsb', Nat.shiftRight_eq_div_pow]
  rw [exec, execPqExt, h, ← hhigh, BitVec.ofNat_toNat 32 e.tag]
  rfl

end Sys2Proof.Machine

open Sys2Proof Sys2Proof.Machine Sys2Proof.Safety

/-- Settles O32: a queue with an entry has a least one, and extraction takes it. -/
theorem pqExtTakesTheLeastEntry : Obligations.PqExtTakesTheLeastEntry := by
  refine ⟨rfl, fun s => ⟨fun hempty => ?_, fun hne => ?_⟩⟩
  · rw [exec_pqExt_empty hempty]
    rfl
  · obtain ⟨⟨e, q⟩, he⟩ := Option.ne_none_iff_exists'.1 (mt PQueue.extractMin_eq_none.1 hne)
    obtain ⟨hmem, hleast, rfl⟩ := PQueue.extractMin_eq_some he
    refine ⟨e, hmem, hleast, ?_⟩
    rw [exec_pqExt_extract he]
    rfl

/-- Settles O30: the three rules have one branch, which ends with the state written out. -/
theorem nopClearAndPqClrHaveTheirWholeEffect : Obligations.NopClearAndPqClrHaveTheirWholeEffect :=
  ⟨⟨rfl, rfl, rfl⟩, fun _ => ⟨rfl, rfl, rfl⟩⟩

/-- Settles O31: the four ways PQ.INS ends, in R111's order. -/
theorem pqInsInsertsOrRefuses : Obligations.PqInsInsertsOrRefuses := by
  refine ⟨rfl, fun s => ⟨fun hw => ?_, fun hw hl => ?_, fun hw hl hs => ?_, fun hw hl hs => ?_⟩⟩
  · rw [exec_pqIns_negative hw]
    rfl
  · rw [exec_pqIns_full hw hl]
    rfl
  · rw [exec_pqIns_exhausted hw hl hs]
    rfl
  · rw [exec_pqIns_insert hw hl hs, weightOperand_eq_ofNat, tagOperand_eq_ofNat]
    rfl
end

section
/-! Draining the queue (R113): each extraction moves one entry out, and its key is below every key that is left. -/

namespace Sys2Proof.Proofs

open Sys2Proof.Machine Sys2Proof.Safety

theorem drainQueue_succ {n : Nat} {q q' : PQueue} {e : PqEntry} (h : q.extractMin = some (e, q')) :
    drainQueue (n + 1) q = e :: drainQueue n q' := by
  rw [drainQueue, h]

theorem exists_extractMin {n : Nat} {q : PQueue} (hn : q.entries.length = n + 1) :
    ∃ e q', q.extractMin = some (e, q') ∧ q'.entries.length = n := by
  cases he : q.extractMin with
  | none =>
    rw [PQueue.extractMin_eq_none.1 he] at hn
    cases hn
  | some p => exact ⟨p.1, p.2, rfl, Nat.succ.inj ((PQueue.extractMin_length he).trans hn)⟩

/-- As many extractions as entries lose none (R113). -/
theorem drainQueue_perm {n : Nat} {q : PQueue} (hn : q.entries.length = n) : (drainQueue n q).Perm q.entries := by
  induction n generalizing q with
  | zero => rw [List.length_eq_zero_iff.1 hn, drainQueue]
  | succ n ih =>
    obtain ⟨e, q', he, hn'⟩ := exists_extractMin hn
    rw [drainQueue_succ he]
    exact ((ih hn').cons e).trans (PQueue.extractMin_perm he).symm

/-- No entry precedes the one extracted and no other has its sequence number (R41), so it precedes all that are left. -/
theorem keyLess_of_extractMin {q q' : PQueue} {e : PqEntry} (h : QueueInv q) (he : q.extractMin = some (e, q')) :
    ∀ x ∈ q'.entries, keyLess e x := by
  intro x hx
  have hperm := PQueue.extractMin_perm he
  obtain ⟨-, -, hrise⟩ := h
  have hdistinct : q.entries.Pairwise (fun a b => a.seq ≠ b.seq) := hrise.imp fun hlt heq => by simp [heq] at hlt
  have hseq : e.seq ≠ x.seq := List.rel_of_pairwise_cons (hperm.pairwise hdistinct Ne.symm) hx
  obtain ⟨-, hleast, -⟩ := PQueue.extractMin_eq_some he
  by_contra hnot
  obtain ⟨-, heq⟩ := eq_key_of_not_keyLess hnot (hleast x (hperm.mem_iff.2 (List.mem_cons_of_mem e hx)))
  exact hseq heq

theorem drainQueue_ascending {n : Nat} {q : PQueue} (h : QueueInv q) (hn : q.entries.length = n) :
    (drainQueue n q).Pairwise keyLess := by
  induction n generalizing q with
  | zero => exact .nil
  | succ n ih =>
    obtain ⟨e, q', he, hn'⟩ := exists_extractMin hn
    rw [drainQueue_succ he]
    refine .cons (fun x hx => ?_) (ih (h.extractMin he) hn')
    exact keyLess_of_extractMin h he x ((drainQueue_perm hn').mem_iff.1 hx)

end Sys2Proof.Proofs

open Sys2Proof Sys2Proof.Machine Sys2Proof.Proofs

/-- Settles O33: the drain rearranges the entries, and each extraction takes the least key of what is left. -/
theorem extractionsReturnEveryEntryInOrder : Obligations.ExtractionsReturnEveryEntryInOrder :=
  fun _ h => ⟨drainQueue_perm rfl, drainQueue_ascending h rfl⟩
end

section
/-! The frequency and the code table (R130, R131, R150): what a stored table holds, and what FREQ.CNT counts. -/

namespace Sys2Proof.Proofs

open Sys2Proof.Machine Sys2Proof.Safety

/-- A stored frequency table is FREQ, and no other byte of memory has changed (R44). -/
theorem setFreqTable_spec (s : State) {ws : List Word} (hw : ws.length = 256) :
    (∀ sym, sym < 256 → freqIs (s.setFreqTable ws) sym (ws.getD sym 0)) ∧
      ∀ a, ¬ isFreqAddr a → (s.setFreqTable ws).mem.read a = s.mem.read a :=
  ⟨fun _ h _ hi => s.setFreqTable_read hw h hi, fun _ ha => not_not.1 (mt (setFreqTable_changes hw) ha)⟩

/-- A stored code table is CODE, and no other byte of mapped memory has changed (R45). -/
theorem setCodeTable_spec {s : State} (hs : MappedInv s) {table : List CodeEntry} (ht : table.length = 256) :
    (∀ sym, (h : sym < 256) → codeIs (s.setCodeTable table) sym (table[sym]'(ht ▸ h)).1 (table[sym]'(ht ▸ h)).2) ∧
      ∀ a, ¬ isCodeAddr a → (s.setCodeTable table).mem.read a = s.mem.read a :=
  ⟨fun _ h => s.setCodeTable_read ht h, fun _ ha => not_not.1 (mt (setCodeTable_changes hs ht) ha)⟩

theorem exec_freqClr (s : State) :
    exec .freqClr s = .next ((s.setFreqTable (List.replicate 256 0)).withRes 0 0 0 0).finish := rfl

theorem exec_codeClr (s : State) :
    exec .codeClr s = .next ((s.setCodeTable (List.replicate 256 (0, 0))).withRes 0 0 0 0).finish := rfl

theorem countSymbols_getD (bytes : List Byte) (sym : Byte) :
    (countSymbols bytes).getD sym.toNat 0 = BitVec.ofNat 32 (bytes.count sym) := by
  simp [countSymbols, sym.isLt]

/-- The entries of FREQ that are not 0 are those of the symbols that occur (R131): no count reaches 2^32. -/
theorem countSymbols_countP {bytes : List Byte} (hl : bytes.length < 2 ^ 32) :
    (countSymbols bytes).countP (· ≠ 0) = bytes.dedup.length := by
  have hocc (sym : Nat) : BitVec.ofNat 32 (bytes.count (BitVec.ofNat 8 sym)) ≠ 0 ↔ BitVec.ofNat 8 sym ∈ bytes := by
    have hle : bytes.count (BitVec.ofNat 8 sym) ≤ bytes.length := List.count_le_length
    rw [← List.count_pos_iff, ne_eq, ← BitVec.toNat_inj, BitVec.toNat_ofNat, Nat.mod_eq_of_lt (by omega)]
    exact Nat.pos_iff_ne_zero.symm
  have hperm : ((List.range 256).filter fun sym => BitVec.ofNat 8 sym ∈ bytes).Perm (bytes.dedup.map BitVec.toNat) := by
    refine (List.perm_ext_iff_of_nodup (List.nodup_range.filter _)
      (bytes.nodup_dedup.map fun _ _ => BitVec.eq_of_toNat_eq)).2 fun sym => ?_
    simp only [List.mem_filter, List.mem_range, decide_eq_true_eq, List.mem_map, List.mem_dedup]
    constructor
    · rintro ⟨hlt, hmem⟩
      exact ⟨_, hmem, Nat.mod_eq_of_lt hlt⟩
    · rintro ⟨b, hb, rfl⟩
      exact ⟨b.isLt, by simpa using hb⟩
  calc (countSymbols bytes).countP (· ≠ 0)
      = (List.range 256).countP fun sym => BitVec.ofNat 8 sym ∈ bytes := by
        simp only [countSymbols, List.countP_map, Function.comp_def, hocc]
    _ = bytes.dedup.length := by rw [List.countP_eq_length_filter, hperm.length_eq, List.length_map]

/-- The bytes FREQ.CNT reads are those the source range holds (R131). -/
theorem srcBytes_of_inHolds {s : State} {bytes : List Byte} (hl : s.srcPtr.toNat + bytes.length = s.srcEnd.toNat)
    (h : inHolds s s.srcPtr.toNat bytes) : s.srcBytes = .ok bytes :=
  collect_ok.2 ⟨by unfold State.srcLen; omega, fun i hi => State.inByte_ok.2 (h i hi)⟩

/-- FREQ.CNT (R131) on a source range in order whose bytes have been written. -/
theorem exec_freqCnt_of_inHolds {s : State} {bytes : List Byte} (he : s.srcEnd.toNat ≤ s.params.inSize)
    (hl : s.srcPtr.toNat + bytes.length = s.srcEnd.toNat) (h : inHolds s s.srcPtr.toNat bytes) :
    exec .freqCnt s = .next (((s.setFreqTable (countSymbols bytes)).withRes
      (BitVec.ofNat 32 bytes.dedup.length) (BitVec.ofNat 32 bytes.length) 0 0).finish) := by
  have hend := s.srcEnd.isLt
  have hlen : s.srcEnd - s.srcPtr = BitVec.ofNat 32 bytes.length := by
    apply BitVec.eq_of_toNat_eq
    rw [BitVec.toNat_sub, BitVec.toNat_ofNat]
    omega
  rw [exec, execFreqCnt, State.checkSrc_ok.2 ⟨he, by omega⟩, except_ok_bind, srcBytes_of_inHolds hl h, except_ok_bind,
    except_pure_eq_ok, conclude_ok, countSymbols_countP (by omega), hlen]

end Sys2Proof.Proofs

open Sys2Proof Sys2Proof.Machine Sys2Proof.Safety Sys2Proof.Proofs

/-- Settles O34: each command stores a table of zeros. -/
theorem clearCommandsZeroTheirTables : Obligations.ClearCommandsZeroTheirTables := by
  refine ⟨⟨rfl, rfl⟩, fun s hs => ⟨?_, ?_⟩⟩
  · obtain ⟨hfreq, hframe⟩ := setFreqTable_spec s (ws := List.replicate 256 0) List.length_replicate
    refine ⟨_, exec_freqClr s, rfl, fun sym h => ?_, hframe⟩
    have hzero := hfreq sym h
    rwa [List.getD_replicate _ h] at hzero
  · obtain ⟨hcode, hframe⟩ := setCodeTable_spec hs (table := List.replicate 256 (0, 0)) List.length_replicate
    refine ⟨_, exec_codeClr s, rfl, fun sym h => ?_, hframe⟩
    have hzero := hcode sym h
    rwa [List.getElem_replicate] at hzero

/-- Settles O35: the table FREQ.CNT stores holds the count of each symbol. -/
theorem freqCntCountsTheInput : Obligations.FreqCntCountsTheInput := by
  intro s bytes _ he hl hin
  obtain ⟨hfreq, hframe⟩ := setFreqTable_spec s (countSymbols_length bytes)
  exact ⟨_, exec_freqCnt_of_inHolds he hl hin, rfl,
    fun sym => countSymbols_getD bytes sym ▸ hfreq sym.toNat sym.isLt, hframe⟩
end

section
/-! BUILD on a defined frequency table (R133): the leaves it seeds, its merge loop, and how it answers. -/

namespace Sys2Proof.Proofs

open Sys2Proof.Machine Sys2Proof.Safety

/-! ### The seeded leaves -/

/-- The symbols with FREQ > 0 in ascending order. -/
def presentSymbols (f : Nat → Word) : List Nat := (List.range 256).filter (fun sym => f sym ≠ 0)

/-- One leaf for each present symbol. -/
def seededArena (f : Nat → Word) : Arena := ⟨(presentSymbols f).map (fun sym => .leaf (BitVec.ofNat 8 sym)), 0⟩

/-- One entry for each leaf: its symbol's frequency, and its position as sequence number and as tag. -/
def seededQueue (f : Nat → Word) : PQueue :=
  ⟨(presentSymbols f).zipIdx.map (fun p => ⟨(f p.1).setWidth 64, BitVec.ofNat 32 p.2, BitVec.ofNat 16 p.2⟩),
    BitVec.ofNat 32 (presentSymbols f).length⟩

theorem presentSymbols_length_le (f : Nat → Word) : (presentSymbols f).length ≤ 256 :=
  (List.length_filter_le _ _).trans List.length_range.le

theorem presentSymbols_ne_nil {f : Nat → Word} (h : ∃ sym, sym < 256 ∧ f sym ≠ 0) : presentSymbols f ≠ [] := by
  obtain ⟨sym, hlt, hf⟩ := h
  exact List.ne_nil_of_mem (List.mem_filter.2 ⟨List.mem_range.2 hlt, decide_eq_true hf⟩)

@[simp] theorem seededArena_length (f : Nat → Word) : (seededArena f).nodes.length = (presentSymbols f).length :=
  List.length_map _

@[simp] theorem seededQueue_length (f : Nat → Word) : (seededQueue f).entries.length = (presentSymbols f).length := by
  simp [seededQueue]

theorem nonzeroFrom_table (f : Nat → Word) (n : Nat) :
    nonzeroFrom 0 ((List.range n).map f) =
      ((List.range n).filter (fun sym => f sym ≠ 0)).map fun sym => (f sym, sym) := by
  have hzip : ((List.range n).map f).zipIdx = (List.range n).map fun sym => (f sym, sym) :=
    List.ext_getElem (by simp) fun i _ _ => by simp
  rw [nonzeroFrom, hzip, List.filter_map]
  rfl

/-- A reference is its position in either width (R13): there are at most 512. -/
theorem setWidth_ofNat_of_lt {i : Nat} (h : i < 512) : (BitVec.ofNat 9 i).setWidth 16 = BitVec.ofNat 16 i := by
  apply BitVec.eq_of_toNat_eq
  simp only [BitVec.toNat_setWidth, BitVec.toNat_ofNat]
  omega

theorem seedLeaves_table (f : Nat → Word) :
    seedLeaves 0 ((List.range 256).map f) (.empty, .empty) = (seededQueue f, seededArena f) := by
  have hle := presentSymbols_length_le f
  have hentries : ((presentSymbols f).map fun sym => (f sym, sym)).mapIdx (fun i p => (⟨p.1.setWidth 64,
      0 + BitVec.ofNat 32 i, (BitVec.ofNat 9 (0 + i)).setWidth 16⟩ : PqEntry)) = (seededQueue f).entries := by
    refine List.ext_getElem (by simp) fun i _ hi => ?_
    rw [seededQueue_length] at hi
    simp [seededQueue, setWidth_ofNat_of_lt (by omega : i < 512)]
  rw [seedLeaves_eq, nonzeroFrom_table, ← presentSymbols, PQueue.empty, Arena.empty, List.length_nil, hentries]
  simp [seededQueue, seededArena]

theorem buildTree_table (f : Nat → Word) :
    buildTree ((List.range 256).map f) = mergeAll (presentSymbols f).length (seededQueue f, seededArena f) := by
  rw [buildTree, seedLeaves_table, seededQueue_length]

/-! ### One turn of the merge loop (R114) -/

/-- Queue and arena after a turn that extracts e₁ and then e₂. -/
def mergeTwo (q : PQueue) (a : Arena) (e₁ e₂ : PqEntry) : PQueue × Arena :=
  let (a', r) := a.allocInternal (e₁.tag.setWidth 9) (e₂.tag.setWidth 9)
  ((PQueue.mk ((q.entries.erase e₁).erase e₂) q.nextSeq).insert (e₁.w + e₂.w) (r.setWidth 16), a')

@[simp] theorem mergeTwo_entries (q : PQueue) (a : Arena) (e₁ e₂ : PqEntry) :
    (mergeTwo q a e₁ e₂).1.entries = (q.entries.erase e₁).erase e₂ ++
      [⟨e₁.w + e₂.w, q.nextSeq, (BitVec.ofNat 9 a.nodes.length).setWidth 16⟩] := rfl

@[simp] theorem mergeTwo_nextSeq (q : PQueue) (a : Arena) (e₁ e₂ : PqEntry) :
    (mergeTwo q a e₁ e₂).1.nextSeq = q.nextSeq + 1 := rfl

@[simp] theorem mergeTwo_nodes (q : PQueue) (a : Arena) (e₁ e₂ : PqEntry) :
    (mergeTwo q a e₁ e₂).2.nodes = a.nodes ++ [.internal (e₁.tag.setWidth 9) (e₂.tag.setWidth 9) 0] := rfl

/-- An entry of the list that no entry precedes in the order of R41. -/
def IsLeast (e : PqEntry) (entries : List PqEntry) : Prop := e ∈ entries ∧ ∀ x ∈ entries, ¬ keyLess x e

theorem mergeAll_of_length_le_one {q : PQueue} (h : q.entries.length ≤ 1) (a : Arena) (fuel : Nat) :
    mergeAll fuel (q, a) = (q, a) := by
  cases fuel with
  | zero => rfl
  | succ fuel =>
    rcases mergeAll_succ_cases fuel q a with ⟨-, he⟩ | ⟨e₁, e₂, q₂, hp, -⟩
    · exact he
    · have hl := hp.length_eq
      simp only [List.length_cons] at hl
      omega

theorem mergeAll_of_two_le {q : PQueue} (h : 2 ≤ q.entries.length) (a : Arena) (fuel : Nat) :
    ∃ e₁ e₂, IsLeast e₁ q.entries ∧ IsLeast e₂ (q.entries.erase e₁) ∧
      mergeAll (fuel + 1) (q, a) = mergeAll fuel (mergeTwo q a e₁ e₂) := by
  obtain ⟨e₁, q₁, h₁, hl₁⟩ := exists_extractMin (q := q) (n := q.entries.length - 2 + 1) (by omega)
  obtain ⟨e₂, q₂, h₂, -⟩ := exists_extractMin hl₁
  obtain ⟨hmem₁, hleast₁, rfl⟩ := PQueue.extractMin_eq_some h₁
  obtain ⟨hmem₂, hleast₂, rfl⟩ := PQueue.extractMin_eq_some h₂
  refine ⟨e₁, e₂, ⟨hmem₁, hleast₁⟩, ⟨hmem₂, hleast₂⟩, ?_⟩
  rw [mergeAll, h₁]
  simp only [h₂]
  rfl

/-! ### The command -/

/-- BUILD's operand where every FREQ entry is defined. -/
theorem freqTable_of_freqIs {s : State} {f : Nat → Word} (h : ∀ sym, sym < 256 → freqIs s sym (f sym)) :
    s.freqTable = .ok ((List.range 256).map f) := by
  refine State.freqTable_of_read (by simp) fun sym hs i hi => ?_
  rw [List.length_map, List.length_range] at hs
  rw [List.getElem_map, List.getElem_range]
  exact h sym hs i hi

theorem exec_build_of_freqIs {s : State} {f : Nat → Word} (h : ∀ sym, sym < 256 → freqIs s sym (f sym)) :
    exec .build s = conclude ({ s with queue := .empty }).treeReset (s.buildFrom ((List.range 256).map f)) := by
  rw [exec, execBuild, freqTable_of_freqIs h, except_ok_bind]

/-- With an entry left, its reference is the root (R133). -/
theorem buildFrom_of_entry {freqs : List Word} {e : PqEntry} {nextSeq : Word} {a : Arena}
    (h : buildTree freqs = (⟨[e], nextSeq⟩, a)) (s : State) :
    s.buildFrom freqs = .ok (({ s with
      queue := ⟨[e], nextSeq⟩, arena := a, root := e.tag.setWidth 9, treeValid := true,
      leafRoot := leafAt a (e.tag.setWidth 9), numbered := false }).withRes (e.w.extractLsb' 0 32)
        (e.w.extractLsb' 32 32) ((e.tag.setWidth 9 : Ref).setWidth 32) (a.internalCount.setWidth 32)) := by
  simp only [State.buildFrom, h, leafAt]
  cases a.nodes[(e.tag.setWidth 9 : Ref).toNat]? <;> rfl

end Sys2Proof.Proofs

open Sys2Proof Sys2Proof.Machine Sys2Proof.Safety Sys2Proof.Proofs

/-- Settles O38: no leaf is seeded, so no entry is left. -/
theorem buildOfAnEmptyTableFails : Obligations.BuildOfAnEmptyTableFails := by
  intro s h
  have hnone : presentSymbols (fun _ => 0) = [] := List.filter_eq_nil_iff.2 fun _ _ => by simp
  have hseed : (seededQueue fun _ => 0).entries = [] := by
    rw [seededQueue, hnone]
    rfl
  have hempty : (buildTree ((List.range 256).map fun _ => 0)).1.entries = [] := by
    rw [buildTree_table, mergeAll_of_length_le_one (hseed ▸ Nat.zero_le 1), hseed]
  rw [exec_build_of_freqIs (f := fun _ => 0) h, State.buildFrom]
  simp only [hempty]
  rfl
end

section
/-! What the merge loop keeps, from the seeded leaves to the one entry it leaves (R133 to R136). -/

namespace Sys2Proof.Proofs

open Sys2Proof.Machine Sys2Proof.Safety

/-- An internal node that is not numbered. -/
def IsMerge (n : Node) : Prop := ∃ l r, n = .internal l r 0

/-- The merge loop at work on the given leaves, whose weights sum to total: the entries are the roots of a forest of
the leaves and the merges after them, each entry has its root's position as sequence number and as tag, and a turn
adds a node and takes an entry away. -/
structure Merging (leaves : List Node) (total : Nat) (q : PQueue) (a : Arena) : Prop where
  forest : BuildForest q a
  nonempty : q.entries ≠ []
  nodes : ∃ merges, a.nodes = leaves ++ merges ∧ ∀ n ∈ merges, IsMerge n
  length : a.nodes.length + q.entries.length = 2 * leaves.length
  nextSeq : q.nextSeq = BitVec.ofNat 32 a.nodes.length
  refs : ∀ e ∈ q.entries, e.seq = BitVec.ofNat 32 (tagRef e) ∧ e.tag = BitVec.ofNat 16 (tagRef e)
  weight : totalWeight q = total
  total_lt : total < 2 ^ 64

theorem Merging.nodes_lt {leaves : List Node} {total : Nat} {q : PQueue} {a : Arena} (h : Merging leaves total q a) :
    a.nodes.length < 512 := by
  have hl := h.forest.length_eq
  have hb := h.forest.bound
  have hpos := List.length_pos_iff.2 h.nonempty
  rw [List.length_map] at hl hb
  omega

/-- A turn takes two entries out of the queue. -/
theorem perm_erase_erase {entries : List PqEntry} {e₁ e₂ : PqEntry} (h₁ : e₁ ∈ entries) (h₂ : e₂ ∈ entries.erase e₁) :
    entries.Perm (e₁ :: e₂ :: (entries.erase e₁).erase e₂) :=
  (List.perm_cons_erase h₁).trans ((List.perm_cons_erase h₂).cons e₁)

/-- A turn keeps the sum of the weights, which does not overflow (R136). -/
theorem totalWeight_mergeTwo {q : PQueue} {e₁ e₂ : PqEntry} (h₁ : e₁ ∈ q.entries) (h₂ : e₂ ∈ q.entries.erase e₁)
    (hlt : totalWeight q < 2 ^ 64) (a : Arena) : totalWeight (mergeTwo q a e₁ e₂).1 = totalWeight q := by
  have hsum := ((perm_erase_erase h₁ h₂).map (·.w.toNat)).sum_eq
  simp only [List.map_cons, List.sum_cons] at hsum
  rw [totalWeight] at hlt
  have hadd : (e₁.w + e₂.w).toNat = e₁.w.toNat + e₂.w.toNat := by
    rw [BitVec.toNat_add]
    exact Nat.mod_eq_of_lt (by omega)
  rw [totalWeight, totalWeight, mergeTwo_entries, List.map_append, List.sum_append, List.map_singleton,
    List.sum_singleton, hadd]
  omega

theorem Merging.turn {leaves : List Node} {total : Nat} {q : PQueue} {a : Arena} (h : Merging leaves total q a)
    {e₁ e₂ : PqEntry} (h₁ : e₁ ∈ q.entries) (h₂ : e₂ ∈ q.entries.erase e₁) :
    Merging leaves total (mergeTwo q a e₁ e₂).1 (mergeTwo q a e₁ e₂).2 where
  forest := by
    have hroots : Forest a (tagRef e₁ :: tagRef e₂ :: ((q.entries.erase e₁).erase e₂).map tagRef) :=
      h.forest.of_perm ((perm_erase_erase h₁ h₂).map tagRef)
    exact .insert (q := ⟨_, q.nextSeq⟩) hroots.allocInternal _
  nonempty := by simp
  nodes := by
    obtain ⟨merges, hnodes, hmerges⟩ := h.nodes
    refine ⟨merges ++ [_], by rw [mergeTwo_nodes, hnodes, List.append_assoc], fun n hn => ?_⟩
    rcases List.mem_append.1 hn with hn | hn
    · exact hmerges n hn
    · exact ⟨_, _, List.mem_singleton.1 hn⟩
  length := by
    have hl := (perm_erase_erase h₁ h₂).length_eq
    have hcount := h.length
    simp only [List.length_cons] at hl
    simp only [mergeTwo_nodes, mergeTwo_entries, List.length_append, List.length_singleton]
    omega
  nextSeq := by simp [h.nextSeq, BitVec.ofNat_add]
  refs := by
    intro e he
    rcases List.mem_append.1 he with he | he
    · exact h.refs e (List.mem_of_mem_erase (List.mem_of_mem_erase he))
    · have hlt := h.nodes_lt
      obtain rfl : e = ⟨_, q.nextSeq, (BitVec.ofNat 9 a.nodes.length).setWidth 16⟩ := List.mem_singleton.1 he
      rw [tagRef_mk, BitVec.toNat_ofNat, Nat.mod_eq_of_lt hlt]
      exact ⟨h.nextSeq, setWidth_ofNat_of_lt hlt⟩
  weight := (totalWeight_mergeTwo h₁ h₂ (h.weight ▸ h.total_lt) a).trans h.weight
  total_lt := h.total_lt

theorem Merging.mergeAll {leaves : List Node} {total fuel : Nat} {q : PQueue} {a : Arena}
    (h : Merging leaves total q a) : Merging leaves total (mergeAll fuel (q, a)).1 (mergeAll fuel (q, a)).2 := by
  induction fuel generalizing q a with
  | zero => exact h
  | succ fuel ih =>
    by_cases hl : q.entries.length ≤ 1
    · rwa [mergeAll_of_length_le_one hl]
    · obtain ⟨e₁, e₂, ⟨h₁, -⟩, ⟨h₂, -⟩, he⟩ := mergeAll_of_two_le (Nat.lt_of_not_le hl) a fuel
      rw [he]
      exact ih (h.turn h₁ h₂)

/-- The sum of all frequencies. -/
def totalFreq (f : Nat → Word) : Nat := ((presentSymbols f).map fun sym => (f sym).toNat).sum

theorem totalFreq_lt (f : Nat → Word) : totalFreq f < 2 ^ 64 := by
  have hsum := List.sum_le_card_nsmul ((presentSymbols f).map fun sym => (f sym).toNat) (2 ^ 32) fun x hx => by
    obtain ⟨sym, -, rfl⟩ := List.mem_map.1 hx
    exact (f sym).isLt.le
  have hle := presentSymbols_length_le f
  rw [List.length_map, smul_eq_mul] at hsum
  rw [totalFreq]
  omega

theorem totalWeight_seededQueue (f : Nat → Word) : totalWeight (seededQueue f) = totalFreq f := by
  have hw (x : Word) : (x.setWidth 64).toNat = x.toNat := BitVec.toNat_setWidth_of_le (by decide)
  have hweights : (seededQueue f).entries.map (·.w.toNat) = (presentSymbols f).map fun sym => (f sym).toNat :=
    List.ext_getElem (by simp) fun i _ _ => by simp only [seededQueue, List.getElem_map, List.getElem_zipIdx, hw]
  rw [totalWeight, hweights, totalFreq]

theorem merging_seeded {f : Nat → Word} (h : presentSymbols f ≠ []) :
    Merging (seededArena f).nodes (totalFreq f) (seededQueue f) (seededArena f) where
  forest := by
    have hf := seedLeaves_buildForest (fs := (List.range 256).map f) (sym := 0) Forest.empty
      (q := .empty) (by simp [PQueue.empty, Arena.empty])
    rwa [seedLeaves_table] at hf
  nonempty := by simpa [seededQueue] using h
  nodes := ⟨[], (List.append_nil _).symm, nofun⟩
  length := by
    rw [seededQueue_length, seededArena_length]
    omega
  nextSeq := by rw [seededArena_length]; rfl
  refs := by
    intro e he
    obtain ⟨⟨sym, i⟩, hi, rfl⟩ := List.mem_map.1 he
    have hlt := (List.mem_zipIdx hi).2.1
    have hle := presentSymbols_length_le f
    rw [← setWidth_ofNat_of_lt (by omega), tagRef_mk, BitVec.toNat_ofNat, Nat.mod_eq_of_lt (by omega),
      setWidth_ofNat_of_lt (by omega)]
    exact ⟨rfl, rfl⟩
  weight := totalWeight_seededQueue f
  total_lt := totalFreq_lt f

/-- BUILD of a table with a present symbol leaves one entry. -/
theorem buildTree_table_merging {f : Nat → Word} (h : presentSymbols f ≠ []) :
    ∃ e nextSeq a, buildTree ((List.range 256).map f) = (⟨[e], nextSeq⟩, a) ∧
      Merging (seededArena f).nodes (totalFreq f) ⟨[e], nextSeq⟩ a := by
  have hm := (merging_seeded h).mergeAll (fuel := (presentSymbols f).length)
  have hone := buildTree_length_le_one ((List.range 256).map f)
  rw [← buildTree_table] at hm
  generalize buildTree ((List.range 256).map f) = b at hm hone
  obtain ⟨⟨_ | ⟨e, rest⟩, nextSeq⟩, a⟩ := b
  · exact absurd rfl hm.nonempty
  · obtain rfl : rest = [] := by simpa using hone
    exact ⟨e, nextSeq, a, rfl, hm⟩

end Sys2Proof.Proofs

open Sys2Proof Sys2Proof.Machine Sys2Proof.Safety Sys2Proof.Proofs

/-- Settles O39: one turn of the loop, and the loop BUILD runs on the seeded leaves. -/
theorem mergeJoinsTheTwoLeastEntries : Obligations.MergeJoinsTheTwoLeastEntries := by
  refine ⟨fun q a fuel => ⟨rfl, fun hl => mergeAll_of_length_le_one hl a fuel, fun hl => ?_⟩, fun s f hf hex => ?_⟩
  · obtain ⟨e₁, e₂, ⟨h₁, hleast₁⟩, ⟨h₂, hleast₂⟩, he⟩ := mergeAll_of_two_le hl a fuel
    exact ⟨e₁, h₁, e₂, h₂, hleast₁, hleast₂, he⟩
  · obtain ⟨e, nextSeq, a, hbuild, -⟩ := buildTree_table_merging (presentSymbols_ne_nil hex)
    have hanswer := exec_build_of_freqIs hf
    rw [buildFrom_of_entry hbuild, conclude_ok] at hanswer
    exact ⟨_, hanswer, hbuild.symm.trans (buildTree_table f)⟩
end

section
/-! The shape of the tree BUILD leaves (R134, R135), read off the end of the merge loop. -/

namespace Sys2Proof.Proofs

open Sys2Proof.Machine Sys2Proof.Safety

section

variable {leaves : List Node} {total : Nat} {e : PqEntry} {nextSeq : Word} {a : Arena}
  (h : Merging leaves total ⟨[e], nextSeq⟩ a)
include h

/-- Each merge took an entry of the queue and added a node. -/
theorem Merging.length_end : a.nodes.length + 1 = 2 * leaves.length := h.length

/-- The root is the last node. -/
theorem Merging.tagRef_end : tagRef e = 2 * leaves.length - 2 := by
  have hlen := h.length_end
  have hroot : tagRef e + 1 = a.nodes.length := Forest.single_root h.forest
  omega

theorem Merging.weight_end : e.w.toNat = total := by simpa [totalWeight] using h.weight

theorem Merging.entry_end : e = ⟨BitVec.ofNat 64 total, BitVec.ofNat 32 (2 * leaves.length - 2),
    BitVec.ofNat 16 (2 * leaves.length - 2)⟩ := by
  obtain ⟨hseq, htag⟩ := h.refs e (List.mem_singleton_self e)
  rw [← h.tagRef_end, ← hseq, ← htag, ← h.weight_end, BitVec.ofNat_toNat, BitVec.setWidth_eq]

theorem Merging.nextSeq_end : nextSeq = BitVec.ofNat 32 (2 * leaves.length - 1) := by
  rw [← h.length_end]
  exact h.nextSeq

theorem Merging.root_end : (e.tag.setWidth 9 : Ref) = BitVec.ofNat 9 (2 * leaves.length - 2) := by
  rw [← h.tagRef_end, tagRef, BitVec.ofNat_toNat, BitVec.setWidth_eq]

theorem Merging.internalCount_end : a.internalCount.toNat = leaves.length - 1 := by
  have hlen := h.length_end
  have hforest : a.nodes.length = 2 * a.internalCount.toNat + 1 := h.forest.length_eq
  omega

/-- RES0..RES3 of BUILD (R133). -/
theorem Merging.results_end :
    Results.mk (e.w.extractLsb' 0 32) (e.w.extractLsb' 32 32) ((e.tag.setWidth 9 : Ref).setWidth 32)
      (a.internalCount.setWidth 32) = ⟨BitVec.ofNat 32 total, BitVec.ofNat 32 (total / 2 ^ 32),
        BitVec.ofNat 32 (2 * leaves.length - 2), BitVec.ofNat 32 (leaves.length - 1)⟩ := by
  rw [← BitVec.ofNat_toNat 32 a.internalCount, h.internalCount_end, ← BitVec.ofNat_toNat 32 (e.tag.setWidth 9 : Ref),
    ← tagRef, h.tagRef_end, BitVec.extractLsb', BitVec.extractLsb', Nat.shiftRight_zero, Nat.shiftRight_eq_div_pow,
    h.weight_end]

theorem Merging.leaf_getElem? {i : Nat} (hi : i < leaves.length) : a.nodes[i]? = leaves[i]? := by
  obtain ⟨merges, hnodes, -⟩ := h.nodes
  rw [hnodes, List.getElem?_append_left hi]

theorem Merging.merge_getElem? {r : Nat} (hl : leaves.length ≤ r) (hr : r < 2 * leaves.length - 1) :
    ∃ n, IsMerge n ∧ a.nodes[r]? = some n := by
  obtain ⟨merges, hnodes, hmerges⟩ := h.nodes
  have hlen := h.length_end
  rw [hnodes, List.length_append] at hlen
  have hlt : r - leaves.length < merges.length := by omega
  rw [hnodes, List.getElem?_append_right hl, List.getElem?_eq_getElem hlt]
  exact ⟨_, hmerges _ (List.getElem_mem hlt), rfl⟩

/-- The root is a leaf exactly where there was no merge (R135). -/
theorem Merging.leafAt_end (hleaf : ∀ n ∈ leaves, n.isLeaf = true) :
    leafAt a (e.tag.setWidth 9) = decide (leaves.length = 1) := by
  have hlen := h.length_end
  rw [leafAt, ← tagRef, h.tagRef_end]
  by_cases hone : leaves.length = 1
  · have hpos : 0 < leaves.length := by omega
    rw [hone, h.leaf_getElem? hpos, List.getElem?_eq_getElem hpos]
    exact hleaf _ (List.getElem_mem hpos)
  · obtain ⟨n, ⟨l, r, rfl⟩, hn⟩ := h.merge_getElem? (r := 2 * leaves.length - 2) (by omega) (by omega)
    rw [hn, decide_eq_false hone]
    rfl

end

theorem seededArena_isLeaf (f : Nat → Word) : ∀ n ∈ (seededArena f).nodes, n.isLeaf = true := by
  intro n hn
  obtain ⟨sym, -, rfl⟩ := List.mem_map.1 hn
  rfl

end Sys2Proof.Proofs

open Sys2Proof Sys2Proof.Machine Sys2Proof.Safety Sys2Proof.Proofs

/-- Settles O37: the state where the merge loop ends, field by field. -/
theorem buildLeavesTheShapeOfR134 : Obligations.BuildLeavesTheShapeOfR134 := by
  intro s f hf hex present L total
  obtain ⟨e, nextSeq, a, hbuild, hm⟩ := buildTree_table_merging (presentSymbols_ne_nil hex)
  have hL : (seededArena f).nodes.length = L := seededArena_length f
  have harena : ArenaInv a (e.tag.setWidth 9) := Forest.arenaInv hm.forest
  have hanswer := exec_build_of_freqIs hf
  rw [buildFrom_of_entry hbuild, conclude_ok, State.withRes, hm.results_end, hm.leafAt_end (seededArena_isLeaf f),
    hm.root_end, hm.nextSeq_end, hm.entry_end, hL] at hanswer
  rw [hm.root_end, hL] at harena
  refine ⟨_, hanswer, rfl, ?_, hL ▸ hm.internalCount_end, fun i hi => ?_, fun r hl hr => ?_, harena⟩
  · exact Nat.eq_sub_of_add_eq (hL ▸ hm.length_end)
  · exact (hm.leaf_getElem? (hL.symm ▸ hi)).trans List.getElem?_map
  · obtain ⟨n, ⟨lc, rc, rfl⟩, hn⟩ := hm.merge_getElem? (hL.symm ▸ hl) (hL.symm ▸ hr)
    exact ⟨lc, rc, hn⟩
end

section
/-! The commands that need a tree, without one (R151, R165, R167, R225): each checks for it before anything else. -/

namespace Sys2Proof.Machine

/-- A rule that first asks for a tree, and finds none, raises NoTree. -/
theorem conclude_checkTree_invalid {s : State} (hv : s.treeValid = false) (onError : State)
    (rest : Unit → Except Stop State) :
    conclude onError (s.checkTree >>= rest) = .next (onError.raiseError .noTree 0) := by
  have hraise : s.checkTree = raise .noTree 0 := if_neg (Bool.eq_false_iff.1 hv)
  rw [hraise]
  rfl

end Sys2Proof.Machine

open Sys2Proof Sys2Proof.Machine

/-- Settles O43: the check is the first thing each of the four rules does. -/
theorem treeCommandsNeedATree : Obligations.TreeCommandsNeedATree := by
  refine fun s hv => ⟨fun i hi => ?_, fun f => failsOverOut_of_raise (e := .noTree) ?_⟩
  · simp only [List.mem_cons, List.not_mem_nil, or_false] at hi
    obtain rfl | rfl | rfl := hi <;> exact conclude_checkTree_invalid hv s _
  · exact conclude_checkTree_invalid hv s.unspecifyOut _
end

section
/-! The code table made of a list of codes (R45, R151, R153): the entry of each symbol, and the lengths of the symbols
that have a code. -/

namespace Sys2Proof.Proofs

open Sys2Proof.Machine Sys2Proof.Safety

variable {codes : List (Byte × Bits)} {sym : Byte} {p : Bits}

/-! ### The value of a path -/

theorem bitsVal_cons (b : Bool) (p : Bits) : bitsVal (b :: p) = b.toNat * 2 ^ p.length + bitsVal p := by
  induction p using List.reverseRecOn with
  | nil => simp [bitsVal]
  | append_singleton p c ih =>
    rw [← List.cons_append, bitsVal_append_singleton, bitsVal_append_singleton, ih, List.length_append,
      List.length_singleton, Nat.pow_succ]
    ring

/-- The value CODEGEN records is V (R11) of the path. -/
theorem bitsVal_eq_valueOf (p : Bits) : bitsVal p = valueOf p := by
  induction p with
  | nil => rfl
  | cons b p ih => rw [bitsVal_cons, valueOf, ih]

/-! ### The entry of a symbol -/

/-- The code recorded last for a symbol, which overwrites the earlier ones (R153). -/
def lastCode (codes : List (Byte × Bits)) (sym : Byte) : Option Bits :=
  ((codes.filter fun c => c.1 == sym).getLast?).map Prod.snd

/-- The length and the value of the code recorded last, or 0 and 0. -/
def codeEntry (codes : List (Byte × Bits)) (sym : Byte) : CodeEntry :=
  (lastCode codes sym).elim (0, 0) fun p => (BitVec.ofNat 8 p.length, BitVec.ofNat 256 (bitsVal p))

theorem codeTable_eq_map (codes : List (Byte × Bits)) :
    codeTable codes = (List.range 256).map fun sym => codeEntry codes (BitVec.ofNat 8 sym) := by
  refine List.map_congr_left fun sym _ => ?_
  rw [codeEntry, lastCode]
  cases (codes.filter fun c => c.1 == BitVec.ofNat 8 sym).getLast? <;> rfl

/-- The stored table holds the entry of every symbol. -/
theorem codeIs_codeEntry (s : State) (codes : List (Byte × Bits)) (sym : Byte) :
    codeIs (s.setCodeTable (codeTable codes)) sym.toNat (codeEntry codes sym).1 (codeEntry codes sym).2 := by
  have hread := s.setCodeTable_read (codeTable_length codes) sym.isLt
  unfold codeIs
  simpa only [codeTable_eq_map, List.getElem_map, List.getElem_range, BitVec.ofNat_toNat, BitVec.setWidth_eq]
    using hread

theorem lastCode_eq_some {front back : List (Byte × Bits)} (hcodes : codes = front ++ (sym, p) :: back)
    (hback : ∀ e ∈ back, e.1 ≠ sym) : lastCode codes sym = some p := by
  have hnone : (back.filter fun c => c.1 == sym) = [] := by simpa [List.filter_eq_nil_iff] using hback
  simp [lastCode, hcodes, hnone]

theorem lastCode_eq_none_iff : lastCode codes sym = none ↔ sym ∉ codes.map Prod.fst := by
  simp only [lastCode, Option.map_eq_none_iff, List.getLast?_eq_none_iff, List.filter_eq_nil_iff, beq_iff_eq,
    List.mem_map, not_exists, not_and]

theorem mem_of_lastCode (h : lastCode codes sym = some p) : (sym, p) ∈ codes := by
  rw [lastCode, Option.map_eq_some_iff] at h
  obtain ⟨e, hlast, rfl⟩ := h
  obtain ⟨hmem, hsym⟩ := List.mem_filter.1 (List.mem_of_getLast? hlast)
  exact beq_iff_eq.1 hsym ▸ hmem

theorem codeEntry_of_last (h : lastCode codes sym = some p) :
    codeEntry codes sym = (BitVec.ofNat 8 p.length, BitVec.ofNat 256 (bitsVal p)) := by
  rw [codeEntry, h, Option.elim_some]

theorem codeEntry_of_absent (h : sym ∉ codes.map Prod.fst) : codeEntry codes sym = (0, 0) := by
  rw [codeEntry, lastCode_eq_none_iff.2 h, Option.elim_none]

theorem codeIs_of_last (s : State) (h : lastCode codes sym = some p) :
    codeIs (s.setCodeTable (codeTable codes)) sym.toNat (BitVec.ofNat 8 p.length) (BitVec.ofNat 256 (valueOf p)) := by
  have hcode := codeIs_codeEntry s codes sym
  rwa [codeEntry_of_last h, bitsVal_eq_valueOf] at hcode

theorem codeIs_of_absent (s : State) (h : sym ∉ codes.map Prod.fst) :
    codeIs (s.setCodeTable (codeTable codes)) sym.toNat 0 0 := by
  have hcode := codeIs_codeEntry s codes sym
  rwa [codeEntry_of_absent h] at hcode

/-! ### The lengths of the codes -/

/-- A list of codes whose lengths a length byte can hold, 0 kept for "no code" (R45, R154). -/
def LengthsFit (codes : List (Byte × Bits)) : Prop := ∀ e ∈ codes, 1 ≤ e.2.length ∧ e.2.length < 256

/-- Every recorded symbol, and no other, has a length other than 0. -/
theorem codeEntry_len_ne_zero_iff (hfit : LengthsFit codes) :
    (codeEntry codes sym).1.toNat ≠ 0 ↔ sym ∈ codes.map Prod.fst := by
  cases hlast : lastCode codes sym with
  | none =>
    have habsent := lastCode_eq_none_iff.1 hlast
    simp [codeEntry_of_absent habsent, habsent]
  | some p =>
    obtain ⟨hpos, hlt⟩ := hfit _ (mem_of_lastCode hlast)
    have hmem : sym ∈ codes.map Prod.fst := List.mem_map_of_mem (mem_of_lastCode hlast)
    rw [codeEntry_of_last hlast, BitVec.toNat_ofNat, Nat.mod_eq_of_lt hlt]
    exact iff_of_true (Nat.ne_of_gt hpos) hmem

theorem mem_codeLengths_iff {n : Nat} :
    n ∈ codeLengths (codeTable codes) ↔ n ≠ 0 ∧ ∃ sym, (codeEntry codes sym).1.toNat = n := by
  simp only [codeLengths, codeTable_eq_map, List.map_map, List.mem_filter, List.mem_map, List.mem_range,
    Function.comp_apply, decide_eq_true_eq]
  constructor
  · rintro ⟨⟨sym, -, hn⟩, hne⟩
    exact ⟨hne, _, hn⟩
  · rintro ⟨hne, sym, hn⟩
    exact ⟨⟨sym.toNat, sym.isLt, by simpa using hn⟩, hne⟩

/-- As many symbols have a code as are recorded (R151). -/
theorem codeLengths_length (hfit : LengthsFit codes) (hl : codes.length < 2 ^ 32) :
    (codeLengths (codeTable codes)).length = (codes.map Prod.fst).dedup.length := by
  rw [← countSymbols_countP (by rwa [List.length_map]), codeLengths, ← List.countP_eq_length_filter, codeTable_eq_map,
    countSymbols]
  simp only [List.countP_map]
  refine List.countP_congr fun sym _ => ?_
  have hle : (codes.map Prod.fst).count (BitVec.ofNat 8 sym) < 2 ^ 32 :=
    List.count_le_length.trans_lt (by rwa [List.length_map])
  have hcount : BitVec.ofNat 32 ((codes.map Prod.fst).count (BitVec.ofNat 8 sym)) ≠ 0 ↔
      BitVec.ofNat 8 sym ∈ codes.map Prod.fst := by
    rw [← List.count_pos_iff, ne_eq, ← BitVec.toNat_inj, BitVec.toNat_ofNat, Nat.mod_eq_of_lt hle]
    exact Nat.pos_iff_ne_zero.symm
  simp only [Function.comp_apply, decide_eq_true_eq]
  exact (codeEntry_len_ne_zero_iff hfit).trans hcount.symm

theorem codeLengths_ne_nil (hfit : LengthsFit codes) (hne : codes ≠ []) : codeLengths (codeTable codes) ≠ [] := by
  obtain ⟨e, he⟩ := List.exists_mem_of_ne_nil codes hne
  have hlen := (codeEntry_len_ne_zero_iff hfit).2 (List.mem_map_of_mem (f := Prod.fst) he)
  exact List.ne_nil_of_mem (mem_codeLengths_iff.2 ⟨hlen, _, rfl⟩)

theorem max?_getD_mem {l : List Nat} (h : l ≠ []) : l.max?.getD 0 ∈ l := by
  rw [List.max?_eq_some_max h]
  exact List.max_mem h

theorem min?_getD_mem {l : List Nat} (h : l ≠ []) : l.min?.getD 0 ∈ l := by
  rw [List.min?_eq_some_min h]
  exact List.min_mem h

/-- A length is a byte, so a result register holds it. -/
theorem toNat_of_mem_codeLengths {n : Nat} (h : n ∈ codeLengths (codeTable codes)) :
    (BitVec.ofNat 32 n).toNat = n := by
  obtain ⟨-, sym, rfl⟩ := mem_codeLengths_iff.1 h
  have hlt := (codeEntry codes sym).1.isLt
  exact Nat.mod_eq_of_lt (by omega)

/-- The lengths are those the stored table holds for the symbols that have a code. -/
theorem mem_codeLengths_iff_codeIs (s : State) {n : Nat} :
    n ∈ codeLengths (codeTable codes) ↔ ∃ (sym : Byte) (len : Byte) (val : BitVec 256), len ≠ 0 ∧
      codeIs (s.setCodeTable (codeTable codes)) sym.toNat len val ∧ len.toNat = n := by
  rw [mem_codeLengths_iff]
  constructor
  · rintro ⟨hne, sym, rfl⟩
    exact ⟨sym, _, _, fun hzero => hne (congrArg BitVec.toNat hzero), codeIs_codeEntry s codes sym, rfl⟩
  · rintro ⟨sym, len, val, hne, ⟨hlen, -⟩, rfl⟩
    obtain ⟨hread, -⟩ := codeIs_codeEntry s codes sym
    obtain rfl := Option.some.inj (hread.symm.trans hlen)
    exact ⟨fun hzero => hne (BitVec.eq_of_toNat_eq hzero), sym, rfl⟩

end Sys2Proof.Proofs
end

section
/-! CODEGEN on a valid tree (R151, R152): what it records, and the table and the results it leaves. -/

namespace Sys2Proof.Proofs

open Sys2Proof.Machine Sys2Proof.Safety

/-- CODEGEN on a valid tree stores the table of the codes it records, and reports on their lengths (R151). -/
theorem exec_codegen_of_codes {s : State} {codes : List (Byte × Bits)} (hv : s.treeValid = true)
    (hc : treeCodes s.arena.nodes s.root = .ok codes) :
    exec .codegen s = .next (((s.setCodeTable (codeTable codes)).withRes
      (BitVec.ofNat 32 (codeLengths (codeTable codes)).length)
      (BitVec.ofNat 32 ((codeLengths (codeTable codes)).max?.getD 0))
      (BitVec.ofNat 32 ((codeLengths (codeTable codes)).min?.getD 0)) 0).finish) := by
  rw [exec, execCodegen, State.checkTree_ok.2 hv, except_ok_bind, hc, except_ok_bind, except_pure_eq_ok, conclude_ok]

/-- The codes CODEGEN records for a tree: "0" for a leaf root (R152), or the paths of the leaves (R151). -/
def recordedCodes : HTree → List (Byte × Bits)
  | .leaf sym => [(sym, [false])]
  | .node l r => (HTree.node l r).paths []

theorem treeCodes_of_treeOf {s : State} {T : HTree} (h : treeOf s = some T) :
    treeCodes s.arena.nodes s.root = .ok (recordedCodes T) := by
  have hwalk := leafPaths_of_treeAt h []
  rw [treeOf] at h
  cases hfuel : s.arena.nodes.length with
  | zero => rw [hfuel] at h; cases h
  | succ fuel =>
    rw [hfuel] at h
    rcases treeAt_cases h with ⟨sym, hn, rfl⟩ | ⟨l, rt, num, tl, tr, hn, -, -, rfl⟩
    · rw [treeCodes, hn, recordedCodes]
    · rw [treeCodes, hn]
      exact hwalk

theorem recordedCodes_symbols (T : HTree) : (recordedCodes T).map Prod.fst = T.symbols := by
  cases T with
  | leaf sym => rfl
  | node l r => exact (HTree.node l r).paths_symbols []

theorem recordedCodes_eq_paths {T : HTree} (hK : 1 ≤ T.internals) : recordedCodes T = T.paths [] := by
  cases T with
  | leaf sym => exact absurd hK (Nat.not_succ_le_zero 0)
  | node l r => rfl

theorem recordedCodes_length_pos {T : HTree} {e : Byte × Bits} (he : e ∈ recordedCodes T) : 1 ≤ e.2.length := by
  cases T with
  | leaf sym =>
    obtain rfl := List.mem_singleton.1 he
    exact Nat.le_refl 1
  | node l r =>
    rw [recordedCodes, HTree.paths_node, List.mem_append, List.mem_map, List.mem_map] at he
    rcases he with ⟨e, -, rfl⟩ | ⟨e, -, rfl⟩ <;> exact Nat.le_add_left 1 e.2.length

/-- In a tree of at most 255 internal nodes every length fits its byte (R154). -/
theorem recordedCodes_fit {T : HTree} (hK : T.internals < 256) : LengthsFit (recordedCodes T) := by
  refine fun e he => ⟨recordedCodes_length_pos he, ?_⟩
  cases T with
  | leaf sym =>
    obtain rfl := List.mem_singleton.1 he
    exact Nat.one_lt_succ_succ 254
  | node l r => exact ((HTree.node l r).paths_length he).trans_lt hK

theorem recordedCodes_length (T : HTree) : (recordedCodes T).length = T.internals + 1 := by
  rw [← T.symbols_length, ← recordedCodes_symbols, List.length_map]

theorem lastCode_singleton (sym : Byte) (p : Bits) : lastCode [(sym, p)] sym = some p :=
  lastCode_eq_some (front := []) (back := []) rfl nofun

/-- The only length in the table of a leaf root is that of its code "0" (R152). -/
theorem codeLengths_leaf (sym : Byte) : codeLengths (codeTable [(sym, [false])]) = [1] := by
  have hfit : LengthsFit [(sym, [false])] := recordedCodes_fit (T := .leaf sym) (Nat.succ_pos 255)
  obtain ⟨n, hn⟩ := List.length_eq_one_iff.1 (codeLengths_length hfit (Nat.one_lt_two_pow (by decide)))
  have hmem : 1 ∈ codeLengths (codeTable [(sym, [false])]) :=
    mem_codeLengths_iff.2 ⟨Nat.one_ne_zero, sym, by rw [codeEntry_of_last (lastCode_singleton sym [false])]; rfl⟩
  rw [hn, List.mem_singleton] at hmem
  rw [hn, hmem]

end Sys2Proof.Proofs

open Sys2Proof Sys2Proof.Machine Sys2Proof.Safety Sys2Proof.Proofs

/-- Settles O40: the table keeps the path recorded last for each symbol, and RES reports on its lengths. -/
theorem codegenRecordsThePaths : Obligations.CodegenRecordsThePaths := by
  intro s T htree hmap hv hT hK
  have hlt := htree.internals_lt hv hT
  have hfit := recordedCodes_fit hlt
  have hlens := codeLengths_ne_nil hfit (List.ne_nil_of_length_eq_add_one (recordedCodes_length T))
  have hmax := max?_getD_mem hlens
  have hmin := min?_getD_mem hlens
  have hmaxReg := toNat_of_mem_codeLengths hmax
  have hminReg := toNat_of_mem_codeLengths hmin
  obtain ⟨-, hframe⟩ := setCodeTable_spec hmap (codeTable_length (recordedCodes T))
  refine ⟨_, exec_codegen_of_codes hv (treeCodes_of_treeOf hT), rfl, fun front back sym p hpaths hback => ?_,
    fun sym hsym => codeIs_of_absent s (recordedCodes_symbols T ▸ hsym), ?_, rfl,
    fun sym len val hcode hlen => ?_, ?_, ?_, hframe⟩
  · have hcodes := (recordedCodes_eq_paths hK).trans hpaths
    have hmem : (sym, p) ∈ recordedCodes T := hcodes ▸ List.mem_append_cons_self
    exact ⟨codeIs_of_last s (lastCode_eq_some hcodes hback), recordedCodes_length_pos hmem,
      T.paths_length (recordedCodes_eq_paths hK ▸ hmem)⟩
  · show BitVec.ofNat 32 _ = _
    rw [codeLengths_length hfit (by rw [recordedCodes_length]; omega), recordedCodes_symbols]
  · have hmem := (mem_codeLengths_iff_codeIs s).2 ⟨sym, len, val, hlen, hcode, rfl⟩
    exact ⟨hminReg.trans_le (List.min?_getD_le_of_mem hmem), (List.le_max?_getD_of_mem hmem).trans_eq hmaxReg.symm⟩
  · obtain ⟨sym, len, val, hlen, hcode, heq⟩ := (mem_codeLengths_iff_codeIs s).1 hmax
    exact ⟨sym, len, val, hlen, hcode, heq.trans hmaxReg.symm⟩
  · obtain ⟨sym, len, val, hlen, hcode, heq⟩ := (mem_codeLengths_iff_codeIs s).1 hmin
    exact ⟨sym, len, val, hlen, hcode, heq.trans hminReg.symm⟩

/-- Settles O41: the one code recorded for a leaf root makes the one entry, and its length is the only one. -/
theorem degenerateTreeHasCodeZero : Obligations.DegenerateTreeHasCodeZero := by
  intro s sym hmap hv hT
  have hanswer := exec_codegen_of_codes hv (treeCodes_of_treeOf hT)
  rw [recordedCodes, codeLengths_leaf] at hanswer
  obtain ⟨-, hframe⟩ := setCodeTable_spec hmap (codeTable_length [(sym, [false])])
  exact ⟨_, hanswer, rfl, codeIs_of_last s (lastCode_singleton sym [false]),
    fun other hother => codeIs_of_absent s (by simpa using hother), hframe⟩
end

section
/-! Numbering a valid tree (R165) numbers every subtree in postorder (R166), and what that says of each node. -/

namespace Sys2Proof.Proofs

open Sys2Proof.Machine Sys2Proof.Safety

/-! ### A tree with its numbers -/

/-- The tree T is below r, and its internal nodes carry the numbers from n on in postorder (R165). -/
inductive PostNumbered (nodes : List Node) : HTree → Nat → Ref → Prop
  | leaf {n : Nat} {r : Ref} {sym : Byte} (hr : nodes[r.toNat]? = some (.leaf sym)) :
      PostNumbered nodes (.leaf sym) n r
  | node {n : Nat} {r lc rc : Ref} {L R : HTree}
      (hr : nodes[r.toNat]? = some (.internal lc rc (BitVec.ofNat 8 (n + L.internals + R.internals))))
      (left : PostNumbered nodes L n lc) (right : PostNumbered nodes R (n + L.internals) rc) :
      PostNumbered nodes (.node L R) n r

variable {nodes : List Node} {T : HTree} {n : Nat} {r : Ref}

theorem PostNumbered.ref_lt (h : PostNumbered nodes T n r) : r.toNat < nodes.length := by
  cases h with
  | leaf hr => exact (List.getElem?_eq_some_iff.1 hr).1
  | node hr => exact (List.getElem?_eq_some_iff.1 hr).1

/-- Below an internal node are the trees of its children. -/
theorem treeAt_internal {fuel : Nat} {lc rc : Ref} {num : Byte} (hr : nodes[r.toNat]? = some (.internal lc rc num))
    (hT : treeAt nodes (fuel + 1) r = some T) :
    ∃ L R, treeAt nodes fuel lc = some L ∧ treeAt nodes fuel rc = some R ∧ T = .node L R := by
  rcases treeAt_cases hT with ⟨sym, hr', -⟩ | ⟨lc', rc', num', L, R, hr', hL, hR, rfl⟩
  · cases hr.symm.trans hr'
  · cases hr.symm.trans hr'
    exact ⟨L, R, hL, hR, rfl⟩

theorem PostNumbered.treeAt_unique {fuel : Nat} {S : HTree} (h : PostNumbered nodes T n r)
    (hS : treeAt nodes fuel r = some S) : S = T := by
  induction h generalizing fuel S with
  | leaf hr =>
    cases fuel with
    | zero => cases hS
    | succ fuel => exact Option.some.inj (hS.symm.trans (treeAt_leaf hr))
  | node hr _ _ left right =>
    cases fuel with
    | zero => cases hS
    | succ fuel =>
      obtain ⟨L, R, hL, hR, rfl⟩ := treeAt_internal hr hS
      rw [left hL, right hR]

/-- The root of a numbered subtree has the last of its numbers. -/
theorem PostNumbered.number {lc rc : Ref} {num : Byte} (h : PostNumbered nodes T n r)
    (hr : nodes[r.toNat]? = some (.internal lc rc num)) (hlt : n + T.internals ≤ 256) :
    num.toNat + 1 = n + T.internals := by
  cases h with
  | leaf hr' => cases hr'.symm.trans hr
  | node hr' =>
    cases hr'.symm.trans hr
    rw [HTree.internals] at hlt ⊢
    rw [BitVec.toNat_ofNat, Nat.mod_eq_of_lt (by omega)]
    omega

/-- Every internal node below r is the root of a numbered subtree. -/
theorem PostNumbered.subtree {fuel : Nat} {p : Ref} (h : PostNumbered nodes T n r)
    (hp : p.toNat ∈ internalRefs nodes fuel r) :
    ∃ S m, PostNumbered nodes S m p ∧ m + S.internals ≤ n + T.internals := by
  induction h generalizing fuel with
  | leaf hr =>
    cases fuel with
    | zero => cases hp
    | succ fuel => rw [internalRefs_leaf hr] at hp; cases hp
  | node hr hleft hright left right =>
    cases fuel with
    | zero => cases hp
    | succ fuel =>
      rw [internalRefs_internal hr, List.mem_append, List.mem_append, List.mem_singleton] at hp
      rcases hp with (hp | hp) | hp
      · obtain ⟨S, m, hS, hm⟩ := left hp
        exact ⟨S, m, hS, by rw [HTree.internals]; omega⟩
      · obtain ⟨S, m, hS, hm⟩ := right hp
        exact ⟨S, m, hS, by rw [HTree.internals]; omega⟩
      · exact ⟨_, _, BitVec.eq_of_toNat_eq hp ▸ .node hr hleft hright, Nat.le_refl _⟩

/-! ### The walk -/

theorem getElem?_leaf_of_shape {ns ms : List Node} (h : ns.map Node.clearNum = ms.map Node.clearNum) {i : Nat}
    {sym : Byte} (hm : ms[i]? = some (.leaf sym)) : ns[i]? = some (.leaf sym) := by
  have hi := congrArg (fun l => l[i]?) h
  simp only [List.getElem?_map, hm, Option.map_some, Node.clearNum] at hi
  rcases hn : ns[i]? with _ | (sym' | ⟨lc, rc, num⟩) <;> rw [hn] at hi
  · cases hi
  · exact hi
  · cases hi

/-- Numbering other nodes leaves a numbered subtree as it is. -/
theorem PostNumbered.of_numbers {fuel : Nat} {refs : List Nat} {b b' : List Node × Nat} (h : PostNumbered b.1 T n r)
    (hT : treeAt b.1 fuel r = some T) (hnum : Numbers refs b b')
    (hshape : b'.1.map Node.clearNum = b.1.map Node.clearNum) (hd : (internalRefs b.1 fuel r).Disjoint refs) :
    PostNumbered b'.1 T n r := by
  induction h generalizing fuel with
  | leaf hr => exact .leaf (getElem?_leaf_of_shape hshape hr)
  | node hr _ _ left right =>
    cases fuel with
    | zero => cases hT
    | succ fuel =>
      obtain ⟨_, _, hL, hR, heq⟩ := treeAt_internal hr hT
      cases heq
      rw [internalRefs_internal hr, List.disjoint_append_left, List.disjoint_append_left] at hd
      obtain ⟨⟨hdl, hdr⟩, hdself⟩ := hd
      exact .node ((hnum.frame _ (List.singleton_disjoint.1 hdself)).trans hr) (left hL hdl) (right hR hdr)

/-- post(r) (R165) answers where a tree is below r. -/
theorem numberFrom_answers {fuel : Nat} {b : List Node × Nat} (hT : treeAt b.1 fuel r = some T) :
    ∃ b', numberFrom fuel r b = .ok b' := by
  induction fuel generalizing r b T with
  | zero => cases hT
  | succ fuel ih =>
    obtain ⟨nodes, n⟩ := b
    rcases treeAt_cases hT with ⟨sym, hn, rfl⟩ | ⟨lc, rc, num, tl, tr, hn, hl, hr, rfl⟩
    · exact ⟨_, by rw [numberFrom, hn]⟩
    · obtain ⟨b₁, h₁⟩ := ih (b := (nodes, n)) hl
      obtain ⟨b₂, h₂⟩ := ih ((treeAt_congr (numberFrom_shape h₁) fuel rc).trans hr)
      exact ⟨(b₂.1.set r.toNat (.internal lc rc (BitVec.ofNat 8 b₂.2)), b₂.2 + 1), by
        rw [numberFrom, hn]
        simp only [h₁, h₂, except_ok_bind, except_pure_eq_ok]⟩

/-- post(r) takes as many numbers as there are internal nodes below r. -/
theorem numberFrom_count {fuel : Nat} {b b' : List Node × Nat} (h : numberFrom fuel r b = .ok b')
    (hT : treeAt b.1 fuel r = some T) (hd : (internalRefs b.1 fuel r).Nodup) : b'.2 = b.2 + T.internals := by
  rw [(numberFrom_numbers h hd).count, internalRefs_length hT]

/-- post(r) numbers the tree below r in postorder: neither the right subtree's numbers nor r's own touch what is
numbered before. -/
theorem numberFrom_postNumbered {fuel : Nat} {b b' : List Node × Nat} (h : numberFrom fuel r b = .ok b')
    (hT : treeAt b.1 fuel r = some T) (hd : (internalRefs b.1 fuel r).Nodup) : PostNumbered b'.1 T b.2 r := by
  induction fuel generalizing r b b' T with
  | zero => cases h
  | succ fuel ih =>
    obtain ⟨nodes, n⟩ := b
    have hshape := numberFrom_shape h
    rcases numberFrom_succ_ok h with ⟨sym, hn, rfl⟩ | ⟨lc, rc, num, b₁, b₂, hn, h₁, h₂, rfl⟩
    · cases hT.symm.trans (treeAt_leaf hn)
      exact .leaf hn
    · obtain ⟨L, R, hL, hR, rfl⟩ := treeAt_internal hn hT
      rw [internalRefs_internal hn, List.append_assoc] at hd
      obtain ⟨hdl, hrest, hdlr⟩ := List.nodup_append'.1 hd
      obtain ⟨hdr, -, hdself⟩ := List.nodup_append'.1 hrest
      -- the left subtree
      have hshape₁ := numberFrom_shape h₁
      have hcount₁ := numberFrom_count h₁ hL hdl
      have left := ih h₁ hL hdl
      -- the right subtree, in what the left walk leaves
      simp only [← internalRefs_congr hshape₁ fuel, ← treeAt_congr hshape₁ fuel] at hdr hdlr hdself hR hL
      have hshape₂ := numberFrom_shape h₂
      have hcount₂ := numberFrom_count h₂ hR hdr
      have right := ih h₂ hR hdr
      -- the node itself, and both subtrees after it
      have hlt := (numberFrom_length h₂).symm ▸ (numberFrom_length h₁).symm ▸ (List.getElem?_eq_some_iff.1 hn).1
      have hself : Numbers [r.toNat] b₂ _ := .set hlt b₂.2 lc rc
      have hafter := (numberFrom_numbers h₂ hdr).append hself hdself
      have left := left.of_numbers hL hafter (hshape.trans hshape₁.symm) hdlr
      have right := right.of_numbers ((treeAt_congr hshape₂ fuel rc).trans hR) hself
        (hshape.trans (hshape₂.trans hshape₁).symm) (internalRefs_congr hshape₂ fuel rc ▸ hdself)
      rw [hcount₁] at hcount₂ right
      exact .node (by rw [List.getElem?_set_self hlt, hcount₂]) left right

end Sys2Proof.Proofs
end

section
/-! NUMBER on a valid tree (R165, R166): the numbering it leaves, and what it says of each node. -/

namespace Sys2Proof.Proofs

open Sys2Proof.Machine Sys2Proof.Safety

/-- What number_tree() (R165) leaves of the valid tree T: its K nodes numbered in postorder from 0 on, in a valid
arena. -/
structure Numbering (s : State) (T : HTree) (nodes : List Node) : Prop where
  run : numberTree s.arena.nodes s.root = .ok (nodes, T.internals)
  post : PostNumbered nodes T 0 s.root
  arena : ArenaInv ⟨nodes, s.arena.internalCount⟩ s.root
  tree : treeAt nodes nodes.length s.root = some T
  perm : (nodes.filterMap nodeNum).Perm (List.range T.internals)
  count : s.arena.internalCount.toNat = T.internals
  internals_lt : T.internals < 256

theorem exists_numbering {s : State} {T : HTree} (h : TreeInv s) (hv : s.treeValid = true) (hT : treeOf s = some T) :
    ∃ nodes, Numbering s T nodes := by
  obtain ⟨harena, -⟩ := h.1 hv
  have hcleared : treeAt (s.arena.nodes.map Node.clearNum) s.arena.nodes.length s.root = some T :=
    (treeAt_congr (by simp [Function.comp_def]) _ _).trans hT
  have hnodup := internalRefs_clearNum s.arena.nodes _ _ ▸ (internalRefs_nodup harena).1
  obtain ⟨⟨nodes, n⟩, hrun⟩ := numberFrom_answers (b := (s.arena.nodes.map Node.clearNum, 0)) hcleared
  have hcount := numberFrom_count hrun hcleared hnodup
  have hpost := numberFrom_postNumbered hrun hcleared hnodup
  obtain rfl : n = T.internals := hcount.trans (Nat.zero_add _)
  have hshape := numberTree_shape hrun
  have hlen : nodes.length = s.arena.nodes.length := by simpa using congrArg List.length hshape
  have hK := harena.internals_root.symm.trans (internalsBelow_eq hT)
  exact ⟨nodes, hrun, hpost, arenaInv_of_clearNum harena hshape rfl, hlen ▸ (treeAt_congr hshape _ _).trans hT,
    hK ▸ numberTree_perm harena hrun, hK, h.internals_lt hv hT⟩

variable {s : State} {T : HTree} {nodes : List Node}

theorem Numbering.shape (h : Numbering s T nodes) : nodes.map Node.clearNum = s.arena.nodes.map Node.clearNum :=
  numberTree_shape h.run

theorem Numbering.root_number {lc rc : Ref} {num : Byte} (h : Numbering s T nodes)
    (hr : nodes[s.root.toNat]? = some (.internal lc rc num)) : num.toNat + 1 = T.internals :=
  (h.post.number hr (by have := h.internals_lt; omega)).trans (Nat.zero_add _)

/-- Each internal node is the root of a numbered subtree: its children have the numbers R166 gives them. -/
theorem Numbering.child_numbers {r lc rc : Ref} {num : Byte} (h : Numbering s T nodes)
    (hr : nodes[r.toNat]? = some (.internal lc rc num)) :
    (∀ rl rr rnum, nodes[rc.toNat]? = some (.internal rl rr rnum) → rnum.toNat + 1 = num.toNat) ∧
      ∀ ll lr lnum, nodes[lc.toNat]? = some (.internal ll lr lnum) →
        ∃ R : HTree, treeAt nodes nodes.length rc = some R ∧ lnum.toNat + 1 + R.internals = num.toNat := by
  obtain ⟨hlt, hnode⟩ := List.getElem?_eq_some_iff.1 hr
  have hmem := mem_internalRefs_of_arenaInv h.arena h.tree hlt (by rw [hnode]; rfl)
  obtain ⟨S, m, hS, hm⟩ := h.post.subtree hmem
  have hK := h.internals_lt
  have hnum := hS.number hr (by omega)
  cases hS with
  | leaf hr' => cases hr'.symm.trans hr
  | @node _ _ _ _ L R hr' left right =>
    cases hr'.symm.trans hr
    rw [HTree.internals] at hm hnum
    refine ⟨fun rl rr rnum hrc => ?_, fun ll lr lnum hlc => ?_⟩
    · have := right.number hrc (by omega)
      omega
    · have := left.number hlc (by omega)
      have hrlt : rc.toNat < nodes.length := right.ref_lt
      obtain ⟨R', hR⟩ := h.arena.exists_treeAt hrlt hrlt
      obtain rfl := right.treeAt_unique hR
      exact ⟨R', hR, by omega⟩

end Sys2Proof.Proofs

open Sys2Proof Sys2Proof.Machine Sys2Proof.Proofs

/-- Settles O44: NUMBER leaves the postorder numbering of the tree. -/
theorem numberIsPostorder : Obligations.NumberIsPostorder := by
  intro s T h hv hT
  obtain ⟨nodes, hnum⟩ := exists_numbering h hv hT
  have hexec : exec .number s = .next ((s.withNumbered nodes).withRes (BitVec.ofNat 32 T.internals) 0 0 0).finish := by
    rw [exec, execNumber, State.checkTree_ok.2 hv, except_ok_bind, hnum.run]
    rfl
  exact ⟨_, hexec, rfl, hnum.shape, hnum.tree, hnum.perm, fun _ _ _ => hnum.root_number,
    fun _ _ _ _ => hnum.child_numbers⟩
end

section
/-! SER on a valid tree (R167 to R169): the header it emits from the numbered nodes, and how it answers with and without
room for it in OUT. -/

namespace Sys2Proof.Proofs

open Sys2Proof.Machine Sys2Proof.Safety

/-! ### The records (R169) -/

theorem PostNumbered.childBytes {nodes : List Node} {T : HTree} {n : Nat} {r : Ref} (h : PostNumbered nodes T n r) :
    childBytes nodes r = .ok (HTree.childRecord n T) := by
  cases h with
  | leaf hr => rw [Machine.childBytes, hr, HTree.childRecord]
  | node hr =>
    rw [Machine.childBytes, hr, HTree.childRecord, HTree.internals, ← Nat.add_assoc, ← Nat.add_assoc,
      Nat.add_sub_cancel]

/-- Where every number is used once, it tells its node. -/
theorem node_eq_of_nodeNum {nodes : List Node} (hu : (nodes.filterMap nodeNum).Nodup) {m n : Node} (hm : m ∈ nodes)
    (hn : n ∈ nodes) {k : Nat} (hmk : nodeNum m = some k) (hnk : nodeNum n = some k) : m = n := by
  have hsymm : Std.Symm fun x y : Node => ∀ i, nodeNum x = some i → ∀ j, nodeNum y = some j → i ≠ j :=
    ⟨fun _ _ h i hi j hj => (h j hj i hi).symm⟩
  by_contra hne
  exact (List.pairwise_filterMap.1 hu).forall hm hn hne k hmk k hnk rfl

/-- record(v) (R169) of a number is that of the node that carries it. -/
theorem recordOf_number {nodes : List Node} (hu : (nodes.filterMap nodeNum).Nodup) {r : Nat} {lc rc : Ref} {num : Byte}
    (hr : nodes[r]? = some (.internal lc rc num)) : recordOf nodes num.toNat = do
      let lb ← childBytes nodes lc
      let rb ← childBytes nodes rc
      return lb ++ rb := by
  have hmem := List.mem_of_getElem? hr
  rw [recordOf]
  generalize hf : List.find? _ nodes = found
  obtain _ | (sym | ⟨lc', rc', num'⟩) := found
  · exact absurd (by simp) (List.find?_eq_none.1 hf _ hmem)
  · exact absurd (List.find?_some hf) Bool.false_ne_true
  · obtain rfl : num' = num := by simpa using List.find?_some hf
    cases node_eq_of_nodeNum hu (List.mem_of_find?_eq_some hf) hmem rfl rfl
    rfl

theorem collect_append {α : Type} {f : Nat → Except Stop α} {a m n : Nat} {xs ys : List α}
    (hx : collect f a m = .ok xs) (hy : collect f (a + m) n = .ok ys) : collect f a (m + n) = .ok (xs ++ ys) := by
  obtain ⟨rfl, hxs⟩ := collect_ok.1 hx
  obtain ⟨rfl, hys⟩ := collect_ok.1 hy
  refine collect_ok.2 ⟨List.length_append, fun i hi => ?_⟩
  rw [List.getElem_append]
  split
  next h => exact hxs i h
  next h =>
    rw [← hys (i - xs.length) (by rw [List.length_append] at hi; omega)]
    congr 1
    omega

/-- The records of the numbers below r are those of the tree, in postorder. -/
theorem PostNumbered.records {nodes : List Node} {T : HTree} {n : Nat} {r : Ref} (h : PostNumbered nodes T n r)
    (hu : (nodes.filterMap nodeNum).Nodup) (hlt : n + T.internals ≤ 256) :
    ∃ rs, collect (recordOf nodes) n T.internals = .ok rs ∧ rs.flatten = HTree.records n T := by
  induction h with
  | leaf => exact ⟨[], rfl, rfl⟩
  | @node n r lc rc L R hr hl hrt left right =>
    rw [HTree.internals] at hlt
    obtain ⟨xs, hx, hxs⟩ := left (by omega)
    obtain ⟨ys, hy, hys⟩ := right (by omega)
    have hself := recordOf_number hu hr
    rw [hl.childBytes, hrt.childBytes, BitVec.toNat_ofNat, Nat.mod_eq_of_lt (by omega)] at hself
    have hone : collect (recordOf nodes) (n + (L.internals + R.internals)) 1 =
        .ok [HTree.childRecord n L ++ HTree.childRecord (n + L.internals) R] := by
      rw [collect_succ, ← Nat.add_assoc, hself]
      rfl
    refine ⟨_, collect_append (collect_append hx hy) hone, ?_⟩
    simp only [HTree.records, List.flatten_append, hxs, hys, List.flatten_singleton, List.append_assoc]

/-! ### The header (R167, R168) -/

/-- The bytes SER emits for a tree: the five bytes of a leaf root (R168), or the header (R170). -/
def serBytes : HTree → List Byte
  | .leaf sym => degenerateBytes sym
  | .node l r => (HTree.node l r).header

theorem serBytes_eq_header {T : HTree} (hK : 1 ≤ T.internals) : serBytes T = T.header := by
  cases T with
  | leaf sym => exact absurd hK (Nat.not_succ_le_zero 0)
  | node l r => rfl

theorem header_length (T : HTree) : T.header.length = 1 + 4 * T.internals := by
  rw [HTree.header, List.length_cons, HTree.records_length, Nat.add_comm]

theorem serBytes_length (T : HTree) :
    (serBytes T).length = if T.internals = 0 then 5 else 1 + 4 * T.internals := by
  cases T with
  | leaf sym => rfl
  | node l r => exact header_length _

variable {s : State} {T : HTree} {nodes : List Node}

/-- LEAF_ROOT is the kind of the numbered root too. -/
theorem Numbering.leafRoot_eq (h : Numbering s T nodes) (hs : TreeInv s) (hv : s.treeValid = true) :
    s.leafRoot = (nodes[s.root.toNat]?.map Node.isLeaf).getD false := by
  obtain ⟨-, hleaf⟩ := hs.1 hv
  have e := congrArg (fun l => (l[s.root.toNat]?.map Node.isLeaf).getD false) h.shape
  simp only [List.getElem?_map, Option.map_map, Function.comp_def, Node.clearNum_isLeaf] at e
  exact hleaf.trans e.symm

theorem headerBytes_of_leaf {sym : Byte} (hl : s.leafRoot = true) (hr : nodes[s.root.toNat]? = some (.leaf sym)) :
    s.headerBytes nodes = .ok (degenerateBytes sym) := by
  rw [State.headerBytes, if_pos hl, hr]

theorem headerBytes_of_records {rs : List (List Byte)} (hl : s.leafRoot = false)
    (hrs : collect (recordOf nodes) 0 s.arena.internalCount.toNat = .ok rs) :
    s.headerBytes nodes = .ok (s.arena.internalCount.setWidth 8 :: rs.flatten) := by
  rw [State.headerBytes, if_neg (Bool.eq_false_iff.1 hl)]
  simp only [hrs, except_ok_bind, except_pure_eq_ok]

/-- SER emits the bytes of the tree it numbered. -/
theorem Numbering.headerBytes (h : Numbering s T nodes) (hs : TreeInv s) (hv : s.treeValid = true) :
    s.headerBytes nodes = .ok (serBytes T) := by
  have hroot := h.leafRoot_eq hs hv
  obtain ⟨rs, hrs, hrecords⟩ := h.post.records (h.perm.nodup_iff.2 List.nodup_range)
    (by have := h.internals_lt; omega)
  have hpost := h.post
  cases hpost with
  | leaf hr =>
    rw [hr] at hroot
    exact headerBytes_of_leaf hroot hr
  | node hr =>
    rw [hr] at hroot
    rw [← h.count] at hrs
    rw [headerBytes_of_records hroot hrs, hrecords, serBytes, HTree.header, ← h.count, BitVec.ofNat_toNat]

/-! ### The command -/

/-- The state SER leaves with the header in OUT. -/
def serialized (s : State) (nodes : List Node) (bytes : List Byte) : State :=
  { s with
    mem := s.mem.writeBytes (outAddr s.dstPtr.toNat) bytes, arena := ⟨nodes, s.arena.internalCount⟩, numbered := true,
    dstPtr := BitVec.ofNat 32 (s.dstPtr.toNat + bytes.length),
    res := ⟨(bytes.headD 0).setWidth 32, BitVec.ofNat 32 bytes.length, 0, 0⟩, busy := false, done := true }

theorem Numbering.execSer_eq (h : Numbering s T nodes) (hs : TreeInv s) (hv : s.treeValid = true) :
    execSer s = conclude s (do
      s.checkDstRoom (serBytes T).length
      return ((s.withNumbered nodes).appendOut (serBytes T)).withRes (((serBytes T).headD 0).setWidth 32)
        (BitVec.ofNat 32 (serBytes T).length) 0 0) := by
  rw [execSer, State.checkTree_ok.2 hv, except_ok_bind, h.run, except_ok_bind]
  simp only [h.headerBytes hs hv, except_ok_bind]

theorem Numbering.exec_ser (h : Numbering s T nodes) (hs : TreeInv s) (hv : s.treeValid = true)
    (hroom : s.dstPtr.toNat + (serBytes T).length ≤ s.params.outSize) :
    exec .ser s = .next (serialized s nodes (serBytes T)) := by
  rw [exec, h.execSer_eq hs hv, State.checkDstRoom_ok.2 hroom, serialized, BitVec.ofNat_add, BitVec.ofNat_toNat,
    BitVec.setWidth_eq]
  rfl

/-- OUT holds the header where DST_PTR was. -/
theorem serialized_outHolds (s : State) (nodes : List Node) (bytes : List Byte) :
    outHolds (serialized s nodes bytes) s.dstPtr.toNat bytes := by
  intro i hi
  have hread := s.mem.read_writeBytes_inside (outAddr s.dstPtr.toNat) bytes hi
  rwa [outAddr, Nat.add_assoc] at hread

/-- No byte outside the header's range changes. -/
theorem serialized_read (s : State) (nodes : List Node) (bytes : List Byte) {a : Nat}
    (ha : a < outAddr s.dstPtr.toNat ∨ outAddr (s.dstPtr.toNat + bytes.length) ≤ a) :
    (serialized s nodes bytes).mem.read a = s.mem.read a :=
  s.mem.read_writeBytes_outside _ bytes (by unfold outAddr at *; omega)

/-- An arena whose root is a leaf holds nothing else. -/
theorem nodes_of_leaf_root {a : Arena} {root : Ref} {sym : Byte} (h : ArenaInv a root)
    (hT : treeAt a.nodes a.nodes.length root = some (.leaf sym)) : a.nodes = [.leaf sym] := by
  have hlen : a.nodes.length = 1 := by
    rw [h.length_eq, ← h.internals_root, internalsBelow_eq hT, HTree.internals]
  obtain ⟨n, hn⟩ := List.length_eq_one_iff.1 hlen
  have hroot : root.toNat = 0 := by have := h.root_lt; omega
  rw [hlen] at hT
  rcases treeAt_cases hT with ⟨sym', hr, heq⟩ | ⟨_, _, _, _, _, _, _, _, heq⟩
  · cases heq
    rw [hn, hroot] at hr
    rw [hn, Option.some.inj hr]
  · cases heq

/-- A leaf has no number, so numbering a leaf root changes nothing. -/
theorem Numbering.nodes_of_leaf {sym : Byte} (h : Numbering s (.leaf sym) nodes) (harena : ArenaInv s.arena s.root)
    (hT : treeOf s = some (.leaf sym)) : nodes = s.arena.nodes :=
  (nodes_of_leaf_root h.arena h.tree).trans (nodes_of_leaf_root harena hT).symm

end Sys2Proof.Proofs

open Sys2Proof Sys2Proof.Machine Sys2Proof.Safety Sys2Proof.Proofs

/-- Settles O45: the numbers are NUMBER's, and the record of each number is the one the tree has in postorder. -/
theorem serWritesThePostorderRecords : Obligations.SerWritesThePostorderRecords := by
  intro s T _ h hv hT hK hroom
  obtain ⟨nodes, hnum⟩ := exists_numbering h hv hT
  have hlt := hnum.internals_lt
  have hlen := header_length T
  have hexec := hnum.exec_ser h hv
  rw [serBytes_eq_header hK, hlen] at hexec
  have hframe := fun a => serialized_read s nodes T.header (a := a)
  rw [hlen] at hframe
  have hcount : ((T.header.headD 0).setWidth 32 : Word) = BitVec.ofNat 32 T.internals := by
    rw [HTree.header, List.headD_cons]
    exact BitVec.setWidth_ofNat_of_le_of_lt (by decide) hlt
  refine ⟨_, hexec hroom, ?_, hnum.shape, hnum.tree, hnum.perm, fun _ _ _ => hnum.root_number,
    fun _ _ _ _ => hnum.child_numbers, hlen, serialized_outHolds s nodes T.header, hframe⟩
  rw [serialized, hcount, hlen]

/-- Settles O46: a leaf root takes no number, and its five bytes are R168's. -/
theorem serOfALeafRootWritesFiveBytes : Obligations.SerOfALeafRootWritesFiveBytes := by
  intro s sym _ h hv hT hroom
  obtain ⟨nodes, hnum⟩ := exists_numbering h hv hT
  obtain rfl := hnum.nodes_of_leaf (h.1 hv).1 hT
  have hnext : sym + 1 = BitVec.ofNat 8 ((sym.toNat + 1) % 256) := BitVec.eq_of_toNat_eq (by simp)
  exact ⟨_, hnum.exec_ser h hv hroom, rfl, hnext ▸ serialized_outHolds s _ (degenerateBytes sym),
    fun a => serialized_read s _ (degenerateBytes sym)⟩

/-- Settles O47: the check of the room follows the numbering, which the error commit does not keep. -/
theorem serWithoutRoomKeepsNothing : Obligations.SerWithoutRoomKeepsNothing := by
  intro s T h hv hT hfull
  obtain ⟨nodes, hnum⟩ := exists_numbering h hv hT
  rw [← serBytes_length] at hfull
  rw [exec, hnum.execSer_eq h hv, State.checkDstRoom_full hfull]
  rfl
end

section
/-! DESER's header checks and the root's record (R186 to R188): where a check fails, the command completes with
MalformedHeader and the tree reset (R252). -/

namespace Sys2Proof.Proofs

open Sys2Proof.Machine Sys2Proof.Safety

variable {s : State}

/-! ### The node-count byte (R185) -/

theorem nodeCountByte_empty (h : s.srcPtr.toNat = s.srcEnd.toNat) : s.nodeCountByte = malformed s.srcPtr.toNat := by
  rw [State.nodeCountByte, if_pos (by unfold State.srcLen; omega)]

/-- A node-count byte that is 0, or that counts more records than are available, is malformed; any other is N. -/
theorem nodeCountByte_of_read {n : Byte} (hlt : s.srcPtr.toNat < s.srcEnd.toNat)
    (h : s.mem.read (inAddr s.srcPtr.toNat) = some n) :
    s.nodeCountByte = if n = 0 ∨ s.srcEnd.toNat < s.srcPtr.toNat + 1 + 4 * n.toNat then malformed s.srcPtr.toNat
      else .ok n.toNat := by
  rw [State.nodeCountByte, if_neg (by unfold State.srcLen; omega), State.inByte_ok.2 h, except_ok_bind, ite_or]
  have hlen : s.srcLen < 1 + 4 * n.toNat ↔ s.srcEnd.toNat < s.srcPtr.toNat + 1 + 4 * n.toNat := by
    unfold State.srcLen
    omega
  simp only [hlen, except_pure_eq_ok]

theorem nodeCountByte_records_ok {n : Byte} (hn : n ≠ 0) (hle : s.srcPtr.toNat + 1 + 4 * n.toNat ≤ s.srcEnd.toNat)
    (h : s.mem.read (inAddr s.srcPtr.toNat) = some n) : s.nodeCountByte = .ok n.toNat := by
  rw [nodeCountByte_of_read (by omega) h, if_neg (not_or.2 ⟨hn, by omega⟩)]

/-! ### The root's record (R187, R188) -/

/-- A type byte is 0 or 1. -/
theorem childType_malformed {a : Nat} {b : Byte} (h : s.mem.read (inAddr a) = some b) (hb : b.toNat > 1) :
    s.childType a = malformed a := by
  have hzero : b ≠ 0 := by rintro rfl; exact absurd hb (by decide)
  have hone : b ≠ 1 := by rintro rfl; exact absurd hb (by decide)
  rw [State.childType_of_read h, if_neg hzero, if_neg hone]

theorem childType_ok {a : Nat} {b : Byte} (h : s.mem.read (inAddr a) = some b) (hb : b.toNat ≤ 1) :
    s.childType a = .ok (decide (b = 1)) := by
  rw [State.childType_of_read h]
  obtain rfl | rfl : b = 0 ∨ b = 1 := by
    simp only [← BitVec.toNat_inj]
    exact Nat.le_one_iff_eq_zero_or_eq_one.1 hb
  · rfl
  · rfl

/-- Both strategies check the root's left type byte first. -/
theorem readTree_left_type {base k : Nat} {e : Stop} (h : s.childType (recOff base k 0) = .error e)
    (postorder : Bool) : s.readTree postorder base (k + 1) = .error e := by
  cases postorder with
  | true => rw [State.readTree, if_pos rfl, Nat.add_sub_cancel, State.postTree, h]; rfl
  | false => rw [State.readTree, if_neg Bool.false_ne_true, Nat.add_sub_cancel, State.genTree, h]; rfl

/-- Both strategies check the root's right type byte next. -/
theorem readTree_right_type {base k : Nat} {lt : Bool} {e : Stop} (hl : s.childType (recOff base k 0) = .ok lt)
    (hr : s.childType (recOff base k 2) = .error e) (postorder : Bool) :
    s.readTree postorder base (k + 1) = .error e := by
  cases postorder with
  | true => rw [State.readTree, if_pos rfl, Nat.add_sub_cancel, State.postTree, hl, hr]; rfl
  | false => rw [State.readTree, if_neg Bool.false_ne_true, Nat.add_sub_cancel, State.genTree, hl, hr]; rfl

/-- In general mode an internal left child of the root is below N and not the root itself (R187). -/
theorem readTree_left_index {base k : Nat} {rt : Bool} {ld : Byte} (hl : s.childType (recOff base k 0) = .ok true)
    (hr : s.childType (recOff base k 2) = .ok rt) (h : s.mem.read (inAddr (recOff base k 1)) = some ld)
    (hld : k + 1 ≤ ld.toNat ∨ ld.toNat = k) : s.readTree false base (k + 1) = malformed (recOff base k 1) := by
  have hbad : k + 1 ≤ ld.toNat ∨ [k].contains ld.toNat = true := hld.imp_right fun e => by simp [e]
  rw [State.readTree, if_neg Bool.false_ne_true, Nat.add_sub_cancel, State.genTree, hl, hr, except_ok_bind,
    except_ok_bind, State.genChild, if_pos rfl, State.inByte_ok.2 h, except_ok_bind, if_pos hbad]
  rfl

/-- In postorder mode no record stands before record 0 (R188). -/
theorem readTree_no_record {base : Nat} (hl : s.childType (recOff base 0 0) = .ok true)
    (hr : s.childType (recOff base 0 2) = .ok false) : s.readTree true base 1 = malformed (recOff base 0 0) := by
  rw [State.readTree, if_pos rfl, State.postTree, hl, hr]
  rfl

/-! ### The command -/

theorem exec_deser_count_malformed {i : Nat} (hsrc : s.checkSrc = .ok ()) (h : s.nodeCountByte = malformed i)
    (postorder : Bool) :
    exec (.deser postorder) s = .next (s.treeReset.raiseError .malformedHeader (BitVec.ofNat 32 i)) := by
  rw [exec, execDeser, hsrc, except_ok_bind, h]
  rfl

theorem exec_deser_tree_malformed {n i : Nat} {postorder : Bool} (hsrc : s.checkSrc = .ok ())
    (hn : s.nodeCountByte = .ok n) (h : s.readTree postorder (s.srcPtr.toNat + 1) n = malformed i) :
    exec (.deser postorder) s = .next (s.treeReset.raiseError .malformedHeader (BitVec.ofNat 32 i)) := by
  rw [exec, execDeser, hsrc, except_ok_bind, hn, except_ok_bind, h]
  rfl

end Sys2Proof.Proofs

open Sys2Proof Sys2Proof.Machine Sys2Proof.Safety Sys2Proof.Proofs

/-- Settles O49: each of the three cases fails the check of the node-count byte. -/
theorem deserChecksTheNodeCount : Obligations.DeserChecksTheNodeCount := by
  intro s postorder hend hsrc hbad
  have hcount : s.nodeCountByte = malformed s.srcPtr.toNat := by
    rcases hbad with hempty | ⟨hlt, n, hn, hbad⟩
    · exact nodeCountByte_empty hempty
    · rw [nodeCountByte_of_read hlt hn, if_pos hbad]
  rw [exec_deser_count_malformed (State.checkSrc_ok.2 ⟨hend, hsrc⟩) hcount, BitVec.ofNat_toNat, BitVec.setWidth_eq]
  rfl

/-- Settles O50: each case fails at one step of the walk's visit to the root's record. -/
theorem deserChecksTheRootRecord : Obligations.DeserChecksTheRootRecord := by
  intro s postorder n lt ld rt hend hn hle hread hlt hld hrt
  obtain ⟨k, hk⟩ : ∃ k, n.toNat = k + 1 := Nat.exists_eq_succ_of_ne_zero fun h => hn (BitVec.eq_of_toNat_eq h)
  have hfail {i : Nat} (h : s.readTree postorder (s.srcPtr.toNat + 1) (k + 1) = malformed i) :=
    exec_deser_tree_malformed (State.checkSrc_ok.2 ⟨hend, by omega⟩) (nodeCountByte_records_ok hn hle hread) (hk ▸ h)
  rw [hk, Nat.add_sub_cancel] at hlt hld hrt ⊢
  refine ⟨fun hl => ?_, fun hl hr => ?_, ?_, ?_⟩
  · exact hfail (readTree_left_type (childType_malformed hlt hl) _)
  · exact hfail (readTree_right_type (childType_ok hlt hl) (childType_malformed hrt hr) _)
  · rintro rfl rfl hr hbad
    exact hfail (readTree_left_index (childType_ok hlt (by decide)) (childType_ok hrt hr) hld (by omega))
  · rintro rfl rfl rfl rfl
    obtain rfl : k = 0 := by simpa using hk.symm
    exact hfail (readTree_no_record (childType_ok hlt (by decide)) (childType_ok hrt (by decide)))
end

section
/-! DESER of a header SER writes (R193): each strategy meets the records of a subtree where R166 numbers them, and grows
that subtree in the arena. -/

namespace Sys2Proof.Proofs

open Sys2Proof.Machine Sys2Proof.Safety

variable {s : State}

/-! ### The records in IN (R169, R170) -/

theorem inHolds_append {a : Nat} {xs ys : List Byte} (h : inHolds s a (xs ++ ys)) :
    inHolds s a xs ∧ inHolds s (a + xs.length) ys := by
  refine ⟨fun i hi => ?_, fun i hi => ?_⟩
  · have hread := h i (by rw [List.length_append]; omega)
    rwa [List.getElem_append_left hi] at hread
  · have hread := h (xs.length + i) (by rw [List.length_append]; omega)
    rw [List.getElem_append_right (Nat.le_add_right _ _)] at hread
    simpa only [Nat.add_sub_cancel_left, Nat.add_assoc] using hread

theorem inHolds_cons {a : Nat} {b : Byte} {bs : List Byte} (h : inHolds s a (b :: bs)) :
    s.mem.read (inAddr a) = some b ∧ inHolds s (a + 1) bs :=
  ⟨h 0 (Nat.succ_pos _), (inHolds_append (xs := [b]) h).2⟩

/-- The two bytes of a child record. -/
theorem inHolds_pair {a : Nat} {b c : Byte} (h : inHolds s a [b, c]) :
    s.mem.read (inAddr a) = some b ∧ s.mem.read (inAddr (a + 1)) = some c :=
  ⟨(inHolds_cons h).1, (inHolds_cons (inHolds_cons h).2).1⟩

theorem childRecord_length (first : Nat) (T : HTree) : (HTree.childRecord first T).length = 2 := by
  cases T <;> rfl

/-- The records of a node whose first record is number `first`, record 0 at IN index `base`: those of the left subtree,
those of the right, and its own. -/
theorem inHolds_records_node {base first : Nat} {L R : HTree}
    (h : inHolds s (base + 4 * first) (HTree.records first (.node L R))) :
    inHolds s (base + 4 * first) (HTree.records first L) ∧
      inHolds s (base + 4 * (first + L.internals)) (HTree.records (first + L.internals) R) ∧
      inHolds s (recOff base (first + L.internals + R.internals) 0) (HTree.childRecord first L) ∧
      inHolds s (recOff base (first + L.internals + R.internals) 2) (HTree.childRecord (first + L.internals) R) := by
  obtain ⟨h, hrec⟩ := inHolds_append h
  obtain ⟨h, lrec⟩ := inHolds_append h
  obtain ⟨hl, hr⟩ := inHolds_append h
  simp only [List.length_append, HTree.records_length, childRecord_length] at hr lrec hrec
  refine ⟨hl, ?_, ?_, ?_⟩
  · rwa [Nat.mul_add, ← Nat.add_assoc]
  · convert lrec using 1
    unfold recOff
    omega
  · convert hrec using 1
    unfold recOff
    omega

/-- Whether a tree is an internal node: the type byte of its child record (R169). -/
def isNode : HTree → Bool
  | .leaf _ => false
  | .node _ _ => true

theorem isNode_iff {T : HTree} : isNode T = true ↔ 1 ≤ T.internals := by
  cases T <;> simp [isNode, HTree.internals]

theorem childType_childRecord {x first : Nat} {T : HTree} (h : inHolds s x (HTree.childRecord first T)) :
    s.childType x = .ok (isNode T) := by
  cases T with
  | leaf sym => rw [State.childType_of_read (inHolds_pair h).1]; rfl
  | node L R => rw [State.childType_of_read (inHolds_pair h).1]; rfl

/-- The data byte of an internal child is the number of its record, the last of its subtree's (R169). -/
theorem childRecord_index {x first n : Nat} {T : HTree} (h : inHolds s x (HTree.childRecord first T))
    (hT : isNode T = true) (hlt : first + T.internals ≤ 256) (hn : n + 1 = first + T.internals) :
    s.inByte (x + 1) = .ok (BitVec.ofNat 8 n) ∧ (BitVec.ofNat 8 n).toNat = n := by
  cases T with
  | leaf sym => cases hT
  | node L R =>
    have hread := (inHolds_pair h).2
    rw [← hn, Nat.add_sub_cancel] at hread
    refine ⟨State.inByte_ok.2 hread, ?_⟩
    rw [BitVec.toNat_ofNat, Nat.mod_eq_of_lt (by omega)]

/-! ### The arena grows by a subtree (R189) -/

theorem getElem?_of_prefix {α : Type} {l l' : List α} {i : Nat} {x : α} (h : l <+: l') (hi : l[i]? = some x) :
    l'[i]? = some x := by
  obtain ⟨hlt, rfl⟩ := List.getElem?_eq_some_iff.1 hi
  exact List.prefix_iff_getElem?.1 h i hlt

/-- Allocation leaves the trees of the arena as they are. -/
theorem treeAt_of_prefix {nodes nodes' : List Node} {fuel : Nat} {r : Ref} {T : HTree} (hp : nodes <+: nodes')
    (h : treeAt nodes fuel r = some T) : treeAt nodes' fuel r = some T := by
  induction fuel generalizing r T with
  | zero => cases h
  | succ fuel ih =>
    rcases treeAt_cases h with ⟨sym, hr, rfl⟩ | ⟨l, rt, num, tl, tr, hr, hl, hrt, rfl⟩
    · exact treeAt_leaf (getElem?_of_prefix hp hr)
    · rw [treeAt, getElem?_of_prefix hp hr]
      simp only [ih hl, ih hrt]

theorem treeAt_node {nodes : List Node} {r lc rc : Ref} {num : Byte} {L R : HTree}
    (hr : nodes[r.toNat]? = some (.internal lc rc num)) (hl : treeAt nodes (L.internals + 1) lc = some L)
    (hrt : treeAt nodes (R.internals + 1) rc = some R) :
    treeAt nodes ((HTree.node L R).internals + 1) r = some (.node L R) := by
  have hl' := treeAt_mono (fuel' := (HTree.node L R).internals) (by rw [HTree.internals]; omega) hl
  have hr' := treeAt_mono (fuel' := (HTree.node L R).internals) (by rw [HTree.internals]; omega) hrt
  rw [treeAt, hr]
  simp only [hl', hr']

/-- What the arena holds of a child before `create` (R189): an internal child is built, a leaf is left to `create`. -/
def BuiltAs (nodes : List Node) (T : HTree) : Option Ref → Prop
  | some r => treeAt nodes (T.internals + 1) r = some T
  | none => isNode T = false

theorem BuiltAs.of_prefix {nodes nodes' : List Node} {T : HTree} {o : Option Ref} (h : BuiltAs nodes T o)
    (hp : nodes <+: nodes') : BuiltAs nodes' T o := by
  cases o with
  | some r => exact treeAt_of_prefix hp h
  | none => exact h

/-- A walk went from arena a to a' over the tree T: the nodes in use stay, and T's 2K + 1 nodes are added, but for a leaf
left to `create`. -/
structure Built (a a' : Arena) (T : HTree) (o : Option Ref) : Prop where
  kept : a.nodes <+: a'.nodes
  size : a'.nodes.length + o.isNone.toNat = a.nodes.length + (2 * T.internals + 1)
  tree : BuiltAs a'.nodes T o

theorem Built.leaf {T : HTree} (hT : isNode T = false) (a : Arena) : Built a a T none := by
  cases T with
  | leaf sym => exact ⟨List.prefix_rfl, rfl, rfl⟩
  | node L R => cases hT

/-- `create` allocates a leaf child where none is built. -/
theorem createChild_built {x first : Nat} {T : HTree} {o : Option Ref} {a : Arena} (h : BuiltAs a.nodes T o)
    (hrec : inHolds s x (HTree.childRecord first T)) (hroom : a.nodes.length + o.isNone.toNat ≤ 512) :
    ∃ a' r, s.createChild o (x + 1) a = .ok (a', r) ∧ a.nodes <+: a'.nodes ∧
      a'.nodes.length = a.nodes.length + o.isNone.toNat ∧ treeAt a'.nodes (T.internals + 1) r = some T := by
  cases o with
  | some r => exact ⟨a, r, s.createChild_some r _ a, List.prefix_rfl, rfl, h⟩
  | none =>
    cases T with
    | node L R => cases h
    | leaf sym =>
      have hlt : a.nodes.length < 512 := hroom
      refine ⟨_, _, State.createChild_none (inHolds_pair hrec).2 a, List.prefix_append _ _, List.length_append,
        treeAt_leaf ?_⟩
      rw [BitVec.toNat_ofNat, Nat.mod_eq_of_lt (by omega), List.getElem?_concat_length]

/-- `create` (R189) of a record whose children are built makes its node. -/
theorem createNode_built {base i fl fr : Nat} {L R : HTree} {l r : Option Ref} {a a₂ : Arena}
    (hkept : a.nodes <+: a₂.nodes) (hl : BuiltAs a₂.nodes L l) (hr : BuiltAs a₂.nodes R r)
    (hsize : a₂.nodes.length + l.isNone.toNat + r.isNone.toNat = a.nodes.length + 2 * (L.internals + R.internals) + 2)
    (lrec : inHolds s (recOff base i 0) (HTree.childRecord fl L))
    (rrec : inHolds s (recOff base i 2) (HTree.childRecord fr R))
    (hroom : a.nodes.length + (2 * (HTree.node L R).internals + 1) ≤ 512) :
    ∃ a' ref, s.createNode base i l r a₂ = .ok (a', ref) ∧ Built a a' (.node L R) (some ref) := by
  rw [HTree.internals] at hroom
  obtain ⟨a₃, lc, hlc, hp₃, hn₃, hL⟩ := createChild_built hl lrec (by omega)
  obtain ⟨a₄, rc, hrc, hp₄, hn₄, hR⟩ := createChild_built (hr.of_prefix hp₃) rrec (by omega)
  have hp₅ : a₄.nodes <+: (a₄.allocInternal lc rc).1.nodes := List.prefix_append _ _
  refine ⟨_, _, except_bind_eq_ok.2 ⟨_, hlc, except_bind_eq_ok.2 ⟨_, hrc, rfl⟩⟩, ?_, ?_, ?_⟩
  · exact ((hkept.trans hp₃).trans hp₄).trans hp₅
  · simp only [List.length_append, List.length_singleton, HTree.internals, Option.isNone_some, Bool.toNat_false]
    omega
  · refine treeAt_node (num := 0) ?_ (treeAt_of_prefix (hp₄.trans hp₅) hL) (treeAt_of_prefix hp₅ hR)
    rw [BitVec.toNat_ofNat, Nat.mod_eq_of_lt (by omega)]
    exact List.getElem?_concat_length

/-! ### The general strategy (R187) -/

/-- The records from lo up to (not including) hi are not visited. -/
def Unvisited (visited : List Nat) (lo hi : Nat) : Prop := ∀ i ∈ visited, i < lo ∨ hi ≤ i

/-- What is visited beyond before is from lo up to (not including) hi. -/
def VisitsWithin (visited visited' : List Nat) (lo hi : Nat) : Prop := ∀ i ∈ visited', i ∈ visited ∨ (lo ≤ i ∧ i < hi)

theorem Unvisited.mono {v : List Nat} {lo hi hi' : Nat} (h : Unvisited v lo hi) (hle : hi' ≤ hi) : Unvisited v lo hi' :=
  fun i hi => (h i hi).imp_right hle.trans

/-- Visiting the last record of a range leaves those before it. -/
theorem Unvisited.visit {v : List Nat} {lo i : Nat} (h : Unvisited v lo (i + 1)) : Unvisited (i :: v) lo i :=
  List.forall_mem_cons.2 ⟨.inr (Nat.le_refl _), h.mono (Nat.le_succ i)⟩

/-- A walk over the lower part of a range leaves the upper part. -/
theorem VisitsWithin.unvisited {v v' : List Nat} {lo mid hi : Nat} (h : VisitsWithin v v' lo mid)
    (hv : Unvisited v lo hi) (hle : lo ≤ mid) : Unvisited v' mid hi := by
  intro i hi
  rcases h i hi with hold | ⟨-, hlt⟩
  · exact (hv i hold).imp_left fun hlt => hlt.trans_le hle
  · exact .inl hlt

/-- A visit to record i after the two walks before it cover a range. -/
theorem VisitsWithin.node {v v₁ v₂ : List Nat} {lo mid i : Nat} (h₁ : VisitsWithin (i :: v) v₁ lo mid)
    (h₂ : VisitsWithin v₁ v₂ mid i) (hlo : lo ≤ mid) (hmid : mid ≤ i) : VisitsWithin v v₂ lo (i + 1) := by
  intro j hj
  rcases h₂ j hj with hj | ⟨hge, hlt⟩
  · rcases h₁ j hj with hj | ⟨hge, hlt⟩
    · rcases List.mem_cons.1 hj with rfl | hj
      · exact .inr ⟨hlo.trans hmid, Nat.lt_succ_self j⟩
      · exact .inl hj
    · exact .inr ⟨hge, by omega⟩
  · exact .inr ⟨hlo.trans hge, by omega⟩

/-- The general walk built T and visited only the records of T, numbered from `first` on. -/
structure GenBuilt (g g' : GenState) (first : Nat) (T : HTree) (o : Option Ref) : Prop where
  built : Built g.arena g'.arena T o
  visits : VisitsWithin g.visited g'.visited first (first + T.internals)

/-- G(i) rebuilds T in g, i the last record of T's. -/
def GenRebuilds (walk : Nat → GenState → Except Stop (GenState × Ref)) (g : GenState) (first : Nat) (T : HTree) : Prop :=
  ∀ i, i + 1 = first + T.internals → ∃ g' ref, walk i g = .ok (g', ref) ∧ GenBuilt g g' first T (some ref)

theorem genChild_rebuilds {n x first : Nat} {T : HTree} {walk : Nat → GenState → Except Stop (GenState × Ref)}
    {g : GenState} (hrec : inHolds s x (HTree.childRecord first T)) (hle : first + T.internals ≤ n) (hn : n ≤ 255)
    (hv : Unvisited g.visited first (first + T.internals)) (hwalk : isNode T = true → GenRebuilds walk g first T) :
    ∃ g' o, s.genChild n (x + 1) walk (isNode T) g = .ok (g', o) ∧ GenBuilt g g' first T o := by
  cases hT : isNode T with
  | false => exact ⟨g, none, rfl, .leaf hT _, fun _ hi => .inl hi⟩
  | true =>
    have hpos := isNode_iff.1 hT
    obtain ⟨i, hi⟩ : ∃ i, i + 1 = first + T.internals := ⟨first + T.internals - 1, by omega⟩
    obtain ⟨hbyte, hindex⟩ := childRecord_index hrec hT (by omega) hi
    obtain ⟨g', ref, hok, hbuilt⟩ := hwalk hT i hi
    have hgood : ¬ (n ≤ i ∨ g.visited.contains i = true) := by
      rw [List.contains_iff_mem]
      rintro (hbig | hmem)
      · omega
      · have := hv i hmem
        omega
    refine ⟨g', some ref, ?_, hbuilt⟩
    rw [State.genChild, if_pos rfl, hbyte, except_ok_bind, hindex, if_neg hgood, hok]
    rfl

/-- G on the last of a tree's records rebuilds the tree: the left subtree's records come first, then the right's. -/
theorem genTree_rebuilds {base n fuel first : Nat} {T : HTree} {g : GenState} (hT : isNode T = true)
    (hfuel : T.internals ≤ fuel) (hle : first + T.internals ≤ n) (hn : n ≤ 255)
    (hin : inHolds s (base + 4 * first) (HTree.records first T))
    (hv : Unvisited g.visited first (first + T.internals))
    (hroom : g.arena.nodes.length + (2 * T.internals + 1) ≤ 512) :
    GenRebuilds (s.genTree base n fuel) g first T := by
  induction T generalizing fuel first g with
  | leaf sym => cases hT
  | node L R ihL ihR =>
    obtain ⟨hl, hr, lrec, rrec⟩ := inHolds_records_node hin
    have hK : first + (HTree.node L R).internals = first + L.internals + R.internals + 1 := by
      simp only [HTree.internals, Nat.add_assoc]
    obtain ⟨fuel, rfl⟩ : ∃ f, fuel = f + 1 := ⟨fuel - 1, by omega⟩
    intro i hi
    rw [hK] at hi hv
    obtain rfl : i = first + L.internals + R.internals := Nat.succ.inj hi
    have hvl := hv.visit.mono (Nat.le_add_right (first + L.internals) R.internals)
    obtain ⟨g₁, l, hgl, hbl, hvisl⟩ := genChild_rebuilds (g := ⟨g.arena, _⟩) lrec (by omega) hn hvl
      fun hL => ihL hL (by omega : L.internals ≤ fuel) (by omega) hl hvl (by dsimp only; omega)
    have hvr := hvisl.unvisited hv.visit (Nat.le_add_right _ _)
    have hsizel := hbl.size
    dsimp only at hsizel
    obtain ⟨g₂, r, hgr, hbr, hvisr⟩ := genChild_rebuilds rrec (by omega) hn hvr
      fun hR => ihR hR (by omega : R.internals ≤ fuel) (by omega) hr hvr (by omega)
    have hsizer := hbr.size
    obtain ⟨a', ref, hc, hbuilt⟩ := createNode_built (hbl.kept.trans hbr.kept) (hbl.tree.of_prefix hbr.kept) hbr.tree
      (by dsimp only; omega) lrec rrec hroom
    refine ⟨{ g₂ with arena := a' }, ref, ?_, hbuilt, hK ▸ hvisl.node hvisr (by omega) (by omega)⟩
    rw [State.genTree, childType_childRecord lrec, childType_childRecord rrec, except_ok_bind, except_ok_bind]
    exact except_bind_eq_ok.2 ⟨_, hgl, except_bind_eq_ok.2 ⟨_, hgr, except_bind_eq_ok.2 ⟨_, hc, rfl⟩⟩⟩

/-! ### The postorder strategy (R188) -/

/-- P(i) rebuilds T on a, i the last record of T's, and leaves the records before T's. -/
def PostRebuilds (walk : Nat → Arena → Except Stop (PostState × Ref)) (a : Arena) (first : Nat) (T : HTree) : Prop :=
  ∀ i, i + 1 = first + T.internals →
    ∃ a' ref, walk i a = .ok (⟨a', first⟩, ref) ∧ Built a a' T (some ref)

theorem postChild_rebuilds {x first : Nat} {T : HTree} {walk : Nat → Arena → Except Stop (PostState × Ref)} {a : Arena}
    (hwalk : isNode T = true → PostRebuilds walk a first T) :
    ∃ a' o, s.postChild x walk (isNode T) ⟨a, first + T.internals⟩ = .ok (⟨a', first⟩, o) ∧ Built a a' T o := by
  cases T with
  | leaf sym => exact ⟨a, none, rfl, .leaf rfl a⟩
  | node L R =>
    obtain ⟨a', ref, hok, hbuilt⟩ := hwalk rfl (first + (L.internals + R.internals)) rfl
    exact ⟨a', some ref, except_bind_eq_ok.2 ⟨_, hok, rfl⟩, hbuilt⟩

/-- P on the last of a tree's records rebuilds the tree: the right subtree's records stand before it, then the left's. -/
theorem postTree_rebuilds {base fuel first : Nat} {T : HTree} {a : Arena} (hT : isNode T = true)
    (hfuel : T.internals ≤ fuel) (hin : inHolds s (base + 4 * first) (HTree.records first T))
    (hroom : a.nodes.length + (2 * T.internals + 1) ≤ 512) : PostRebuilds (s.postTree base fuel) a first T := by
  induction T generalizing fuel first a with
  | leaf sym => cases hT
  | node L R ihL ihR =>
    obtain ⟨hl, hr, lrec, rrec⟩ := inHolds_records_node hin
    have hK : (HTree.node L R).internals = L.internals + R.internals + 1 := rfl
    obtain ⟨fuel, rfl⟩ : ∃ f, fuel = f + 1 := ⟨fuel - 1, by omega⟩
    intro i hi
    obtain rfl : i = first + L.internals + R.internals := by omega
    obtain ⟨a₁, r, hpr, hbr⟩ := postChild_rebuilds (s := s) (x := recOff base (first + L.internals + R.internals) 2)
      fun hR => ihR hR (by omega : R.internals ≤ fuel) hr (a := a) (by omega)
    have hsize₁ := hbr.size
    obtain ⟨a₂, l, hpl, hbl⟩ := postChild_rebuilds (s := s) (x := recOff base (first + L.internals + R.internals) 0)
      fun hL => ihL hL (by omega : L.internals ≤ fuel) hl (a := a₁) (by omega)
    have hsize₂ := hbl.size
    obtain ⟨a', ref, hc, hbuilt⟩ := createNode_built (hbr.kept.trans hbl.kept) hbl.tree (hbr.tree.of_prefix hbl.kept)
      (by omega) lrec rrec hroom
    refine ⟨a', ref, ?_, hbuilt⟩
    rw [State.postTree, childType_childRecord lrec, childType_childRecord rrec, except_ok_bind, except_ok_bind]
    exact except_bind_eq_ok.2 ⟨_, hpr, except_bind_eq_ok.2 ⟨_, hpl, except_bind_eq_ok.2 ⟨_, hc, rfl⟩⟩⟩

/-! ### The command -/

/-- Both strategies rebuild the tree of a header (R193). -/
theorem readTree_rebuilds {base : Nat} {T : HTree} (hpos : 1 ≤ T.internals) (hle : T.internals ≤ 255)
    (hin : inHolds s base (HTree.records 0 T)) (postorder : Bool) :
    ∃ a root, s.readTree postorder base T.internals = .ok (a, root) ∧
      treeAt a.nodes (T.internals + 1) root = some T := by
  have hT : isNode T = true := isNode_iff.2 hpos
  have hroom : Arena.empty.nodes.length + (2 * T.internals + 1) ≤ 512 := by
    rw [Arena.empty, List.length_nil]
    omega
  have hroot : T.internals - 1 + 1 = 0 + T.internals := by omega
  cases postorder with
  | true =>
    obtain ⟨a, root, hok, hbuilt⟩ := postTree_rebuilds hT (Nat.le_refl _) hin hroom _ hroot
    exact ⟨a, root, except_bind_eq_ok.2 ⟨_, hok, rfl⟩, hbuilt.tree⟩
  | false =>
    obtain ⟨g, root, hok, hbuilt⟩ := genTree_rebuilds (g := ⟨.empty, []⟩) hT (Nat.le_refl _) (Nat.zero_add _).le hle hin
      (fun _ hi => absurd hi List.not_mem_nil) hroom _ hroot
    exact ⟨g.arena, root, except_bind_eq_ok.2 ⟨_, hok, rfl⟩, hbuilt.built.tree⟩

/-- What DESER built from the records of T is an arena of T alone, its root last (R42). -/
theorem readTree_shape {base : Nat} {T : HTree} {a : Arena} {root : Ref} {postorder : Bool} (hpos : 1 ≤ T.internals)
    (hle : T.internals ≤ 255) (h : s.readTree postorder base T.internals = .ok (a, root))
    (hT : treeAt a.nodes (T.internals + 1) root = some T) :
    treeAt a.nodes a.nodes.length root = some T ∧ a.nodes.length = 2 * T.internals + 1 ∧
      a.internalCount.toNat = T.internals ∧ root.toNat = 2 * T.internals := by
  have harena := (readTree_forest hpos hle h).arenaInv
  have hlen := harena.length_eq
  obtain ⟨T', hT'⟩ := harena.exists_treeAt harena.root_lt harena.root_lt
  obtain rfl : T' = T := by
    have h₁ := treeAt_mono (Nat.le_max_left a.nodes.length (T.internals + 1)) hT'
    have h₂ := treeAt_mono (Nat.le_max_right a.nodes.length (T.internals + 1)) hT
    exact Option.some.inj (h₁.symm.trans h₂)
  have hcount : a.internalCount.toNat = T'.internals := harena.internals_root.symm.trans (internalsBelow_eq hT')
  obtain ⟨-, hroot, -⟩ := harena
  exact ⟨hT', by omega, hcount, by omega⟩

/-- The state DESER leaves with a tree of n records (R185). -/
def deserialized (s : State) (n : Nat) (a : Arena) (root : Ref) : State :=
  { s with
    arena := a, root := root, treeValid := true, leafRoot := false, numbered := false,
    srcPtr := BitVec.ofNat 32 (s.srcPtr.toNat + (1 + 4 * n)),
    res := ⟨BitVec.ofNat 32 n, BitVec.ofNat 32 (1 + 4 * n), BitVec.ofNat 32 root.toNat,
      BitVec.ofNat 32 a.internalCount.toNat⟩,
    busy := false, done := true }

theorem exec_deser_tree {n : Nat} {a : Arena} {root : Ref} {postorder : Bool} (hsrc : s.checkSrc = .ok ())
    (hn : s.nodeCountByte = .ok n) (h : s.readTree postorder (s.srcPtr.toNat + 1) n = .ok (a, root)) :
    exec (.deser postorder) s = .next (deserialized s n a root) := by
  rw [exec, execDeser, hsrc, except_ok_bind, hn, except_ok_bind, h, deserialized, BitVec.ofNat_add s.srcPtr.toNat,
    BitVec.ofNat_toNat 32 s.srcPtr, BitVec.ofNat_toNat 32 root, BitVec.ofNat_toNat 32 a.internalCount, BitVec.setWidth_eq]
  rfl

end Sys2Proof.Proofs

open Sys2Proof Sys2Proof.Machine Sys2Proof.Safety Sys2Proof.Proofs

/-- Settles O48: the strategies grow the same tree, and the arena's size and root follow from its being one tree. -/
theorem deserRebuildsTheSerializedTree : Obligations.DeserRebuildsTheSerializedTree := by
  intro s T postorder hpos hle hend hroom hin
  obtain ⟨hbyte, hrecords⟩ := inHolds_cons hin
  have hcount : (BitVec.ofNat 8 T.internals).toNat = T.internals := by
    rw [BitVec.toNat_ofNat, Nat.mod_eq_of_lt (by omega)]
  have hne : BitVec.ofNat 8 T.internals ≠ 0 := by
    rw [ne_eq, ← BitVec.toNat_inj, hcount]
    exact Nat.ne_of_gt hpos
  have hn : s.nodeCountByte = .ok T.internals := by
    have hok := nodeCountByte_records_ok hne (by omega) hbyte
    rwa [hcount] at hok
  obtain ⟨a, root, hread, htree⟩ := readTree_rebuilds hpos hle hrecords postorder
  obtain ⟨hT, hlen, hK, hroot⟩ := readTree_shape hpos hle hread htree
  refine ⟨_, exec_deser_tree (State.checkSrc_ok.2 ⟨hend, by omega⟩) hn hread, ?_, hT, hlen, hK⟩
  simp only [deserialized, hK, ← hroot, BitVec.ofNat_toNat, BitVec.setWidth_eq]
end

section
/-! The code of a symbol (R211), and the bytes PACK emits (R210, R212): the packer's state after each part of its rule,
as long as its output fits in OUT, and the overflow at the first byte that does not. -/

namespace Sys2Proof.Proofs

open Sys2Proof.Machine Sys2Proof.Safety

variable {s : State}

/-! ### The code of a symbol (R211) -/

/-- The low bytes of a value stand for its low bits. -/
theorem testBit_leNat_leBytes {w : Nat} (v : BitVec w) (i : Nat) {n j : Nat} (h : j < 8 * n) :
    (leNat (leBytes v i n)).testBit j = v.getLsbD (8 * i + j) := by
  induction n generalizing i j with
  | zero => omega
  | succ n ih =>
    have hbyte := (v.extractLsb' (8 * i) 8).isLt
    rw [leBytes, leNat, Nat.add_comm, show 256 = 2 ^ 8 from rfl, Nat.testBit_two_pow_mul_add _ hbyte]
    split
    next hj => rw [BitVec.testBit_toNat, BitVec.getLsbD_extractLsb', decide_eq_true hj, Bool.true_and]
    next hj =>
      rw [ih (i + 1) (by omega)]
      congr 1
      omega

theorem symbolCode_of_len_zero {sym : Byte} (h : hasNoCode s sym.toNat) :
    s.symbolCode sym = raise .missingCode (BitVec.ofNat 32 sym.toNat) := by
  rw [State.symbolCode, fetchByte_ok.2 h, except_ok_bind, if_pos rfl, BitVec.ofNat_toNat]

/-- Only the value bytes with bits below the length are read (log 19), and they hold the code's bits. -/
theorem symbolCode_of_read {sym len : Byte} {val : BitVec 256} (hlen : s.mem.read (codeLenAddr sym.toNat) = some len)
    (hne : len ≠ 0)
    (hval : ∀ i, 8 * i < len.toNat → s.mem.read (codeValAddr sym.toNat + i) = some (val.extractLsb' (8 * i) 8)) :
    s.symbolCode sym = .ok (codeBits len.toNat val.toNat) := by
  have hbytes : collect (fetchByte s.mem) (codeValAddr sym.toNat) ((len.toNat + 7) / 8) =
      .ok (leBytes val 0 ((len.toNat + 7) / 8)) := by
    refine collect_ok.2 ⟨leBytes_length .., fun i hi => fetchByte_ok.2 ?_⟩
    rw [leBytes_length] at hi
    rw [hval i (by omega), ← List.getElem?_eq_getElem, leBytes_getElem val 0 hi, Nat.zero_add]
  rw [State.symbolCode, fetchByte_ok.2 hlen, except_ok_bind, if_neg hne, hbytes, except_ok_bind, except_pure_eq_ok]
  refine congrArg Except.ok (List.map_congr_left fun i hi => ?_)
  have hi := List.mem_range.1 hi
  rw [testBit_leNat_leBytes val 0 (by omega), Nat.mul_zero, Nat.zero_add, BitVec.testBit_toNat]

theorem symbolCode_of_hasCode {sym : Byte} {code : Bits} (h : hasCode s sym.toNat code) :
    s.symbolCode sym = .ok code := by
  obtain ⟨hne, hlt, hlen, val, hval, hbits⟩ := h
  have hpos := List.length_pos_of_ne_nil hne
  have htoNat : (BitVec.ofNat 8 code.length).toNat = code.length := Nat.mod_eq_of_lt hlt
  have hne0 : BitVec.ofNat 8 code.length ≠ 0 := fun h0 => by
    rw [h0] at htoNat
    exact hpos.ne htoNat
  rw [symbolCode_of_read hlen hne0 (htoNat.symm ▸ hval), htoNat]
  refine congrArg Except.ok (List.ext_getElem (codeBits_length ..) fun i hi hi' => ?_)
  rw [codeBits_getElem, hbits i hi', BitVec.testBit_toNat]

/-! ### Bits as bytes (R212) -/

theorem payloadBits_append (xs ys : List Byte) : payloadBits (xs ++ ys) = payloadBits xs ++ payloadBits ys :=
  List.flatMap_append

theorem payloadBits_length (bs : List Byte) : (payloadBits bs).length = 8 * bs.length := by
  simp [payloadBits, Nat.mul_comm]

theorem payloadBits_byteOfBits {c : Bits} (h : c.length = 8) : payloadBits [byteOfBits c] = c := by
  refine List.ext_getElem (by rw [payloadBits_length, h]; rfl) fun i hi hi' => ?_
  have hbit := bitsVal_testBit hi'
  simp only [h] at hbit
  simpa [payloadBits, byteOfBits, BitVec.getLsbD_ofNat, show 7 - i < 8 by omega] using hbit

/-- The bits c are those of the bytes bs and, after them, rest: too few for another byte. -/
structure CutsInto (c : Bits) (bs : List Byte) (rest : Bits) : Prop where
  bits : c = payloadBits bs ++ rest
  short : rest.length < 8

theorem CutsInto.of_short {c : Bits} (h : c.length < 8) : CutsInto c [] c := ⟨rfl, h⟩

theorem CutsInto.length {c rest : Bits} {bs : List Byte} (h : CutsInto c bs rest) :
    c.length = 8 * bs.length + rest.length := by
  rw [h.bits, List.length_append, payloadBits_length]

/-- What is cut off is cut again together with the bits that follow. -/
theorem CutsInto.append {c₁ c₂ rest₁ rest₂ : Bits} {bs₁ bs₂ : List Byte} (h₁ : CutsInto c₁ bs₁ rest₁)
    (h₂ : CutsInto (rest₁ ++ c₂) bs₂ rest₂) : CutsInto (c₁ ++ c₂) (bs₁ ++ bs₂) rest₂ := by
  refine ⟨?_, h₂.short⟩
  rw [h₁.bits, payloadBits_append, List.append_assoc, h₂.bits, List.append_assoc]

/-- The last byte, where bits remain (R210). -/
def padBytes (rest : Bits) : List Byte :=
  if rest = [] then [] else [byteOfBits (rest ++ List.replicate (8 - rest.length) false)]

theorem padBytes_length {rest : Bits} (h : rest.length < 8) : (padBytes rest).length = (rest.length + 7) / 8 := by
  unfold padBytes
  split
  next he => rw [he]; rfl
  next hne =>
    have := List.length_pos_of_ne_nil hne
    rw [List.length_singleton]
    omega

theorem payloadBits_padBytes {rest : Bits} (h : rest.length < 8) :
    payloadBits (padBytes rest) = rest ++ List.replicate (8 * (padBytes rest).length - rest.length) false := by
  unfold padBytes
  split
  next he => rw [he]; rfl
  next => rw [payloadBits_byteOfBits (by rw [List.length_append, List.length_replicate]; omega)]; rfl

/-- The whole bytes and the last one hold the bits and less than 8 zero bits after them. -/
theorem CutsInto.payload {c rest : Bits} {bs : List Byte} (h : CutsInto c bs rest) :
    (bs ++ padBytes rest).length = (c.length + 7) / 8 ∧ payloadBits (bs ++ padBytes rest) =
      c ++ List.replicate (8 * (bs ++ padBytes rest).length - c.length) false := by
  have hlen := h.length
  have hpad : 8 * (padBytes rest).length - rest.length = 8 * (bs ++ padBytes rest).length - c.length := by
    rw [List.length_append]
    omega
  refine ⟨?_, ?_⟩
  · rw [List.length_append, padBytes_length h.short]
    omega
  · rw [payloadBits_append, payloadBits_padBytes h.short, ← List.append_assoc, ← h.bits, hpad]

/-! ### The packer's state once it has emitted some bytes -/

/-- The packer after the bytes out, the first one first; it does not come that far where they pass the end of OUT. -/
def packedTo (s : State) (buf : Bits) (bits : Nat) (out : List Byte) : Except Stop PackState :=
  if s.dstPtr.toNat + out.length ≤ s.params.outSize then .ok ⟨buf, bits, out.reverse⟩
  else raise .bufferOverflow (BitVec.ofNat 32 s.params.outSize)

section
variable {buf buf' : Bits} {bits bits' : Nat} {out bs : List Byte}

theorem packedTo_fits (h : s.dstPtr.toNat + out.length ≤ s.params.outSize) :
    packedTo s buf bits out = .ok ⟨buf, bits, out.reverse⟩ := if_pos h

theorem packedTo_full (h : s.params.outSize < s.dstPtr.toNat + out.length) :
    packedTo s buf bits out = raise .bufferOverflow (BitVec.ofNat 32 s.params.outSize) := if_neg (Nat.not_le.2 h)

/-- Bytes that do not fit overflow at the same index as more bytes do, so what follows need only be known where they
fit. -/
theorem packedTo_bind {f : PackState → Except Stop PackState}
    (h : s.dstPtr.toNat + out.length ≤ s.params.outSize →
      f ⟨buf, bits, out.reverse⟩ = packedTo s buf' bits' (out ++ bs)) :
    (packedTo s buf bits out >>= f) = packedTo s buf' bits' (out ++ bs) := by
  by_cases hroom : s.dstPtr.toNat + out.length ≤ s.params.outSize
  · rw [packedTo_fits hroom, except_ok_bind, h hroom]
  · rw [packedTo_full (by omega), packedTo_full (by rw [List.length_append]; omega)]
    rfl

theorem emitByte_eq_packedTo (hroom : s.dstPtr.toNat + out.length ≤ s.params.outSize) (v : Byte) :
    s.emitByte v ⟨buf, bits, out.reverse⟩ = packedTo s buf bits (out ++ [v]) := by
  rw [packedTo, List.length_append, List.length_singleton, List.reverse_concat]
  split
  next h => exact State.emitByte_ok (by rw [List.length_reverse]; omega)
  next h =>
    rw [State.emitByte_full (by rw [List.length_reverse]; omega), List.length_reverse,
      show s.dstPtr.toNat + out.length = s.params.outSize by omega]

theorem emitAll_eq_packedTo (hroom : s.dstPtr.toNat + out.length ≤ s.params.outSize) (bs : List Byte) :
    s.emitAll bs ⟨buf, bits, out.reverse⟩ = packedTo s buf bits (out ++ bs) := by
  induction bs generalizing out with
  | nil => rw [List.append_nil, packedTo_fits hroom]; rfl
  | cons b bs ih =>
    rw [State.emitAll, emitByte_eq_packedTo hroom, List.append_cons out b bs]
    exact packedTo_bind fun h => ih h

theorem padTail_eq_packedTo (hroom : s.dstPtr.toNat + out.length ≤ s.params.outSize) :
    s.padTail ⟨buf, bits, out.reverse⟩ = packedTo s buf bits (out ++ padBytes buf) := by
  rw [State.padTail, padBytes]
  split
  · rw [List.append_nil, packedTo_fits hroom]
  · exact emitByte_eq_packedTo hroom _

end

/-! ### The loop over the input (R210) -/

/-- Draining the buffer emits its whole bytes and leaves the bits after them. -/
theorem drainBits_eq_packedTo (s : State) (c : Bits) : ∃ bs rest, CutsInto c bs rest ∧ ∀ buf bits out,
    s.dstPtr.toNat + out.length ≤ s.params.outSize →
      s.drainBits c ⟨buf, bits, out.reverse⟩ = packedTo s rest bits (out ++ bs) := by
  induction hn : c.length using Nat.strongRecOn generalizing c with
  | ind n ih =>
    by_cases hshort : c.length < 8
    · refine ⟨[], c, .of_short hshort, fun buf bits out hroom => ?_⟩
      rw [State.drainBits_short s hshort, List.append_nil, packedTo_fits hroom]
    · have hbyte : (c.take 8).length = 8 := List.length_take_of_le (by omega)
      obtain ⟨bs, rest, hcut, hdrain⟩ := ih _ (by rw [List.length_drop]; omega) (c.drop 8) rfl
      refine ⟨byteOfBits (c.take 8) :: bs, rest, ⟨?_, hcut.short⟩, fun buf bits out hroom => ?_⟩
      · rw [← List.singleton_append, payloadBits_append, payloadBits_byteOfBits hbyte, List.append_assoc, ← hcut.bits,
          List.take_append_drop]
      · conv_lhs => rw [← List.take_append_drop 8 c]
        rw [State.drainBits_byte s hbyte, emitByte_eq_packedTo hroom, List.append_cons out _ bs]
        exact packedTo_bind (hdrain buf bits _)

theorem packFrom_add (s : State) (a m n : Nat) (k : PackState) :
    s.packFrom a (m + n) k = (do let k' ← s.packFrom a m k; s.packFrom (a + m) n k') := by
  induction m generalizing a k with
  | zero => rw [Nat.zero_add]; rfl
  | succ m ih =>
    rw [Nat.succ_add, State.packFrom, State.packFrom]
    simp only [ih, bind_assoc, Nat.succ_add_eq_add_succ]

/-- The loop over input that has codes emits the whole bytes of the buffer and the codes, in the order of the input. -/
theorem packFrom_eq_packedTo {a : Nat} {bytes : List Byte} {code : Byte → Bits} {buf : Bits} (hbuf : buf.length < 8)
    (hin : inHolds s a bytes) (hcode : ∀ b ∈ bytes, hasCode s b.toNat (code b)) :
    ∃ bs rest, CutsInto (buf ++ bytes.flatMap code) bs rest ∧ ∀ bits out,
      s.dstPtr.toNat + out.length ≤ s.params.outSize → s.packFrom a bytes.length ⟨buf, bits, out.reverse⟩ =
        packedTo s rest (bits + (bytes.flatMap code).length) (out ++ bs) := by
  induction bytes generalizing a buf with
  | nil =>
    refine ⟨[], buf, by rw [List.flatMap_nil, List.append_nil]; exact .of_short hbuf, fun bits out hroom => ?_⟩
    rw [List.append_nil, packedTo_fits hroom]
    rfl
  | cons b bytes ih =>
    obtain ⟨hb, hin⟩ := inHolds_cons hin
    obtain ⟨hbcode, hcode⟩ := List.forall_mem_cons.1 hcode
    obtain ⟨bs₁, rest₁, hcut₁, hdrain⟩ := drainBits_eq_packedTo s (buf ++ code b)
    obtain ⟨bs₂, rest₂, hcut₂, hloop⟩ := ih hcut₁.short hin hcode
    refine ⟨bs₁ ++ bs₂, rest₂, ?_, fun bits out hroom => ?_⟩
    · rw [List.flatMap_cons, ← List.append_assoc]
      exact hcut₁.append hcut₂
    · rw [List.length_cons, State.packFrom, State.inByte_ok.2 hb, except_ok_bind, State.packSymbol,
        symbolCode_of_hasCode hbcode, except_ok_bind, hdrain _ _ _ hroom, List.flatMap_cons, List.length_append,
        ← Nat.add_assoc, ← List.append_assoc]
      exact packedTo_bind fun h => hloop _ _ h

/-! ### The rule as a whole (R210) -/

/-- The size field, where F0 = 1 (R210). -/
def sizeBytes (sized : Bool) (n : Nat) : List Byte := if sized then le32Bytes (BitVec.ofNat 32 n) else []

theorem sizeBytes_length (sized : Bool) (n : Nat) : (sizeBytes sized n).length = if sized then 4 else 0 := by
  cases sized <;> rfl

theorem sizeBytes_eq (sized : Bool) (n : Nat) : sizeBytes sized n =
    if sized then (List.range 4).map (fun j => BitVec.ofNat 8 (n / 2 ^ (8 * j))) else [] := by
  cases sized with
  | false => rfl
  | true =>
    have hbyte (j : Nat) (hj : j < 4) :
        (BitVec.ofNat 32 n).extractLsb' (8 * j) 8 = BitVec.ofNat 8 (n / 2 ^ (8 * j)) := by
      refine BitVec.eq_of_toNat_eq ?_
      rw [BitVec.extractLsb'_toNat, BitVec.toNat_ofNat, BitVec.toNat_ofNat, Nat.shiftRight_eq_div_pow]
      interval_cases j <;> omega
    exact List.map_congr_left fun j hj => hbyte j (List.mem_range.1 hj)

theorem packAll_of_header {sized : Bool} (hsrc : s.checkSrc = .ok ()) (hdst : s.dstPtr.toNat ≤ s.params.outSize) :
    s.packAll sized = (do
      let k ← packedTo s [] 0 (sizeBytes sized s.srcLen)
      let k ← s.packFrom s.srcPtr.toNat s.srcLen k
      s.padTail k) := by
  have hheader := emitAll_eq_packedTo (buf := []) (bits := 0) (out := []) hdst (sizeBytes sized s.srcLen)
  rw [State.packAll, hsrc, except_ok_bind, if_neg (Nat.not_lt.2 hdst)]
  exact congrArg (· >>= _) hheader

/-- PACK on input that has codes: the size field and the padded codes, as far as they fit. -/
theorem packAll_eq_packedTo {sized : Bool} {bytes : List Byte} {code : Byte → Bits} (hsrc : s.checkSrc = .ok ())
    (hdst : s.dstPtr.toNat ≤ s.params.outSize) (hlen : s.srcLen = bytes.length) (hin : inHolds s s.srcPtr.toNat bytes)
    (hcode : ∀ b ∈ bytes, hasCode s b.toNat (code b)) :
    ∃ payload rest, payload.length = ((bytes.flatMap code).length + 7) / 8 ∧
      payloadBits payload = bytes.flatMap code ++
        List.replicate (8 * payload.length - (bytes.flatMap code).length) false ∧
      s.packAll sized = packedTo s rest (bytes.flatMap code).length (sizeBytes sized bytes.length ++ payload) := by
  obtain ⟨bs, rest, hcut, hloop⟩ := packFrom_eq_packedTo (buf := []) (Nat.zero_lt_succ 7) hin hcode
  rw [List.nil_append] at hcut
  obtain ⟨hpayload, hbits⟩ := hcut.payload
  refine ⟨bs ++ padBytes rest, rest, hpayload, hbits, ?_⟩
  rw [packAll_of_header hsrc hdst, hlen]
  refine packedTo_bind fun h => ?_
  rw [hloop _ _ h, Nat.zero_add, ← List.append_assoc]
  exact packedTo_bind fun h => padTail_eq_packedTo h

/-- PACK stops at the first symbol without a code, once the whole bytes before it have been emitted. -/
theorem packAll_missingCode {sized : Bool} {front : List Byte} {sym : Byte} {code : Byte → Bits}
    (hsrc : s.checkSrc = .ok ()) (hlen : front.length + 1 ≤ s.srcLen)
    (hin : inHolds s s.srcPtr.toNat (front ++ [sym])) (hcode : ∀ b ∈ front, hasCode s b.toNat (code b))
    (hnone : hasNoCode s sym.toNat)
    (hroom : s.dstPtr.toNat + (if sized then 4 else 0) + (front.flatMap code).length / 8 ≤ s.params.outSize) :
    s.packAll sized = raise .missingCode (BitVec.ofNat 32 sym.toNat) := by
  obtain ⟨hfront, hsym⟩ := inHolds_append hin
  obtain ⟨bs, rest, hcut, hloop⟩ := packFrom_eq_packedTo (buf := []) (Nat.zero_lt_succ 7) hfront hcode
  have hbs := hcut.length
  have hrest := hcut.short
  rw [List.nil_append] at hbs
  have hheader (m : Nat) : s.dstPtr.toNat + (sizeBytes sized m).length ≤ s.params.outSize := by
    rw [sizeBytes_length]
    omega
  obtain ⟨n, hn⟩ := Nat.exists_eq_add_of_le hlen
  rw [packAll_of_header hsrc (by omega), packedTo_fits (hheader _), except_ok_bind, hn, Nat.add_assoc, packFrom_add,
    hloop _ _ (hheader _), packedTo_fits (by rw [List.length_append, sizeBytes_length]; omega), except_ok_bind,
    Nat.add_comm 1 n, State.packFrom, State.inByte_ok.2 (inHolds_cons hsym).1, except_ok_bind, State.packSymbol,
    symbolCode_of_len_zero hnone]
  rfl

theorem packAll_beyond {sized : Bool} (hsrc : s.checkSrc = .ok ()) (hdst : s.params.outSize < s.dstPtr.toNat) :
    s.packAll sized = raise .bufferOverflow s.dstPtr := by
  rw [State.packAll, hsrc, except_ok_bind, if_pos hdst]

/-! ### The command -/

theorem exec_pack_raise {sized : Bool} {e : ErrKind} {info : Word} (h : s.packAll sized = raise e info) :
    failsOverOut s (.pack sized) e.code info :=
  failsOverOut_of_raise (by rw [exec, execPack, h]; rfl)

/-- The state PACK leaves with the bytes out in OUT. -/
def packed (s : State) (bits : Nat) (out : List Byte) : State :=
  { s with
    mem := s.mem.writeBytes (outAddr s.dstPtr.toNat) out, srcPtr := s.srcEnd,
    dstPtr := BitVec.ofNat 32 (s.dstPtr.toNat + out.length),
    res := ⟨BitVec.ofNat 32 s.srcLen, BitVec.ofNat 32 bits, BitVec.ofNat 32 ((bits + 7) / 8),
      BitVec.ofNat 32 out.length⟩,
    busy := false, done := true }

theorem exec_pack_ok {sized : Bool} {buf : Bits} {bits : Nat} {out : List Byte}
    (h : s.packAll sized = .ok ⟨buf, bits, out.reverse⟩) : exec (.pack sized) s = .next (packed s bits out) := by
  rw [exec, execPack, h, except_ok_bind]
  simp only [List.reverse_reverse, List.length_reverse]
  rw [packed, BitVec.ofNat_add, BitVec.ofNat_toNat, BitVec.setWidth_eq]
  rfl

theorem outHolds_of_writeBytes {s t : State} {a : Nat} {bs : List Byte} (h : t.mem = s.mem.writeBytes (outAddr a) bs) :
    outHolds t a bs := fun i hi => by
  have hread := s.mem.read_writeBytes_inside (outAddr a) bs hi
  rwa [← h, outAddr, Nat.add_assoc] at hread

end Sys2Proof.Proofs

open Sys2Proof Sys2Proof.Machine Sys2Proof.Safety Sys2Proof.Proofs

/-- Settles O51: the value bytes read stand for the low bits of the value. -/
theorem symbolCodeReadsTheTable : Obligations.SymbolCodeReadsTheTable := by
  intro s sym len val hlen
  refine ⟨?_, fun hne hval => ⟨_, symbolCode_of_read hlen hne hval, codeBits_length .., fun i hi => ?_⟩⟩
  · rintro rfl
    exact symbolCode_of_len_zero hlen
  · rw [codeBits_getElem, BitVec.testBit_toNat]

/-- Settles O52: the size field and the payload are what PACK emits, and they fit. -/
theorem packWritesTheCodesInOrder : Obligations.PackWritesTheCodesInOrder := by
  intro s sized bytes code _ hend hlen hin hcode stream size hroom
  have hsrcLen : s.srcLen = bytes.length := by unfold State.srcLen; omega
  obtain ⟨payload, rest, hpayload, hbits, hpack⟩ := packAll_eq_packedTo (sized := sized)
    (State.checkSrc_ok.2 ⟨hend, by omega⟩) (by omega) hsrcLen hin hcode
  have hsize : (sizeBytes sized bytes.length ++ payload).length = size := by
    rw [List.length_append, sizeBytes_length, hpayload]
  rw [packedTo_fits (by rwa [hsize])] at hpack
  refine ⟨_, exec_pack_ok hpack, by rw [packed, hsize, hsrcLen],
    ⟨payload, hpayload, hbits, sizeBytes_eq sized _ ▸ outHolds_of_writeBytes rfl⟩,
    fun a ha => s.mem.read_writeBytes_outside _ _ ?_⟩
  unfold outAddr at *
  omega

/-- Settles O53: what PACK emits before the symbol is discarded with the error commit. -/
theorem packOfAMissingCodeFails : Obligations.PackOfAMissingCodeFails := by
  intro s sized front sym code hend hlen hin hcode hnone hroom
  exact exec_pack_raise (packAll_missingCode (State.checkSrc_ok.2 ⟨hend, by omega⟩)
    (by unfold State.srcLen; omega) hin hcode hnone hroom)

/-- Settles O54: DST_PTR is checked first, and from a DST_PTR within OUT the first byte that does not fit is at
OUT_SIZE. -/
theorem packWithoutRoomFails : Obligations.PackWithoutRoomFails := by
  intro s sized bytes code hend hlen hin hcode hfull
  have hsrc : s.checkSrc = .ok () := State.checkSrc_ok.2 ⟨hend, by omega⟩
  by_cases hdst : s.params.outSize < s.dstPtr.toNat
  · rw [if_pos hdst]
    exact exec_pack_raise (packAll_beyond hsrc hdst)
  · obtain ⟨payload, rest, hpayload, -, hpack⟩ := packAll_eq_packedTo (sized := sized) hsrc (by omega)
      (by unfold State.srcLen; omega) hin hcode
    rw [packedTo_full (by rw [List.length_append, sizeBytes_length, hpayload]; omega)] at hpack
    rw [if_neg hdst]
    exact exec_pack_raise hpack
end

section
/-! Every step keeps the memory's canonical form (log 4): each store, of a command or of the host, replaces a range. -/

namespace Sys2Proof.Proofs

open Sys2Proof.Machine Sys2Proof.Safety

/-! ### Commands -/

theorem Commits.mem_wf {s : State} {i : Instr} {o : Owned} (h : Commits s i o) (hs : s.mem.wf) : o.mem.wf := by
  cases h with
  | freq _ _ => exact State.setFreqTable_wf hs _
  | code _ ht => exact State.setCodeTable_wf hs ht
  | ser _ | out _ _ => exact State.appendOut_wf hs _
  | _ => exact hs

theorem engineStep_mem_wf {s t : State} (h : engineStep s = .next t) (hs : s.mem.wf) : t.mem.wf := by
  rcases engineStep_cases h with ⟨i, -, h⟩ | ⟨-, rfl⟩
  · exact (exec_commits h).mem_wf hs
  · exact hs

/-! ### The bus -/

theorem offer_mem (s : State) (c : Word) : (s.offer c).mem = s.mem := by
  by_cases h : s.busy = false ∧ s.errCode = 0
  · rw [State.offer_accept h, State.accept_mem]
  · rw [State.offer_drop h, State.drop_mem]

theorem writeReg_mem (s : State) (v : Word) (r : RegName) : (s.writeReg v r).mem = s.mem := by
  cases r with
  | cmd => exact offer_mem s v
  | errCode => rw [State.writeReg]; split <;> rfl
  | _ => rfl

theorem writeBusy_mem (s : State) (v : Word) (target : BusTarget) : (s.writeBusy v target).mem = s.mem := by
  cases target with
  | reg r =>
    cases r with
    | cmd => exact offer_mem s v
    | _ => rfl
  | _ => rfl

theorem writeTarget_mem_wf {s : State} (hs : s.mem.wf) (v : Word) (target : BusTarget) :
    (s.writeTarget v target).mem.wf := by
  cases target with
  | reg r => exact (writeReg_mem s v r).symm ▸ hs
  | ram _ | codeLen _ => exact Memory.wf_writeBytes hs _ _
  | _ => exact hs

theorem busWrite_mem_wf {s t : State} {width : AccessWidth} {a : Addr} {v : Word}
    (h : s.busWrite width a v = .next t) (hs : s.mem.wf) : t.mem.wf := by
  obtain ⟨-, -, rfl⟩ := busWrite_cases h
  cases hb : s.busy
  · exact writeTarget_mem_wf hs v _
  · exact (writeBusy_mem s v (busTarget s.params a)).symm ▸ hs

theorem busRead_mem {s t : State} {width : AccessWidth} {a : Addr} (h : s.busRead width a = .next t) :
    t.mem = s.mem := by
  obtain ⟨w, d, rfl⟩ := busRead_onlyReplies h
  rfl

end Sys2Proof.Proofs

open Sys2Proof Sys2Proof.Machine Sys2Proof.Safety Sys2Proof.Proofs

/-- Settles O15: commands and host writes store by replacing a range, reset leaves no cell, and nothing else stores. -/
theorem stepKeepsMemoryCanonical : Obligations.StepKeepsMemoryCanonical := by
  intro s t hs h
  obtain ⟨rest, h⟩ := step_cases h
  rcases h with ⟨-, h⟩ | ⟨-, rfl⟩ | ⟨width, a, h⟩ | ⟨width, a, v, h⟩ | rfl | ⟨-, rfl⟩ | ⟨-, rfl⟩ | ⟨-, rfl⟩
  · exact engineStep_mem_wf h hs
  · exact hs
  · exact busRead_mem h ▸ hs
  · exact busWrite_mem_wf h hs
  · exact .nil
  · exact hs
  · exact hs
  · exact hs
end

section
/-! The STATUS word bit by bit (R23), and reset (R280). -/

namespace Sys2Proof.Proofs

open Sys2Proof.Machine

/-- The flags of STATUS from bit 0 up (R23). -/
def statusFlags (s : State) : List Bool :=
  [s.busy, s.done, s.err, s.dropped, s.pqEmpty, s.treeValid, s.leafRoot, s.numbered]

/-- The number whose bits, from bit 0 up, are the flags. -/
def flagsNat (flags : List Bool) : Nat := flags.foldr Nat.bit 0

theorem flagsNat_testBit (flags : List Bool) (i : Nat) : (flagsNat flags).testBit i = flags.getD i false := by
  induction flags generalizing i with
  | nil => exact Nat.zero_testBit i
  | cons b flags ih =>
    cases i with
    | zero => exact Nat.testBit_bit_zero b _
    | succ i => exact (Nat.testBit_bit_succ i b _).trans (ih i)

theorem statusWord_eq_flagsNat (s : State) : s.statusWord = BitVec.ofNat 32 (flagsNat (statusFlags s)) := by
  rw [State.statusWord]
  congr 1
  simp only [flagsNat, statusFlags, List.foldr_cons, List.foldr_nil, Nat.bit_val]
  omega

theorem statusWord_getLsbD (s : State) (i : Nat) : s.statusWord.getLsbD i = (statusFlags s).getD i false := by
  rw [statusWord_eq_flagsNat, BitVec.getLsbD_ofNat, flagsNat_testBit]
  by_cases hi : i < 32
  · rw [decide_eq_true hi, Bool.true_and]
  · rw [decide_eq_false hi, Bool.false_and, List.getD_eq_default]
    exact Nat.le_trans (by decide : 8 ≤ 32) (Nat.not_lt.1 hi)

end Sys2Proof.Proofs

open Sys2Proof Sys2Proof.Machine Sys2Proof.Proofs

/-- Settles O10: bit i of STATUS is flag i, and irq is made of the flags in bits 1 to 3. -/
theorem interruptFollowsStatus : Obligations.InterruptFollowsStatus := by
  intro s
  have bit := statusWord_getLsbD s
  refine ⟨?_, bit 0, bit 1, (bit 2).trans ?_, bit 3, (bit 4).trans ?_, bit 5, bit 6, bit 7, fun i hi => ?_⟩
  · rw [bit 1, bit 2, bit 3]
    simp only [State.irq, Bool.or_eq_true, Bool.and_eq_true, or_assoc]
    rfl
  · rw [Bool.eq_iff_iff, decide_eq_true_iff]
    exact err_iff
  · rw [Bool.eq_iff_iff, decide_eq_true_iff, List.length_eq_zero_iff]
    exact List.isEmpty_iff
  · rw [bit i]
    exact List.getD_eq_default _ _ hi

/-- Settles O13: the host's reset is its whole step. -/
theorem resetAbandonsThePendingCommand : Obligations.ResetAbandonsThePendingCommand := fun _ _ h => step_cons h
end

section
/-! The error commit (R252): what a command that fails changes, for every command. -/

namespace Sys2Proof.Proofs

open Sys2Proof.Machine Sys2Proof.Safety

/-- The state a command's error commit starts from: the one at acceptance with what its rule lists "on error". -/
def errorBase : Instr → State → State
  | .build, s => ({ s with queue := .empty }).treeReset
  | .deser _, s => s.treeReset
  | .pack _, s | .unpack _, s => s.unspecifyOut
  | _, s => s

/-- Every command is a rule that leaves the error registers alone, and its completion. -/
theorem exec_eq_conclude (i : Instr) (s : State) :
    ∃ r, exec i s = conclude (errorBase i s) r ∧ Yields (fun u => u.errCode = s.errCode) r := by
  cases i with
  | nop | clear | freqClr | pqClr | codeClr => exact ⟨.ok _, rfl, .ok rfl⟩
  | pqIns =>
    refine ⟨_, rfl, ?_⟩
    split
    · exact .error
    split
    · exact .error
    split
    · exact .error
    · exact .ok rfl
  | pqExt =>
    refine ⟨_, rfl, ?_⟩
    split
    · exact .error
    · exact .ok rfl
  | build => exact ⟨_, rfl, .bind fun freqs u hu => (buildFrom_controlKept s freqs u hu).2.1⟩
  | freqCnt | codegen | number => exact ⟨_, rfl, .bind fun _ => .bind fun _ => .ok rfl⟩
  | ser => exact ⟨_, rfl, .bind fun _ => .bind fun _ => .bind fun _ => .bind fun _ => .ok rfl⟩
  | deser _ => exact ⟨_, rfl, .bind fun _ => .bind fun _ => .bind fun _ => .ok rfl⟩
  | pack _ => exact ⟨_, rfl, .bind fun _ => .ok rfl⟩
  | unpack _ => exact ⟨_, rfl, .bind fun _ => .bind fun _ => .bind fun _ => .bind fun _ => .bind fun _ => .ok rfl⟩

/-- A command that ends with an error it did not start with has committed that error. -/
theorem exec_failed {i : Instr} {s t : State} (h : exec i s = .next t) (hs : s.errCode = 0) (ht : t.errCode ≠ 0) :
    ∃ e info, t = (errorBase i s).raiseError e info := by
  obtain ⟨r, hexec, hkept⟩ := exec_eq_conclude i s
  rcases conclude_eq_next (hexec.symm.trans h) with ⟨u, hu, rfl⟩ | ⟨e, info, -, rfl⟩
  · exact absurd ((hkept u hu).trans hs) ht
  · exact ⟨e, info, rfl⟩

/-- Apart from the error registers, BUSY and DONE, an error commit leaves all but the queue, the tree and memory. -/
theorem errorBase_frame (i : Instr) (s : State) (e : ErrKind) (info : Word) :
    let t := (errorBase i s).raiseError e info
    t = { s with
      errCode := t.errCode, errInfo := t.errInfo, busy := false, done := true, queue := t.queue, arena := t.arena,
      root := t.root, treeValid := t.treeValid, leafRoot := t.leafRoot, numbered := t.numbered, mem := t.mem,
      draws := t.draws } := by
  cases i <;> rfl

theorem errorBase_queue (i : Instr) (s : State) :
    if i = .build then (errorBase i s).queue = ⟨[], 0⟩ else (errorBase i s).queue = s.queue := by
  cases i <;> rfl

theorem errorBase_tree_reset {i : Instr} (hi : i = .build ∨ ∃ f, i = .deser f) (s : State) :
    treeRegs (errorBase i s) = ⟨false, false, false, 0, .empty⟩ := by
  rcases hi with rfl | ⟨f, rfl⟩ <;> rfl

theorem errorBase_tree_kept {i : Instr} (hi : ¬ (i = .build ∨ ∃ f, i = .deser f)) (s : State) :
    treeRegs (errorBase i s) = treeRegs s := by
  cases i with
  | build => exact absurd (.inl rfl) hi
  | deser f => exact absurd (.inr ⟨f, rfl⟩) hi
  | _ => rfl

/-- The bytes of OUT that become unspecified are those from DST_PTR on (U4). -/
theorem unspecifyOut_changes {s : State} {a : Nat} (h : s.unspecifyOut.mem.read a ≠ s.mem.read a) :
    outAddr s.dstPtr.toNat ≤ a ∧ a < outAddr s.params.outSize := by
  by_contra ha
  exact h (s.unspecifyOut_read (by omega))

theorem errorBase_changes {i : Instr} {s : State} {a : Nat} (h : (errorBase i s).mem.read a ≠ s.mem.read a) :
    (∃ f, i = .pack f ∨ i = .unpack f) ∧ outAddr s.dstPtr.toNat ≤ a ∧ a < outAddr s.params.outSize := by
  cases i with
  | pack f => exact ⟨⟨f, .inl rfl⟩, unspecifyOut_changes h⟩
  | unpack f => exact ⟨⟨f, .inr rfl⟩, unspecifyOut_changes h⟩
  | _ => exact absurd rfl h

end Sys2Proof.Proofs

open Sys2Proof Sys2Proof.Machine Sys2Proof.Safety Sys2Proof.Proofs

/-- Settles O8: what changes is the error commit's own and what the state it starts from differs in. -/
theorem failedCommandCommitsNothing : Obligations.FailedCommandCommitsNothing := by
  intro i s t hs h ht
  obtain ⟨e, info, rfl⟩ := exec_failed h hs ht
  refine ⟨errorBase_frame i s e info, errorBase_queue i s, ?_, fun a => errorBase_changes⟩
  split
  next hreset =>
    obtain ⟨hvalid, hleaf, hnumbered, hroot, harena⟩ := TreeRegs.mk.inj (errorBase_tree_reset hreset s)
    exact ⟨harena, hroot, hvalid, hleaf, hnumbered⟩
  next hkept =>
    obtain ⟨hvalid, hleaf, hnumbered, hroot, harena⟩ := TreeRegs.mk.inj (errorBase_tree_kept hkept s)
    exact ⟨harena, hroot, hvalid, hleaf, hnumbered⟩
end

section
/-! A source range out of order (R255): check_src is the first thing its four readers do, UNPACK once it has a tree. -/

namespace Sys2Proof.Machine

open Sys2Proof.Safety

/-- A rule that first checks the source range, and finds it out of order, raises the check's error. -/
theorem conclude_checkSrc_raise {s : State} {e : ErrKind} {info : Word} (h : s.checkSrc = raise e info)
    (onError : State) (rest : Unit → Except Stop State) :
    conclude onError (s.checkSrc >>= rest) = .next (onError.raiseError e info) := by
  rw [h]
  rfl

variable {s : State} {e : ErrKind} {info : Word} (h : s.checkSrc = raise e info)
include h

theorem exec_freqCnt_checkSrc : exec .freqCnt s = .next (s.raiseError e info) := conclude_checkSrc_raise h s _

theorem exec_deser_checkSrc (f : Bool) : exec (.deser f) s = .next (s.treeReset.raiseError e info) :=
  conclude_checkSrc_raise h s.treeReset _

theorem exec_pack_checkSrc (f : Bool) : failsOverOut s (.pack f) e.code info := by
  refine Proofs.exec_pack_raise ?_
  rw [State.packAll, h]
  rfl

theorem exec_unpack_checkSrc (hv : s.treeValid = true) (f : Bool) : failsOverOut s (.unpack f) e.code info := by
  refine failsOverOut_of_raise ?_
  rw [exec, execUnpack, State.checkTree_ok.2 hv]
  exact conclude_checkSrc_raise h s.unspecifyOut _

end Sys2Proof.Machine

open Sys2Proof Sys2Proof.Machine

/-- Settles O36: the two errors of check_src, each in the four commands that make the check. -/
theorem sourceRangeIsCheckedFirst : Obligations.SourceRangeIsCheckedFirst := by
  intro s f failsWith
  have fails {info : Word} (h : s.checkSrc = raise .bufferOverflow info) : failsWith info :=
    ⟨exec_freqCnt_checkSrc h, exec_deser_checkSrc h f, exec_pack_checkSrc h f, fun hv => exec_unpack_checkSrc h hv f⟩
  exact ⟨fun hend => fails (State.checkSrc_end hend), fun hend hptr => fails (State.checkSrc_ptr hend hptr)⟩
end

section
/-! UNPACK's bits and symbols (R225, R226): which bit each next_bit gives, and what decode_one makes of the code of a
leaf, of a code cut off by the end of the payload, and of a 1 bit on a leaf root. -/

namespace Sys2Proof.Proofs

open Sys2Proof.Machine Sys2Proof.Safety

variable {s : State} {p avail : Nat}

/-! ### The payload's bits (R225) -/

theorem payloadBits_getElem? (bs : List Byte) (k : Nat) :
    (payloadBits bs)[k]? = bs[k / 8]?.map fun b => b.getLsbD (7 - k % 8) := by
  induction bs generalizing k with
  | nil => rfl
  | cons b bs ih =>
    rw [← List.singleton_append, payloadBits_append, List.getElem?_append, payloadBits_length]
    split
    next hk =>
      rw [List.length_singleton] at hk
      obtain ⟨hdiv, hmod⟩ : k / 8 = 0 ∧ k % 8 = k := by omega
      rw [hdiv, hmod]
      interval_cases k <;> rfl
    next hk =>
      rw [List.length_singleton] at hk ⊢
      rw [ih, show k / 8 = (k - 8) / 8 + 1 by omega, show (k - 8 * 1) % 8 = k % 8 by omega]
      rfl

/-- From bit cursor k on, next_bit gives these bits, however many symbols have been decoded. -/
def GivesBits (s : State) (p avail k : Nat) (bits : Bits) : Prop :=
  ∀ j i, (h : i < bits.length) → s.nextBit p avail j (k + i) = .ok bits[i]

theorem GivesBits.append {k : Nat} {xs ys : Bits} (h : GivesBits s p avail k (xs ++ ys)) :
    GivesBits s p avail k xs ∧ GivesBits s p avail (k + xs.length) ys := by
  refine ⟨fun j i hi => ?_, fun j i hi => ?_⟩
  · rw [h j i (by rw [List.length_append]; omega), List.getElem_append_left hi]
  · rw [Nat.add_assoc, h j (xs.length + i) (by rw [List.length_append]; omega),
      List.getElem_append_right (Nat.le_add_right _ _)]
    simp only [Nat.add_sub_cancel_left]

theorem GivesBits.cons {k : Nat} {b : Bool} {bits : Bits} (h : GivesBits s p avail k (b :: bits)) :
    (∀ j, s.nextBit p avail j k = .ok b) ∧ GivesBits s p avail (k + 1) bits :=
  ⟨fun j => h j 0 (Nat.succ_pos _), (GivesBits.append (xs := [b]) h).2⟩

/-- The payload in IN gives its bits, each byte's most significant bit first. -/
theorem givesBits_of_inHolds {payload : List Byte} (hin : inHolds s p payload) (havail : 8 * payload.length ≤ avail) :
    GivesBits s p avail 0 (payloadBits payload) := by
  intro j i hi
  rw [payloadBits_length] at hi
  have hbyte : i / 8 < payload.length := by omega
  have hbit := payloadBits_getElem? payload i
  rw [List.getElem?_eq_getElem (by rwa [payloadBits_length]), List.getElem?_eq_getElem hbyte] at hbit
  rw [Nat.zero_add, State.nextBit_ok (by omega) (hin _ hbyte), Option.some.inj hbit]

/-! ### One symbol (R226) -/

/-- What is left of decode_one() where the walk has come to r: nothing at a leaf, else the walk below r. -/
def decodeBelow (s : State) (p avail j fuel : Nat) (r : Ref) (k : Nat) : Except Stop (Byte × Nat) :=
  match s.node r with
  | some (.leaf sym) => .ok (sym, k)
  | _ => s.descend p avail j fuel r k

theorem decodeBelow_leaf {j fuel k : Nat} {r : Ref} {sym : Byte} (h : s.node r = some (.leaf sym)) :
    decodeBelow s p avail j fuel r k = .ok (sym, k) := by rw [decodeBelow, h]

/-- One bit per edge. -/
theorem decodeBelow_internal {j fuel k : Nat} {r l rt : Ref} {num : Byte} (h : s.node r = some (.internal l rt num)) :
    decodeBelow s p avail j (fuel + 1) r k = (do
      let b ← s.nextBit p avail j k
      decodeBelow s p avail j fuel (if b then rt else l) (k + 1)) := by
  rw [decodeBelow, h]
  simp only [State.descend, h]
  rfl

/-- The path of a leaf begins with the side it is on. -/
theorem exists_of_mem_paths_node {L R : HTree} {e : Byte × Bits} (h : e ∈ (HTree.node L R).paths []) :
    ∃ b x, x ∈ (if b then R else L).paths [] ∧ e = (x.1, b :: x.2) := by
  rw [HTree.paths_node, List.mem_append, List.mem_map, List.mem_map] at h
  rcases h with ⟨x, hx, rfl⟩ | ⟨x, hx, rfl⟩
  · exact ⟨false, x, hx, rfl⟩
  · exact ⟨true, x, hx, rfl⟩

theorem treeAt_side {nodes : List Node} {fuel : Nat} {l rt : Ref} {L R : HTree} (hl : treeAt nodes fuel l = some L)
    (hr : treeAt nodes fuel rt = some R) (b : Bool) :
    treeAt nodes fuel (if b then rt else l) = some (if b then R else L) := by
  cases b
  · exact hl
  · exact hr

/-- The walk takes the path of a leaf, bit by bit. -/
theorem decodeBelow_path {j fuel k : Nat} {r : Ref} {T : HTree} {e : Byte × Bits}
    (hT : treeAt s.arena.nodes fuel r = some T) (he : e ∈ T.paths []) (hbits : GivesBits s p avail k e.2) :
    decodeBelow s p avail j fuel r k = .ok (e.1, k + e.2.length) := by
  induction fuel generalizing r T e k with
  | zero => cases hT
  | succ fuel ih =>
    rcases treeAt_cases hT with ⟨sym, hn, rfl⟩ | ⟨l, rt, num, L, R, hn, hl, hr, rfl⟩
    · obtain rfl := List.mem_singleton.1 he
      exact decodeBelow_leaf hn
    · obtain ⟨b, x, hx, rfl⟩ := exists_of_mem_paths_node he
      obtain ⟨hbit, hbits⟩ := hbits.cons
      rw [decodeBelow_internal hn, hbit, except_ok_bind, ih (treeAt_side hl hr b) hx hbits, List.length_cons,
        Nat.add_assoc, Nat.add_comm 1]

/-- A payload that ends inside the path of a leaf is corrupt (R227). -/
theorem decodeBelow_cut {j fuel k : Nat} {r : Ref} {T : HTree} {e : Byte × Bits} {bits : Bits}
    (hT : treeAt s.arena.nodes fuel r = some T) (he : e ∈ T.paths []) (hcut : bits <+: e.2) (hne : bits ≠ e.2)
    (hbits : GivesBits s p avail k bits) (hend : avail = k + bits.length) :
    decodeBelow s p avail j fuel r k = corrupt j := by
  induction fuel generalizing r T e k bits with
  | zero => cases hT
  | succ fuel ih =>
    rcases treeAt_cases hT with ⟨sym, hn, rfl⟩ | ⟨l, rt, num, L, R, hn, hl, hr, rfl⟩
    · obtain rfl := List.mem_singleton.1 he
      exact absurd (List.prefix_nil.1 hcut) hne
    · rw [decodeBelow_internal hn]
      cases bits with
      | nil =>
        rw [State.nextBit_end (k := k) hend.le]
        rfl
      | cons b bits =>
        obtain ⟨b', x, hx, rfl⟩ := exists_of_mem_paths_node he
        obtain ⟨rfl, hrest⟩ := List.cons_prefix_cons.1 hcut
        obtain ⟨hbit, hbits⟩ := hbits.cons
        rw [List.length_cons] at hend
        rw [hbit, except_ok_bind]
        exact ih (treeAt_side hl hr b) hx hrest (fun h => hne (congrArg _ h)) hbits (by omega)

theorem root_internal_of_treeOf {L R : HTree} (hT : treeOf s = some (.node L R)) :
    ∃ l rt num, s.node s.root = some (.internal l rt num) := by
  rw [treeOf] at hT
  cases hfuel : s.arena.nodes.length with
  | zero => rw [hfuel] at hT; cases hT
  | succ fuel =>
    rw [hfuel] at hT
    rcases treeAt_cases hT with ⟨_, -, h⟩ | ⟨l, rt, num, _, _, hn, -, -, -⟩
    · cases h
    · exact ⟨l, rt, num, hn⟩

theorem decodeOne_of_node {L R : HTree} (hT : treeOf s = some (.node L R)) (j k : Nat) :
    s.decodeOne p avail j k = decodeBelow s p avail j s.arena.nodes.length s.root k := by
  obtain ⟨l, rt, num, hn⟩ := root_internal_of_treeOf hT
  rw [State.decodeOne, decodeBelow, hn]

theorem decodeOne_of_leaf {sym : Byte} (hT : treeOf s = some (.leaf sym)) (j k : Nat) :
    s.decodeOne p avail j k = (do
      let b ← s.nextBit p avail j k
      if b then corrupt j else .ok (sym, k + 1)) := by
  have hn : s.node s.root = some (.leaf sym) := leaf_of_treeAt hT
  rw [State.decodeOne, hn]
  rfl

/-- decode_one() on the code of a leaf gives its symbol: the path, or the code "0" of a leaf root. -/
theorem decodeOne_of_code {T : HTree} {e : Byte × Bits} (hT : treeOf s = some T) (he : e ∈ recordedCodes T) {k : Nat}
    (hbits : GivesBits s p avail k e.2) (j : Nat) : s.decodeOne p avail j k = .ok (e.1, k + e.2.length) := by
  cases T with
  | leaf sym =>
    obtain rfl := List.mem_singleton.1 he
    rw [decodeOne_of_leaf hT, hbits.cons.1]
    rfl
  | node l r =>
    rw [decodeOne_of_node hT]
    exact decodeBelow_path hT he hbits

/-- A payload that ends inside a path is corrupt (R227). -/
theorem decodeOne_cut {L R : HTree} {j k : Nat} {bits : Bits} {e : Byte × Bits} (hT : treeOf s = some (.node L R))
    (he : e ∈ (HTree.node L R).paths []) (hcut : bits <+: e.2) (hne : bits ≠ e.2) (hbits : GivesBits s p avail k bits)
    (hend : avail = k + bits.length) : s.decodeOne p avail j k = corrupt j := by
  rw [decodeOne_of_node hT]
  exact decodeBelow_cut hT he hcut hne hbits hend

/-- A leaf root has no code that begins with 1 (R226). -/
theorem decodeOne_leaf_one {sym : Byte} {j k : Nat} {bits : Bits} (hT : treeOf s = some (.leaf sym))
    (hbits : GivesBits s p avail k (true :: bits)) : s.decodeOne p avail j k = corrupt j := by
  rw [decodeOne_of_leaf hT, hbits.cons.1]
  rfl

theorem decodeOne_leaf_end {sym : Byte} {j k : Nat} (hT : treeOf s = some (.leaf sym)) (hend : avail ≤ k) :
    s.decodeOne p avail j k = corrupt j := by
  rw [decodeOne_of_leaf hT, State.nextBit_end hend]
  rfl

/-! ### The loop (R225) -/

/-- The symbols of a sequence of leaves come first, and the loop goes on after their codes. -/
theorem decodeFrom_codes {T : HTree} {leaves : List (Byte × Bits)} (hT : treeOf s = some T)
    (hleaves : ∀ e ∈ leaves, e ∈ recordedCodes T) {k : Nat} (hbits : GivesBits s p avail k (leaves.flatMap Prod.snd))
    (n j : Nat) : s.decodeFrom p avail (leaves.length + n) j k =
      (fun r => (leaves.map Prod.fst ++ r.1, r.2)) <$>
        s.decodeFrom p avail n (j + leaves.length) (k + (leaves.flatMap Prod.snd).length) := by
  induction leaves generalizing j k with
  | nil =>
    rw [List.length_nil, Nat.zero_add]
    exact (id_map _).symm
  | cons e leaves ih =>
    obtain ⟨he, hleaves⟩ := List.forall_mem_cons.1 hleaves
    rw [List.flatMap_cons] at hbits ⊢
    obtain ⟨hcode, hbits⟩ := hbits.append
    rw [List.length_cons, Nat.add_right_comm, State.decodeFrom, decodeOne_of_code hT he hcode, except_ok_bind,
      List.length_append, ← Nat.add_assoc k, Nat.add_comm leaves.length 1, ← Nat.add_assoc j]
    dsimp only
    rw [ih hleaves hbits]
    cases s.decodeFrom p avail n (j + 1 + leaves.length) (k + e.2.length + (leaves.flatMap Prod.snd).length) <;> rfl

/-- UNPACK decodes a payload that is the codes of as many leaves as it expects. -/
theorem decodeFrom_ok {T : HTree} {leaves : List (Byte × Bits)} (hT : treeOf s = some T)
    (hleaves : ∀ e ∈ leaves, e ∈ recordedCodes T) (hbits : GivesBits s p avail 0 (leaves.flatMap Prod.snd)) :
    s.decodeFrom p avail leaves.length 0 0 = .ok (leaves.map Prod.fst, (leaves.flatMap Prod.snd).length) := by
  refine (decodeFrom_codes hT hleaves hbits 0 0).trans ?_
  rw [Nat.zero_add, Nat.zero_add, State.decodeFrom]
  exact congrArg (fun syms => Except.ok (syms, _)) (List.append_nil _)

/-- Where the symbol after some leaves is corrupt, so is the payload (R227). -/
theorem decodeFrom_corrupt {T : HTree} {leaves : List (Byte × Bits)} {count : Nat} (hT : treeOf s = some T)
    (hleaves : ∀ e ∈ leaves, e ∈ recordedCodes T) (hbits : GivesBits s p avail 0 (leaves.flatMap Prod.snd))
    (hlt : leaves.length < count)
    (hbad : s.decodeOne p avail leaves.length (leaves.flatMap Prod.snd).length = corrupt leaves.length) :
    s.decodeFrom p avail count 0 0 = corrupt leaves.length := by
  obtain ⟨n, rfl⟩ := Nat.exists_eq_add_of_lt hlt
  rw [Nat.add_assoc, decodeFrom_codes hT hleaves hbits, Nat.zero_add, Nat.zero_add, State.decodeFrom, hbad]
  rfl

end Sys2Proof.Proofs
end

section
/-! UNPACK as a whole (R225): its expected count, the state it leaves, and its errors. -/

namespace Sys2Proof.Proofs

open Sys2Proof.Machine Sys2Proof.Safety

variable {s : State} {sized : Bool} {count p : Nat}

theorem expectedCount_of_countIs (h : countIs s sized count p) : s.expectedCount sized = .ok (count, p) := by
  cases sized with
  | false =>
    obtain ⟨rfl, rfl⟩ := h
    rfl
  | true =>
    obtain ⟨rfl, hend, hlt, hin⟩ := h
    have hfield : le32Bytes (BitVec.ofNat 32 count) =
        (List.range 4).map fun j => BitVec.ofNat 8 (count / 2 ^ (8 * j)) := sizeBytes_eq true count
    have hbytes : collect s.inByte s.srcPtr.toNat 4 = .ok (le32Bytes (BitVec.ofNat 32 count)) :=
      collect_ok.2 ⟨rfl, fun i hi => State.inByte_ok.2 ((hfield ▸ hin) i hi)⟩
    rw [State.expectedCount, if_pos rfl, if_neg (by unfold State.srcLen; omega), State.sizeField, hbytes]
    simp only [except_ok_bind, except_pure_eq_ok, leNat_le32Bytes, BitVec.toNat_ofNat, Nat.mod_eq_of_lt hlt]

/-- The state UNPACK leaves with the symbols in OUT, k bits of the payload at IN index p taken. -/
def unpacked (s : State) (sized : Bool) (count p k : Nat) (syms : List Byte) : State :=
  { s with
    mem := s.mem.writeBytes (outAddr s.dstPtr.toNat) syms, srcPtr := BitVec.ofNat 32 (p + (k + 7) / 8),
    dstPtr := BitVec.ofNat 32 (s.dstPtr.toNat + syms.length),
    res := ⟨BitVec.ofNat 32 count, BitVec.ofNat 32 k, BitVec.ofNat 32 ((k + 7) / 8), if sized then 4 else 0⟩,
    busy := false, done := true }

theorem unpacked_read {k a : Nat} {syms : List Byte}
    (ha : a < outAddr s.dstPtr.toNat ∨ outAddr (s.dstPtr.toNat + syms.length) ≤ a) :
    (unpacked s sized count p k syms).mem.read a = s.mem.read a :=
  s.mem.read_writeBytes_outside _ syms (by unfold outAddr at *; omega)

section

variable (hv : s.treeValid = true) (hsrc : s.checkSrc = .ok ())
include hv hsrc

theorem exec_unpack_noSizeField (h : s.srcLen < 4) : failsOverOut s (.unpack true) 0x03 s.srcPtr := by
  refine failsOverOut_of_raise (e := .malformedHeader) ?_
  rw [exec, execUnpack, State.checkTree_ok.2 hv, except_ok_bind, hsrc, except_ok_bind, State.expectedCount, if_pos rfl,
    if_pos h]
  rfl

variable (hcount : countIs s sized count p)
include hcount

/-- UNPACK on a valid tree and a source range in order, its count known: the room and the payload decide (R225). -/
theorem exec_unpack_eq : exec (.unpack sized) s = conclude s.unspecifyOut (do
    s.checkDstRoom count
    let r ← s.decodeFrom p (8 * (s.srcEnd.toNat - p)) count 0 0
    return unpacked s sized count p r.2 r.1) := by
  rw [exec, execUnpack, State.checkTree_ok.2 hv, except_ok_bind, hsrc, except_ok_bind, expectedCount_of_countIs hcount,
    except_ok_bind]
  dsimp only
  rcases s.checkDstRoom count with stop | _
  · rfl
  · rcases s.decodeFrom p (8 * (s.srcEnd.toNat - p)) count 0 0 with stop | ⟨syms, k⟩
    · rfl
    · simp only [except_ok_bind, except_pure_eq_ok, unpacked, BitVec.ofNat_add s.dstPtr.toNat, BitVec.ofNat_toNat,
        BitVec.setWidth_eq]
      rfl

theorem exec_unpack_full (h : s.params.outSize < s.dstPtr.toNat + count) : failsOverOut s (.unpack sized) 0x15
    (if s.params.outSize < s.dstPtr.toNat then s.dstPtr else BitVec.ofNat 32 s.params.outSize) := by
  refine failsOverOut_of_raise (e := .bufferOverflow) ?_
  rw [exec_unpack_eq hv hsrc hcount, State.checkDstRoom_full h]
  rfl

variable {T : HTree} {payload : List Byte} {leaves : List (Byte × Bits)} {tail : Bits} (hT : treeOf s = some T)
  (hroom : s.dstPtr.toNat + count ≤ s.params.outSize) (hin : inHolds s p payload)
  (hleaves : ∀ e ∈ leaves, e ∈ recordedCodes T) (hbits : payloadBits payload = leaves.flatMap Prod.snd ++ tail)
include hT hroom hin hleaves hbits

/-- UNPACK on a payload that begins with the codes of as many leaves as it expects (R226). -/
theorem exec_unpack_codes (hlen : leaves.length = count) (hend : p + payload.length ≤ s.srcEnd.toNat) :
    exec (.unpack sized) s =
      .next (unpacked s sized count p (leaves.flatMap Prod.snd).length (leaves.map Prod.fst)) := by
  have hgives := givesBits_of_inHolds (avail := 8 * (s.srcEnd.toNat - p)) hin (by omega)
  rw [hbits] at hgives
  rw [exec_unpack_eq hv hsrc hcount, State.checkDstRoom_ok.2 hroom, ← hlen, decodeFrom_ok hT hleaves hgives.append.1]
  rfl

/-- UNPACK where the payload, after the codes of some leaves, has bits that are no leaf's code (R227). -/
theorem exec_unpack_corrupt (hlt : leaves.length < count) (hend : p + payload.length = s.srcEnd.toNat)
    (hbad : ∀ avail k, GivesBits s p avail k tail → avail = k + tail.length →
      s.decodeOne p avail leaves.length k = corrupt leaves.length) :
    failsOverOut s (.unpack sized) 0x04 (BitVec.ofNat 32 leaves.length) := by
  have hgives := givesBits_of_inHolds (avail := 8 * (s.srcEnd.toNat - p)) hin (by omega)
  have hlen := congrArg List.length hbits
  rw [payloadBits_length, List.length_append] at hlen
  rw [hbits] at hgives
  obtain ⟨hcodes, htail⟩ := hgives.append
  rw [Nat.zero_add] at htail
  refine failsOverOut_of_raise (e := .corruptPayload) ?_
  rw [exec_unpack_eq hv hsrc hcount, State.checkDstRoom_ok.2 hroom, except_ok_bind,
    decodeFrom_corrupt hT hleaves hcodes hlt (hbad _ _ htail (by omega))]
  rfl

end

/-! ### A leaf root (R226, degenerate tree) -/

/-- As many leaves of a leaf root, each with its code "0". -/
def zeroCodes (sym : Byte) (n : Nat) : List (Byte × Bits) := List.replicate n (sym, [false])

theorem zeroCodes_length (sym : Byte) (n : Nat) : (zeroCodes sym n).length = n := List.length_replicate

theorem zeroCodes_mem {sym : Byte} {n : Nat} : ∀ e ∈ zeroCodes sym n, e ∈ recordedCodes (.leaf sym) :=
  fun _ he => List.mem_singleton.2 (List.eq_of_mem_replicate he)

theorem zeroCodes_bits (sym : Byte) (n : Nat) : (zeroCodes sym n).flatMap Prod.snd = List.replicate n false := by
  induction n with
  | zero => rfl
  | succ n ih => exact congrArg (false :: ·) ih

theorem zeroCodes_symbols (sym : Byte) (n : Nat) : (zeroCodes sym n).map Prod.fst = List.replicate n sym :=
  List.map_replicate

end Sys2Proof.Proofs

open Sys2Proof Sys2Proof.Machine Sys2Proof.Safety Sys2Proof.Proofs

/-- Settles O55: the paths are the codes of the leaves. -/
theorem unpackDecodesThePaths : Obligations.UnpackDecodesThePaths := by
  intro s sized T p payload leaves tail _ hv hT hK hend hptr hcount hpay hin hleaves hbits hroom
  have hexec := exec_unpack_codes hv (State.checkSrc_ok.2 ⟨hend, hptr⟩) hcount hT hroom hin
    (recordedCodes_eq_paths hK ▸ hleaves) hbits rfl hpay
  refine ⟨_, hexec, ?_, outHolds_of_writeBytes rfl, fun a ha => unpacked_read (by rwa [List.length_map])⟩
  rw [unpacked, List.length_map]

/-- Settles O56: the code of a leaf root is one 0 bit. -/
theorem unpackOfALeafRootTakesZeroBits : Obligations.UnpackOfALeafRootTakesZeroBits := by
  intro s sized sym count p payload tail _ hv hT hend hptr hcount hpay hin hbits hroom
  have hexec := exec_unpack_codes hv (State.checkSrc_ok.2 ⟨hend, hptr⟩) hcount hT hroom hin zeroCodes_mem
    (zeroCodes_bits sym count ▸ hbits) (zeroCodes_length sym count) hpay
  rw [zeroCodes_bits, zeroCodes_symbols, List.length_replicate] at hexec
  refine ⟨_, hexec, ?_, outHolds_of_writeBytes rfl, fun a ha => unpacked_read (by rwa [List.length_replicate])⟩
  rw [unpacked, List.length_replicate]

/-- Settles O57: the checks in their order, and the three ways decode_one() fails. -/
theorem unpackOfACorruptPayloadFails : Obligations.UnpackOfACorruptPayloadFails := by
  refine ⟨fun s hv hend hptr hlen => ?_, fun s sized count p hv hend hptr hcount hfull => ?_,
    fun s sized T count p payload leaves tail hv hT hend hptr hcount hpay hin hlt hroom hbad => ?_⟩
  · exact exec_unpack_noSizeField hv (State.checkSrc_ok.2 ⟨hend, hptr⟩) (by unfold State.srcLen; omega)
  · exact exec_unpack_full hv (State.checkSrc_ok.2 ⟨hend, hptr⟩) hcount hfull
  · have hsrc := State.checkSrc_ok.2 ⟨hend, hptr⟩
    cases T with
    | node L R =>
      obtain ⟨-, hleaves, hbits, e, he, hcut, hne⟩ | ⟨hK, -⟩ | ⟨hK, -⟩ := hbad
      · exact exec_unpack_corrupt hv hsrc hcount hT hroom hin hleaves hbits hlt hpay
          fun _ _ => decodeOne_cut hT he hcut hne
      all_goals exact absurd hK (Nat.succ_ne_zero _)
    | leaf sym =>
      have hzeros {tail : Bits} (hbits : payloadBits payload = List.replicate leaves.length false ++ tail) :=
        exec_unpack_corrupt hv hsrc hcount hT hroom hin (leaves := zeroCodes sym leaves.length) zeroCodes_mem
          (by rwa [zeroCodes_bits])
      rw [zeroCodes_length] at hzeros
      obtain ⟨hK, -⟩ | ⟨-, more, hbits⟩ | ⟨-, hbits⟩ := hbad
      · exact absurd hK (Nat.not_succ_le_zero 0)
      · exact hzeros hbits hlt hpay fun _ _ hone _ => decodeOne_leaf_one hT hone
      · exact hzeros (tail := []) (by rwa [List.append_nil]) hlt hpay fun _ _ _ hlast => decodeOne_leaf_end hT hlast.le
end

section
/-! The compressing half of the round trip (R228): the tree BUILD makes of counted input has a leaf for every byte
of it, CODEGEN gives each of these a code, and SER and PACK.S leave the header, the size field and the codes in OUT. -/

namespace Sys2Proof.Safety

open Sys2Proof.Machine Sys2Proof.Proofs

/-- Every entry of a valid arena is below the root: going up from child to parent ends there (R14). -/
theorem ArenaInv.symbols_subset {a : Arena} {root : Ref} {T : HTree} (h : ArenaInv a root)
    (hT : treeAt a.nodes a.nodes.length root = some T) {r : Ref} (hr : r.toNat < a.nodes.length) :
    ∃ S, treeAt a.nodes a.nodes.length r = some S ∧ S.symbols ⊆ T.symbols := by
  obtain ⟨hle, hroot, hlt, hperm, -⟩ := h
  induction hn : root.toNat - r.toNat using Nat.strongRecOn generalizing r with
  | ind n ih =>
    by_cases hlast : r = root
    · exact ⟨T, hlast ▸ hT, List.Subset.refl _⟩
    · have hne : r.toNat ≠ root.toNat := fun h => hlast (BitVec.eq_of_toNat_eq h)
      have hchild : r.toNat ∈ a.nodes.flatMap children := hperm.mem_iff.2 (List.mem_range.2 (by omega))
      obtain ⟨parent, hparent, hrp⟩ := List.mem_flatMap.1 hchild
      obtain ⟨q, hq, rfl⟩ := List.mem_iff_getElem.1 hparent
      have hrq := hlt q hq _ hrp
      have hqRef : (BitVec.ofNat 9 q).toNat = q := Nat.mod_eq_of_lt (by omega)
      obtain ⟨S, hS, hsub⟩ := ih (root.toNat - q) (by omega) (r := BitVec.ofNat 9 q) (by omega) (by rw [hqRef])
      obtain ⟨m, hm⟩ : ∃ m, a.nodes.length = m + 1 := ⟨a.nodes.length - 1, by omega⟩
      rw [hm] at hS ⊢
      rcases treeAt_cases hS with ⟨sym, hnode, rfl⟩ | ⟨l, rt, num, L, R, hnode, hL, hR, rfl⟩
      all_goals
        rw [hqRef, List.getElem?_eq_getElem hq, Option.some.injEq] at hnode
        rw [hnode] at hrp
      · exact absurd hrp List.not_mem_nil
      · rw [HTree.symbols, List.append_subset] at hsub
        simp only [children, List.mem_cons, List.not_mem_nil, or_false] at hrp
        rcases hrp with hl | hrt
        · obtain rfl := BitVec.eq_of_toNat_eq hl
          exact ⟨L, treeAt_mono (Nat.le_succ m) hL, hsub.1⟩
        · obtain rfl := BitVec.eq_of_toNat_eq hrt
          exact ⟨R, treeAt_mono (Nat.le_succ m) hR, hsub.2⟩

/-- A leaf of a valid arena is a leaf of its tree. -/
theorem ArenaInv.leaf_mem_symbols {a : Arena} {root : Ref} {T : HTree} (h : ArenaInv a root)
    (hT : treeAt a.nodes a.nodes.length root = some T) {i : Nat} {sym : Byte} (hi : a.nodes[i]? = some (.leaf sym)) :
    sym ∈ T.symbols := by
  obtain ⟨hlt, -⟩ := List.getElem?_eq_some_iff.1 hi
  have href : (BitVec.ofNat 9 i).toNat = i := Nat.mod_eq_of_lt (by have := h.1; omega)
  obtain ⟨S, hS, hsub⟩ := h.symbols_subset hT (r := BitVec.ofNat 9 i) (by omega)
  obtain ⟨m, hm⟩ : ∃ m, a.nodes.length = m + 1 := ⟨a.nodes.length - 1, by omega⟩
  rw [hm, treeAt_leaf (by rwa [href])] at hS
  obtain rfl := Option.some.inj hS
  exact hsub (List.mem_singleton_self sym)

end Sys2Proof.Safety

namespace Sys2Proof.Proofs

open Sys2Proof.Machine Sys2Proof.Safety

variable {s t : State} {B : List Byte} {T : HTree}

/-! ### The input (R95) -/

/-- The source range is the whole buffer B, which IN holds from index 0 on, as COMPRESS sets the cursors (R95). -/
structure Source (p : Params) (B : List Byte) (s : State) : Prop where
  params : s.params = p
  srcPtr : s.srcPtr = 0
  srcEnd : s.srcEnd.toNat = B.length
  input : inHolds s 0 B

theorem inHolds_congr {a : Nat} {bytes : List Byte}
    (h : ∀ i, i < bytes.length → t.mem.read (inAddr (a + i)) = s.mem.read (inAddr (a + i))) (hs : inHolds s a bytes) :
    inHolds t a bytes := fun i hi => by
  have hread := h i hi
  simp only [inAddr] at hread
  rw [inAddr, Nat.add_zero, hread]
  exact hs i hi

/-- No command stores in IN (R290). -/
theorem Commits.read_in {i : Instr} {o : Owned} (h : Commits s i o) {a : Nat} (hlo : 0x100000 ≤ a)
    (hhi : a < 0x200000) : o.mem.read a = s.mem.read a := by
  cases h with
  | freq _ hw => exact s.setFreqTable_read_outside hw (.inr (by omega))
  | code _ ht => exact s.setCodeTable_read_outside ht (.inr (by omega))
  | ser _ | out _ _ => exact Memory.read_writeBytes_outside _ _ _ (.inl (by unfold outAddr; omega))
  | _ => rfl

/-- The commands before PACK leave the source range and its bytes. -/
theorem Source.of_exec {p : Params} {i : Instr} (h : Source p B s) (hB : B.length ≤ 0x100000)
    (hi : i ∈ [.freqCnt, .build, .codegen, .ser]) (he : exec i s = .next t) : Source p B t := by
  obtain ⟨-, -, hregs, -⟩ := exec_completed he
  obtain ⟨hparams, -, -, -, hend, -⟩ := ControlRegs.mk.inj hregs
  have hcommits := exec_commits he
  have hptr : t.srcPtr = s.srcPtr := by
    refine hcommits.srcPtr_eq.resolve_right ?_
    rintro ⟨f, rfl | rfl | rfl⟩ <;> simp at hi
  refine ⟨hparams.trans h.params, hptr.trans h.srcPtr, hend ▸ h.srcEnd, inHolds_congr (fun i hi => ?_) h.input⟩
  exact hcommits.read_in (by unfold inAddr; omega) (by unfold inAddr; omega)

theorem dstPtr_of_exec {i : Instr} (hi : i ∈ [.freqCnt, .build, .codegen]) (he : exec i s = .next t) :
    t.dstPtr = s.dstPtr := by
  refine (exec_commits he).dstPtr_eq.resolve_right ?_
  rintro (rfl | ⟨f, rfl | rfl⟩) <;> simp at hi

/-! ### The tree (R131, R133) -/

/-- A valid tree that has a leaf for every byte of B. -/
structure TreeFor (B : List Byte) (T : HTree) (s : State) : Prop where
  inv : TreeInv s
  valid : s.treeValid = true
  tree : treeOf s = some T
  symbols : ∀ b ∈ B, b ∈ T.symbols

/-- BUILD makes its tree from nothing, so it leaves a valid one whatever it finds (R133). -/
theorem execBuild_treeReset (s : State) : execBuild s.treeReset = execBuild s := rfl

theorem treeReset_treeInv (s : State) : TreeInv s.treeReset :=
  ⟨nofun, fun _ => ⟨rfl, rfl, rfl, rfl⟩, fun _ => nofun⟩

theorem build_treeInv (h : exec .build s = .next t) : TreeInv t :=
  (execBuild_treeChange ((execBuild_treeReset s).trans h)).treeInv (treeReset_treeInv s)

theorem count_ne_zero (hlen : B.length < 2 ^ 32) {b : Byte} (hb : b ∈ B) : BitVec.ofNat 32 (B.count b) ≠ 0 := by
  have hpos := List.count_pos_iff.2 hb
  have hle : B.count b ≤ B.length := List.count_le_length
  rw [ne_eq, ← BitVec.toNat_inj, BitVec.toNat_ofNat, Nat.mod_eq_of_lt (by omega)]
  exact hpos.ne'

/-- BUILD on the counts of B seeds a leaf for every byte of it. -/
theorem exists_treeFor_of_build (hlen : B.length < 2 ^ 32) (hB : B ≠ [])
    (hfreq : ∀ sym : Byte, freqIs s sym.toNat (BitVec.ofNat 32 (B.count sym))) (h : exec .build s = .next t) :
    ∃ T, TreeFor B T t := by
  have hcount (b : Byte) (hb : b ∈ B) : BitVec.ofNat 32 (B.count (BitVec.ofNat 8 b.toNat)) ≠ 0 := by
    rw [BitVec.ofNat_toNat, BitVec.setWidth_eq]
    exact count_ne_zero hlen hb
  obtain ⟨b₀, hb₀⟩ := List.exists_mem_of_ne_nil B hB
  obtain ⟨t', he, heq, -, -, hleaves, -, harena⟩ := buildLeavesTheShapeOfR134 s
    (fun sym => BitVec.ofNat 32 (B.count (BitVec.ofNat 8 sym)))
    (fun sym hsym => by simpa [Nat.mod_eq_of_lt hsym] using hfreq (BitVec.ofNat 8 sym)) ⟨_, b₀.isLt, hcount b₀ hb₀⟩
  obtain rfl := Host.Outcome.next.inj (h.symm.trans he)
  have hinv := build_treeInv h
  have hv : t.treeValid = true := congrArg State.treeValid heq
  obtain ⟨T, hT, -⟩ := hinv.exists_tree hv
  refine ⟨T, hinv, hv, hT, fun b hb => ?_⟩
  have hpresent : b.toNat ∈ presentSymbols (fun sym => BitVec.ofNat 32 (B.count (BitVec.ofNat 8 sym))) :=
    List.mem_filter.2 ⟨List.mem_range.2 b.isLt, decide_eq_true (hcount b hb)⟩
  obtain ⟨i, hi, hget⟩ := List.mem_iff_getElem.1 hpresent
  have hnode := hleaves i hi
  rw [← presentSymbols, List.getElem?_eq_getElem hi, hget, Option.map_some, BitVec.ofNat_toNat,
    BitVec.setWidth_eq] at hnode
  exact harena.leaf_mem_symbols hT hnode

/-! ### The codes (R151, R152) -/

/-- The last code recorded for a symbol is what PACK reads for it. -/
theorem hasCode_of_lastCode {codes : List (Byte × Bits)} {sym : Byte} {c : Bits} (hfit : LengthsFit codes)
    (h : lastCode codes sym = some c) : hasCode (s.setCodeTable (codeTable codes)) sym.toNat c := by
  obtain ⟨hpos, hlt⟩ : 1 ≤ c.length ∧ c.length < 256 := hfit _ (mem_of_lastCode h)
  obtain ⟨hlen, hval⟩ := codeIs_codeEntry s codes sym
  rw [codeEntry_of_last h] at hlen hval
  refine ⟨List.length_pos_iff.1 hpos, hlt, hlen, _, fun i _ => hval i (by omega), fun i hi => ?_⟩
  rw [BitVec.getLsbD_ofNat, decide_eq_true (by omega), Bool.true_and, bitsVal_testBit hi]

/-- CODE holds for each byte of B the code of one of its leaves in T. -/
def Coded (T : HTree) (B : List Byte) (code : Byte → Bits) (s : State) : Prop :=
  ∀ b ∈ B, (b, code b) ∈ recordedCodes T ∧ hasCode s b.toNat (code b)

/-- CODEGEN keeps the tree and gives each of its symbols a code. -/
theorem TreeFor.codegen (h : TreeFor B T s) (he : exec .codegen s = .next t) :
    TreeFor B T t ∧ ∃ code, Coded T B code t := by
  have hfit := recordedCodes_fit (h.inv.internals_lt h.valid h.tree)
  have hexec := exec_codegen_of_codes h.valid (treeCodes_of_treeOf h.tree)
  obtain rfl := Host.Outcome.next.inj (he.symm.trans hexec)
  refine ⟨⟨h.inv, h.valid, h.tree, h.symbols⟩, fun b => (lastCode (recordedCodes T) b).getD [], fun b hb => ?_⟩
  have hmem := recordedCodes_symbols T ▸ h.symbols b hb
  obtain ⟨c, hc⟩ := Option.ne_none_iff_exists'.1 (mt lastCode_eq_none_iff.1 (not_not.2 hmem))
  simp only [hc, Option.getD_some]
  exact ⟨mem_of_lastCode hc, hasCode_of_lastCode hfit hc⟩

/-! ### The output (R167, R168, R210) -/

/-- SER, where it succeeds with DST_PTR = 0, leaves the bytes of the tree at the start of OUT, and no other change that
PACK would see. -/
theorem TreeFor.ser (h : TreeFor B T s) (hdst : s.dstPtr = 0) (he : exec .ser s = .next t) (ht : t.errCode = 0) :
    (serBytes T).length ≤ s.params.outSize ∧ t.dstPtr = BitVec.ofNat 32 (serBytes T).length ∧
      outHolds t 0 (serBytes T) ∧ ∀ a, a < 0x200000 → t.mem.read a = s.mem.read a := by
  have hdst0 : s.dstPtr.toNat = 0 := congrArg BitVec.toNat hdst
  have hroom : (serBytes T).length ≤ s.params.outSize := by
    by_contra hfull
    have hfails := serWithoutRoomKeepsNothing s T h.inv h.valid h.tree (by rw [← serBytes_length]; omega)
    obtain rfl := Host.Outcome.next.inj (he.symm.trans hfails)
    exact ErrKind.code_ne_zero .bufferOverflow ht
  obtain ⟨nodes, hnum⟩ := exists_numbering h.inv h.valid h.tree
  obtain rfl := Host.Outcome.next.inj (he.symm.trans (hnum.exec_ser h.inv h.valid (by omega)))
  refine ⟨hroom, ?_, hdst0 ▸ serialized_outHolds s nodes (serBytes T), fun a ha => serialized_read s nodes _ (.inl ?_)⟩
  · rw [serialized, hdst0, Nat.zero_add]
  · unfold outAddr
    omega

theorem hasCode_of_read {sym : Byte} {c : Bits} (h : ∀ a, a < 0x200000 → t.mem.read a = s.mem.read a)
    (hs : hasCode s sym.toNat c) : hasCode t sym.toNat c := by
  have hsym := sym.isLt
  obtain ⟨hne, hlt, hlen, val, hval, hbits⟩ := hs
  refine ⟨hne, hlt, (h _ ?_).trans hlen, val, fun i hi => (h _ ?_).trans (hval i hi), hbits⟩
  · unfold codeLenAddr
    omega
  · unfold codeValAddr
    omega

/-- PACK.S, where it succeeds, appends the size field and the codes of the input, padded to whole bytes. -/
theorem Source.exec_pack {p : Params} {code : Byte → Bits} (h : Source p B s) (hp : p.legal = true)
    (hB : B.length ≤ p.inSize) (hcode : ∀ b ∈ B, hasCode s b.toNat (code b)) (he : exec (.pack true) s = .next t)
    (ht : t.errCode = 0) :
    ∃ payload : List Byte, payload.length = ((B.flatMap code).length + 7) / 8 ∧
      (∃ pad, payloadBits payload = B.flatMap code ++ pad) ∧
      t.dstPtr.toNat = s.dstPtr.toNat + (4 + payload.length) ∧
      outHolds t s.dstPtr.toNat (sizeBytes true B.length ++ payload) ∧
      ∀ a, a < outAddr s.dstPtr.toNat → t.mem.read a = s.mem.read a := by
  obtain rfl := h.params
  have hend : s.srcEnd.toNat ≤ s.params.inSize := h.srcEnd ▸ hB
  have hsrc : s.srcPtr.toNat = 0 := congrArg BitVec.toNat h.srcPtr
  have hrange : s.srcPtr.toNat + B.length = s.srcEnd.toNat := by rw [hsrc, h.srcEnd, Nat.zero_add]
  have hin : inHolds s s.srcPtr.toNat B := hsrc.symm ▸ h.input
  by_cases hroom : s.dstPtr.toNat + (4 + ((B.flatMap code).length + 7) / 8) ≤ s.params.outSize
  · obtain ⟨t', he', heq, ⟨payload, hlen, hbits, hout⟩, hframe⟩ :=
      packWritesTheCodesInOrder s true B code hp hend hrange hin hcode hroom
    obtain rfl := Host.Outcome.next.inj (he.symm.trans he')
    refine ⟨payload, hlen, ⟨_, hbits⟩, ?_, sizeBytes_eq true B.length ▸ hout, fun a ha => hframe a (.inl ha)⟩
    have hout := (legal_bounds hp).2.2
    have hptr := congrArg (fun t => t.dstPtr.toNat) heq
    rw [if_pos rfl, ← hlen, BitVec.toNat_ofNat, Nat.mod_eq_of_lt (by omega)] at hptr
    exact hptr
  · obtain ⟨t', he', heq, -⟩ := packWithoutRoomFails s true B code hend hrange hin hcode (by rw [if_pos rfl]; omega)
    obtain rfl := Host.Outcome.next.inj (he.symm.trans he')
    exact absurd ((congrArg State.errCode heq).symm.trans ht) (ErrKind.code_ne_zero .bufferOverflow)

end Sys2Proof.Proofs
end

section
/-! The decompressing half of the round trip (R228), and the two halves put together. -/

namespace Sys2Proof.Proofs

open Sys2Proof.Machine Sys2Proof.Safety

variable {s t u : State} {B : List Byte} {T : HTree}

/-! ### The tree DESER reads back -/

/-- The tree whose header SER writes: the tree itself, or, for a leaf root, the two leaves of R168's five bytes. -/
def sentTree : HTree → HTree
  | .leaf sym => .node (.leaf sym) (.leaf (sym + 1))
  | .node l r => .node l r

theorem serBytes_eq_sentTree_header (T : HTree) : serBytes T = (sentTree T).header := by cases T <;> rfl

theorem sentTree_internals (T : HTree) (hK : T.internals < 256) :
    1 ≤ (sentTree T).internals ∧ (sentTree T).internals ≤ 255 := by
  cases T with
  | leaf sym => exact ⟨Nat.le_refl 1, Nat.le_add_left 1 254⟩
  | node l r => exact ⟨Nat.le_add_left 1 _, Nat.le_of_lt_succ hK⟩

/-- The code "0" of a leaf root is the path of the first of the two leaves (R228, degenerate case). -/
theorem mem_sentTree_paths {e : Byte × Bits} (he : e ∈ recordedCodes T) : e ∈ (sentTree T).paths [] := by
  cases T with
  | leaf sym => exact List.mem_cons.2 (.inl (List.mem_singleton.1 he))
  | node l r => exact he

/-! ### DESER and UNPACK.S on the output of COMPRESS -/

theorem inHolds_of_mem_eq {a : Nat} {bytes : List Byte} (h : t.mem = s.mem) (hs : inHolds s a bytes) :
    inHolds t a bytes := by
  unfold inHolds at *
  rwa [h]

/-- OUT holds one sequence of bytes of a length. -/
theorem eq_of_outHolds {a : Nat} {xs ys : List Byte} (hl : xs.length = ys.length) (hx : outHolds s a xs)
    (hy : outHolds s a ys) : xs = ys :=
  List.ext_getElem hl fun i hi hi' => Option.some.inj ((hx i hi).symm.trans (hy i hi'))

theorem outHolds_append {a : Nat} {xs ys : List Byte} (hx : outHolds s a xs) (hy : outHolds s (a + xs.length) ys) :
    outHolds s a (xs ++ ys) := by
  intro i hi
  rw [List.length_append] at hi
  by_cases hlt : i < xs.length
  · rw [List.getElem_append_left hlt]
    exact hx i hlt
  · have hread := hy (i - xs.length) (by omega)
    rw [List.getElem_append_right (by omega), ← hread]
    congr 2
    omega

/-- A payload that is the codes of leaves of T and less than a byte after them (R212), for a T that has a header. -/
structure Payload (T : HTree) (leaves : List (Byte × Bits)) (payload : List Byte) : Prop where
  internals : 1 ≤ T.internals ∧ T.internals ≤ 255
  mem_paths : ∀ e ∈ leaves, e ∈ T.paths []
  bits : ∃ pad, payloadBits payload = leaves.flatMap Prod.snd ++ pad
  length : payload.length = ((leaves.flatMap Prod.snd).length + 7) / 8

/-- The file format (R170, R212): the header of T, the number of symbols, and the payload. -/
def compressedFile (T : HTree) (count : Nat) (payload : List Byte) : List Byte :=
  T.header ++ (sizeBytes true count ++ payload)

theorem compressedFile_length (T : HTree) (count : Nat) (payload : List Byte) :
    (compressedFile T count payload).length = 1 + 4 * T.internals + 4 + payload.length := by
  rw [compressedFile, List.length_append, List.length_append, header_length, sizeBytes_length, if_pos rfl,
    ← Nat.add_assoc]

theorem inHolds_compressedFile {count : Nat} {payload : List Byte} (h : inHolds s 0 (compressedFile T count payload)) :
    inHolds s 0 T.header ∧ inHolds s (1 + 4 * T.internals) (sizeBytes true count) ∧
      inHolds s (1 + 4 * T.internals + 4) payload := by
  obtain ⟨hheader, hrest⟩ := inHolds_append h
  obtain ⟨hsize, hpayload⟩ := inHolds_append hrest
  rw [header_length, Nat.zero_add] at hsize hpayload
  exact ⟨hheader, hsize, hpayload⟩

section

variable {p : Params} {leaves : List (Byte × Bits)} {payload : List Byte}

/-- DESER on a file, with the cursors DECOMPRESS sets (R96): the tree, and the rest of the file as UNPACK.S takes it. -/
theorem exec_deser_file (hpay : Payload T leaves payload)
    (hu : Source p (compressedFile T leaves.length payload) u) (hfit : u.srcEnd.toNat ≤ p.inSize)
    (hcount : leaves.length < 2 ^ 32) (postorder : Bool) :
    answers (exec (.deser postorder) u) fun t =>
      t.params = p ∧ t.errCode = u.errCode ∧ t.dstPtr = u.dstPtr ∧ t.srcEnd = u.srcEnd ∧ t.mem = u.mem ∧
        t.treeValid = true ∧ treeOf t = some T ∧ t.srcPtr.toNat ≤ t.srcEnd.toNat ∧
        countIs t true leaves.length (1 + 4 * T.internals + 4) := by
  obtain ⟨hK, hK'⟩ := hpay.internals
  have hend := hu.srcEnd
  rw [compressedFile_length] at hend
  obtain ⟨hheader, hsize, -⟩ := inHolds_compressedFile hu.input
  have hsrc : u.srcPtr.toNat = 0 := congrArg BitVec.toNat hu.srcPtr
  obtain ⟨t, hexec, heq, hT, -, -⟩ := deserRebuildsTheSerializedTree u T postorder hK hK' (hu.params ▸ hfit)
    (by rw [hsrc]; omega) (by rwa [hsrc])
  have hmem : t.mem = u.mem := (congrArg State.mem heq :)
  have hsrcEnd : t.srcEnd = u.srcEnd := (congrArg State.srcEnd heq :)
  have hptr : t.srcPtr.toNat = 1 + 4 * T.internals := by
    have hptr := congrArg (fun t => t.srcPtr.toNat) heq
    rwa [hsrc, Nat.zero_add, BitVec.toNat_ofNat, Nat.mod_eq_of_lt (by omega)] at hptr
  have hfield := inHolds_of_mem_eq hmem hsize
  rw [sizeBytes_eq, if_pos rfl] at hfield
  refine ⟨t, hexec, (congrArg State.params heq :).trans hu.params, (congrArg State.errCode heq :),
    (congrArg State.dstPtr heq :), hsrcEnd, hmem, (congrArg State.treeValid heq :), hT, by rw [hsrcEnd]; omega, ?_⟩
  exact ⟨by rw [hptr], by rw [hsrcEnd]; omega, hcount, hptr.symm ▸ hfield⟩

/-- DESER and UNPACK.S on a file give the symbols of its leaves. -/
theorem exec_decompress (hpay : Payload T leaves payload) (hu : Source p (compressedFile T leaves.length payload) u)
    (hp : p.legal = true) (hfit : u.srcEnd.toNat ≤ p.inSize) (hdst : u.dstPtr = 0) (hroom : leaves.length ≤ p.outSize)
    (postorder : Bool) :
    answers (exec (.deser postorder) u) fun u₁ =>
      u₁.errCode = u.errCode ∧ answers (exec (.unpack true) u₁) fun u₂ =>
        u₂.errCode = u.errCode ∧ u₂.dstPtr.toNat = leaves.length ∧ outHolds u₂ 0 (leaves.map Prod.fst) ∧
          u₂.srcPtr = u.srcEnd := by
  obtain ⟨-, -, hout⟩ := legal_bounds hp
  have hend := hu.srcEnd
  rw [compressedFile_length] at hend
  obtain ⟨u₁, hdeser, rfl, herr, hdst₁, hend₁, hmem, hvalid, hT, hptr, hcount⟩ :=
    exec_deser_file hpay hu hfit (by omega) postorder
  have hdst0 : u₁.dstPtr.toNat = 0 := congrArg BitVec.toNat (hdst₁.trans hdst)
  obtain ⟨pad, hbits⟩ := hpay.bits
  obtain ⟨u₂, hunpack, heq, hsyms, -⟩ := unpackDecodesThePaths u₁ true T _ payload leaves pad hp hvalid hT
    hpay.internals.1 (hend₁ ▸ hfit) hptr hcount (by rw [hend₁]; omega)
    (inHolds_of_mem_eq hmem (inHolds_compressedFile hu.input).2.2) hpay.mem_paths hbits (by omega)
  refine ⟨u₁, hdeser, herr, u₂, hunpack, (congrArg State.errCode heq :).trans herr, ?_, hdst0 ▸ hsyms, ?_⟩
  · have hptr := congrArg (fun t => t.dstPtr.toNat) heq
    rwa [hdst0, Nat.zero_add, BitVec.toNat_ofNat, Nat.mod_eq_of_lt (by omega)] at hptr
  · refine (congrArg State.srcPtr heq :).trans ?_
    rw [← hpay.length, ← BitVec.toNat_inj, BitVec.toNat_ofNat, hend, Nat.mod_eq_of_lt (by omega)]

end

/-! ### FREQ.CNT, BUILD, CODEGEN, SER and PACK.S -/

/-- The bytes of B, each with its code. -/
def encoded (code : Byte → Bits) (B : List Byte) : List (Byte × Bits) := B.map fun b => (b, code b)

theorem encoded_symbols (code : Byte → Bits) (B : List Byte) : (encoded code B).map Prod.fst = B := by
  simp [encoded, Function.comp_def]

theorem encoded_bits (code : Byte → Bits) (B : List Byte) : (encoded code B).flatMap Prod.snd = B.flatMap code :=
  List.flatMap_map ..

theorem encoded_length (code : Byte → Bits) (B : List Byte) : (encoded code B).length = B.length := List.length_map _

section

variable {s₀ s₁ s₂ s₃ s₄ s₅ : State} {p : Params} (hp : p.legal = true) (hfit : B.length ≤ p.inSize)
include hp hfit

/-- COMPRESS up to CODEGEN (R95): a tree with a leaf for every byte of B, and the code of one of its leaves for each. -/
theorem compress_codes (hB : B ≠ []) (h₀ : Source p B s₀) (h₁ : exec .freqCnt s₀ = .next s₁)
    (h₂ : exec .build s₁ = .next s₂) (h₃ : exec .codegen s₂ = .next s₃) :
    ∃ T code, TreeFor B T s₃ ∧ Coded T B code s₃ := by
  obtain ⟨⟨-, hin⟩, -, -⟩ := legal_bounds hp
  obtain rfl := h₀.params
  have hsrc : s₀.srcPtr.toNat = 0 := congrArg BitVec.toNat h₀.srcPtr
  obtain ⟨s₁', h₁', -, hfreq, -⟩ := freqCntCountsTheInput s₀ B hp (h₀.srcEnd ▸ hfit)
    (by rw [hsrc, h₀.srcEnd, Nat.zero_add]) (hsrc.symm ▸ h₀.input)
  obtain rfl := Host.Outcome.next.inj (h₁.symm.trans h₁')
  obtain ⟨T, htree⟩ := exists_treeFor_of_build (by omega) hB hfreq h₂
  obtain ⟨htree, code, hcode⟩ := htree.codegen h₃
  exact ⟨T, code, htree, hcode⟩

/-- SER and PACK.S, where they succeed after CODEGEN, leave at the start of OUT a file whose leaves have the symbols
of B. -/
theorem compress_output {code : Byte → Bits} (h₃ : Source p B s₃) (hdst : s₃.dstPtr = 0) (htree : TreeFor B T s₃)
    (hcode : Coded T B code s₃) (h₄ : exec .ser s₃ = .next s₄) (h₅ : exec (.pack true) s₄ = .next s₅)
    (he₄ : s₄.errCode = 0) (he₅ : s₅.errCode = 0) :
    ∃ T leaves payload, Payload T leaves payload ∧ leaves.map Prod.fst = B ∧
      s₅.dstPtr.toNat = (compressedFile T leaves.length payload).length ∧
      outHolds s₅ 0 (compressedFile T leaves.length payload) := by
  obtain ⟨⟨-, hin⟩, -, hout⟩ := legal_bounds hp
  obtain ⟨hroom, hdst₄, hheader, hread₄⟩ := htree.ser hdst h₄ he₄
  have source₄ := h₃.of_exec (hfit.trans hin) (by simp) h₄
  obtain ⟨payload, hlen, ⟨pad, hbits⟩, hdst₅, hrest, hread₅⟩ :=
    source₄.exec_pack hp hfit (fun b hb => hasCode_of_read hread₄ (hcode b hb).2) h₅ he₅
  rw [h₃.params] at hroom
  have hsize : s₄.dstPtr.toNat = (serBytes T).length := by rw [hdst₄, BitVec.toNat_ofNat, Nat.mod_eq_of_lt (by omega)]
  have hheader₅ : outHolds s₅ 0 (serBytes T) := fun i hi =>
    (hread₅ _ (by unfold outAddr; omega)).trans (hheader i hi)
  refine ⟨sentTree T, encoded code B, payload, ⟨sentTree_internals T ?_, fun e he => ?_, ?_, ?_⟩,
    encoded_symbols code B, ?_, ?_⟩
  · exact htree.inv.internals_lt htree.valid htree.tree
  · obtain ⟨b, hb, rfl⟩ := List.mem_map.1 he
    exact mem_sentTree_paths (hcode b hb).1
  · exact ⟨pad, (encoded_bits code B).symm ▸ hbits⟩
  · rw [encoded_bits, hlen]
  · rw [compressedFile_length, hdst₅, hsize, serBytes_eq_sentTree_header, header_length]
    omega
  · rw [compressedFile, ← serBytes_eq_sentTree_header, encoded_length]
    exact outHolds_append hheader₅ (by rwa [Nat.zero_add, ← hsize])

end

end Sys2Proof.Proofs

open Sys2Proof Sys2Proof.Machine Sys2Proof.Safety Sys2Proof.Proofs

/-- Settles O60: COMPRESS leaves a file of the buffer's symbols, and DECOMPRESS gives back the symbols of a file. -/
theorem decompressOfCompressIsTheInput : Obligations.DecompressOfCompressIsTheInput := by
  intro s₀ s₁ s₂ s₃ s₄ s₅ u₀ B file postorder hp hB hfit hroom _ hsrc hend hdst hin h₁ h₂ h₃ h₄ h₅ _ _ _ he₄ he₅
    hlen hfile hfileFit hparams herr husrc huend hudst huin
  have hin₀ : B.length ≤ 0x100000 := hfit.trans (legal_bounds hp).1.2
  have source₀ : Source s₀.params B s₀ := ⟨rfl, hsrc, hend, hin⟩
  have source₃ := ((source₀.of_exec hin₀ (by simp) h₁).of_exec hin₀ (by simp) h₂).of_exec hin₀ (by simp) h₃
  have hdst₃ : s₃.dstPtr = 0 := by
    rw [dstPtr_of_exec (by simp) h₃, dstPtr_of_exec (by simp) h₂, dstPtr_of_exec (by simp) h₁, hdst]
  obtain ⟨T, code, htree, hcode⟩ := compress_codes hp hfit hB source₀ h₁ h₂ h₃
  obtain ⟨T, leaves, payload, hpay, rfl, hlen₅, hout₅⟩ :=
    compress_output hp hfit source₃ hdst₃ htree hcode h₄ h₅ he₄ he₅
  obtain rfl := eq_of_outHolds (hlen.trans hlen₅) hfile hout₅
  rw [List.length_map] at hroom ⊢
  obtain ⟨u₁, hdeser, he₁, u₂, hunpack, he₂, hdst₂, hsyms, hsrc₂⟩ :=
    exec_decompress hpay ⟨hparams, husrc, huend, huin⟩ hp (huend ▸ hfileFit) hudst hroom postorder
  exact ⟨u₁, hdeser, he₁.trans herr, u₂, hunpack, he₂.trans herr, hdst₂, hsyms, hsrc₂ ▸ huend⟩
end
